-- ==== Sys2Proof/Word.lean ====
section
/-!
DEFINITION. The word types of EPDSEQ. Registers, CMD words and host addresses in registers are 32 bits (10_state.md R22,
00_scope.md R8 `ADDR_W`), bus and memory data are 8 bits (30_encoding.md R109). Every number is unsigned (00_scope.md R10);
arithmetic on named quantities is done on `Nat`, as that rule says.
-/

namespace Sys2Proof

/-- A register, a CMD word or a host address held in a register. -/
abbrev Word := BitVec 32

/-- A byte of host memory or of the bus. -/
abbrev Byte := BitVec 8

/-- The levels on up to 64 pads, bit `p` for pad `p`; `PAD_COUNT` is at most 63 (00_scope.md R8). -/
abbrev Levels := BitVec 64

end Sys2Proof
end

