-- ==== Sys2Proof/Config.lean ====
section
/-!
DEFINITION. What a builder of the block fixes (00_scope.md R8) and what stays open.

Every constant below has no body: nothing in Lean can evaluate it, so no statement can rest on its value. The build
parameters are held in State as one record that no step changes, because the spec says that a model takes each one as an
argument (log 2). The free values answer for the outside world in the cycles its script does not cover (log 3, log 4).
-/

namespace Sys2Proof

/-- The build parameters of one block (00_scope.md R8). They are read through the functions of Machine/Operands.lean,
which keep them inside the ranges R8 gives. -/
structure Build where
  /-- `CLK_PER_MS`, an integer of at least 1. -/
  clkPerMs : Nat
  /-- `RESET_LOW_MS`, an integer of at least 200. -/
  resetLowMs : Nat
  /-- `RESET_HIGH_MS`, an integer of at least 200. -/
  resetHighMs : Nat
  /-- `POLL_MS`, an integer of at least 1. -/
  pollMs : Nat
  /-- `PAD_COUNT`, an integer from 7 to 63. -/
  padCount : Nat
deriving DecidableEq, Repr

/-- OPEN (92_eei_decisions.md D18). -/
opaque Config.clkPerMs : Nat
/-- Any builder's choice (D19). -/
opaque Config.resetLowMs : Nat
/-- Any builder's choice (D19). -/
opaque Config.resetHighMs : Nat
/-- Any builder's choice (D20). -/
opaque Config.pollMs : Nat
/-- OPEN (D31). -/
opaque Config.padCount : Nat

/-- The parameters of the block that `State.reset` describes: some legal build, nobody knows which. -/
def Config.build : Build :=
  { clkPerMs := Config.clkPerMs, resetLowMs := Config.resetLowMs, resetHighMs := Config.resetHighMs,
    pollMs := Config.pollMs, padCount := Config.padCount }

/-- The levels on the pads in a cycle past the script's end, BUSY's among them (93_implementation_defined.md, 10 and 11). -/
opaque Config.freePads : Nat → Levels
/-- The `bus_fault` level in a cycle past the script's end (93_implementation_defined.md, 9). -/
opaque Config.freeBusFault : Nat → Bool
/-- The latency of a read issued in a cycle past the script's end (93_implementation_defined.md, 8). -/
opaque Config.freeReadLatency : Nat → Nat
/-- Whether that read faults (93_implementation_defined.md, 7). -/
opaque Config.freeReadFault : Nat → Bool
/-- The byte that read gets from an address the host never wrote (20_memory.md R74). -/
opaque Config.freeReadByte : Nat → Byte
/-- Which of the values of a raced byte that read gets (93_implementation_defined.md, 6). -/
opaque Config.freeReadPick : Nat → Nat

end Sys2Proof
end

