-- ==== Sys2Proof/Syntax.lean ====
section
/-!
DEFINITION. The syntax of EPDSEQ: the nine operations (30_encoding.md R106), the records of a sequence table (R110), the
host registers (10_state.md R22), and the host's programs (R118 to R120).
-/

namespace Sys2Proof

/-- One constructor per row of spec/opcode_table.json. The operand is the ARG byte of R101; the seven operations without
an operand have none (R104). -/
inductive Instr where
  /-- INIT, 41_panel_sequencer.md R171. -/
  | init
  /-- SEND_CMD, 40_bus_transport.md R145. -/
  | sendCmd (arg : Byte)
  /-- SEND_DATA, 40_bus_transport.md R146. -/
  | sendData (arg : Byte)
  /-- RESET, 41_panel_sequencer.md R174. -/
  | reset
  /-- WAIT_IDLE, 41_panel_sequencer.md R176. -/
  | waitIdle
  /-- POWER_ON, 41_panel_sequencer.md R182. -/
  | powerOn
  /-- INIT_REGS, 41_panel_sequencer.md R183. -/
  | initRegs
  /-- POWER_OFF, 41_panel_sequencer.md R184. -/
  | powerOff
  /-- FLUSH, 42_flush_engine.md R221. -/
  | flush
deriving DecidableEq, Repr

/-- The kind of a bus transaction (00_scope.md R12, 30_encoding.md R115). -/
inductive Kind where
  /-- `C`: command, DC low. -/
  | command
  /-- `D`: data, DC high. -/
  | data
deriving DecidableEq, Repr

/-- One record of a sequence table (30_encoding.md R110). LEN is the number of data bytes. -/
structure Record where
  cmd : Byte
  ctl : Byte
  data : List Byte
deriving DecidableEq, Repr

/-- The host registers (10_state.md R22). -/
inductive Reg where
  | ctrl | status | cmd | err | irq | cfgSize | cfgBus | pinmux0 | pinmux1 | panelOpc | fbBase | fbSize
  | regionX | regionY | ponBase | ponLen | initBase | initLen | poffBase | poffLen | busyTimeout
deriving DecidableEq, Repr

/-- A statement a host program is made of (30_encoding.md R119). -/
inductive HostStmt where
  /-- `W <REG>, <value>`. -/
  | write (r : Reg) (v : Word)
  /-- `R <REG>`. -/
  | read (r : Reg)
  /-- `SYNC`: repeat `R STATUS` until `STATUS.ACTIVE = 0`. -/
  | sync
deriving DecidableEq, Repr

/-- What the host asks of the register window in one cycle. R71 permits only some of these: `size` is in bytes and `off`
is the byte offset. -/
inductive Access where
  | read (size off : Nat)
  | write (size off : Nat) (v : Word)
deriving DecidableEq, Repr

/-- What the host does in one cycle (20_memory.md R72: at most one register access). -/
inductive HostTurn where
  /-- No register access. -/
  | idle
  /-- The next access of the host program in State, if one is left. -/
  | program
  /-- This access. -/
  | access (a : Access)
deriving DecidableEq, Repr

/-- How the host memory answers a read that the block issues in this cycle (20_memory.md R74). -/
structure ReadDraw where
  /-- Cycles the read takes; 0 counts as 1 (40_bus_transport.md R144: "at least 1"). -/
  latency : Nat
  /-- The answer is `fault`. -/
  fault : Bool
  /-- The byte answered where the host never wrote. -/
  byte : Byte
  /-- Which of a raced byte's values is answered (20_memory.md R87). -/
  pick : Nat
deriving DecidableEq, Repr

/-- Everything the outside world does in one block clock cycle. -/
structure CycleIn where
  /-- The block reset input (70_reset_and_hazards.md R290). -/
  blkRst : Bool
  host : HostTurn
  /-- Bytes the host writes to its memory, in this order. -/
  memWrites : List (Word × Byte)
  /-- The level on each pad. -/
  pads : Levels
  /-- The bus-fault input (40_bus_transport.md R143). -/
  busFault : Bool
  draw : ReadDraw
deriving DecidableEq, Repr

end Sys2Proof
end

