-- ==== Sys2Proof/WellFormed.lean ====
section
/-!
DEFINITION. Which terms of the syntax are well formed.

An `Instr` is well formed as it stands: its one operand is a byte by type, and R109 lets every byte be an operand. What a
type does not say is checked here: a record's reserved control bits and the length its LEN byte can hold (30_encoding.md
R110, R111), the accesses 20_memory.md R71 permits, and the ranges of the build parameters (00_scope.md R8).
-/

namespace Sys2Proof

/-- Every operation with every operand is well formed (30_encoding.md R106, R109). -/
def Instr.wf : Instr → Bool
  | .init => true
  | .sendCmd _ => true
  | .sendData _ => true
  | .reset => true
  | .waitIdle => true
  | .powerOn => true
  | .initRegs => true
  | .powerOff => true
  | .flush => true

/-- `CTL[7:1]` is 0 (R111) and the data bytes can be counted in one byte (R110). -/
def Record.wf (r : Record) : Bool :=
  r.ctl.extractLsb' 1 7 == 0 && r.data.length ≤ 255

/-- A 32-bit access at an aligned offset inside the window (20_memory.md R71). -/
def Access.wf : Access → Bool
  | .read size off => size == 4 && off % 4 == 0 && off < 0x100
  | .write size off _ => size == 4 && off % 4 == 0 && off < 0x100

/-- The ranges of 00_scope.md R8. -/
def Build.wf (b : Build) : Bool :=
  1 ≤ b.clkPerMs && 200 ≤ b.resetLowMs && 200 ≤ b.resetHighMs && 1 ≤ b.pollMs && 7 ≤ b.padCount && b.padCount ≤ 63

end Sys2Proof
end

