-- ==== Sys2Proof/Decode.lean ====
section
/-!
DEFINITION. The decoders and encoders: the CMD word (30_encoding.md R101 to R107), the sequence record (R110 to R113), and
the register offsets (10_state.md R22). The host's pseudo-instructions (R119) and the text forms (R118 to R120) are expanded
here.
-/

namespace Sys2Proof

/-! ## Fields of a 32-bit word -/

/-- A word whose bits from `lo` up are `v`, and whose other bits are 0. -/
def place {n : Nat} (lo : Nat) (v : BitVec n) : Word := v.setWidth 32 <<< lo

/-! ## The CMD word -/

/-- OP, `w[7:0]` (R101). -/
def cmdOp (w : Word) : Byte := w.extractLsb' 0 8

/-- ARG, `w[15:8]` (R101, R102). -/
def cmdArg (w : Word) : Byte := w.extractLsb' 8 8

/-- RSVD, `w[31:16]` (R101). -/
def cmdRsvd (w : Word) : BitVec 16 := w.extractLsb' 16 16

/-- An operation without an operand: legal only with ARG = 0 (R104). -/
def withoutOperand (w : Word) (i : Instr) : Option Instr :=
  if cmdArg w = 0 then some i else none

/-- `Decode(w)`: one of the nine operations, or `none` for `illegal` (R103 to R107). It reads only the word (R105, R108). -/
def decodeWord (w : Word) : Option Instr :=
  if cmdRsvd w ≠ 0 then none
  else
    match (cmdOp w).toNat with
    | 1 => withoutOperand w .init
    | 2 => some (.sendCmd (cmdArg w))
    | 3 => some (.sendData (cmdArg w))
    | 4 => withoutOperand w .reset
    | 5 => withoutOperand w .waitIdle
    | 6 => withoutOperand w .powerOn
    | 7 => withoutOperand w .initRegs
    | 8 => withoutOperand w .powerOff
    | 9 => withoutOperand w .flush
    | _ => none

/-- The opcode map (R106). -/
def Instr.opcode : Instr → Byte
  | .init => 0x01
  | .sendCmd _ => 0x02
  | .sendData _ => 0x03
  | .reset => 0x04
  | .waitIdle => 0x05
  | .powerOn => 0x06
  | .initRegs => 0x07
  | .powerOff => 0x08
  | .flush => 0x09

/-- The ARG byte of an operation: 0 where it has no operand (R104). -/
def Instr.arg : Instr → Byte
  | .init => 0
  | .sendCmd b => b
  | .sendData b => b
  | .reset => 0
  | .waitIdle => 0
  | .powerOn => 0
  | .initRegs => 0
  | .powerOff => 0
  | .flush => 0

/-- The CMD word of an operation: OP in bits 7:0, ARG in bits 15:8, RSVD = 0 (R101, R106). -/
def encode (i : Instr) : Word := place 0 i.opcode ||| place 8 i.arg

/-- The instruction read from an opcode-table word. The table's bits are the bits of the CMD register (R101), which the
host writes whole, so no byte order comes in (20_memory.md R76). No operation is longer than one word (R101). -/
def decodeTableWord (nbits w : Nat) : Option Instr :=
  if nbits ≤ 32 then decodeWord (BitVec.ofNat 32 (w % 2 ^ nbits)) else none

/-! ## The sequence record -/

/-- `CTL[7:1]`, reserved (R111, R112). -/
def ctlReserved (ctl : Byte) : BitVec 7 := ctl.extractLsb' 1 7

/-- `CTL[0] = WAIT` (R111). -/
def ctlWait (ctl : Byte) : Bool := ctl.getLsbD 0

/-- The bytes of a record: CMD, CTL, LEN, then the data (R110). -/
def Record.encode (r : Record) : List Byte :=
  r.cmd :: r.ctl :: BitVec.ofNat 8 r.data.length :: r.data

/-- The bytes of a table: its records laid end to end (R110). -/
def encodeTable (rs : List Record) : List Byte := rs.flatMap Record.encode

/-- The records of a table's bytes, or `none` where a header or a record's data runs past the end (R113, R114). Reserved
control bits are not looked at here. `fuel` bounds the number of records. -/
def parseRecords : (fuel : Nat) → List Byte → Option (List Record)
  | _, [] => some []
  | fuel + 1, cmd :: ctl :: len :: rest =>
    if len.toNat ≤ rest.length then
      (parseRecords fuel (rest.drop len.toNat)).map (⟨cmd, ctl, rest.take len.toNat⟩ :: ·)
    else none
  | _, _ => none

/-- The records of a table; each takes at least three bytes (R113), so the table's length bounds their number. -/
def parseTable (bytes : List Byte) : Option (List Record) := parseRecords bytes.length bytes

/-- `.rec <cmd>, [<data>]` or, with `wait`, `.rec <cmd>, [<data>], wait` (R120). -/
def assembleRec (cmd : Byte) (data : List Byte) (wait : Bool) : Record :=
  { cmd := cmd, ctl := if wait then 0x01 else 0x00, data := data }

/-! ## The register window -/

/-- The byte offset of a register (10_state.md R22). -/
def Reg.offset : Reg → Nat
  | .ctrl => 0x00
  | .status => 0x04
  | .cmd => 0x08
  | .err => 0x0C
  | .irq => 0x10
  | .cfgSize => 0x14
  | .cfgBus => 0x18
  | .pinmux0 => 0x1C
  | .pinmux1 => 0x20
  | .panelOpc => 0x24
  | .fbBase => 0x28
  | .fbSize => 0x2C
  | .regionX => 0x30
  | .regionY => 0x34
  | .ponBase => 0x38
  | .ponLen => 0x3C
  | .initBase => 0x40
  | .initLen => 0x44
  | .poffBase => 0x48
  | .poffLen => 0x4C
  | .busyTimeout => 0x50

/-- The register at an offset; `none` for the reserved offsets 0x54 to 0xFC (10_state.md R43). -/
def Reg.ofOffset : Nat → Option Reg
  | 0x00 => some .ctrl
  | 0x04 => some .status
  | 0x08 => some .cmd
  | 0x0C => some .err
  | 0x10 => some .irq
  | 0x14 => some .cfgSize
  | 0x18 => some .cfgBus
  | 0x1C => some .pinmux0
  | 0x20 => some .pinmux1
  | 0x24 => some .panelOpc
  | 0x28 => some .fbBase
  | 0x2C => some .fbSize
  | 0x30 => some .regionX
  | 0x34 => some .regionY
  | 0x38 => some .ponBase
  | 0x3C => some .ponLen
  | 0x40 => some .initBase
  | 0x44 => some .initLen
  | 0x48 => some .poffBase
  | 0x4C => some .poffLen
  | 0x50 => some .busyTimeout
  | _ => none

/-! ## The host's pseudo-instructions (R119) -/

/-- `OP <operation>`: a write of the operation's word to CMD. -/
def hostOp (i : Instr) : List HostStmt := [.write .cmd (encode i)]

/-- `OP <operation>` and the wait for its finish. -/
def hostRunOp (i : Instr) : List HostStmt := hostOp i ++ [.sync]

/-- `SEND <c>, <d0>, …, <dn>`. -/
def hostSend (c : Byte) (ds : List Byte) : List HostStmt :=
  hostRunOp (.sendCmd c) ++ ds.flatMap fun d => hostRunOp (.sendData d)

/-- `BRINGUP` (70_reset_and_hazards.md R293, steps 3 to 5). -/
def hostBringup : List HostStmt :=
  hostRunOp .init ++ hostRunOp .reset ++ hostRunOp .powerOn ++ hostRunOp .initRegs

/-! ## Text (R118 to R120)

A line is a list of characters. Blanks separate words; a comma and a bracket are words of their own; the rest of a line from
a semicolon on is a comment, as the programs of 95_test_vectors.md write it (log 19). -/

/-- The words of a line; `cur` is the word being read, last character first. -/
def lexLine (cur : List Char) : List Char → List (List Char)
  | [] => if cur = [] then [] else [cur.reverse]
  | c :: cs =>
    let done := if cur = [] then [] else [cur.reverse]
    if c = ';' then done
    else if c = ' ' then done ++ lexLine [] cs
    else if c = ',' ∨ c = '[' ∨ c = ']' then done ++ [c] :: lexLine [] cs
    else lexLine (c :: cur) cs

/-- A digit of a base up to 16. -/
def readDigit (base : Nat) (c : Char) : Option Nat :=
  let v :=
    if '0' ≤ c ∧ c ≤ '9' then c.toNat - 48
    else if 'A' ≤ c ∧ c ≤ 'F' then c.toNat - 55
    else if 'a' ≤ c ∧ c ≤ 'f' then c.toNat - 87
    else base
  if v < base then some v else none

/-- The digits of a number; `_` groups digits (00_scope.md R10). -/
def readDigits (base : Nat) (acc : Nat) : List Char → Option Nat
  | [] => some acc
  | '_' :: cs => readDigits base acc cs
  | c :: cs => (readDigit base c).bind fun d => readDigits base (base * acc + d) cs

/-- A number in hex (`0x12`) or decimal (R118). -/
def readNumber : List Char → Option Nat
  | '0' :: 'x' :: c :: cs => if c = '_' then none else readDigits 16 0 (c :: cs)
  | c :: cs => if c = '_' then none else readDigits 10 0 (c :: cs)
  | [] => none

/-- A number that fits in `n` bits. -/
def readBits (n : Nat) (w : List Char) : Option (BitVec n) :=
  (readNumber w).bind fun v => if v < 2 ^ n then some (BitVec.ofNat n v) else none

/-- Bytes with commas between them, at least one. -/
def readBytes : List (List Char) → Option (List Byte)
  | [w] => (readBits 8 w).map ([·])
  | w :: [','] :: ws => (readBits 8 w).bind fun b => (readBytes ws).map (b :: ·)
  | _ => none

/-- The mnemonic of an operation (R118). -/
def Instr.mnemonic : Instr → String
  | .init => "INIT"
  | .sendCmd _ => "SEND_CMD"
  | .sendData _ => "SEND_DATA"
  | .reset => "RESET"
  | .waitIdle => "WAIT_IDLE"
  | .powerOn => "POWER_ON"
  | .initRegs => "INIT_REGS"
  | .powerOff => "POWER_OFF"
  | .flush => "FLUSH"

/-- An operation's line: its mnemonic, with a byte for SEND_CMD and SEND_DATA (R118). -/
def readOperation : List (List Char) → Option Instr
  | [m] => [Instr.init, .reset, .waitIdle, .powerOn, .initRegs, .powerOff, .flush].find? (·.mnemonic.toList == m)
  | [m, b] =>
    (readBits 8 b).bind fun v => [Instr.sendCmd v, .sendData v].find? (·.mnemonic.toList == m)
  | _ => none

/-- The CMD word a line of text assembles to (R118). -/
def assembleOperation (line : List Char) : Option Word := (readOperation (lexLine [] line)).map encode

/-- The name of a register (10_state.md R22). -/
def Reg.name : Reg → String
  | .ctrl => "CTRL"
  | .status => "STATUS"
  | .cmd => "CMD"
  | .err => "ERR"
  | .irq => "IRQ"
  | .cfgSize => "CFG_SIZE"
  | .cfgBus => "CFG_BUS"
  | .pinmux0 => "PINMUX0"
  | .pinmux1 => "PINMUX1"
  | .panelOpc => "PANEL_OPC"
  | .fbBase => "FB_BASE"
  | .fbSize => "FB_SIZE"
  | .regionX => "REGION_X"
  | .regionY => "REGION_Y"
  | .ponBase => "PON_BASE"
  | .ponLen => "PON_LEN"
  | .initBase => "INIT_BASE"
  | .initLen => "INIT_LEN"
  | .poffBase => "POFF_BASE"
  | .poffLen => "POFF_LEN"
  | .busyTimeout => "BUSY_TIMEOUT"

/-- The registers of the window, in the order of 10_state.md R22. -/
def Reg.all : List Reg :=
  [.ctrl, .status, .cmd, .err, .irq, .cfgSize, .cfgBus, .pinmux0, .pinmux1, .panelOpc, .fbBase, .fbSize, .regionX, .regionY,
    .ponBase, .ponLen, .initBase, .initLen, .poffBase, .poffLen, .busyTimeout]

/-- A register by its name. -/
def regOfName (w : List Char) : Option Reg := Reg.all.find? (·.name.toList == w)

/-- A line of a host program (R119); an empty line is no statement. -/
def assembleHostLine (line : List Char) : Option (List HostStmt) :=
  match lexLine [] line with
  | [] => some []
  | k :: args =>
    match String.ofList k, args with
    | "W", [r, [','], v] => (regOfName r).bind fun r => (readBits 32 v).map fun v => [.write r v]
    | "R", [r] => (regOfName r).map fun r => [.read r]
    | "OP", ws => (readOperation ws).map hostOp
    | "SYNC", [] => some [.sync]
    | "SEND", c :: [','] :: ws => (readBits 8 c).bind fun c => (readBytes ws).map (hostSend c)
    | "BRINGUP", [] => some hostBringup
    | _, _ => none

/-- A host program, line by line (R119). -/
def assembleHost : List (List Char) → Option (List HostStmt)
  | [] => some []
  | l :: ls => (assembleHostLine l).bind fun a => (assembleHost ls).map (a ++ ·)

/-- The record of a `.rec` line (R120). -/
def assembleRecLine (line : List Char) : Option Record :=
  match lexLine [] line with
  | k :: c :: [','] :: ['['] :: ws =>
    let data := ws.takeWhile (· ≠ [']'])
    let bytes := if data = [] then some [] else readBytes data
    let wait :=
      match ws.drop data.length with
      | [[']']] => some false
      | [[']'], [','], w] => if String.ofList w = "wait" then some true else none
      | _ => none
    if String.ofList k = ".rec" then
      (readBits 8 c).bind fun c => bytes.bind fun ds => wait.bind fun v =>
        if ds.length ≤ 255 then some (assembleRec c ds v) else none
    else none
  | _ => none

/-- The bytes of a table of `.rec` lines (R120). -/
def assembleTable : List (List Char) → Option (List Byte)
  | [] => some []
  | l :: ls => (assembleRecLine l).bind fun r => (assembleTable ls).map (r.encode ++ ·)

end Sys2Proof
end

