-- ==== Sys2Proof/Machine/State.lean ====
section
/-!
DEFINITION. The state of EPDSEQ (10_state.md R21) and of what stands around it, as plain data, and its value after block
reset (R55). Names follow the spec's. INVENTORY.md lists every field with its rule and its reset value.
-/

namespace Sys2Proof.Machine

open Sys2Proof

/-- PanelState, the six states of 10_state.md R23. -/
inductive PanelState where
  | uninitialized | resetting | poweringOn | idle | busy | poweringOff
deriving DecidableEq, Repr

/-- The result codes of 60_exceptions.md R251. Codes 12 to 15 are never written. -/
inductive Code where
  | none | busTransaction | invalidRegion | busyTimeout | allocation | invalidState | notConfigured | badConfig
  | seqFormat | illegalOp | halted | memFault
deriving DecidableEq, Repr

/-- The events of the observation trace (00_scope.md R13). -/
inductive Event where
  | tx (k : Kind) (b : Byte)
  | rstPin (level : Bool)
  | busySample (level : Bool)
  | panel (p : PanelState)
  | done (op : Byte) (code : Code)
deriving DecidableEq, Repr

/-! ## The operation cursor `s.step` (10_state.md R45)

The cursor names the timed statement in progress and where in the pseudocode its completion leads. It carries what those
rules hold in local variables: the byte on the bus, the check pass's offset and control byte, a read's address. -/

/-- The phases of one transaction (40_bus_transport.md R137 to R139); `low i` is `L_i` and `high i` is `H_i`. -/
inductive Phase where
  | p
  | low (i : Nat)
  | high (i : Nat)
  | e
deriving DecidableEq, Repr

/-- Which `SpiTx` statement is in progress. -/
inductive TxRet where
  /-- The one of SEND_CMD or SEND_DATA (R145, R146). -/
  | send
  /-- A record's command byte (R181). -/
  | playCmd
  /-- A record's data byte (R181). -/
  | playData
  /-- WRITE_RAM (R221). -/
  | flushWriteRam
  /-- A framebuffer byte (R221). -/
  | flushData
  /-- REFRESH (R221). -/
  | flushRefresh
deriving DecidableEq, Repr

/-- Which run of data bytes phase E is ending (R142). -/
inductive RunRet where
  | send | play | flush
deriving DecidableEq, Repr

/-- Which `MemRead` statement is in progress. -/
inductive ReadRet where
  /-- The check pass reads CTL of the record at offset `o` (R114); `next` is the PanelState held while playing. -/
  | checkCtl (next : PanelState) (o : Nat)
  /-- The check pass reads LEN of that record; `ctl` was read before it. -/
  | checkLen (next : PanelState) (o : Nat) (ctl : Byte)
  | playCmd | playCtl | playLen | playData
  | flushData
deriving DecidableEq, Repr

/-- Who called the busy-poll (41_panel_sequencer.md R177). -/
inductive PollRet where
  | waitIdle | play | flush
deriving DecidableEq, Repr

/-- Which `Delay` statement is in progress. -/
inductive DelayRet where
  | resetLow | resetHigh
  | poll (ret : PollRet)
deriving DecidableEq, Repr

/-- The operation cursor. `left` counts the cycles the phase or read still takes after the last one made. -/
inductive Step where
  /-- No statement: no operation runs, or the offered word is not yet accepted. -/
  | idle
  /-- A transaction of kind `k` with byte `b`, in phase `ph`; `failed` is the bus-fault sample once it is taken. -/
  | tx (k : Kind) (b : Byte) (ph : Phase) (left : Nat) (failed : Bool) (ret : TxRet)
  /-- Phase E that ends a burst run (R142). -/
  | runEnd (left : Nat) (ret : RunRet)
  /-- A host-memory read of one byte (20_memory.md R74); `draw` is its answer's oracle. -/
  | read (addr : Nat) (left : Nat) (draw : ReadDraw) (ret : ReadRet)
  /-- A `Delay`, counted in `s.timer` (60_exceptions.md R272). -/
  | delay (ret : DelayRet)
  /-- Phase E of the abort cleanup before a fatal finish with `code` (60_exceptions.md R262). -/
  | cleanup (left : Nat) (code : Code)
deriving DecidableEq, Repr

/-! ## The parts of the state -/

/-- The host's parameter registers (10_state.md R29, R34 to R43). -/
structure Regs where
  ctrl : Word
  cfgSize : Word
  cfgBus : Word
  pinmux0 : Word
  pinmux1 : Word
  panelOpc : Word
  fbBase : Word
  fbSize : Word
  regionX : Word
  regionY : Word
  ponBase : Word
  ponLen : Word
  initBase : Word
  initLen : Word
  poffBase : Word
  poffLen : Word
  busyTimeout : Word
deriving DecidableEq, Repr

/-- The stored bits of STATUS, ERR and IRQ (10_state.md R23, R26, R27, R31 to R33). ACTIVE and ACTIVE_OP are `Seq.op`
(R44); BUSY_IN is a level (R28). -/
structure Stat where
  /-- STATUS.PSTATE. -/
  panel : PanelState
  /-- STATUS.CONFIGURED. -/
  configured : Bool
  /-- STATUS.FATAL. -/
  fatal : Bool
  /-- ERR.CODE. -/
  code : Code
  /-- ERR.OVERRUN. -/
  overrun : Bool
  /-- IRQ.DONE. -/
  irqDone : Bool
  /-- IRQ.ERR. -/
  irqErr : Bool
deriving DecidableEq, Repr

/-- The latched PanelConfig copy `cfg` (10_state.md R41); STRIDE is derived from it. -/
structure PanelConfig where
  width : BitVec 16
  height : BitVec 16
  depth : BitVec 4
  clkdiv : Byte
  csPad : BitVec 6
  dcPad : BitVec 6
  clkPad : BitVec 6
  mosiPad : BitVec 6
  misoPad : BitVec 6
  rstPad : BitVec 6
  busyPad : BitVec 6
deriving DecidableEq, Repr

/-- The sequencer's internal state `s` (10_state.md R44 to R50), and the offered CMD word (41_panel_sequencer.md R170). -/
structure Seq where
  op : Option Byte
  /-- The word of a CMD write, for the one cycle before it is accepted (log 7). -/
  offer : Option Word
  pre : PanelState
  prior : PanelState
  step : Step
  tp : Nat
  tend : Nat
  rcmd : Byte
  rctl : Byte
  rlen : Byte
  ri : Nat
  y : Nat
  bx : Nat
  bxlo : Nat
  bxhi : Nat
  timer : Nat
  waited : Nat
  polls : Nat
  sent : Bool
  csHeld : Bool
deriving DecidableEq, Repr

/-- The snapshot of an operation's inputs (10_state.md R51). -/
structure Snap where
  arg : Byte
  burst : Bool
  writeRam : Byte
  refresh : Byte
  fbBase : Word
  fbSize : Word
  x1 : BitVec 16
  x2 : BitVec 16
  y1 : BitVec 16
  y2 : BitVec 16
  base : Word
  len : Word
  timeout : Word
deriving DecidableEq, Repr

/-- The levels of the output signals (40_bus_transport.md R130, R131). -/
structure Pins where
  csN : Bool
  dc : Bool
  sclk : Bool
  mosi : Bool
  rstN : Bool
deriving DecidableEq, Repr

/-- What stands outside the block but its memory: the clock, the inputs, the host's program, and what was observed. -/
structure Env where
  /-- The number of the cycle the next step makes (00_scope.md R13). -/
  cycle : Nat
  /-- What the outside world does in cycles 0, 1, 2, … (log 3). -/
  script : List CycleIn
  /-- The host program still to run (30_encoding.md R119). -/
  prog : List HostStmt
  /-- Addresses the host has written since the present operation was offered, with what they held before, oldest first;
  `none` where the host had never written (20_memory.md R87, log 6). -/
  raced : List (Nat × Option Byte)
  /-- The observation trace, oldest first, each event with its cycle (00_scope.md R13). -/
  trace : List (Nat × Event)
  /-- What the host's register reads returned, oldest first: cycle, offset, value. -/
  reads : List (Nat × Nat × Word)
deriving DecidableEq, Repr

/-- The machine. -/
structure State where
  build : Build
  regs : Regs
  stat : Stat
  cfg : PanelConfig
  seq : Seq
  snap : Snap
  pins : Pins
  /-- Host memory: the bytes the host has written, addresses strictly rising (20_memory.md R70, log 5). -/
  mem : List Host.Cell
  env : Env
deriving DecidableEq, Repr

/-- Why a step can stop with a fault. -/
inductive Fault where
  /-- Raised by `step` on a state in which an operation is active, no word waits to be accepted, and the cursor is at no
  statement: the spec gives such a state no successor, and no run reaches one. Safe. -/
  | lostCursor
deriving DecidableEq, Repr

/-- Why a step can be refused. -/
inductive Refusal where
  /-- Raised by `exec` for an operation that has no meaning yet; no arm raises it. Safe. -/
  | notModelled (mnemonic : String)
  /-- Raised by `step` on a register access that is not 32 bits wide, not aligned, or outside the window: "A model refuses
  it. It has no step" (20_memory.md R71). Safe. -/
  | registerAccess (size off : Nat)
deriving DecidableEq, Repr

/-! ## Reset (10_state.md R55) -/

/-- The parameter registers after block reset. -/
def Regs.reset : Regs :=
  { ctrl := 0, cfgSize := 0, cfgBus := 0, pinmux0 := 0x3F3F3F3F, pinmux1 := 0x003F3F3F, panelOpc := 0x00001210
    fbBase := 0, fbSize := 0, regionX := 0, regionY := 0, ponBase := 0, ponLen := 0, initBase := 0, initLen := 0
    poffBase := 0, poffLen := 0, busyTimeout := 0 }

/-- STATUS, ERR and IRQ after block reset. -/
def Stat.reset : Stat :=
  { panel := .uninitialized, configured := false, fatal := false, code := .none, overrun := false, irqDone := false
    irqErr := false }

/-- `cfg` after block reset: all fields 0, pad fields NC. -/
def PanelConfig.reset : PanelConfig :=
  { width := 0, height := 0, depth := 0, clkdiv := 0, csPad := 0x3F, dcPad := 0x3F, clkPad := 0x3F, mosiPad := 0x3F
    misoPad := 0x3F, rstPad := 0x3F, busyPad := 0x3F }

/-- The sequencer after block reset; `s.step` is the model's choice (log 11). -/
def Seq.reset : Seq :=
  { op := none, offer := none, pre := .uninitialized, prior := .uninitialized, step := .idle, tp := 0, tend := 0
    rcmd := 0, rctl := 0, rlen := 0, ri := 0, y := 0, bx := 0, bxlo := 0, bxhi := 0, timer := 0, waited := 0, polls := 0
    sent := false, csHeld := false }

/-- The snapshot after block reset: the model's choice, never read (log 11). -/
def Snap.reset : Snap :=
  { arg := 0, burst := false, writeRam := 0, refresh := 0, fbBase := 0, fbSize := 0, x1 := 0, x2 := 0, y1 := 0, y2 := 0
    base := 0, len := 0, timeout := 0 }

/-- The output levels after block reset: no pad shows them (log 10). -/
def Pins.reset : Pins :=
  { csN := false, dc := false, sclk := false, mosi := false, rstN := false }

/-- Nothing has happened outside yet, and nothing is written into the host's script, program or memory. -/
def Env.reset : Env :=
  { cycle := 0, script := [], prog := [], raced := [], trace := [], reads := [] }

/-- The machine right after block reset (70_reset_and_hazards.md R290, R291). -/
def State.reset : State :=
  { build := Config.build, regs := Regs.reset, stat := Stat.reset, cfg := PanelConfig.reset, seq := Seq.reset
    snap := Snap.reset, pins := Pins.reset, mem := [], env := Env.reset }

end Sys2Proof.Machine
end

