-- ==== Sys2Proof/Machine/Operands.lean ====
section
/-!
DEFINITION. What an operation reads: the build parameters, the register fields, the latched configuration, the snapshot,
and the inputs of a cycle.
-/

namespace Sys2Proof.Machine

open Sys2Proof

/-! ## Build parameters (00_scope.md R8), kept inside their ranges -/

/-- `CLK_PER_MS`, at least 1. -/
def clkPerMs (b : Build) : Nat := max 1 b.clkPerMs

/-- `RESET_LOW_MS`, at least 200. -/
def resetLowMs (b : Build) : Nat := max 200 b.resetLowMs

/-- `RESET_HIGH_MS`, at least 200. -/
def resetHighMs (b : Build) : Nat := max 200 b.resetHighMs

/-- `POLL_MS`, at least 1. -/
def pollMs (b : Build) : Nat := max 1 b.pollMs

/-- `PAD_COUNT`, from 7 to 63. -/
def padCount (b : Build) : Nat := max 7 (min 63 b.padCount)

/-! ## Register fields -/

/-- A 16-bit half of a register: the low one (10_state.md R34, R40). -/
def lowHalf (w : Word) : BitVec 16 := w.extractLsb' 0 16

/-- The high 16-bit half of a register (10_state.md R34, R40). -/
def highHalf (w : Word) : BitVec 16 := w.extractLsb' 16 16

/-- Byte `i` of a register (10_state.md R35, R38). -/
def byteOf (w : Word) (i : Nat) : Byte := w.extractLsb' (8 * i) 8

/-- The pad field in byte `i` of PINMUX0 or PINMUX1 (10_state.md R36, R37). -/
def padField (w : Word) (i : Nat) : BitVec 6 := w.extractLsb' (8 * i) 6

/-- CTRL.BURST_EN (10_state.md R29). -/
def burstEn (r : Regs) : Bool := r.ctrl.getLsbD 0

/-- CTRL.DONE_IE. -/
def doneIe (r : Regs) : Bool := r.ctrl.getLsbD 1

/-- CTRL.ERR_IE. -/
def errIe (r : Regs) : Bool := r.ctrl.getLsbD 2

/-! ## The panel configuration -/

/-- The pad field value that means "not connected" (10_state.md R36). -/
def padNc : BitVec 6 := 0x3F

/-- The configuration the CFG and PINMUX registers hold, as INIT latches it (41_panel_sequencer.md R171). -/
def configOf (r : Regs) : PanelConfig :=
  { width := lowHalf r.cfgSize, height := highHalf r.cfgSize
    depth := r.cfgBus.extractLsb' 0 4, clkdiv := byteOf r.cfgBus 1
    csPad := padField r.pinmux0 0, dcPad := padField r.pinmux0 1, clkPad := padField r.pinmux0 2
    mosiPad := padField r.pinmux0 3
    misoPad := padField r.pinmux1 0, rstPad := padField r.pinmux1 1, busyPad := padField r.pinmux1 2 }

/-- `cfg.STRIDE = cfg.WIDTH * cfg.DEPTH // 8` (10_state.md R41, 20_memory.md R81). -/
def stride (c : PanelConfig) : Nat := c.width.toNat * c.depth.toNat / 8

/-- `fbsize = stride * cfg.HEIGHT` (20_memory.md R81). -/
def fbSizeNeeded (c : PanelConfig) : Nat := stride c * c.height.toNat

/-- The SPI half-period `h = cfg.CLKDIV + 1` (40_bus_transport.md R136). -/
def halfPeriod (c : PanelConfig) : Nat := c.clkdiv.toNat + 1

/-- The pads of the six signals that must have one (R172, condition 4). -/
def requiredPads (c : PanelConfig) : List (BitVec 6) :=
  [c.csPad, c.dcPad, c.clkPad, c.mosiPad, c.rstPad, c.busyPad]

/-- A field that names a real pad: `p < PAD_COUNT`. The first test changes nothing, since PAD_COUNT is at least 7; it lets
the question be settled for pads 0 to 6 whatever the build. -/
def padReal (b : Build) (p : BitVec 6) : Bool := p.toNat < 7 || p.toNat < padCount b

/-- All values of a list differ. -/
def allDistinct : List (BitVec 6) → Bool
  | [] => true
  | p :: ps => !ps.contains p && allDistinct ps

/-- `ConfigLegal` (41_panel_sequencer.md R172), its six conditions in order. -/
def configLegal (b : Build) (c : PanelConfig) : Bool :=
  decide (1 ≤ c.width.toNat ∧ 1 ≤ c.height.toNat)
  && (c.depth == 1 || c.depth == 2 || c.depth == 4 || c.depth == 8)
  && c.width.toNat * c.depth.toNat % 8 == 0
  && (requiredPads c).all (padReal b)
  && (c.misoPad == padNc || padReal b c.misoPad)
  && allDistinct ((requiredPads c ++ [c.misoPad]).filter (· != padNc))

/-! ## The snapshot (10_state.md R51) -/

/-- The table register pair of an operation, or 0 where it has none. -/
def tablePair (op : Byte) (r : Regs) : Word × Word :=
  match op.toNat with
  | 6 => (r.ponBase, r.ponLen)
  | 7 => (r.initBase, r.initLen)
  | 8 => (r.poffBase, r.poffLen)
  | _ => (0, 0)

/-- The copy of the operation's inputs taken when it is accepted. -/
def snapshot (op arg : Byte) (r : Regs) : Snap :=
  { arg := arg, burst := burstEn r
    writeRam := byteOf r.panelOpc 0, refresh := byteOf r.panelOpc 1
    fbBase := r.fbBase, fbSize := r.fbSize
    x1 := lowHalf r.regionX, x2 := highHalf r.regionX, y1 := lowHalf r.regionY, y2 := highHalf r.regionY
    base := (tablePair op r).1, len := (tablePair op r).2, timeout := r.busyTimeout }

/-! ## The inputs of a cycle -/

/-- The outside world in a cycle the script does not cover: the host goes on with its program and writes no memory, no
block reset comes, and every level and draw is a free value (log 3, log 4). -/
def freeInput (c : Nat) : CycleIn :=
  { blkRst := false, host := .program, memWrites := [], pads := Config.freePads c, busFault := Config.freeBusFault c
    draw := { latency := Config.freeReadLatency c, fault := Config.freeReadFault c, byte := Config.freeReadByte c
              pick := Config.freeReadPick c } }

/-- What the outside world does in cycle `c`. -/
def inputAt (s : State) (c : Nat) : CycleIn := s.env.script.getD c (freeInput c)

/-- What it does in the cycle the next step makes. -/
def input (s : State) : CycleIn := inputAt s s.env.cycle

/-- The BUSY level of a cycle's pads (40_bus_transport.md R132, R151). -/
def busyLevel (c : PanelConfig) (pads : Levels) : Bool := pads.getLsbD c.busyPad.toNat

/-! ## The pads (10_state.md R52, 40_bus_transport.md R132, R133) -/

/-- The pads of the five output signals. -/
def outputPads (c : PanelConfig) : List (BitVec 6) := [c.csPad, c.dcPad, c.clkPad, c.mosiPad, c.rstPad]

/-- `oe[p]`: the block drives pad `p`. -/
def padOe (s : State) (p : Nat) : Bool := s.stat.configured && (outputPads s.cfg).any (·.toNat == p)

/-- `out[p]`: the level driven, 0 on a pad the block does not drive (log 10). -/
def padOut (s : State) (p : Nat) : Bool :=
  if !s.stat.configured then false
  else if p = s.cfg.csPad.toNat then s.pins.csN
  else if p = s.cfg.dcPad.toNat then s.pins.dc
  else if p = s.cfg.clkPad.toNat then s.pins.sclk
  else if p = s.cfg.mosiPad.toNat then s.pins.mosi
  else if p = s.cfg.rstPad.toNat then s.pins.rstN
  else false

end Sys2Proof.Machine
end

