-- ==== Sys2Proof/Machine/Flags.lean ====
section
/-!
DEFINITION. The status words and flags: the codes of PanelState and of the results, STATUS, ERR and IRQ as the host reads
them, the interrupt output, and what a host write does to each register.
-/

namespace Sys2Proof.Machine

open Sys2Proof

/-- `STATUS.PSTATE` (10_state.md R23). -/
def PanelState.bits : PanelState → BitVec 3
  | .uninitialized => 0
  | .resetting => 1
  | .poweringOn => 2
  | .idle => 3
  | .busy => 4
  | .poweringOff => 5

/-- `ERR.CODE` (60_exceptions.md R251). -/
def Code.bits : Code → BitVec 4
  | .none => 0
  | .busTransaction => 1
  | .invalidRegion => 2
  | .busyTimeout => 3
  | .allocation => 4
  | .invalidState => 5
  | .notConfigured => 6
  | .badConfig => 7
  | .seqFormat => 8
  | .illegalOp => 9
  | .halted => 10
  | .memFault => 11

/-- `STATUS.ACTIVE` (10_state.md R25, R44). -/
def active (s : State) : Bool := s.seq.op.isSome

/-- `STATUS.ACTIVE_OP`: the running operation's opcode, 0 while ACTIVE is 0 (10_state.md R28, R44). -/
def activeOp (s : State) : Byte := s.seq.op.getD 0

/-- `STATUS.BUSY_IN`: the BUSY pad's level at the end of the last cycle while CONFIGURED is 1, else 0 (10_state.md R28,
20_memory.md R72, log 13). -/
def busyIn (s : State) : Bool := s.stat.configured && busyLevel s.cfg (inputAt s (s.env.cycle - 1)).pads

/-- STATUS as the host reads it (10_state.md R23 to R28): bit 7 and bits 31:16 read 0. -/
def statusWord (s : State) : Word :=
  place 0 s.stat.panel.bits ||| place 3 (BitVec.ofBool (active s)) ||| place 4 (BitVec.ofBool s.stat.configured)
    ||| place 5 (BitVec.ofBool s.stat.fatal) ||| place 6 (BitVec.ofBool (busyIn s)) ||| place 8 (activeOp s)

/-- ERR as the host reads it (10_state.md R31, R32). -/
def errWord (s : State) : Word :=
  place 0 s.stat.code.bits ||| place 8 (BitVec.ofBool s.stat.overrun)

/-- IRQ as the host reads it (10_state.md R33). -/
def irqWord (s : State) : Word :=
  place 0 (BitVec.ofBool s.stat.irqDone) ||| place 1 (BitVec.ofBool s.stat.irqErr)

/-- The interrupt output (60_exceptions.md R265). -/
def irq (s : State) : Bool := (s.stat.irqDone && doneIe s.regs) || (s.stat.irqErr && errIe s.regs)

/-- What a read of a register returns (10_state.md R22): CMD reads 0 (R30). -/
def readReg (s : State) : Reg → Word
  | .ctrl => s.regs.ctrl
  | .status => statusWord s
  | .cmd => 0
  | .err => errWord s
  | .irq => irqWord s
  | .cfgSize => s.regs.cfgSize
  | .cfgBus => s.regs.cfgBus
  | .pinmux0 => s.regs.pinmux0
  | .pinmux1 => s.regs.pinmux1
  | .panelOpc => s.regs.panelOpc
  | .fbBase => s.regs.fbBase
  | .fbSize => s.regs.fbSize
  | .regionX => s.regs.regionX
  | .regionY => s.regs.regionY
  | .ponBase => s.regs.ponBase
  | .ponLen => s.regs.ponLen
  | .initBase => s.regs.initBase
  | .initLen => s.regs.initLen
  | .poffBase => s.regs.poffBase
  | .poffLen => s.regs.poffLen
  | .busyTimeout => s.regs.busyTimeout

/-- What a read at a byte offset of the window returns: a reserved offset reads 0 (10_state.md R43). -/
def readOffset (s : State) (off : Nat) : Word :=
  match Reg.ofOffset off with
  | some r => readReg s r
  | none => 0

/-- The bits of a read/write register that hold what is written; the others read 0 and ignore a write (10_state.md R22,
R29, R35 to R38). -/
def writable : Reg → Word
  | .ctrl => 0x00000007
  | .status => 0
  | .cmd => 0
  | .err => 0
  | .irq => 0
  | .cfgSize => 0xFFFFFFFF
  | .cfgBus => 0x0000FF0F
  | .pinmux0 => 0x3F3F3F3F
  | .pinmux1 => 0x003F3F3F
  | .panelOpc => 0x0000FFFF
  | .fbBase => 0xFFFFFFFF
  | .fbSize => 0xFFFFFFFF
  | .regionX => 0xFFFFFFFF
  | .regionY => 0xFFFFFFFF
  | .ponBase => 0xFFFFFFFF
  | .ponLen => 0xFFFFFFFF
  | .initBase => 0xFFFFFFFF
  | .initLen => 0xFFFFFFFF
  | .poffBase => 0xFFFFFFFF
  | .poffLen => 0xFFFFFFFF
  | .busyTimeout => 0xFFFFFFFF

/-- A host write of `v` to a parameter register. STATUS, CMD, ERR and IRQ hold no parameter. -/
def writeParam (r : Reg) (v : Word) (g : Regs) : Regs :=
  match r with
  | .ctrl => { g with ctrl := v &&& writable .ctrl }
  | .status => g
  | .cmd => g
  | .err => g
  | .irq => g
  | .cfgSize => { g with cfgSize := v &&& writable .cfgSize }
  | .cfgBus => { g with cfgBus := v &&& writable .cfgBus }
  | .pinmux0 => { g with pinmux0 := v &&& writable .pinmux0 }
  | .pinmux1 => { g with pinmux1 := v &&& writable .pinmux1 }
  | .panelOpc => { g with panelOpc := v &&& writable .panelOpc }
  | .fbBase => { g with fbBase := v &&& writable .fbBase }
  | .fbSize => { g with fbSize := v &&& writable .fbSize }
  | .regionX => { g with regionX := v &&& writable .regionX }
  | .regionY => { g with regionY := v &&& writable .regionY }
  | .ponBase => { g with ponBase := v &&& writable .ponBase }
  | .ponLen => { g with ponLen := v &&& writable .ponLen }
  | .initBase => { g with initBase := v &&& writable .initBase }
  | .initLen => { g with initLen := v &&& writable .initLen }
  | .poffBase => { g with poffBase := v &&& writable .poffBase }
  | .poffLen => { g with poffLen := v &&& writable .poffLen }
  | .busyTimeout => { g with busyTimeout := v &&& writable .busyTimeout }

/-- An operation finished in the cycle that led from `before` to `after` (60_exceptions.md R263). -/
def finishedIn (before after : State) : Bool := before.seq.op.isSome && after.seq.op.isNone

/-- A write-1-to-clear of an IRQ or ERR bit: a set in the same cycle wins (10_state.md R32, R33, 60_exceptions.md R268). -/
def w1c (held clear set : Bool) : Bool := (held && !clear) || set

/-- A host write of `v` to IRQ in the cycle that led from `before` to `after` (10_state.md R33). -/
def writeIrq (before after : State) (v : Word) : Stat :=
  let fin := finishedIn before after
  { after.stat with
    irqDone := w1c before.stat.irqDone (v.getLsbD 0) fin
    irqErr := w1c before.stat.irqErr (v.getLsbD 1) (fin && after.stat.code != .none) }

/-- A host write of `v` to ERR: only OVERRUN can be cleared (10_state.md R31, R32). -/
def writeErr (st : Stat) (v : Word) : Stat := { st with overrun := w1c st.overrun (v.getLsbD 8) false }

end Sys2Proof.Machine
end

