-- ==== Sys2Proof/Machine/Ops.lean ====
section
/-!
DEFINITION. The shared operations: host memory; the trace, PanelState and the pins; accepting an operation; ending one with
an error or without (`raise`, `finish`: what this block has in place of taking an exception, 60_exceptions.md R258 to R263);
and the start of each timed statement (R272).

An operation's meaning is a function from the state at the start of a cycle to the state in which the cycle's statements
have happened; `step` moves on to the next cycle (Machine/Step.lean).
-/

namespace Sys2Proof.Machine

open Sys2Proof

/-! ## Host memory (20_memory.md R70, R74) -/

/-- The byte the host last wrote at an address; `none` where it never wrote. This is what an unlisted address holds: no
value (log 5). -/
def memGet : List Host.Cell → Nat → Option Byte
  | [], _ => none
  | (a, b) :: rest, x => if a = x then some b else memGet rest x

/-- The host writes a byte. The list stays strictly rising. -/
def memSet : List Host.Cell → Nat → Byte → List Host.Cell
  | [], x, v => [(x, v)]
  | (a, b) :: rest, x, v =>
    if x < a then (x, v) :: (a, b) :: rest
    else if x = a then (a, v) :: rest
    else (a, b) :: memSet rest x v

/-- The addresses of a list rise strictly above `lo`, and stay in the 32-bit space. -/
def memRising : (lo : Option Nat) → List Host.Cell → Bool
  | _, [] => true
  | lo, (a, _) :: rest => lo.all (· < a) && a < 2 ^ 32 && memRising (some a) rest

/-- The canonical form of the host memory. -/
def Memory.wf (m : List Host.Cell) : Bool := memRising none m

/-- The values a read of an address may answer: what it holds now, then what it held before each write that races with the
operation (R87). `free` stands for an address the host had not written. -/
def readCandidates (s : State) (a : Nat) (free : Byte) : List Byte :=
  (memGet s.mem a).getD free :: (s.env.raced.filter (·.1 = a)).map (·.2.getD free)

/-- The answer of `MemRead(a, 1)` (R74): a fault, or one of the candidates, picked by the draw. Without a race there is one
candidate. -/
def readAnswer (s : State) (a : Nat) (d : ReadDraw) : Option Byte :=
  if d.fault then none
  else
    let cs := readCandidates s a d.byte
    some (cs.getD (d.pick % cs.length) d.byte)

/-! ## Trace, PanelState and pins -/

/-- `Emit(ev)` (00_scope.md R12, R13), stamped with the present cycle. -/
def emit (ev : Event) (s : State) : State :=
  { s with env := { s.env with trace := s.env.trace ++ [(s.env.cycle, ev)] } }

/-- `SetState(p)` (10_state.md R24): no event when `p` is already held. -/
def setPanel (p : PanelState) (s : State) : State :=
  if s.stat.panel = p then s else emit (.panel p) { s with stat := { s.stat with panel := p } }

/-- Put the cursor at a statement (10_state.md R45). -/
def setStep (st : Step) (s : State) : State := { s with seq := { s.seq with step := st } }

/-- The levels between two transactions (40_bus_transport.md R134): `dc` keeps its level. -/
def idleLines (p : Pins) : Pins := { p with csN := true, sclk := false, mosi := false }

/-! ## Ending an operation -/

/-- `Finish(code)` (60_exceptions.md R263). The cursor is meaningless from then on (10_state.md R45). -/
def finish (code : Code) (s : State) : State :=
  let op := s.seq.op.getD 0
  emit (.done op code)
    { s with
      stat := { s.stat with code := code, irqDone := true, irqErr := s.stat.irqErr || code != .none }
      seq := { s.seq with op := none, step := .idle } }

/-- Which errors are fatal (60_exceptions.md R251, R258). -/
def isFatal (e : Code) (sent : Bool) : Bool :=
  e == .busTransaction || ((e == .memFault || e == .seqFormat) && sent)

/-- The end of a fatal error, after the abort cleanup (60_exceptions.md R258, R261). -/
def fatalFinish (e : Code) (s : State) : State :=
  finish e (setPanel .uninitialized { s with stat := { s.stat with fatal := true } })

/-- `raise E` (60_exceptions.md R258): taking an error. A fatal one releases the bus first when a burst run holds CS (R262). -/
def raise (e : Code) (s : State) : State :=
  if isFatal e s.seq.sent then
    if s.seq.csHeld then
      { s with
        pins := idleLines s.pins
        seq := { s.seq with csHeld := false, step := .cleanup (halfPeriod s.cfg - 1) e } }
    else fatalFinish e s
  else finish e (setPanel s.seq.pre s)

/-- One more cycle of the abort cleanup, or its end (R262). -/
def cleanupCycle (left : Nat) (e : Code) (s : State) : State :=
  if left = 0 then fatalFinish e s else setStep (.cleanup (left - 1) e) s

/-! ## Accepting an operation (41_panel_sequencer.md R170) -/

/-- The assignments of `Accept(w)` before the check, for a word with these OP and ARG bytes. -/
def begin (op arg : Byte) (s : State) : State :=
  { s with
    seq := { s.seq with op := some op, offer := none, pre := s.stat.panel, sent := false, csHeld := false, step := .idle }
    snap := snapshot op arg s.regs }

/-- The PanelStates an operation is accepted in (60_exceptions.md R257, 41_panel_sequencer.md R186). -/
def acceptedIn (i : Instr) (p : PanelState) : Bool :=
  match i with
  | .init => true
  | .sendCmd _ => p == .uninitialized || p == .idle
  | .sendData _ => p == .uninitialized || p == .idle
  | .reset => p == .uninitialized || p == .idle
  | .waitIdle => p == .uninitialized || p == .idle
  | .powerOn => p == .idle
  | .initRegs => p == .idle
  | .powerOff => p == .idle
  | .flush => p == .idle

/-- `Check(w)` for a word that decodes to `i` (60_exceptions.md R257). -/
def acceptCheck (i : Instr) (st : Stat) : Code :=
  if i = .init then .none
  else if st.fatal then .halted
  else if !st.configured then .notConfigured
  else if !acceptedIn i st.panel then .invalidState
  else .none

/-- `Accept(w)` for a word that decodes to `i`, then the operation's statements of that cycle (R170). -/
def accept (i : Instr) (body : State → State) (s : State) : State :=
  let t := begin i.opcode i.arg s
  match acceptCheck i s.stat with
  | .none => body t
  | code => finish code t

/-- `Accept(w)` for a word that decodes to `illegal`: rejected with ILLEGAL_OP (30_encoding.md R103, R104, R107). -/
def rejectIllegal (w : Word) (s : State) : State := finish .illegalOp (begin (cmdOp w) (cmdArg w) s)

/-! ## Starting a timed statement: the present cycle is its first (60_exceptions.md R272) -/

/-- `Delay(ms)`: `s.timer` holds the cycles left after the present one (log 24). -/
def delayStart (ms : Nat) (ret : DelayRet) (s : State) : State :=
  { s with seq := { s.seq with timer := ms * clkPerMs s.build - 1, step := .delay ret } }

/-- `MemRead(addr, 1)`: its oracle is drawn from the cycle it is issued in (20_memory.md R74). Inside a burst run the lines
hold phase W, else they idle with `sclk = 0` already (40_bus_transport.md R142, R144). -/
def readStart (addr : Nat) (ret : ReadRet) (s : State) : State :=
  let d := (input s).draw
  { s with
    pins := { s.pins with sclk := false }
    seq := { s.seq with step := .read addr (max 1 d.latency - 1) d ret } }

/-- One more cycle of a read, or its answer handed to the statement after it. A fault raises MEM_FAULT
(60_exceptions.md R256). -/
def readCycle (addr left : Nat) (d : ReadDraw) (ret : ReadRet) (next : Byte → State → State) (s : State) : State :=
  if left = 0 then
    match readAnswer s addr d with
    | none => raise .memFault s
    | some b => next b s
  else setStep (.read addr (left - 1) d ret) s

/-- One more cycle of a `Delay`, or the statement after it. -/
def delayCycle (next : State → State) (s : State) : State :=
  if s.seq.timer = 0 then next s else { s with seq := { s.seq with timer := s.seq.timer - 1 } }

end Sys2Proof.Machine
end

