-- ==== Sys2Proof/Machine/Transport.lean ====
section
/-!
DEFINITION. The bus transport: the waveform of `SpiTx` cycle by cycle, runs and burst framing, and the operations SEND_CMD
and SEND_DATA (40_bus_transport.md).
-/

namespace Sys2Proof.Machine

open Sys2Proof

/-- The levels of a phase (R137 to R139). `dc` changes in phase P only. -/
def phasePins (k : Kind) (b : Byte) (ph : Phase) (p : Pins) : Pins :=
  match ph with
  | .p => { p with csN := true, sclk := false, mosi := false, dc := k == .data }
  | .low i => { p with csN := false, sclk := false, mosi := b.getLsbD i }
  | .high i => { p with csN := false, sclk := true, mosi := b.getLsbD i }
  | .e => { p with csN := true, sclk := false, mosi := false }

/-- A transaction inside a burst run: its data bytes share one CS frame (R141). -/
def inBurst (k : Kind) (s : State) : Bool := k == .data && s.snap.burst

/-- A cycle of a transaction with `left` cycles of its phase to come. In the last cycle of `H_0` the byte's `TX` is emitted
and the bus-fault input sampled (R139, R142, R143); inside a burst run CS is held from then on (10_state.md R50, log 9). -/
def txHold (k : Kind) (b : Byte) (ph : Phase) (left : Nat) (failed : Bool) (ret : TxRet) (s : State) : State :=
  if ph = .high 0 ∧ left = 0 then
    emit (.tx k b)
      { s with seq := { s.seq with csHeld := inBurst k s, step := .tx k b ph left (input s).busFault ret } }
  else setStep (.tx k b ph left failed ret) s

/-- The first cycle of a phase; each phase lasts `h` cycles (R136). -/
def txPhase (k : Kind) (b : Byte) (ph : Phase) (failed : Bool) (ret : TxRet) (s : State) : State :=
  txHold k b ph (halfPeriod s.cfg - 1) failed ret { s with pins := phasePins k b ph s.pins }

/-- `SpiTx(k, b)` starts (R135). Inside a burst run that holds CS the byte has no phase P of its own (R142). -/
def txStart (k : Kind) (b : Byte) (ret : TxRet) (s : State) : State :=
  txPhase k b (if s.seq.csHeld then .low 7 else .p) false ret { s with seq := { s.seq with sent := true } }

/-- `SpiTx` returns to its caller, or raises BUS_TRANSACTION when the bus-fault sample was 1 (R143, 60_exceptions.md R252). -/
def txReturn (failed : Bool) (next : State → State) (s : State) : State :=
  if failed then raise .busTransaction s else next s

/-- One more cycle of a transaction, the next phase, or its return. A byte of a burst run returns after `H_0`, since phase E
belongs to the run (R142). -/
def txCycle (k : Kind) (b : Byte) (ph : Phase) (left : Nat) (failed : Bool) (ret : TxRet) (next : State → State)
    (s : State) : State :=
  if left = 0 then
    match ph with
    | .p => txPhase k b (.low 7) failed ret s
    | .low i => txPhase k b (.high i) failed ret s
    | .high (i + 1) => txPhase k b (.low i) failed ret s
    | .high 0 => if inBurst k s then txReturn failed next s else txPhase k b .e failed ret s
    | .e => txReturn failed next s
  else txHold k b ph (left - 1) failed ret s

/-- A run of data bytes ends: a burst run gives CS back in phase E, any other has done so (R141, R142). -/
def runEnd (ret : RunRet) (next : State → State) (s : State) : State :=
  if s.seq.csHeld then
    { s with
      pins := idleLines s.pins
      seq := { s.seq with csHeld := false, step := .runEnd (halfPeriod s.cfg - 1) ret } }
  else next s

/-- One more cycle of that phase E, or the statement after the run. -/
def runEndCycle (left : Nat) (ret : RunRet) (next : State → State) (s : State) : State :=
  if left = 0 then next s else setStep (.runEnd (left - 1) ret) s

/-- SEND_CMD (R145): `SpiTx(C, snap.arg)`, then `Finish(0)`. -/
def execSendCmd (arg : Byte) (s : State) : Host.Outcome State Fault Refusal :=
  .next (accept (.sendCmd arg) (fun t => txStart .command t.snap.arg .send t) s)

/-- SEND_DATA (R146): `SpiTx(D, snap.arg)`, a run of one byte, then `Finish(0)`. -/
def execSendData (arg : Byte) (s : State) : Host.Outcome State Fault Refusal :=
  .next (accept (.sendData arg) (fun t => txStart .data t.snap.arg .send t) s)

/-- What SEND_CMD and SEND_DATA do when their transaction has returned. -/
def sendReturn (s : State) : State := runEnd .send (finish .none) s

end Sys2Proof.Machine
end

