-- ==== Sys2Proof/Machine/Panel.lean ====
section
/-!
DEFINITION. The panel control sequencer's INIT, RESET and WAIT_IDLE, and the busy-poll that WAIT_IDLE, FLUSH and the
sequence player share (41_panel_sequencer.md R171 to R180).
-/

namespace Sys2Proof.Machine

open Sys2Proof

/-! ## INIT (R171, R172) -/

/-- The levels a successful INIT sets (40_bus_transport.md R134). -/
def initPins : Pins := { csN := true, dc := false, sclk := false, mosi := false, rstN := true }

/-- INIT's statements: BAD_CONFIG, or latch, take the pins, configure, clear FATAL, `SetState(Uninitialized)`, `Finish(0)`. -/
def initBody (s : State) : State :=
  if configLegal s.build (configOf s.regs) then
    finish .none
      (setPanel .uninitialized
        { s with
          cfg := configOf s.regs
          pins := initPins
          stat := { s.stat with configured := true, fatal := false } })
  else raise .badConfig s

/-- INIT (R171). -/
def execInit (s : State) : Host.Outcome State Fault Refusal := .next (accept .init initBody s)

/-! ## RESET (R174, R175) -/

/-- `rst_n <- level; Emit(RSTPIN(level))`. -/
def driveRst (level : Bool) (s : State) : State :=
  emit (.rstPin level) { s with pins := { s.pins with rstN := level } }

/-- RESET's statements of its first cycle. -/
def resetBody (s : State) : State :=
  delayStart (resetLowMs s.build) .resetLow (driveRst false (setPanel .resetting s))

/-- RESET (R174). -/
def execReset (s : State) : Host.Outcome State Fault Refusal := .next (accept .reset resetBody s)

/-- After `Delay(RESET_LOW_MS)`. -/
def resetAfterLow (s : State) : State := delayStart (resetHighMs s.build) .resetHigh (driveRst true s)

/-- After `Delay(RESET_HIGH_MS)`. -/
def resetAfterHigh (s : State) : State := finish .none (setPanel .idle s)

/-! ## The busy-poll (R177 to R180) -/

/-- `SampleBusy()`: the BUSY pad's level in the present cycle (40_bus_transport.md R150). -/
def sampleBusy (s : State) : Bool := busyLevel s.cfg (input s).pads

/-- One turn of the poll loop: a sample, then the return, BUSY_TIMEOUT, or the delay. A 0 wins over the timeout (R178). -/
def pollSample (ret : PollRet) (next : State → State) (s : State) : State :=
  let lvl := sampleBusy s
  let t := emit (.busySample lvl) { s with seq := { s.seq with polls := s.seq.polls + 1 } }
  if !lvl then next (setPanel s.seq.prior t)
  else if s.snap.timeout ≠ 0 ∧ s.snap.timeout.toNat ≤ s.seq.waited then raise .busyTimeout (setPanel s.seq.prior t)
  else delayStart (pollMs s.build) (.poll ret) t

/-- `WaitIdle()`; `next` is the statement after it. -/
def waitIdle (ret : PollRet) (next : State → State) (s : State) : State :=
  pollSample ret next
    (setPanel .busy { s with seq := { s.seq with prior := s.stat.panel, waited := 0, polls := 0 } })

/-- After `Delay(POLL_MS)`: count the wait and sample again. -/
def pollAgain (ret : PollRet) (next : State → State) (s : State) : State :=
  pollSample ret next { s with seq := { s.seq with waited := s.seq.waited + pollMs s.build } }

/-- WAIT_IDLE (R176): `WaitIdle()`, then `Finish(0)`. -/
def execWaitIdle (s : State) : Host.Outcome State Fault Refusal :=
  .next (accept .waitIdle (waitIdle .waitIdle (finish .none)) s)

end Sys2Proof.Machine
end

