-- ==== Sys2Proof/Machine/Player.lean ====
section
/-!
DEFINITION. The sequence tables: the check pass (30_encoding.md R114), the player (41_panel_sequencer.md R181), and the
operations POWER_ON, INIT_REGS and POWER_OFF (R182 to R184).
-/

namespace Sys2Proof.Machine

open Sys2Proof

/-! ## Play (R181) -/

/-- The record loop's head: the next record's first header read, or the end of the operation. -/
def playRecord (s : State) : State :=
  if s.seq.tp < s.seq.tend then
    if s.seq.tend < s.seq.tp + 3 then raise .seqFormat s else readStart s.seq.tp .playCmd s
  else finish .none (setPanel .idle s)

/-- The record is done: `s.tp <- s.tp + 3 + s.rlen`, and the loop goes on. -/
def playAdvance (s : State) : State :=
  playRecord { s with seq := { s.seq with tp := s.seq.tp + 3 + s.seq.rlen.toNat } }

/-- After the record's data bytes: the busy-poll when its WAIT flag is set. -/
def playWait (s : State) : State :=
  if ctlWait s.seq.rctl then waitIdle .play playAdvance s else playAdvance s

/-- The data loop's head: read data byte `s.ri`, or end the record's run. -/
def playData (s : State) : State :=
  if s.seq.ri < s.seq.rlen.toNat then readStart (s.seq.tp + 3 + s.seq.ri) .playData s else runEnd .play playWait s

/-- CMD has been read. -/
def playGotCmd (b : Byte) (s : State) : State :=
  readStart (s.seq.tp + 1) .playCtl { s with seq := { s.seq with rcmd := b } }

/-- CTL has been read. -/
def playGotCtl (b : Byte) (s : State) : State :=
  readStart (s.seq.tp + 2) .playLen { s with seq := { s.seq with rctl := b } }

/-- LEN has been read: the header is checked again (20_memory.md R92), then the command byte is sent. -/
def playGotLen (b : Byte) (s : State) : State :=
  let t := { s with seq := { s.seq with rlen := b } }
  if ctlReserved s.seq.rctl ≠ 0 ∨ s.seq.tend < s.seq.tp + 3 + b.toNat then raise .seqFormat t
  else txStart .command s.seq.rcmd .playCmd t

/-- A data byte has been read. -/
def playGotData (b : Byte) (s : State) : State := txStart .data b .playData s

/-- The command byte has been sent: the data loop starts at `s.ri = 0`. -/
def playSentCmd (s : State) : State := playData { s with seq := { s.seq with ri := 0 } }

/-- A data byte has been sent. After the data loop of R181 the model leaves `s.ri` at the count of the data bytes (DESIGN CHOICE,
log 25). -/
def playSentData (s : State) : State := playData { s with seq := { s.seq with ri := s.seq.ri + 1 } }

/-! ## The check pass (30_encoding.md R114) -/

/-- The table is well formed: `SetState(next)`, then `Play(snap.base, snap.len)` (R182 to R184). -/
def checkPassed (next : PanelState) (s : State) : State :=
  let t := setPanel next s
  playRecord
    { t with seq := { t.seq with tp := s.snap.base.toNat, tend := s.snap.base.toNat + s.snap.len.toNat } }

/-- The check loop's head, at the record at offset `o`. -/
def checkRecord (next : PanelState) (o : Nat) (s : State) : State :=
  if o < s.snap.len.toNat then
    if s.snap.len.toNat < o + 3 then raise .seqFormat s
    else readStart (s.snap.base.toNat + o + 1) (.checkCtl next o) s
  else checkPassed next s

/-- CTL has been read; LEN is read before either is looked at. -/
def checkGotCtl (next : PanelState) (o : Nat) (b : Byte) (s : State) : State :=
  readStart (s.snap.base.toNat + o + 2) (.checkLen next o b) s

/-- LEN has been read: the record's reserved bits and its end are checked. -/
def checkGotLen (next : PanelState) (o : Nat) (ctl : Byte) (n : Byte) (s : State) : State :=
  if ctlReserved ctl ≠ 0 then raise .seqFormat s
  else if s.snap.len.toNat < o + 3 + n.toNat then raise .seqFormat s
  else checkRecord next (o + 3 + n.toNat) s

/-- The statements POWER_ON, INIT_REGS and POWER_OFF share: check the table, hold `next` while playing it. -/
def tableBody (next : PanelState) (s : State) : State :=
  if s.snap.len = 0 then checkPassed next s
  else if s.snap.base = 0 ∨ 2 ^ 32 < s.snap.base.toNat + s.snap.len.toNat then raise .seqFormat s
  else checkRecord next 0 s

/-- POWER_ON (R182). -/
def execPowerOn (s : State) : Host.Outcome State Fault Refusal := .next (accept .powerOn (tableBody .poweringOn) s)

/-- INIT_REGS (R183); it holds PoweringOn. -/
def execInitRegs (s : State) : Host.Outcome State Fault Refusal := .next (accept .initRegs (tableBody .poweringOn) s)

/-- POWER_OFF (R184). -/
def execPowerOff (s : State) : Host.Outcome State Fault Refusal := .next (accept .powerOff (tableBody .poweringOff) s)

end Sys2Proof.Machine
end

