-- ==== Sys2Proof/Machine/Flush.lean ====
section
/-!
DEFINITION. The framebuffer flush engine: the operation FLUSH (42_flush_engine.md R220 to R235).
-/

namespace Sys2Proof.Machine

open Sys2Proof

/-- `RegionValid()` (R222). -/
def regionValid (c : PanelConfig) (n : Snap) : Bool :=
  decide (n.x1.toNat ≤ n.x2.toNat ∧ n.x2.toNat < c.width.toNat ∧ n.y1.toNat ≤ n.y2.toNat ∧ n.y2.toNat < c.height.toNat)

/-- The framebuffer is usable: the three ALLOCATION conditions all fail (60_exceptions.md R253). -/
def bufferUsable (c : PanelConfig) (n : Snap) : Bool :=
  decide (n.fbBase ≠ 0 ∧ fbSizeNeeded c ≤ n.fbSize.toNat ∧ n.fbBase.toNat + fbSizeNeeded c ≤ 2 ^ 32)

/-- The region's first byte column (R223). -/
def firstColumn (c : PanelConfig) (n : Snap) : Nat := n.x1.toNat * c.depth.toNat / 8

/-- The region's last byte column (R223). -/
def lastColumn (c : PanelConfig) (n : Snap) : Nat := ((n.x2.toNat + 1) * c.depth.toNat - 1) / 8

/-- The host address of byte column `bx` of row `y` (20_memory.md R83). -/
def fbAddress (c : PanelConfig) (n : Snap) (y bx : Nat) : Nat := n.fbBase.toNat + y * stride c + bx

/-- Where pixel `x` lies in its row: the byte column, and the place of its most significant and least significant bit in
that byte (20_memory.md R82). The engine moves whole bytes and never uses it (R231). -/
def pixelPlace (c : PanelConfig) (x : Nat) : Nat × Nat × Nat :=
  let d := c.depth.toNat
  (x * d / 8, 7 - x * d % 8, 8 - d - x * d % 8)

/-- `MemRead` of the framebuffer byte at `s.y`, `s.bx`. -/
def flushRead (s : State) : State := readStart (fbAddress s.cfg s.snap s.seq.y s.seq.bx) .flushData s

/-- WRITE_RAM has been sent: the row loop starts at `y1`, the column loop at `bxlo`. -/
def flushSentWriteRam (s : State) : State :=
  flushRead { s with seq := { s.seq with y := s.snap.y1.toNat, bx := s.seq.bxlo } }

/-- A framebuffer byte has been read: it is sent unchanged (R231). -/
def flushGotData (b : Byte) (s : State) : State := txStart .data b .flushData s

/-- The whole region has been sent: REFRESH. -/
def flushRefresh (s : State) : State := txStart .command s.snap.refresh .flushRefresh s

/-- A data byte has been sent: the next column, the next row, or the end of the run (R226). After the loops of R221 the model
leaves `s.y` and `s.bx` at their last values, the region's last row and column (DESIGN CHOICE, log 25). -/
def flushSentData (s : State) : State :=
  if s.seq.bx < s.seq.bxhi then flushRead { s with seq := { s.seq with bx := s.seq.bx + 1 } }
  else if s.seq.y < s.snap.y2.toNat then flushRead { s with seq := { s.seq with y := s.seq.y + 1, bx := s.seq.bxlo } }
  else runEnd .flush flushRefresh s

/-- REFRESH has been sent: the busy-poll, then `Finish(0)` (R227). -/
def flushSentRefresh (s : State) : State := waitIdle .flush (finish .none) s

/-- FLUSH's statements of its first cycle: the region check, the buffer check, the byte columns, WRITE_RAM. -/
def flushBody (s : State) : State :=
  if !regionValid s.cfg s.snap then raise .invalidRegion s
  else if !bufferUsable s.cfg s.snap then raise .allocation s
  else
    txStart .command s.snap.writeRam .flushWriteRam
      { s with seq := { s.seq with bxlo := firstColumn s.cfg s.snap, bxhi := lastColumn s.cfg s.snap } }

/-- FLUSH (R221). -/
def execFlush (s : State) : Host.Outcome State Fault Refusal := .next (accept .flush flushBody s)

end Sys2Proof.Machine
end

