-- ==== Sys2Proof/Machine/Sequencer.lean ====
section
/-!
DEFINITION. A running operation goes on by one cycle: the timed statement at the cursor takes one more cycle, or it ends
and the statements after it happen (10_state.md R45, 60_exceptions.md R272).
-/

namespace Sys2Proof.Machine

open Sys2Proof

/-- The statement after a transaction. -/
def afterTx : TxRet → State → State
  | .send => sendReturn
  | .playCmd => playSentCmd
  | .playData => playSentData
  | .flushWriteRam => flushSentWriteRam
  | .flushData => flushSentData
  | .flushRefresh => flushSentRefresh

/-- The statement after a burst run. -/
def afterRun : RunRet → State → State
  | .send => finish .none
  | .play => playWait
  | .flush => flushRefresh

/-- The statement after a read. -/
def afterRead : ReadRet → Byte → State → State
  | .checkCtl next o => checkGotCtl next o
  | .checkLen next o ctl => checkGotLen next o ctl
  | .playCmd => playGotCmd
  | .playCtl => playGotCtl
  | .playLen => playGotLen
  | .playData => playGotData
  | .flushData => flushGotData

/-- The statement after a busy-poll. -/
def afterPoll : PollRet → State → State
  | .waitIdle => finish .none
  | .play => playAdvance
  | .flush => finish .none

/-- The statement after a delay. -/
def afterDelay : DelayRet → State → State
  | .resetLow => resetAfterLow
  | .resetHigh => resetAfterHigh
  | .poll ret => pollAgain ret (afterPoll ret)

/-- One more cycle of the running operation. -/
def advance (s : State) : State :=
  match s.seq.step with
  | .idle => s
  | .tx k b ph left failed ret => txCycle k b ph left failed ret (afterTx ret) s
  | .runEnd left ret => runEndCycle left ret (afterRun ret) s
  | .read addr left d ret => readCycle addr left d ret (afterRead ret) s
  | .delay ret => delayCycle (afterDelay ret) s
  | .cleanup left e => cleanupCycle left e s

end Sys2Proof.Machine
end

