-- ==== Sys2Proof/Machine/HostPort.lean ====
section
/-!
DEFINITION. The host's side of a cycle: its register access, the offer of a CMD word, its memory writes, block reset, and
the move to the next cycle (10_state.md R30, 20_memory.md R71, R72, R87, 60_exceptions.md R264, 70_reset_and_hazards.md
R290, R292).
-/

namespace Sys2Proof.Machine

open Sys2Proof

/-- The host's register access in the present cycle, and its program from the next one on. SYNC reads STATUS and stays
until it has read ACTIVE = 0 (30_encoding.md R119). -/
def hostTurn (s : State) : Option Access × List HostStmt :=
  match (input s).host with
  | .idle => (none, s.env.prog)
  | .access a => (some a, s.env.prog)
  | .program =>
    match s.env.prog with
    | [] => (none, [])
    | .write r v :: rest => (some (.write 4 r.offset v), rest)
    | .read r :: rest => (some (.read 4 r.offset), rest)
    | .sync :: rest => (some (.read 4 Reg.status.offset), if active s then .sync :: rest else rest)

/-- A CMD write in the cycle that leads from `before` to `after` (60_exceptions.md R264): an overrun while ACTIVE is 1, in
the finishing cycle too (R268); else the word is offered and ACTIVE is 1 from the next cycle on (log 7). -/
def offerCmd (before after : State) (w : Word) : State :=
  if active before then { after with stat := { after.stat with overrun := true } }
  else { after with seq := { after.seq with op := some (cmdOp w), offer := some w, step := .idle } }

/-- A host write at an offset of the window: it lands at the end of its cycle (20_memory.md R72). Reserved offsets and
STATUS ignore it (10_state.md R28, R43). -/
def writeOffset (before after : State) (off : Nat) (v : Word) : State :=
  match Reg.ofOffset off with
  | none => after
  | some .status => after
  | some .cmd => offerCmd before after v
  | some .err => { after with stat := writeErr after.stat v }
  | some .irq => { after with stat := writeIrq before after v }
  | some r => { after with regs := writeParam r v after.regs }

/-- The host's access in the cycle that leads from `before` to `after`. A read returns the values at the end of the cycle
before (20_memory.md R72) and changes nothing but what the host has seen. -/
def hostAccess (before after : State) : Option Access → State
  | none => after
  | some (.read _ off) =>
    { after with
      env := { after.env with reads := after.env.reads ++ [(before.env.cycle, off, readOffset before off)] } }
  | some (.write _ off v) => writeOffset before after off v

/-- The host writes one byte of its memory; while an operation is offered or active, what the byte held is kept as the
value a racing read may still get (20_memory.md R87, log 6). -/
def hostMemWrite (s : State) (c : Word × Byte) : State :=
  { s with
    mem := memSet s.mem c.1.toNat c.2
    env := { s.env with
      raced := if active s then s.env.raced ++ [(c.1.toNat, memGet s.mem c.1.toNat)] else s.env.raced } }

/-- The end of a cycle: the next one begins, the host's program has moved on to `prog`, and no write races with an
operation that has finished. -/
def nextCycle (prog : List HostStmt) (s : State) : State :=
  { s with
    env := { s.env with
      cycle := s.env.cycle + 1, prog := prog, raced := if active s then s.env.raced else [] } }

/-- Everything the host does in the cycle in which the sequencer led from `before` to `after`. -/
def endCycle (before after : State) : State :=
  let turn := hostTurn before
  nextCycle turn.2 ((input before).memWrites.foldl hostMemWrite (hostAccess before after turn.1))

/-- A cycle with `blk_rst = 1` (70_reset_and_hazards.md R290, R292): every piece of the block's state takes its reset value
at once, with no event and no access accepted. What stands outside the block goes on (log 16). -/
def blockReset (s : State) : State :=
  let outside := (input s).memWrites.foldl hostMemWrite s
  { State.reset with
    build := s.build
    mem := outside.mem
    env := { s.env with cycle := s.env.cycle + 1, raced := [] } }

/-- The register access R71 does not permit, if the host makes one in the present cycle. -/
def badAccess (s : State) : Option (Nat × Nat) :=
  match (hostTurn s).1 with
  | none => none
  | some (.read size off) => if (Access.read size off).wf then none else some (size, off)
  | some (.write size off v) => if (Access.write size off v).wf then none else some (size, off)

/-- The state with the word offered as by a CMD write in the cycle before, and with nothing in the present cycle's script
that would keep it from being accepted now (log 17). -/
def offerWord (w : Word) (s : State) : State :=
  { s with
    seq := { s.seq with op := some (cmdOp w), offer := some w, step := .idle }
    env := { s.env with script := s.env.script.modify s.env.cycle fun i => { i with blkRst := false, host := .idle } } }

end Sys2Proof.Machine
end

