-- ==== Sys2Proof/Machine/Dispatch.lean ====
section
/-!
DEFINITION. The meaning of each operation: the cycle in which the sequencer accepts it (41_panel_sequencer.md R170) and does
its first statements. `Machine/Sequencer.lean` does the cycles after it.
-/

namespace Sys2Proof.Machine

open Sys2Proof

/-- One arm per row of spec/opcode_table.json. -/
def exec (i : Instr) (s : State) : Host.Outcome State Fault Refusal :=
  match i with
  | .init => Sys2Proof.Machine.execInit s
  | .sendCmd arg => Sys2Proof.Machine.execSendCmd arg s
  | .sendData arg => Sys2Proof.Machine.execSendData arg s
  | .reset => Sys2Proof.Machine.execReset s
  | .waitIdle => Sys2Proof.Machine.execWaitIdle s
  | .powerOn => Sys2Proof.Machine.execPowerOn s
  | .initRegs => Sys2Proof.Machine.execInitRegs s
  | .powerOff => Sys2Proof.Machine.execPowerOff s
  | .flush => Sys2Proof.Machine.execFlush s

end Sys2Proof.Machine
end

