-- ==== Sys2Proof/Machine/Step.lean ====
section
/-!
DEFINITION. One step of the machine is one block clock cycle (60_exceptions.md R271, R272).

In a cycle the sequencer accepts the offered word, or goes on with the running operation, or does nothing; then the host's
access and memory writes of that cycle take effect (20_memory.md R72).
-/

namespace Sys2Proof.Machine

open Sys2Proof

/-- What the sequencer does in a cycle. -/
def sequencerCycle (s : State) : Host.Outcome State Fault Refusal :=
  match s.seq.offer with
  | some w =>
    match decodeWord w with
    | some i => exec i s
    | none => .next (rejectIllegal w s)
  | none =>
    if !active s then .next s
    else if s.seq.step = .idle then .fault .lostCursor
    else .next (advance s)

/-- One block clock cycle. -/
def step (s : State) : Host.Outcome State Fault Refusal :=
  if (input s).blkRst then .next (blockReset s)
  else
    match badAccess s with
    | some (size, off) => .refused (.registerAccess size off)
    | none =>
      match sequencerCycle s with
      | .next t => .next (endCycle s t)
      | .fault r => .fault r
      | .refused r => .refused r

/-- The state whose next step accepts and runs the word: the host has written it to CMD in the cycle before
(41_panel_sequencer.md R170). -/
def State.withFetchWord (s : State) (nbits w : Nat) : State := offerWord (BitVec.ofNat 32 (w % 2 ^ nbits)) s

end Sys2Proof.Machine
end

