-- ==== Sys2Proof/Safety.lean ====
section
/-!
DEFINITION. What the statements say about states and runs: several cycles in a row, a host that leaves the block alone for
a while, an offered operation, and the invariant of the machine.
-/

namespace Sys2Proof.Machine

open Sys2Proof

/-! ## Runs -/

/-- `n` block clock cycles. -/
def cycles : Nat → State → Host.Outcome State Fault Refusal
  | 0, s => .next s
  | n + 1, s =>
    match step s with
    | .next t => cycles n t
    | .fault r => .fault r
    | .refused r => .refused r

/-- The events of a trace without their cycles. -/
def eventsOf (tr : List (Nat × Event)) : List Event := tr.map Prod.snd

/-- The outside world leaves the block and the host memory alone in this cycle; BUSY, `bus_fault` and the memory's answers
are whatever they are. -/
def quietInput (i : CycleIn) : Prop :=
  i.blkRst = false ∧ (i.host = .idle ∨ i.host = .program) ∧ i.memWrites = []

/-- The host is silent for the next `n` cycles. -/
def QuietFor (n : Nat) (s : State) : Prop :=
  s.env.prog = [] ∧ ∀ k < n, quietInput (inputAt s (s.env.cycle + k))

/-- The word was written to CMD in the cycle before and waits to be accepted (41_panel_sequencer.md R170). -/
def Offered (w : Word) (s : State) : Prop :=
  s.seq.op = some (cmdOp w) ∧ s.seq.offer = some w

/-- The conditions under which `Check` lets an operation other than INIT pass (60_exceptions.md R257). -/
def Operational (s : State) : Prop := s.stat.fatal = false ∧ s.stat.configured = true

/-- PanelState while no operation runs (10_state.md R25). -/
def Resting (p : PanelState) : Prop := p = .uninitialized ∨ p = .idle

/-- PanelState while a table is played (41_panel_sequencer.md R182 to R184). -/
def Powering (p : PanelState) : Prop := p = .poweringOn ∨ p = .poweringOff

/-- In the next `n` cycles no transfer fails, no memory read faults, and each read issued takes at most `latency` cycles. -/
def Faultless (n latency : Nat) (s : State) : Prop :=
  ∀ k < n, (inputAt s (s.env.cycle + k)).busFault = false ∧ (inputAt s (s.env.cycle + k)).draw.fault = false
    ∧ (inputAt s (s.env.cycle + k)).draw.latency ≤ latency

/-- The panel is not busy in the next `n` cycles. -/
def PanelReady (n : Nat) (s : State) : Prop :=
  ∀ k < n, busyLevel s.cfg (inputAt s (s.env.cycle + k)).pads = false

/-- The host has written these bytes at this address, and has not raced with them (20_memory.md R86). -/
def HoldsBytes (a : Nat) (bytes : List Byte) (s : State) : Prop :=
  s.env.raced = [] ∧ ∀ k, (h : k < bytes.length) → memGet s.mem (a + k) = some bytes[k]

/-! ## Operations -/

/-- The state after an operation was rejected, or ended with an error before it did anything: ERR.CODE, IRQ, the DONE event,
and the sequencer's private note of the acceptance (60_exceptions.md R259, R263). -/
def rejected (i : Instr) (code : Code) (s : State) : State :=
  { s with
    stat := { s.stat with code := code, irqDone := true, irqErr := true }
    seq := { s.seq with
      op := none, offer := none, pre := s.stat.panel, sent := false, csHeld := false, step := .idle }
    snap := snapshot i.opcode i.arg s.regs
    env := { s.env with trace := s.env.trace ++ [(s.env.cycle, .done i.opcode code)] } }

/-- POWER_ON, INIT_REGS, POWER_OFF: the operations that play a table, the PanelState each holds meanwhile, and its register
pair (41_panel_sequencer.md R182 to R184). -/
def tableOperations : List (Instr × PanelState × (Regs → Word × Word)) :=
  [(.powerOn, .poweringOn, fun g => (g.ponBase, g.ponLen)), (.initRegs, .poweringOn, fun g => (g.initBase, g.initLen)),
    (.powerOff, .poweringOff, fun g => (g.poffBase, g.poffLen))]

/-- The seventeen parameter registers: the name, the byte offset, the piece of state that the operations read, and the bits
that hold what is written (10_state.md R22, R29, R34 to R43). -/
def parameterRegisters : List (Reg × Nat × (Regs → Word) × Word) :=
  [(.ctrl, 0x00, Regs.ctrl, 0x00000007), (.cfgSize, 0x14, Regs.cfgSize, 0xFFFFFFFF),
    (.cfgBus, 0x18, Regs.cfgBus, 0x0000FF0F), (.pinmux0, 0x1C, Regs.pinmux0, 0x3F3F3F3F),
    (.pinmux1, 0x20, Regs.pinmux1, 0x003F3F3F), (.panelOpc, 0x24, Regs.panelOpc, 0x0000FFFF),
    (.fbBase, 0x28, Regs.fbBase, 0xFFFFFFFF), (.fbSize, 0x2C, Regs.fbSize, 0xFFFFFFFF),
    (.regionX, 0x30, Regs.regionX, 0xFFFFFFFF), (.regionY, 0x34, Regs.regionY, 0xFFFFFFFF),
    (.ponBase, 0x38, Regs.ponBase, 0xFFFFFFFF), (.ponLen, 0x3C, Regs.ponLen, 0xFFFFFFFF),
    (.initBase, 0x40, Regs.initBase, 0xFFFFFFFF), (.initLen, 0x44, Regs.initLen, 0xFFFFFFFF),
    (.poffBase, 0x48, Regs.poffBase, 0xFFFFFFFF), (.poffLen, 0x4C, Regs.poffLen, 0xFFFFFFFF),
    (.busyTimeout, 0x50, Regs.busyTimeout, 0xFFFFFFFF)]

/-- The events a record's play leaves when the panel is ready at once; `p` is the PanelState held (R181). -/
def recordEvents (p : PanelState) (r : Record) : List Event :=
  .tx .command r.cmd :: r.data.map (.tx .data)
    ++ if ctlWait r.ctl then [.panel .busy, .busySample false, .panel p] else []

/-- The cycles a record's transactions take, `h` being the half-period (70_reset_and_hazards.md R303). -/
def recordCycles (burst : Bool) (h : Nat) (r : Record) : Nat :=
  18 * h
    + if burst then (if r.data = [] then 0 else (16 * r.data.length + 2) * h) else 18 * h * r.data.length

/-- `ConfigLegal`, condition by condition (41_panel_sequencer.md R172). -/
structure LegalConfig (b : Build) (c : PanelConfig) : Prop where
  size : 1 ≤ c.width.toNat ∧ 1 ≤ c.height.toNat
  depth : c.depth.toNat = 1 ∨ c.depth.toNat = 2 ∨ c.depth.toNat = 4 ∨ c.depth.toNat = 8
  rows : c.width.toNat * c.depth.toNat % 8 = 0
  pads : ∀ p ∈ [c.csPad, c.dcPad, c.clkPad, c.mosiPad, c.rstPad, c.busyPad], p.toNat < padCount b
  miso : c.misoPad.toNat = 63 ∨ c.misoPad.toNat < padCount b
  distinct : ([c.csPad, c.dcPad, c.clkPad, c.mosiPad, c.misoPad, c.rstPad, c.busyPad].filter (·.toNat ≠ 63)).Nodup

/-- The levels of the four transport lines in the `j`-th of the 18 phases of a transaction that is framed alone
(40_bus_transport.md R137 to R139); `rst_n` is no part of it. -/
def framePins (k : Kind) (b : Byte) (j : Nat) (rstN : Bool) : Pins :=
  if j = 0 ∨ j = 17 then { csN := true, sclk := false, mosi := false, dc := k == .data, rstN := rstN }
  else
    { csN := false, sclk := j % 2 == 0, mosi := b.getLsbD (7 - (j - 1) / 2), dc := k == .data, rstN := rstN }

/-- The bytes that cover a region, row by row and column by column (42_flush_engine.md R226). -/
def regionBytes (bytes : Nat → Nat → Byte) (y1 y2 lo hi : Nat) : List Byte :=
  (List.range' y1 (y2 + 1 - y1)).flatMap fun y => (List.range' lo (hi + 1 - lo)).map fun x => bytes y x

/-- The last cycle of the last statement of a record's play before its busy-poll or the next record
(41_panel_sequencer.md R181): a burst run's phase E, a command byte without data, or the last data byte framed alone. -/
def RecordEnds (s : State) : Prop :=
  s.seq.step = .runEnd 0 .play
  ∨ (∃ b, s.seq.step = .tx .command b .e 0 false .playCmd ∧ s.seq.rlen = 0)
  ∨ ∃ b, s.seq.step = .tx .data b .e 0 false .playData ∧ s.seq.rlen.toNat ≤ s.seq.ri + 1

/-- The next cycle enters a busy-poll of the player or of FLUSH (41_panel_sequencer.md R181, 42_flush_engine.md R227). -/
def PollFollows (r : PollRet) (s : State) : Prop :=
  match r with
  | .waitIdle => False
  | .play => ctlWait s.seq.rctl = true ∧ RecordEnds s
  | .flush => ∃ b, s.seq.step = .tx .command b .e 0 false .flushRefresh

/-- What a busy-poll that is entered in the present cycle has changed when it ends, in the cycle of its last sample: `n`
samples read 1, `POLL_MS` apart, the last one reads `level`, and PanelState is back (41_panel_sequencer.md R177, R179). -/
def pollEnded (n : Nat) (level : Bool) (s : State) : State :=
  let d := pollMs s.build * clkPerMs s.build
  { s with
    seq := { s.seq with
      prior := s.stat.panel, waited := n * pollMs s.build, polls := n + 1
      timer := if n = 0 then s.seq.timer else 0 }
    env := { s.env with
      cycle := s.env.cycle + n * d
      trace := s.env.trace ++ [(s.env.cycle, .panel .busy)]
        ++ (List.range n).map (fun j => (s.env.cycle + j * d, .busySample true))
        ++ [(s.env.cycle + n * d, .busySample level), (s.env.cycle + n * d, .panel s.stat.panel)] } }

/-- Where a burst run of data bytes goes on after a byte: the read of the next one (40_bus_transport.md R142). -/
def RunGoesOn (s : State) (r : TxRet) (a : Nat) (next : ReadRet) : Prop :=
  (r = .playData ∧ next = .playData ∧ s.seq.ri + 1 < s.seq.rlen.toNat ∧ a = s.seq.tp + 3 + (s.seq.ri + 1))
  ∨ (r = .flushData ∧ next = .flushData ∧ s.seq.bx < s.seq.bxhi ∧ a = fbAddress s.cfg s.snap s.seq.y (s.seq.bx + 1))
  ∨ (r = .flushData ∧ next = .flushData ∧ s.seq.bx = s.seq.bxhi ∧ s.seq.y < s.snap.y2.toNat
    ∧ a = fbAddress s.cfg s.snap (s.seq.y + 1) s.seq.bxlo)

/-- A burst run of data bytes ends after a byte (40_bus_transport.md R141, R142). -/
def RunEnds (s : State) (r : TxRet) (q : RunRet) : Prop :=
  (r = .send ∧ q = .send) ∨ (r = .playData ∧ q = .play ∧ s.seq.rlen.toNat ≤ s.seq.ri + 1)
  ∨ (r = .flushData ∧ q = .flush ∧ s.seq.bx = s.seq.bxhi ∧ s.seq.y = s.snap.y2.toNat)

/-- The end of a fatal error with the bus free, in the present cycle (60_exceptions.md R258, R261, R263). -/
def fatallyEnded (op : Byte) (e : Code) (s : State) : State :=
  { s with
    stat := { s.stat with fatal := true, panel := .uninitialized, code := e, irqDone := true, irqErr := true }
    seq := { s.seq with op := none, step := .idle }
    env := { s.env with
      trace := s.env.trace
        ++ (if s.stat.panel = .uninitialized then [] else [(s.env.cycle, .panel .uninitialized)])
        ++ [(s.env.cycle, .done op e)] } }

/-- The end of an error that is not fatal, in the present cycle (60_exceptions.md R258, R260, R263). -/
def softlyEnded (op : Byte) (e : Code) (s : State) : State :=
  { s with
    stat := { s.stat with panel := s.seq.pre, code := e, irqDone := true, irqErr := true }
    seq := { s.seq with op := none, step := .idle }
    env := { s.env with
      trace := s.env.trace ++ (if s.stat.panel = s.seq.pre then [] else [(s.env.cycle, .panel s.seq.pre)])
        ++ [(s.env.cycle, .done op e)] } }

/-- A fatal error has started its cleanup phase E, because a burst run holds CS (60_exceptions.md R262). -/
def cleanupStarted (e : Code) (s : State) : State :=
  { s with
    pins := { s.pins with csN := true, sclk := false, mosi := false }
    seq := { s.seq with csHeld := false, step := .cleanup (s.cfg.clkdiv.toNat + 1 - 1) e } }

/-! ## The transitions of PanelState (41_panel_sequencer.md R185), block reset apart -/

/-- One transition of the table. A PanelState already held is not entered again (10_state.md R24). -/
def PanelMove (p q : PanelState) : Bool :=
  match p, q with
  | .uninitialized, .resetting => true
  | .uninitialized, .busy => true
  | .resetting, .idle => true
  | .idle, .uninitialized => true
  | .idle, .resetting => true
  | .idle, .poweringOn => true
  | .idle, .poweringOff => true
  | .idle, .busy => true
  | .poweringOn, .idle => true
  | .poweringOn, .busy => true
  | .poweringOn, .uninitialized => true
  | .poweringOff, .idle => true
  | .poweringOff, .busy => true
  | .poweringOff, .uninitialized => true
  | .busy, .uninitialized => true
  | .busy, .idle => true
  | .busy, .poweringOn => true
  | .busy, .poweringOff => true
  | _, _ => false

/-- The PanelStates that a trace's STATE events lead through, from `p`. -/
def panelPath (p : PanelState) : List Event → List PanelState
  | [] => [p]
  | .panel q :: rest => p :: panelPath q rest
  | .tx _ _ :: rest => panelPath p rest
  | .rstPin _ :: rest => panelPath p rest
  | .busySample _ :: rest => panelPath p rest
  | .done _ _ :: rest => panelPath p rest

/-- Each PanelState of a path follows the one before it by a transition of R185. -/
def pathLegal : List PanelState → Bool
  | p :: q :: rest => PanelMove p q && pathLegal (q :: rest)
  | _ => true

/-! ## The invariant -/

/-- The reserved bits of the parameter registers read 0 (10_state.md R22, R29, R35 to R38). -/
def RegsInv (r : Regs) : Prop :=
  r.ctrl &&& writable .ctrl = r.ctrl ∧ r.cfgBus &&& writable .cfgBus = r.cfgBus
    ∧ r.pinmux0 &&& writable .pinmux0 = r.pinmux0 ∧ r.pinmux1 &&& writable .pinmux1 = r.pinmux1
    ∧ r.panelOpc &&& writable .panelOpc = r.panelOpc

/-- PanelState at a statement of the pseudocode, given `s.pre` and `s.prior` (10_state.md R23, R44, R46). -/
def PanelAt (q : Seq) (p : PanelState) : Prop :=
  match q.step with
  | .idle => Resting p
  | .tx _ _ _ _ _ .send => p = q.pre
  | .tx _ _ _ _ _ .playCmd => Powering p ∧ q.pre = .idle
  | .tx _ _ _ _ _ .playData => Powering p ∧ q.pre = .idle
  | .tx _ _ _ _ _ .flushWriteRam => p = .idle ∧ q.pre = .idle
  | .tx _ _ _ _ _ .flushData => p = .idle ∧ q.pre = .idle
  | .tx _ _ _ _ _ .flushRefresh => p = .idle ∧ q.pre = .idle
  | .runEnd _ .send => p = q.pre
  | .runEnd _ .play => Powering p ∧ q.pre = .idle
  | .runEnd _ .flush => p = .idle ∧ q.pre = .idle
  | .read _ _ _ (.checkCtl next _) => p = .idle ∧ q.pre = .idle ∧ Powering next
  | .read _ _ _ (.checkLen next _ _) => p = .idle ∧ q.pre = .idle ∧ Powering next
  | .read _ _ _ .playCmd => Powering p ∧ q.pre = .idle
  | .read _ _ _ .playCtl => Powering p ∧ q.pre = .idle
  | .read _ _ _ .playLen => Powering p ∧ q.pre = .idle
  | .read _ _ _ .playData => Powering p ∧ q.pre = .idle
  | .read _ _ _ .flushData => p = .idle ∧ q.pre = .idle
  | .delay .resetLow => p = .resetting
  | .delay .resetHigh => p = .resetting
  | .delay (.poll .waitIdle) => p = .busy ∧ q.prior = q.pre
  | .delay (.poll .play) => p = .busy ∧ Powering q.prior ∧ q.pre = .idle
  | .delay (.poll .flush) => p = .busy ∧ q.prior = .idle ∧ q.pre = .idle
  | .cleanup _ _ => p = .idle ∨ p = .uninitialized ∨ Powering p

/-- Which sequencer states a block can be in: at rest, with a word offered, or with an operation running. -/
structure ControlInv (s : State) : Prop where
  /-- At rest nothing is offered and the cursor is at no statement. -/
  rest : s.seq.op = none → s.seq.offer = none ∧ s.seq.step = .idle
  /-- An offered word's OP byte is `s.op`, and no statement has begun. -/
  offered : ∀ w, s.seq.offer = some w → s.seq.op = some (cmdOp w) ∧ s.seq.step = .idle
  /-- A running operation is at a statement; it was let pass by `Check`. -/
  running : s.seq.op ≠ none → s.seq.offer = none →
    s.seq.step ≠ .idle ∧ s.stat.configured = true ∧ s.stat.fatal = false ∧ Resting s.seq.pre
  /-- PanelState fits the statement. -/
  panel : PanelAt s.seq s.stat.panel
  /-- FATAL implies CONFIGURED, and Uninitialized (60_exceptions.md R261). -/
  fatal : s.stat.fatal = true → s.stat.configured = true ∧ s.stat.panel = .uninitialized
  /-- Before the first INIT, PanelState is Uninitialized (41_panel_sequencer.md R186). -/
  unconfigured : s.stat.configured = false → s.stat.panel = .uninitialized
  /-- A latched configuration is legal (41_panel_sequencer.md R172). -/
  config : s.stat.configured = true → configLegal s.build s.cfg = true

/-- The lines between two transactions, with `rst_n` inactive (40_bus_transport.md R134). -/
def IdlePins (p : Pins) : Prop := p.csN = true ∧ p.sclk = false ∧ p.mosi = false ∧ p.rstN = true

/-- The levels of the output signals at a statement (40_bus_transport.md R134, R137 to R142, 41_panel_sequencer.md R174). -/
def PinsAt (q : Seq) (n : Snap) (p : Pins) : Prop :=
  match q.step with
  | .idle => IdlePins p
  | .tx k _ .p _ _ _ => IdlePins p ∧ p.dc = (k == .data) ∧ q.csHeld = false
  | .tx k b (.low i) _ _ _ =>
    p.csN = false ∧ p.sclk = false ∧ p.mosi = b.getLsbD i ∧ p.dc = (k == .data) ∧ p.rstN = true ∧ i ≤ 7
      ∧ (q.csHeld = true → k = .data ∧ n.burst = true)
  | .tx k b (.high i) _ _ _ =>
    p.csN = false ∧ p.sclk = true ∧ p.mosi = b.getLsbD i ∧ p.dc = (k == .data) ∧ p.rstN = true ∧ i ≤ 7
      ∧ (q.csHeld = true → k = .data ∧ n.burst = true)
  | .tx k _ .e _ _ _ => IdlePins p ∧ p.dc = (k == .data) ∧ q.csHeld = false
  | .runEnd _ _ => IdlePins p ∧ p.dc = true ∧ q.csHeld = false
  | .read _ _ _ _ =>
    p.sclk = false ∧ p.rstN = true ∧ p.csN = !q.csHeld
      ∧ (q.csHeld = true → n.burst = true ∧ p.dc = true) ∧ (q.csHeld = false → p.mosi = false)
  | .delay .resetLow => p.csN = true ∧ p.sclk = false ∧ p.mosi = false ∧ p.rstN = false ∧ q.csHeld = false
  | .delay .resetHigh => IdlePins p ∧ q.csHeld = false
  | .delay (.poll _) => IdlePins p ∧ q.csHeld = false
  | .cleanup _ _ => IdlePins p ∧ q.csHeld = false

/-- Which statements a held CS can stand at: those of a run of data bytes inside a burst (40_bus_transport.md R141). -/
def HeldAt (st : Step) : Prop :=
  match st with
  | .tx _ _ _ _ _ .send => True
  | .tx _ _ _ _ _ .playData => True
  | .tx _ _ _ _ _ .flushData => True
  | .read _ _ _ .playData => True
  | .read _ _ _ .flushData => True
  | _ => False

/-- The kind of transaction each `SpiTx` statement sends (40_bus_transport.md R145, R146, 41_panel_sequencer.md R181,
42_flush_engine.md R221). -/
def TxKind (r : TxRet) (k : Kind) : Prop :=
  match r with
  | .send => True
  | .playCmd => k = .command
  | .playData => k = .data
  | .flushWriteRam => k = .command
  | .flushData => k = .data
  | .flushRefresh => k = .command

/-- What is known of a transaction's progress: its kind fits the statement that sent it, a phase's count is below `h`, the
operation has started a transaction, and a bus fault is known only once it has been sampled. -/
def TxAt (q : Seq) (c : PanelConfig) (n : Snap) : Prop :=
  match q.step with
  | .tx k _ ph left failed r =>
    left < halfPeriod c ∧ q.sent = true ∧ (failed = true → ph = .e ∨ (ph = .high 0 ∧ left = 0))
      ∧ (ph = .high 0 ∧ left = 0 → q.csHeld = (k == .data && n.burst))
      ∧ TxKind r k
  | .runEnd left _ => left < halfPeriod c ∧ q.sent = true
  | .cleanup left e => left < halfPeriod c ∧ q.sent = true ∧ isFatal e true = true
  | _ => True

/-- The bus side of the invariant. -/
structure BusInv (s : State) : Prop where
  /-- While the pads are driven, their levels are those of the statement. -/
  pins : s.stat.configured = true → PinsAt s.seq s.snap s.pins
  /-- A held CS stands inside a run of data bytes. -/
  held : s.seq.csHeld = true → s.seq.sent = true ∧ HeldAt s.seq.step
  tx : TxAt s.seq s.cfg s.snap

/-- The table that is being played lies inside the address space, and the record at `s.tp` inside the table. -/
def PlayTable (q : Seq) (n : Snap) : Prop :=
  n.base.toNat ≤ q.tp ∧ q.tend = n.base.toNat + n.len.toNat ∧ q.tend ≤ 2 ^ 32

/-- FLUSH's checks have passed and its columns are set (42_flush_engine.md R222, R223, 60_exceptions.md R253). -/
def FlushGeometry (q : Seq) (c : PanelConfig) (n : Snap) : Prop :=
  regionValid c n = true ∧ bufferUsable c n = true ∧ q.bxlo = firstColumn c n ∧ q.bxhi = lastColumn c n

/-- FLUSH's cursor is inside the region. -/
def FlushCursor (q : Seq) (n : Snap) : Prop :=
  n.y1.toNat ≤ q.y ∧ q.y ≤ n.y2.toNat ∧ q.bxlo ≤ q.bx ∧ q.bx ≤ q.bxhi

/-- What the addresses of an operation's reads are (20_memory.md R75, R83, 41_panel_sequencer.md R181, 30_encoding.md R114). -/
def ReadsAt (q : Seq) (c : PanelConfig) (n : Snap) : Prop :=
  match q.step with
  | .read a _ _ (.checkCtl _ o) =>
    a = n.base.toNat + o + 1 ∧ o + 3 ≤ n.len.toNat ∧ n.base.toNat + n.len.toNat ≤ 2 ^ 32
  | .read a _ _ (.checkLen _ o _) =>
    a = n.base.toNat + o + 2 ∧ o + 3 ≤ n.len.toNat ∧ n.base.toNat + n.len.toNat ≤ 2 ^ 32
  | .read a _ _ .playCmd => a = q.tp ∧ PlayTable q n ∧ q.tp + 3 ≤ q.tend
  | .read a _ _ .playCtl => a = q.tp + 1 ∧ PlayTable q n ∧ q.tp + 3 ≤ q.tend
  | .read a _ _ .playLen => a = q.tp + 2 ∧ PlayTable q n ∧ q.tp + 3 ≤ q.tend
  | .read a _ _ .playData =>
    a = q.tp + 3 + q.ri ∧ PlayTable q n ∧ q.ri < q.rlen.toNat ∧ q.tp + 3 + q.rlen.toNat ≤ q.tend
  | .read a _ _ .flushData => a = fbAddress c n q.y q.bx ∧ FlushGeometry q c n ∧ FlushCursor q n
  | .tx _ _ _ _ _ .playCmd => PlayTable q n ∧ q.tp + 3 + q.rlen.toNat ≤ q.tend
  | .tx _ _ _ _ _ .playData => PlayTable q n ∧ q.tp + 3 + q.rlen.toNat ≤ q.tend
  | .tx _ _ _ _ _ .flushWriteRam => FlushGeometry q c n
  | .tx _ _ _ _ _ .flushData => FlushGeometry q c n ∧ FlushCursor q n
  | .runEnd _ .play => PlayTable q n ∧ q.tp + 3 + q.rlen.toNat ≤ q.tend
  | .delay (.poll .play) => PlayTable q n ∧ q.tp + 3 + q.rlen.toNat ≤ q.tend
  | _ => True

/-- The invariant of the machine: it holds at reset, and every step keeps it. -/
structure Inv (s : State) : Prop where
  memory : Memory.wf s.mem = true
  regs : RegsInv s.regs
  control : ControlInv s
  bus : BusInv s
  reads : ReadsAt s.seq s.cfg s.snap

end Sys2Proof.Machine
end

