-- ==== Sys2Proof/Certificates/Slice0/Obligations.lean ====
section
/-!
DEFINITION. The statements for the provers. Each docstring names the rules of the spec it rests on; where a statement rests
on a choice of the model it says so and names the log entry.

`s.env.cycle` is the number of the cycle that the next step makes, `inputAt s c` is what the outside world does in cycle `c`.
An operation is accepted in the cycle `t0` that `exec` makes; `cycles n (endCycle s t)` are the `n` cycles after it.

A whole state also holds fields that no output shows and that the spec leaves to the model in part: the cursor is at no
statement after a finish (log 12), `s.timer` counts the cycles after the present one (log 24), `s.cs_held` changes in the
cycles of log 9, a read's answer is drawn in its first cycle (log 14), `env.raced` is the model's own (log 6), and the loop
variables `s.y` and `s.bx` keep their last values after their loops (log 25).
-/

open Sys2Proof Sys2Proof.Machine

/-! ## Encoding -/

/-- R106, the full-word encodings of the nine operations. -/
def Obligations.OperationWordsDecode : Prop :=
  decodeWord 0x00000001 = some .init
  ∧ (∀ nn : Byte, decodeWord (0x00000002 + 0x100 * nn.setWidth 32) = some (.sendCmd nn))
  ∧ (∀ nn : Byte, decodeWord (0x00000003 + 0x100 * nn.setWidth 32) = some (.sendData nn))
  ∧ decodeWord 0x00000004 = some .reset ∧ decodeWord 0x00000005 = some .waitIdle
  ∧ decodeWord 0x00000006 = some .powerOn ∧ decodeWord 0x00000007 = some .initRegs
  ∧ decodeWord 0x00000008 = some .powerOff ∧ decodeWord 0x00000009 = some .flush

/-- R101 to R106: every operation with every operand is read back from its word, and a word that is read as an operation is
that operation's one word. -/
def Obligations.DecodeAndEncodeAgree : Prop :=
  (∀ i : Instr, i.wf = true → decodeWord (encode i) = some i)
  ∧ ∀ (w : Word) (i : Instr), decodeWord w = some i → i.wf = true ∧ encode i = w

/-- R103, R104, R107: which words are illegal, and that offering one ends in its accept cycle with ILLEGAL_OP and changes
nothing but what `Finish` writes (R263) and the sequencer's note of the acceptance (R170, R51), with the step of that cycle.
That the snapshot's table pair is taken by the OP byte of an illegal word too is the model's choice (log 11). The cursor's
value after the finish is the model's choice (log 12). -/
def Obligations.IllegalWordIsRejected : Prop :=
  ∀ (w : Word) (s t : State),
    (w.extractLsb' 16 16 ≠ 0
      ∨ (w.extractLsb' 0 8 ≠ 0x02 ∧ w.extractLsb' 0 8 ≠ 0x03 ∧ w.extractLsb' 8 8 ≠ 0)
      ∨ w.extractLsb' 0 8 = 0x00 ∨ 0x0A ≤ (w.extractLsb' 0 8).toNat) →
    t = { s with
      stat := { s.stat with code := .illegalOp, irqDone := true, irqErr := true }
      seq := { s.seq with
        op := none, offer := none, pre := s.stat.panel, sent := false, csHeld := false, step := .idle }
      snap := snapshot (w.extractLsb' 0 8) (w.extractLsb' 8 8) s.regs
      env := { s.env with
        trace := s.env.trace ++ [(s.env.cycle, .done (w.extractLsb' 0 8) .illegalOp)] } } →
    decodeWord w = none
    ∧ (s.seq.offer = some w →
      sequencerCycle s = .next t
      ∧ ((input s).blkRst = false → badAccess s = none → step s = .next (endCycle s t)))

/-- R110, R113: the records of a table are read back from its bytes, and a byte sequence that parses is the bytes of exactly
the records it parses to. -/
def Obligations.SequenceTableRoundTrips : Prop :=
  ∀ (bytes : List Byte) (rs : List Record),
    parseTable bytes = some rs ↔ encodeTable rs = bytes ∧ ∀ r ∈ rs, r.data.length ≤ 255

/-! ## The step -/

/-- A step in which a word is offered runs the operation it decodes to, and then the host's actions of that cycle
(R170, R72); `withFetchWord` offers a word so. The clause about `withFetchWord` rests on log 17. -/
def Obligations.StepRunsTheOfferedOperation : Prop :=
  (∀ (s : State) (w : Word) (i : Instr), (input s).blkRst = false → badAccess s = none →
    s.seq.offer = some w → decodeWord w = some i →
    ∃ t, exec i s = .next t ∧ step s = .next (endCycle s t))
  ∧ ∀ (s : State) (n w : Nat) (i : Instr), decodeTableWord n w = some i →
    ∃ t, exec i (s.withFetchWord n w) = .next t
      ∧ step (s.withFetchWord n w) = .next (endCycle (s.withFetchWord n w) t)

/-- A step in which no word is offered lets the running operation go on by one cycle, and does nothing while none runs
(R290: "after reset it does nothing until the host writes CMD"; R272). -/
def Obligations.StepWithoutOffer : Prop :=
  ∀ s : State, (input s).blkRst = false → badAccess s = none → s.seq.offer = none →
    (s.seq.op = none → step s = .next (endCycle s s))
    ∧ (s.seq.op ≠ none → s.seq.step ≠ .idle → step s = .next (endCycle s (advance s)))

/-- R264, R30: a CMD write while ACTIVE is 0 offers its word, with ACTIVE read as 1 from the next cycle on; while ACTIVE is 1
it sets OVERRUN and changes nothing else. That ACTIVE_OP (R28, R44) also shows the OP byte from that next cycle on is the
model's reading (log 7). Where the host writes its memory in the same cycle, what memory holds is left to
BlockNeverWritesHostMemory. That the cursor stands at no statement while the word waits is the model's choice (log 12). -/
def Obligations.CmdWriteOffersOrOverruns : Prop :=
  ∀ (s u : State) (w : Word), (input s).blkRst = false → (hostTurn s).1 = some (.write 4 0x08 w) →
    sequencerCycle s = .next u →
    (active s = false → s.seq.offer = none →
      ∃ t, step s = .next t
        ∧ t = { s with
          seq := { s.seq with op := some (w.extractLsb' 0 8), offer := some w, step := .idle }
          mem := t.mem
          env := { s.env with cycle := s.env.cycle + 1, prog := (hostTurn s).2, raced := t.env.raced } }
        ∧ ((input s).memWrites = [] → t.mem = s.mem ∧ t.env.raced = s.env.raced)
        ∧ (statusWord t).getLsbD 3 = true ∧ (statusWord t).extractLsb' 8 8 = w.extractLsb' 0 8)
    ∧ (active s = true →
      ∃ t, step s = .next t
        ∧ t = { u with
          stat := { u.stat with overrun := true }
          mem := t.mem
          env := { u.env with cycle := u.env.cycle + 1, prog := (hostTurn s).2, raced := t.env.raced } }
        ∧ ((input s).memWrites = [] →
          t.mem = u.mem ∧ t.env.raced = if u.seq.op = none then [] else u.env.raced))

/-! ## Acceptance -/

/-- R186, R257: an operation other than INIT is rejected with HALTED while FATAL is 1, else with NOT_CONFIGURED while
CONFIGURED is 0, else with INVALID_STATE in a PanelState it is not accepted in; a rejection has no effect but its finish
(R259). The cursor's value after the finish is the model's choice (log 12). -/
def Obligations.RejectionsFollowTheAcceptanceMatrix : Prop :=
  ∀ (s : State) (i : Instr), i ≠ .init →
    (s.stat.fatal = true → exec i s = .next (rejected i .halted s))
    ∧ (s.stat.fatal = false → s.stat.configured = false → exec i s = .next (rejected i .notConfigured s))
    ∧ (s.stat.fatal = false → s.stat.configured = true →
      (i = .powerOn ∨ i = .initRegs ∨ i = .powerOff ∨ i = .flush) → s.stat.panel ≠ .idle →
      exec i s = .next (rejected i .invalidState s))
    ∧ (s.stat.fatal = false → s.stat.configured = true →
      ¬(i = .powerOn ∨ i = .initRegs ∨ i = .powerOff ∨ i = .flush) → s.stat.panel ≠ .uninitialized →
      s.stat.panel ≠ .idle → exec i s = .next (rejected i .invalidState s))

/-- R51: the snapshot an accepted operation reads, register field by register field; the operation then reads no register
(what it does in a cycle is the same whatever the registers hold). -/
def Obligations.OperationReadsOnlyItsSnapshot : Prop :=
  (∀ (i : Instr) (s t : State), exec i s = .next t →
    t.snap.arg = i.arg ∧ t.snap.burst = s.regs.ctrl.getLsbD 0
    ∧ t.snap.writeRam = s.regs.panelOpc.extractLsb' 0 8 ∧ t.snap.refresh = s.regs.panelOpc.extractLsb' 8 8
    ∧ t.snap.fbBase = s.regs.fbBase ∧ t.snap.fbSize = s.regs.fbSize
    ∧ t.snap.x1 = s.regs.regionX.extractLsb' 0 16 ∧ t.snap.x2 = s.regs.regionX.extractLsb' 16 16
    ∧ t.snap.y1 = s.regs.regionY.extractLsb' 0 16 ∧ t.snap.y2 = s.regs.regionY.extractLsb' 16 16
    ∧ t.snap.timeout = s.regs.busyTimeout
    ∧ (t.snap.base, t.snap.len) =
      match i with
      | .powerOn => (s.regs.ponBase, s.regs.ponLen)
      | .initRegs => (s.regs.initBase, s.regs.initLen)
      | .powerOff => (s.regs.poffBase, s.regs.poffLen)
      | _ => (0, 0))
  ∧ (∀ (s : State), (advance s).snap = s.snap)
  ∧ ∀ (s : State) (g : Regs), advance { s with regs := g } = { advance s with regs := g }

/-! ## INIT -/

/-- R171, R172: INIT latches a legal configuration and takes the pins, or ends with BAD_CONFIG; both finish in the accept
cycle, and nothing else changes but the sequencer's note of the acceptance (R170, R51) and what `Finish` writes (R263). The
cursor's value after the finish is the model's choice (log 12). -/
def Obligations.InitLatchesOrRejects : Prop :=
  ∀ (s : State) (c : PanelConfig),
    c.width = s.regs.cfgSize.extractLsb' 0 16 → c.height = s.regs.cfgSize.extractLsb' 16 16 →
    c.depth = s.regs.cfgBus.extractLsb' 0 4 → c.clkdiv = s.regs.cfgBus.extractLsb' 8 8 →
    c.csPad = s.regs.pinmux0.extractLsb' 0 6 → c.dcPad = s.regs.pinmux0.extractLsb' 8 6 →
    c.clkPad = s.regs.pinmux0.extractLsb' 16 6 → c.mosiPad = s.regs.pinmux0.extractLsb' 24 6 →
    c.misoPad = s.regs.pinmux1.extractLsb' 0 6 → c.rstPad = s.regs.pinmux1.extractLsb' 8 6 →
    c.busyPad = s.regs.pinmux1.extractLsb' 16 6 →
    (LegalConfig s.build c →
      exec .init s = .next { s with
        cfg := c
        pins := { csN := true, sclk := false, mosi := false, dc := false, rstN := true }
        stat := { s.stat with
          configured := true, fatal := false, panel := .uninitialized, code := .none, irqDone := true }
        seq := { s.seq with
          op := none, offer := none, pre := s.stat.panel, sent := false, csHeld := false, step := .idle }
        snap := snapshot 0x01 0 s.regs
        env := { s.env with
          trace := s.env.trace
            ++ (if s.stat.panel = .uninitialized then [] else [(s.env.cycle, .panel .uninitialized)])
            ++ [(s.env.cycle, .done 0x01 .none)] } })
    ∧ (¬LegalConfig s.build c → exec .init s = .next (rejected .init .badConfig s))

/-! ## The bus transport -/

/-- R145, R146, R303: SEND_CMD and SEND_DATA send their byte in one transaction of `18 * h` cycles, its TX event in cycle `t0 +
17 * h - 1`, and finish in cycle `t0 + 18 * h` with code 0, in both burst settings; everything they change. The cursor's value
after the finish is the model's choice (log 12). -/
def Obligations.SendRunsOneTransaction : Prop :=
  ∀ (s : State) (b : Byte) (i : Instr) (k : Kind) (h : Nat),
    (i = .sendCmd b ∧ k = .command ∨ i = .sendData b ∧ k = .data) → h = s.cfg.clkdiv.toNat + 1 →
    Operational s → Resting s.stat.panel → QuietFor (18 * h + 1) s →
    (inputAt s (s.env.cycle + (17 * h - 1))).busFault = false →
    ∃ t, exec i s = .next t
      ∧ cycles (18 * h) (endCycle s t) = .next { s with
        stat := { s.stat with code := .none, irqDone := true }
        seq := { s.seq with
          op := none, offer := none, pre := s.stat.panel, sent := true, csHeld := false, step := .idle }
        snap := snapshot i.opcode b s.regs
        pins := { s.pins with csN := true, sclk := false, mosi := false, dc := k == .data }
        env := { s.env with
          cycle := s.env.cycle + 18 * h + 1, raced := []
          trace := s.env.trace
            ++ [(s.env.cycle + (17 * h - 1), .tx k b), (s.env.cycle + 18 * h, .done i.opcode .none)] } }

/-- R137, R138, R139, R143: every transaction outside a burst run, from the state after the first cycle of its phase P on: phase
P, the 16 bit phases from bit 7 down, and phase E, each `h` cycles long; in the last cycle of `H_0` its `TX` event is emitted
and the bus-fault input sampled. -/
def Obligations.TransactionWaveform : Prop :=
  ∀ (s : State) (k : Kind) (b : Byte) (r : TxRet) (h n : Nat), Inv s → s.seq.op ≠ none → s.seq.offer = none →
    h = s.cfg.clkdiv.toNat + 1 → s.seq.step = .tx k b .p (h - 1) false r → ¬(k = .data ∧ s.snap.burst = true) →
    n < 18 * h → QuietFor n s →
    ∃ u, cycles n s = .next u ∧ u.pins = framePins k b (n / h) true
      ∧ u.env.trace = s.env.trace ++ (if 17 * h - 1 ≤ n then [(s.env.cycle + (17 * h - 2), .tx k b)] else [])
      ∧ (n = 18 * h - 1 → u.seq.step = .tx k b .e 0 (inputAt s (s.env.cycle + (17 * h - 2))).busFault r)

/-- R145, R146: the levels of the transport lines in every cycle of a SEND operation from its accept cycle on, in both burst
settings. -/
def Obligations.SendWaveform : Prop :=
  ∀ (s : State) (b : Byte) (i : Instr) (k : Kind) (h n : Nat),
    (i = .sendCmd b ∧ k = .command ∨ i = .sendData b ∧ k = .data) → h = s.cfg.clkdiv.toNat + 1 → n < 18 * h →
    Operational s → Resting s.stat.panel → QuietFor (n + 1) s →
    ∃ t u, exec i s = .next t ∧ cycles n (endCycle s t) = .next u
      ∧ u.pins = framePins k b (n / h) s.pins.rstN

/-- R252, R261: a transaction whose bus-fault sample is 1 completes its frame and ends its operation with BUS_TRANSACTION:
FATAL is set and PanelState is Uninitialized. The cursor's value after the finish is the model's choice (log 12). -/
def Obligations.BusFaultIsFatal : Prop :=
  ∀ (s : State) (b : Byte) (i : Instr) (k : Kind) (h : Nat),
    (i = .sendCmd b ∧ k = .command ∨ i = .sendData b ∧ k = .data) → h = s.cfg.clkdiv.toNat + 1 →
    Operational s → Resting s.stat.panel → QuietFor (18 * h + 1) s →
    (inputAt s (s.env.cycle + (17 * h - 1))).busFault = true →
    ∃ t, exec i s = .next t
      ∧ cycles (18 * h) (endCycle s t) = .next { s with
        stat := { s.stat with
          code := .busTransaction, irqDone := true, irqErr := true, fatal := true, panel := .uninitialized }
        seq := { s.seq with
          op := none, offer := none, pre := s.stat.panel, sent := true, csHeld := false, step := .idle }
        snap := snapshot i.opcode b s.regs
        pins := { s.pins with csN := true, sclk := false, mosi := false, dc := k == .data }
        env := { s.env with
          cycle := s.env.cycle + 18 * h + 1, raced := []
          trace := s.env.trace ++ [(s.env.cycle + (17 * h - 1), .tx k b)]
            ++ (if s.stat.panel = .uninitialized then [] else [(s.env.cycle + 18 * h, .panel .uninitialized)])
            ++ [(s.env.cycle + 18 * h, .done i.opcode .busTransaction)] } }

/-- R252, R143, R229, R262: every transaction whose bus-fault sample was 1, of every operation: in the cycle after its last one
the operation ends with BUS_TRANSACTION, fatally, or, inside a burst run, starts the cleanup phase E. (The sample itself is in
TransactionWaveform, BurstRunOpens and BurstRunHoldsChipSelect, the end of the cleanup in AbortReleasesTheBus.) The cursor's
value after the finish is the model's choice (log 12). That `s.cs_held` is 0 from the first cycle of the cleanup's phase E on
is the model's reading (log 9). -/
def Obligations.BusFaultRaisesBusTransaction : Prop :=
  ∀ (s : State) (k : Kind) (b op : Byte) (r : TxRet), Inv s → s.seq.op = some op → s.seq.offer = none →
    (s.seq.step = .tx k b .e 0 true r → sequencerCycle s = .next (fatallyEnded op .busTransaction s))
    ∧ (s.seq.step = .tx k b (.high 0) 0 true r → k = .data → s.snap.burst = true →
      sequencerCycle s = .next (cleanupStarted .busTransaction s))

/-! ## RESET and WAIT_IDLE -/

/-- R174, R300, R272: RESET drives `rst_n` low for exactly RESET_LOW_MS, then high for exactly RESET_HIGH_MS, and finishes in
Idle (R263); it holds Resetting meanwhile. Everything it changes. The cursor's value after the finish is the model's choice
(log 12), and that `s.timer` is 0 after a Delay is its reading (log 24). -/
def Obligations.ResetPulsesThePanel : Prop :=
  ∀ (s : State) (low high : Nat),
    low = resetLowMs s.build * clkPerMs s.build → high = resetHighMs s.build * clkPerMs s.build →
    Operational s → Resting s.stat.panel → QuietFor (low + high + 1) s →
    ∃ t, exec .reset s = .next t
      ∧ (∀ n < low + high, ∃ u, cycles n (endCycle s t) = .next u ∧ u.pins.rstN = decide (low ≤ n)
        ∧ u.stat.panel = .resetting)
      ∧ cycles (low + high) (endCycle s t) = .next { s with
        stat := { s.stat with panel := .idle, code := .none, irqDone := true }
        seq := { s.seq with
          op := none, offer := none, pre := s.stat.panel, sent := false, csHeld := false, step := .idle, timer := 0 }
        snap := snapshot 0x04 0 s.regs
        pins := { s.pins with rstN := true }
        env := { s.env with
          cycle := s.env.cycle + low + high + 1, raced := []
          trace := s.env.trace
            ++ [(s.env.cycle, .panel .resetting), (s.env.cycle, .rstPin false), (s.env.cycle + low, .rstPin true),
              (s.env.cycle + low + high, .panel .idle), (s.env.cycle + low + high, .done 0x04 .none)] } }

/-- R180: with BUSY 1 at samples 0 to `N - 2` and 0 at sample `N - 1`, WAIT_IDLE takes exactly `N` samples, `POLL_MS` apart,
and returns to the PanelState it came from. Everything it changes. The cursor's value after the finish is the model's choice
(log 12), and that `s.timer` is 0 after a Delay is its reading (log 24). That `s.waited` counts on in a poll without a timeout
is the model's choice among what R273 allows (log 21). -/
def Obligations.WaitIdleTakesExactlyNSamples : Prop :=
  ∀ (s : State) (n d : Nat), d = pollMs s.build * clkPerMs s.build →
    Operational s → Resting s.stat.panel → QuietFor (n * d + 1) s →
    (s.regs.busyTimeout = 0 ∨ ∀ j < n, j * pollMs s.build < s.regs.busyTimeout.toNat) →
    (∀ j < n, busyLevel s.cfg (inputAt s (s.env.cycle + j * d)).pads = true) →
    busyLevel s.cfg (inputAt s (s.env.cycle + n * d)).pads = false →
    ∃ t, exec .waitIdle s = .next t
      ∧ cycles (n * d) (endCycle s t) = .next { s with
        stat := { s.stat with code := .none, irqDone := true }
        seq := { s.seq with
          op := none, offer := none, pre := s.stat.panel, sent := false, csHeld := false, step := .idle
          prior := s.stat.panel, waited := n * pollMs s.build, polls := n + 1
          timer := if n = 0 then s.seq.timer else 0 }
        snap := snapshot 0x05 0 s.regs
        env := { s.env with
          cycle := s.env.cycle + n * d + 1, raced := []
          trace := s.env.trace ++ [(s.env.cycle, .panel .busy)]
            ++ (List.range n).map (fun j => (s.env.cycle + j * d, .busySample true))
            ++ [(s.env.cycle + n * d, .busySample false), (s.env.cycle + n * d, .panel s.stat.panel),
              (s.env.cycle + n * d, .done 0x05 .none)] } }

/-- R178, R255, R260: with BUSY stuck at 1 and a timeout `T`, WAIT_IDLE ends with BUSY_TIMEOUT after exactly `k + 1` samples,
`k` being `T / POLL_MS` rounded up; it is not fatal and PanelState is restored. The cursor's value after the finish is the
model's choice (log 12), and that `s.timer` is 0 after a Delay is its reading (log 24). -/
def Obligations.WaitIdleTimesOut : Prop :=
  ∀ (s : State) (n d : Nat), d = pollMs s.build * clkPerMs s.build → s.regs.busyTimeout ≠ 0 →
    n = (s.regs.busyTimeout.toNat + pollMs s.build - 1) / pollMs s.build →
    Operational s → Resting s.stat.panel → QuietFor (n * d + 1) s →
    (∀ j ≤ n, busyLevel s.cfg (inputAt s (s.env.cycle + j * d)).pads = true) →
    ∃ t, exec .waitIdle s = .next t
      ∧ cycles (n * d) (endCycle s t) = .next { s with
        stat := { s.stat with code := .busyTimeout, irqDone := true, irqErr := true }
        seq := { s.seq with
          op := none, offer := none, pre := s.stat.panel, sent := false, csHeld := false, step := .idle
          prior := s.stat.panel, waited := n * pollMs s.build, polls := n + 1, timer := 0 }
        snap := snapshot 0x05 0 s.regs
        env := { s.env with
          cycle := s.env.cycle + n * d + 1, raced := []
          trace := s.env.trace ++ [(s.env.cycle, .panel .busy)]
            ++ (List.range (n + 1)).map (fun j => (s.env.cycle + j * d, .busySample true))
            ++ [(s.env.cycle + n * d, .panel s.stat.panel), (s.env.cycle + n * d, .done 0x05 .busyTimeout)] } }

/-- R177, R179, R180, R227, R181: the busy-poll of FLUSH and of a table record with WAIT, with `n` samples that read 1 before
one that reads 0: it takes exactly `n + 1` samples, `POLL_MS` apart, and restores PanelState. Then FLUSH, or a table that is at
its end, finishes with code 0 in Idle; a table that is not reads its next record's CMD byte (its draw: log 14); and where less
than a header is left, as only a raced table can leave it (R92), the operation ends with SEQ_FORMAT, fatally. The cursor's
value after the finish is the model's choice (log 12), and that `s.timer` is 0 after a Delay is its reading (log 24). `s.tp`
and `s.tend` are natural numbers, which can reach 2^32 (log 8). That `s.waited` counts on in a poll without a timeout is the
model's choice among what R273 allows (log 21). -/
def Obligations.PollOfFlushOrTableReturns : Prop :=
  ∀ (s p : State) (r : PollRet) (op : Byte) (n d q : Nat), Inv s → s.seq.op = some op → s.seq.offer = none →
    PollFollows r s → d = pollMs s.build * clkPerMs s.build → QuietFor (n * d + 1) s →
    (s.snap.timeout = 0 ∨ ∀ j < n, j * pollMs s.build < s.snap.timeout.toNat) →
    (∀ j < n, busyLevel s.cfg (inputAt s (s.env.cycle + j * d)).pads = true) →
    busyLevel s.cfg (inputAt s (s.env.cycle + n * d)).pads = false →
    p = pollEnded n false s → q = s.seq.tp + 3 + s.seq.rlen.toNat →
    ∃ u, cycles (n * d + 1) s = .next u
      ∧ (r = .flush ∨ (r = .play ∧ s.seq.tend = q) →
        u = { p with
          stat := { p.stat with panel := .idle, code := .none, irqDone := true }
          seq := { p.seq with op := none, step := .idle, tp := if r = .play then q else p.seq.tp, ri := u.seq.ri }
          env := { p.env with
            cycle := p.env.cycle + 1, raced := []
            trace := p.env.trace ++ (if s.stat.panel = .idle then [] else [(p.env.cycle, .panel .idle)])
              ++ [(p.env.cycle, .done op .none)] } })
      ∧ (r = .play → q + 3 ≤ s.seq.tend →
        u = { p with
          seq := { p.seq with
            tp := q, ri := u.seq.ri
            step := .read q (max 1 (input p).draw.latency - 1) (input p).draw .playCmd }
          env := { p.env with cycle := p.env.cycle + 1 } })
      ∧ (r = .play → q < s.seq.tend → s.seq.tend < q + 3 →
        u = nextCycle [] (fatallyEnded op .seqFormat { p with seq := { p.seq with tp := q, ri := u.seq.ri } }))

/-- R178, R179, R230, R255, R260: with BUSY stuck at 1 and a timeout `T`, the busy-poll of FLUSH and of a table record with
WAIT fails after exactly `k + 1` samples, `k` being `T / POLL_MS` rounded up: PanelState goes from Busy back to Idle, or to
PoweringOn or PoweringOff and then Idle, and the operation ends with BUSY_TIMEOUT, FATAL unchanged. The cursor's value after
the finish is the model's choice (log 12), and that `s.timer` is 0 after a Delay is its reading (log 24). -/
def Obligations.PollOfFlushOrTableTimesOut : Prop :=
  ∀ (s p : State) (r : PollRet) (op : Byte) (n d : Nat), Inv s → s.seq.op = some op → s.seq.offer = none →
    PollFollows r s → d = pollMs s.build * clkPerMs s.build → s.snap.timeout ≠ 0 →
    n = (s.snap.timeout.toNat + pollMs s.build - 1) / pollMs s.build → QuietFor (n * d + 1) s →
    (∀ j ≤ n, busyLevel s.cfg (inputAt s (s.env.cycle + j * d)).pads = true) → p = pollEnded n true s →
    ∃ u, cycles (n * d + 1) s = .next u
      ∧ u = { p with
        stat := { p.stat with panel := .idle, code := .busyTimeout, irqDone := true, irqErr := true }
        seq := { p.seq with op := none, step := .idle, ri := u.seq.ri }
        env := { p.env with
          cycle := p.env.cycle + 1, raced := []
          trace := p.env.trace ++ (if s.stat.panel = .idle then [] else [(p.env.cycle, .panel .idle)])
            ++ [(p.env.cycle, .done op .busyTimeout)] } }

/-- R302: with `snap.timeout = 0` a busy-poll goes on for as long as BUSY is 1, whatever else the host does. -/
def Obligations.UnboundedWaitStaysStuck : Prop :=
  ∀ (n : Nat) (s u : State) (r : PollRet), Inv s → s.seq.op ≠ none → s.seq.offer = none →
    s.seq.step = .delay (.poll r) → s.snap.timeout = 0 →
    (∀ k < n, (inputAt s (s.env.cycle + k)).blkRst = false
      ∧ busyLevel s.cfg (inputAt s (s.env.cycle + k)).pads = true) →
    cycles n s = .next u →
    u.seq.op = s.seq.op ∧ u.seq.step = .delay (.poll r) ∧ u.stat.panel = .busy ∧ u.stat.code = s.stat.code

/-! ## The sequence tables -/

/-- R182 to R184, R114: the accept cycle of POWER_ON, INIT_REGS and POWER_OFF: an empty table is played at once; a null base or
a table that passes 2^32 ends with SEQ_FORMAT; so does a table shorter than a header; else the check pass reads the first
record's CTL. That the read's latency and answer are those drawn in this cycle, and that a latency of 0 counts as 1, is the
model's reading (log 14). The cursor's value after the finish is the model's choice (log 12). -/
def Obligations.TableOperationFirstCycle : Prop :=
  ∀ (s : State) (i : Instr) (p : PanelState) (f : Regs → Word × Word) (base len : Word),
    (i, p, f) ∈ tableOperations → (base, len) = f s.regs → Operational s → s.stat.panel = .idle →
    (len = 0 →
      exec i s = .next { s with
        stat := { s.stat with code := .none, irqDone := true }
        seq := { s.seq with
          op := none, offer := none, pre := .idle, sent := false, csHeld := false, step := .idle
          tp := base.toNat, tend := base.toNat }
        snap := snapshot i.opcode 0 s.regs
        env := { s.env with
          trace := s.env.trace
            ++ [(s.env.cycle, .panel p), (s.env.cycle, .panel .idle), (s.env.cycle, .done i.opcode .none)] } })
    ∧ (len ≠ 0 → (base = 0 ∨ 2 ^ 32 < base.toNat + len.toNat ∨ len.toNat < 3) →
      exec i s = .next (rejected i .seqFormat s))
    ∧ (base ≠ 0 → base.toNat + len.toNat ≤ 2 ^ 32 → 3 ≤ len.toNat →
      exec i s = .next { s with
        seq := { s.seq with
          op := some i.opcode, offer := none, pre := .idle, sent := false, csHeld := false
          step := .read (base.toNat + 1) (max 1 (input s).draw.latency - 1) (input s).draw (.checkCtl p 0) }
        snap := snapshot i.opcode 0 s.regs
        pins := { s.pins with sclk := false } })

/-- R181 to R184, R303: a well-formed table in host memory is played record by record: command byte, data bytes in order,
busy-poll where the WAIT flag is set; PanelState is held and then Idle; the time it takes is the table's check and play reads
plus its transactions. Everything it changes. The panel is ready at every sample and no fault comes. The cursor's value after
the finish is the model's choice (log 12). That a read takes the latency drawn in its first cycle, and at least one cycle, is
the model's reading (log 14). `s.tp` and `s.tend` are natural numbers, which can reach 2^32 (log 8). -/
def Obligations.WellFormedTableIsPlayed : Prop :=
  ∀ (s : State) (i : Instr) (p : PanelState) (f : Regs → Word × Word) (base len : Word) (rs : List Record)
    (latency bound reads body : Nat),
    (i, p, f) ∈ tableOperations → (base, len) = f s.regs → Operational s → s.stat.panel = .idle →
    (len ≠ 0 → base ≠ 0) → base.toNat + len.toNat ≤ 2 ^ 32 → (encodeTable rs).length = len.toNat →
    (∀ r ∈ rs, r.wf = true) → HoldsBytes base.toNat (encodeTable rs) s → IdlePins s.pins →
    1 ≤ latency → reads = (rs.map fun r => 5 + r.data.length).sum →
    body = (rs.map (recordCycles (s.regs.ctrl.getLsbD 0) (halfPeriod s.cfg))).sum →
    bound = reads * latency + body →
    QuietFor (bound + 1) s → Faultless (bound + 1) latency s → PanelReady (bound + 1) s →
    ∃ t u total, exec i s = .next t ∧ reads ≤ total ∧ total ≤ reads * latency
      ∧ cycles (total + body) (endCycle s t) = .next u
      ∧ eventsOf u.env.trace = eventsOf s.env.trace ++ [.panel p] ++ rs.flatMap (recordEvents p)
        ++ [.panel .idle, .done i.opcode .none]
      ∧ IdlePins u.pins
      ∧ u = { s with
        stat := { s.stat with code := .none, irqDone := true }
        seq := { s.seq with
          op := none, offer := none, pre := .idle, sent := decide (rs ≠ []), csHeld := false, step := .idle
          tp := base.toNat + len.toNat, tend := base.toNat + len.toNat
          rcmd := u.seq.rcmd, rctl := u.seq.rctl, rlen := u.seq.rlen, ri := u.seq.ri
          prior := u.seq.prior, waited := u.seq.waited, polls := u.seq.polls }
        snap := snapshot i.opcode 0 s.regs
        pins := { s.pins with dc := u.pins.dc }
        env := { s.env with
          cycle := s.env.cycle + (total + body) + 1, raced := [], trace := u.env.trace } }

/-- R112, R114: a table that is not well formed ends with SEQ_FORMAT in its check pass, before any byte is sent, and changes
nothing but what `Finish` writes. The cursor's value after the finish is the model's choice (log 12). That a read takes the
latency drawn in its first cycle, and at least one cycle, is the model's reading (log 14). -/
def Obligations.MalformedTableIsRefused : Prop :=
  ∀ (s : State) (i : Instr) (p : PanelState) (f : Regs → Word × Word) (base len : Word) (bytes : List Byte)
    (latency : Nat),
    (i, p, f) ∈ tableOperations → (base, len) = f s.regs → Operational s → s.stat.panel = .idle →
    base ≠ 0 → base.toNat + len.toNat ≤ 2 ^ 32 → bytes.length = len.toNat → HoldsBytes base.toNat bytes s →
    (∀ rs, parseTable bytes = some rs → ∃ r ∈ rs, r.ctl.extractLsb' 1 7 ≠ 0) → IdlePins s.pins →
    1 ≤ latency → QuietFor (bytes.length * latency + 1) s → Faultless (bytes.length * latency + 1) latency s →
    ∃ t n, exec i s = .next t ∧ n ≤ bytes.length * latency
      ∧ cycles n (endCycle s t) = .next { rejected i .seqFormat s with
        env := { s.env with
          cycle := s.env.cycle + n + 1, raced := []
          trace := s.env.trace ++ [(s.env.cycle + n, .done i.opcode .seqFormat)] } }

/-- R92, R181: a table that the host changed after the check pass ends with SEQ_FORMAT while it is played: at a header with
reserved control bits or with data past the table's end, and at a record head with less than a header left. It is fatal exactly
when a transaction has started. (A record head after a busy-poll is in PollOfFlushOrTableReturns.) The cursor's value after the
finish is the model's choice (log 12). That memory is looked at in the cycle after a read's last one is the model's reading
(log 14). -/
def Obligations.RacedTableRaisesSeqFormat : Prop :=
  ∀ (s : State) (op : Byte), Inv s → s.seq.op = some op → s.seq.offer = none →
    (∀ (a : Nat) (d : ReadDraw) (b : Byte), s.seq.step = .read a 0 d .playLen → readAnswer s a d = some b →
      (s.seq.rctl.extractLsb' 1 7 ≠ 0 ∨ s.seq.tend < s.seq.tp + 3 + b.toNat) →
      (s.seq.sent = true →
        sequencerCycle s = .next (fatallyEnded op .seqFormat { s with seq := { s.seq with rlen := b } }))
      ∧ (s.seq.sent = false →
        sequencerCycle s = .next (softlyEnded op .seqFormat { s with seq := { s.seq with rlen := b } })))
    ∧ (RecordEnds s → ctlWait s.seq.rctl = false →
      s.seq.tp + 3 + s.seq.rlen.toNat < s.seq.tend → s.seq.tend < s.seq.tp + 3 + s.seq.rlen.toNat + 3 →
      s.seq.sent = true
      ∧ ∃ ri, sequencerCycle s = .next (fatallyEnded op .seqFormat
        { s with seq := { s.seq with tp := s.seq.tp + 3 + s.seq.rlen.toNat, ri := ri } }))

/-! ## FLUSH -/

/-- R221, R222, R253, R254: the accept cycle of FLUSH: INVALID_REGION, then ALLOCATION, else the byte columns are set (R223)
and WRITE_RAM starts with its phase P (R137). The cursor's value after the finish is the model's choice (log 12). -/
def Obligations.FlushFirstCycle : Prop :=
  ∀ (s : State) (x1 x2 y1 y2 : Nat),
    x1 = (s.regs.regionX.extractLsb' 0 16).toNat → x2 = (s.regs.regionX.extractLsb' 16 16).toNat →
    y1 = (s.regs.regionY.extractLsb' 0 16).toNat → y2 = (s.regs.regionY.extractLsb' 16 16).toNat →
    Operational s → s.stat.panel = .idle →
    (¬(x1 ≤ x2 ∧ x2 < s.cfg.width.toNat ∧ y1 ≤ y2 ∧ y2 < s.cfg.height.toNat) →
      exec .flush s = .next (rejected .flush .invalidRegion s))
    ∧ ((x1 ≤ x2 ∧ x2 < s.cfg.width.toNat ∧ y1 ≤ y2 ∧ y2 < s.cfg.height.toNat) →
      (s.regs.fbBase = 0 ∨ s.regs.fbSize.toNat < fbSizeNeeded s.cfg
        ∨ 2 ^ 32 < s.regs.fbBase.toNat + fbSizeNeeded s.cfg) →
      exec .flush s = .next (rejected .flush .allocation s))
    ∧ ((x1 ≤ x2 ∧ x2 < s.cfg.width.toNat ∧ y1 ≤ y2 ∧ y2 < s.cfg.height.toNat) →
      s.regs.fbBase ≠ 0 → fbSizeNeeded s.cfg ≤ s.regs.fbSize.toNat →
      s.regs.fbBase.toNat + fbSizeNeeded s.cfg ≤ 2 ^ 32 →
      exec .flush s = .next { s with
        seq := { s.seq with
          op := some 0x09, offer := none, pre := .idle, sent := true, csHeld := false
          bxlo := x1 * s.cfg.depth.toNat / 8, bxhi := ((x2 + 1) * s.cfg.depth.toNat - 1) / 8
          step := .tx .command (s.regs.panelOpc.extractLsb' 0 8) .p (halfPeriod s.cfg - 1) false .flushWriteRam }
        snap := snapshot 0x09 0 s.regs
        pins := { s.pins with csN := true, sclk := false, mosi := false, dc := false } })

/-- R233, R226, R224, R231, R303: a FLUSH of a valid region of a usable framebuffer that meets no fault sends WRITE_RAM, then
the bytes that cover the region as they stand in memory, row by row and left to right, then REFRESH, runs one busy-poll and
finishes with code 0; the time it takes in both burst settings. Everything it changes. That `s.y` and `s.bx` then hold the
region's last row and byte column is the model's choice (log 25). The cursor's value after the finish is the model's choice
(log 12). That a read takes the latency drawn in its first cycle, and at least one cycle, is the model's reading (log 14). -/
def Obligations.FlushSendsTheRegion : Prop :=
  ∀ (s : State) (x1 x2 y1 y2 lo hi latency count bound body : Nat) (fb : Nat → Nat → Byte),
    x1 = (s.regs.regionX.extractLsb' 0 16).toNat → x2 = (s.regs.regionX.extractLsb' 16 16).toNat →
    y1 = (s.regs.regionY.extractLsb' 0 16).toNat → y2 = (s.regs.regionY.extractLsb' 16 16).toNat →
    Operational s → s.stat.panel = .idle → LegalConfig s.build s.cfg → IdlePins s.pins →
    x1 ≤ x2 → x2 < s.cfg.width.toNat → y1 ≤ y2 → y2 < s.cfg.height.toNat →
    s.regs.fbBase ≠ 0 → fbSizeNeeded s.cfg ≤ s.regs.fbSize.toNat →
    s.regs.fbBase.toNat + fbSizeNeeded s.cfg ≤ 2 ^ 32 →
    lo = x1 * s.cfg.depth.toNat / 8 → hi = ((x2 + 1) * s.cfg.depth.toNat - 1) / 8 →
    s.env.raced = [] →
    (∀ y x, y1 ≤ y → y ≤ y2 → lo ≤ x → x ≤ hi →
      memGet s.mem (s.regs.fbBase.toNat + y * stride s.cfg + x) = some (fb y x)) →
    1 ≤ latency → count = (y2 - y1 + 1) * (hi - lo + 1) →
    body = (if s.regs.ctrl.getLsbD 0 then 18 * halfPeriod s.cfg * 2 + (16 * count + 2) * halfPeriod s.cfg
      else 18 * halfPeriod s.cfg * (count + 2)) →
    bound = count * latency + body →
    QuietFor (bound + 1) s → Faultless (bound + 1) latency s → PanelReady (bound + 1) s →
    ∃ t u total, exec .flush s = .next t ∧ count ≤ total ∧ total ≤ count * latency
      ∧ cycles (total + body) (endCycle s t) = .next u
      ∧ eventsOf u.env.trace = eventsOf s.env.trace
        ++ [.tx .command (s.regs.panelOpc.extractLsb' 0 8)]
        ++ (regionBytes fb y1 y2 lo hi).map (.tx .data)
        ++ [.tx .command (s.regs.panelOpc.extractLsb' 8 8), .panel .busy, .busySample false, .panel .idle,
          .done 0x09 .none]
      ∧ (regionBytes fb y1 y2 lo hi).length = count
      ∧ u = { s with
        stat := { s.stat with code := .none, irqDone := true }
        seq := { s.seq with
          op := none, offer := none, pre := .idle, prior := .idle, sent := true, csHeld := false, step := .idle
          y := y2, bx := hi, bxlo := lo, bxhi := hi, waited := 0, polls := 1 }
        snap := snapshot 0x09 0 s.regs
        pins := { s.pins with dc := false }
        env := { s.env with
          cycle := s.env.cycle + (total + body) + 1, raced := [], trace := u.env.trace } }

/-- R225: every address FLUSH reads lies in the framebuffer, and none wraps. -/
def Obligations.FlushReadsInsideTheFramebuffer : Prop :=
  ∀ (s : State) (a left : Nat) (d : ReadDraw), Inv s → s.seq.op ≠ none → s.seq.offer = none →
    s.seq.step = .read a left d .flushData →
    s.snap.fbBase.toNat ≤ a ∧ a < s.snap.fbBase.toNat + fbSizeNeeded s.cfg ∧ a < 2 ^ 32
    ∧ s.seq.y ≤ s.snap.y2.toNat ∧ s.snap.y2.toNat ≤ s.cfg.height.toNat - 1
    ∧ s.seq.bx ≤ s.seq.bxhi ∧ s.seq.bxhi ≤ stride s.cfg - 1
    ∧ a = s.snap.fbBase.toNat + s.seq.y * stride s.cfg + s.seq.bx

/-- R75, R114, R181: every address a table operation reads lies in its table, and none wraps. -/
def Obligations.TableReadsInsideTheTable : Prop :=
  ∀ (s : State) (a left : Nat) (d : ReadDraw) (r : ReadRet), Inv s → s.seq.op ≠ none → s.seq.offer = none →
    s.seq.step = .read a left d r → r ≠ .flushData →
    s.snap.base.toNat ≤ a ∧ a < s.snap.base.toNat + s.snap.len.toNat ∧ a < 2 ^ 32

/-- R141, R142: inside a burst run CS stays low and DC high while the next byte is fetched, whatever the host does, and the
next byte's 16 bit phases follow without a phase P; its TX event and its bus-fault sample come in the last cycle of `H_0`. That
memory is looked at in the cycle after a read's last one is the model's reading (log 14). -/
def Obligations.BurstRunHoldsChipSelect : Prop :=
  ∀ (s : State) (h : Nat), Inv s → s.seq.op ≠ none → s.seq.offer = none → s.seq.csHeld = true →
    h = s.cfg.clkdiv.toNat + 1 →
    (∀ a left d r, s.seq.step = .read a left d r →
      s.pins.csN = false ∧ s.pins.dc = true ∧ s.pins.sclk = false ∧ s.snap.burst = true)
    ∧ ∀ (a : Nat) (d : ReadDraw) (b : Byte) (r : ReadRet) (k : TxRet),
      (r = .flushData ∧ k = .flushData) ∨ (r = .playData ∧ k = .playData) →
      s.seq.step = .read a 0 d r → readAnswer s a d = some b →
      QuietFor (16 * h) s → ∀ n < 16 * h, ∃ t u, step s = .next t ∧ cycles n t = .next u
        ∧ u.pins.csN = false ∧ u.pins.dc = true ∧ u.pins.sclk = decide (n / h % 2 = 1)
        ∧ u.pins.mosi = b.getLsbD (7 - n / h / 2)
        ∧ u.env.trace = s.env.trace
          ++ (if n = 16 * h - 1 then [(s.env.cycle + (16 * h - 1), .tx .data b)] else [])
        ∧ (n = 16 * h - 1 →
          u.seq.step = .tx .data b (.high 0) 0 (inputAt s (s.env.cycle + (16 * h - 1))).busFault k)

/-- R142: the first data byte of a burst run, from the state after the first cycle of the run's phase P on: phase P and 16 bit
phases, each `h` cycles long, with the TX event and the bus-fault sample in the last cycle of `H_0`. That `s.cs_held` is 1 from
then on is the model's reading (log 9). -/
def Obligations.BurstRunOpens : Prop :=
  ∀ (s : State) (b : Byte) (r : TxRet) (h n : Nat), Inv s → s.seq.op ≠ none → s.seq.offer = none →
    h = s.cfg.clkdiv.toNat + 1 → s.snap.burst = true → s.seq.step = .tx .data b .p (h - 1) false r →
    n < 17 * h → QuietFor n s →
    ∃ u, cycles n s = .next u ∧ u.pins = framePins .data b (n / h) true
      ∧ u.env.trace = s.env.trace
        ++ (if n = 17 * h - 1 then [(s.env.cycle + (17 * h - 2), .tx .data b)] else [])
      ∧ (n = 17 * h - 1 → u.seq.csHeld = true
        ∧ u.seq.step = .tx .data b (.high 0) 0 (inputAt s (s.env.cycle + (17 * h - 2))).busFault r)

/-- R142: what follows a data byte of a burst run that was sent without a bus fault. While the run goes on, phase W lasts the
cycles of the next byte's read, with CS low, DC high, `sclk` 0 and `mosi` at the byte's bit 0; when the run ends, phase E lasts
`h` cycles with CS high. The read's draw is
that of its first cycle (log 14); the cycles in which `s.cs_held` changes are the model's reading (log 9). -/
def Obligations.BurstRunWaitsAndCloses : Prop :=
  ∀ (s : State) (b : Byte) (r : TxRet) (h : Nat), Inv s → s.seq.op ≠ none → s.seq.offer = none →
    h = s.cfg.clkdiv.toNat + 1 → s.snap.burst = true → s.seq.step = .tx .data b (.high 0) 0 false r →
    (∀ (a : Nat) (next : ReadRet) (n : Nat), RunGoesOn s r a next → n < max 1 (input s).draw.latency →
      QuietFor (n + 1) s →
      ∃ u, cycles (n + 1) s = .next u
        ∧ u.pins = { csN := false, dc := true, sclk := false, mosi := b.getLsbD 0, rstN := true }
        ∧ u.seq.step = .read a (max 1 (input s).draw.latency - 1 - n) (input s).draw next
        ∧ u.seq.csHeld = true ∧ u.env.trace = s.env.trace)
    ∧ ∀ (q : RunRet) (n : Nat), RunEnds s r q → n < h → QuietFor (n + 1) s →
      ∃ u, cycles (n + 1) s = .next u
        ∧ u.pins = { csN := true, dc := true, sclk := false, mosi := false, rstN := true }
        ∧ u.seq.step = .runEnd (h - 1 - n) q ∧ u.seq.csHeld = false ∧ u.env.trace = s.env.trace

/-! ## Errors and finishing -/

/-- R258, R260, R261, R262: taking an error. A fatal one sets FATAL and Uninitialized, after the cleanup phase E when a burst
run holds CS; any other restores PanelState to `s.pre`. The cursor's value after the finish is the model's choice (log 12).
That `s.cs_held` is 0 from the first cycle of the cleanup's phase E on is the model's reading (log 9). -/
def Obligations.RaiseEndsTheOperation : Prop :=
  ∀ (s : State) (e : Code) (op : Byte), s.seq.op = some op → e ≠ .none →
    ((e = .busTransaction ∨ ((e = .memFault ∨ e = .seqFormat) ∧ s.seq.sent = true)) →
      (s.seq.csHeld = false →
        raise e s = { s with
          stat := { s.stat with
            fatal := true, panel := .uninitialized, code := e, irqDone := true, irqErr := true }
          seq := { s.seq with op := none, step := .idle }
          env := { s.env with
            trace := s.env.trace
              ++ (if s.stat.panel = .uninitialized then [] else [(s.env.cycle, .panel .uninitialized)])
              ++ [(s.env.cycle, .done op e)] } })
      ∧ (s.seq.csHeld = true →
        raise e s = { s with
          pins := { s.pins with csN := true, sclk := false, mosi := false }
          seq := { s.seq with csHeld := false, step := .cleanup (halfPeriod s.cfg - 1) e } }))
    ∧ (¬(e = .busTransaction ∨ ((e = .memFault ∨ e = .seqFormat) ∧ s.seq.sent = true)) →
      raise e s = { s with
        stat := { s.stat with panel := s.seq.pre, code := e, irqDone := true, irqErr := true }
        seq := { s.seq with op := none, step := .idle }
        env := { s.env with
          trace := s.env.trace
            ++ (if s.stat.panel = s.seq.pre then [] else [(s.env.cycle, .panel s.seq.pre)])
            ++ [(s.env.cycle, .done op e)] } })

/-- R152, R262: a fatal error inside a burst run first takes a phase E of `h` cycles with CS high, and only then finishes;
no abort leaves CS low or the clock high. -/
def Obligations.AbortReleasesTheBus : Prop :=
  ∀ (s : State) (e : Code) (h left : Nat) (op : Byte), Inv s → s.seq.op = some op → s.seq.offer = none →
    h = s.cfg.clkdiv.toNat + 1 → s.seq.step = .cleanup left e → QuietFor (left + 1) s →
    s.pins.csN = true ∧ s.pins.sclk = false ∧ left < h
    ∧ ∃ u, cycles (left + 1) s = .next u ∧ u.seq.op = none ∧ u.stat.fatal = true ∧ u.stat.panel = .uninitialized
      ∧ u.stat.code = e ∧ u.pins = s.pins
      ∧ u.env.trace = s.env.trace
        ++ (if s.stat.panel = .uninitialized then [] else [(s.env.cycle + left, .panel .uninitialized)])
        ++ [(s.env.cycle + left, .done op e)]

/-- R256, R229, R262: a read that faults ends its operation with MEM_FAULT, fatally exactly when a transaction has started; in
phase W of a burst run it first starts the cleanup phase E. Everything it changes. The cursor's value after the finish is the
model's choice (log 12). That `s.cs_held` is 0 from the first cycle of the cleanup's phase E on is the model's reading (log 9).
That a fault comes at the end of the read's latency is its reading too (log 14). -/
def Obligations.ReadFaultRaisesMemFault : Prop :=
  ∀ (s : State) (a : Nat) (d : ReadDraw) (r : ReadRet) (op : Byte), Inv s → s.seq.op = some op → s.seq.offer = none →
    s.seq.step = .read a 0 d r → d.fault = true →
    (s.seq.csHeld = false → s.seq.sent = true → sequencerCycle s = .next (fatallyEnded op .memFault s))
    ∧ (s.seq.sent = false → sequencerCycle s = .next (softlyEnded op .memFault s))
    ∧ (s.seq.csHeld = true → sequencerCycle s = .next (cleanupStarted .memFault s))

/-- R263, R305: an operation ends only by finishing: ACTIVE falls in a cycle exactly when that cycle's last event is its one
DONE, with IRQ.DONE set, and IRQ.ERR too for a code other than 0; in every other cycle no DONE is emitted, and ERR.CODE and
PanelState's owner, the operation, stay. Every event carries its cycle. -/
def Obligations.OperationEndsOnlyByFinishing : Prop :=
  ∀ (s t : State), Inv s → (input s).blkRst = false → step s = .next t →
    ∃ evs : List Event, t.env.trace = s.env.trace ++ evs.map (fun e => (s.env.cycle, e))
      ∧ ((active s = true ∧ active t = false ∧ t.stat.irqDone = true
          ∧ (t.stat.code ≠ .none → t.stat.irqErr = true)
          ∧ ∃ pre op, s.seq.op = some op ∧ evs = pre ++ [.done op t.stat.code]
            ∧ ∀ e ∈ pre, ∀ o c, e ≠ .done o c)
        ∨ ((active s = true → t.seq.op = s.seq.op) ∧ t.stat.code = s.stat.code
          ∧ ∀ e ∈ evs, ∀ o c, e ≠ .done o c))

/-! ## The host's side -/

/-- R22, R28 to R30, R34 to R43, R295: each of the seventeen parameter registers is read at its offset of R22, from the piece of
state the operations read; a host write at that offset sets its writable bits and no other parameter register, in every cycle
with block reset 0: at rest, while an operation runs, and in an accept cycle; a write to STATUS or to a reserved offset is
ignored. But for the register written, the step is what the sequencer alone does. -/
def Obligations.HostWriteSetsTheWritableBits : Prop :=
  ∀ (s u : State) (off : Nat) (v : Word), (input s).blkRst = false → off < 0x100 → off % 4 = 0 →
    (hostTurn s).1 = some (.write 4 off v) → sequencerCycle s = .next u →
    ∃ t, step s = .next t
      ∧ (∀ (r : Reg) (o : Nat) (field : Regs → Word) (mask : Word), (r, o, field, mask) ∈ parameterRegisters →
        r.offset = o ∧ writable r = mask ∧ readOffset s o = field s.regs ∧ readOffset t o = field t.regs
          ∧ field t.regs = if o = off then v &&& mask else field s.regs)
      ∧ (off ≠ 0x08 → off ≠ 0x0C → off ≠ 0x10 →
        t.stat = u.stat ∧ t.seq = u.seq ∧ t.snap = u.snap ∧ t.cfg = u.cfg ∧ t.pins = u.pins
          ∧ t.env.trace = u.env.trace ∧ t.env.reads = u.env.reads)
      ∧ (∀ o, 0x54 ≤ o → readOffset t o = 0) ∧ readOffset t 0x08 = 0

/-- R32, R33, R268: a host write to IRQ or ERR clears exactly the bits written as 1, except those the finishing operation
sets in the same cycle; it changes nothing else. -/
def Obligations.WriteOneClearsUnlessSet : Prop :=
  ∀ (s u : State) (v : Word), (input s).blkRst = false → sequencerCycle s = .next u →
    ((hostTurn s).1 = some (.write 4 0x10 v) →
      ∃ t, step s = .next t
        ∧ t.stat = { u.stat with
          irqDone := (s.stat.irqDone && !v.getLsbD 0) || (s.seq.op.isSome && u.seq.op.isNone)
          irqErr := (s.stat.irqErr && !v.getLsbD 1)
            || (s.seq.op.isSome && u.seq.op.isNone && u.stat.code != .none) }
        ∧ t.seq = u.seq ∧ t.regs = u.regs ∧ t.cfg = u.cfg ∧ t.snap = u.snap ∧ t.pins = u.pins
        ∧ t.env.trace = u.env.trace ∧ ((input s).memWrites = [] → t.mem = u.mem))
    ∧ ((hostTurn s).1 = some (.write 4 0x0C v) →
      ∃ t, step s = .next t
        ∧ t.stat = { u.stat with overrun := u.stat.overrun && !v.getLsbD 8 }
        ∧ t.seq = u.seq ∧ t.regs = u.regs ∧ t.cfg = u.cfg ∧ t.snap = u.snap ∧ t.pins = u.pins
        ∧ t.env.trace = u.env.trace ∧ ((input s).memWrites = [] → t.mem = u.mem))

/-- R72: a register read returns the value at the end of the cycle before, and has no side effect: the step is the one in
which the host does nothing, but for what the host has seen. -/
def Obligations.RegisterReadsHaveNoSideEffect : Prop :=
  ∀ (s u : State) (off : Nat), (input s).blkRst = false → off < 0x100 → off % 4 = 0 →
    (hostTurn s).1 = some (.read 4 off) → sequencerCycle s = .next u →
    ∃ t, step s = .next t
      ∧ t.env.reads = u.env.reads ++ [(s.env.cycle, off, readOffset s off)]
      ∧ t.regs = u.regs ∧ t.stat = u.stat ∧ t.cfg = u.cfg ∧ t.seq = u.seq ∧ t.snap = u.snap ∧ t.pins = u.pins
      ∧ t.env.trace = u.env.trace

/-- R71: the accesses the model refuses are exactly those that are not 32 bits wide, aligned and inside the window. -/
def Obligations.OnlyIllegalAccessesAreRefused : Prop :=
  ∀ (s : State) (size off : Nat), (input s).blkRst = false →
    (step s = .refused (.registerAccess size off) ↔
      ((hostTurn s).1 = some (.read size off) ∨ ∃ v, (hostTurn s).1 = some (.write size off v))
        ∧ ¬(size = 4 ∧ off % 4 = 0 ∧ off < 0x100))

/-- R295, R51: in the cycle in which the host acts, nothing it does, short of block reset, reaches the operation, be that cycle its
accept cycle or a later one: its cursor, snapshot and configuration, the pads, PanelState, CONFIGURED, FATAL, ERR.CODE and the
trace are what the sequencer alone makes them. A host memory write can reach reads that end in later cycles (R87, R92, R297:
ReadReturnsWhatTheHostWrote). -/
def Obligations.HostCannotDisturbTheCycleInWhichItActs : Prop :=
  ∀ (s t u : State), active s = true → (input s).blkRst = false → sequencerCycle s = .next u → step s = .next t →
    t.seq = u.seq ∧ t.snap = u.snap ∧ t.cfg = u.cfg ∧ t.pins = u.pins
    ∧ t.stat.panel = u.stat.panel ∧ t.stat.configured = u.stat.configured ∧ t.stat.fatal = u.stat.fatal
    ∧ t.stat.code = u.stat.code ∧ t.env.trace = u.env.trace ∧ t.build = s.build
    ∧ (s.seq.offer = none → t.snap = s.snap)

/-- R119: SYNC reads STATUS in every cycle until it has read ACTIVE = 0; `W`, `R` and `OP` are one access each. -/
def Obligations.SyncPollsActive : Prop :=
  ∀ (s : State) (rest : List HostStmt), (input s).host = .program →
    (s.env.prog = .sync :: rest →
      hostTurn s = (some (.read 4 0x04), if (statusWord s).getLsbD 3 then .sync :: rest else rest))
    ∧ (∀ r v, s.env.prog = .write r v :: rest → hostTurn s = (some (.write 4 r.offset v), rest))
    ∧ (∀ r, s.env.prog = .read r :: rest → hostTurn s = (some (.read 4 r.offset), rest))
    ∧ (∀ i, s.env.prog = hostOp i ++ rest → hostTurn s = (some (.write 4 0x08 (encode i)), rest))

/-- R23, R25 to R28, R44: the fields of STATUS. That BUSY_IN shows the pad's level of the cycle before follows R72, where R28 says
"current level"; it is the model's reading (log 13). -/
def Obligations.StatusFields : Prop :=
  ∀ s : State,
    readOffset s 0x04 = statusWord s
    ∧ (statusWord s).extractLsb' 0 3 =
      (match s.stat.panel with
        | .uninitialized => 0 | .resetting => 1 | .poweringOn => 2 | .idle => 3 | .busy => 4 | .poweringOff => 5)
    ∧ (statusWord s).getLsbD 3 = s.seq.op.isSome ∧ (statusWord s).getLsbD 4 = s.stat.configured
    ∧ (statusWord s).getLsbD 5 = s.stat.fatal
    ∧ (statusWord s).getLsbD 6 =
      (s.stat.configured && (inputAt s (s.env.cycle - 1)).pads.getLsbD s.cfg.busyPad.toNat)
    ∧ (statusWord s).getLsbD 7 = false ∧ (statusWord s).extractLsb' 8 8 = s.seq.op.getD 0
    ∧ (statusWord s).extractLsb' 16 16 = 0

/-- R31 to R33, R251: the fields of ERR, with the number of every result code, and of IRQ, as the host reads them. -/
def Obligations.ErrAndIrqFields : Prop :=
  ∀ s : State,
    readOffset s 0x0C = errWord s
    ∧ (errWord s).extractLsb' 0 4 =
      (match s.stat.code with
        | .none => 0 | .busTransaction => 1 | .invalidRegion => 2 | .busyTimeout => 3 | .allocation => 4
        | .invalidState => 5 | .notConfigured => 6 | .badConfig => 7 | .seqFormat => 8 | .illegalOp => 9
        | .halted => 10 | .memFault => 11)
    ∧ (errWord s).getLsbD 8 = s.stat.overrun
    ∧ (errWord s).extractLsb' 4 4 = 0 ∧ (errWord s).extractLsb' 9 23 = 0
    ∧ readOffset s 0x10 = irqWord s
    ∧ (irqWord s).getLsbD 0 = s.stat.irqDone ∧ (irqWord s).getLsbD 1 = s.stat.irqErr
    ∧ (irqWord s).extractLsb' 2 30 = 0

/-- R265: the interrupt output. -/
def Obligations.InterruptOutput : Prop :=
  ∀ s : State, irq s = true ↔
    ((irqWord s).getLsbD 0 = true ∧ (readReg s .ctrl).getLsbD 1 = true)
    ∨ ((irqWord s).getLsbD 1 = true ∧ (readReg s .ctrl).getLsbD 2 = true)

/-! ## Pads -/

/-- R52, R132, R133, R148: before the first successful INIT no pad is driven; from then on exactly the five output pads are,
each at its signal's level, and neither MISO's nor BUSY's is. -/
def Obligations.PadsCarryTheirSignals : Prop :=
  ∀ s : State, Inv s →
    (s.stat.configured = false → ∀ p, padOe s p = false ∧ padOut s p = false)
    ∧ (s.stat.configured = true →
      (∀ p, padOe s p = true ↔ p = s.cfg.csPad.toNat ∨ p = s.cfg.dcPad.toNat ∨ p = s.cfg.clkPad.toNat
        ∨ p = s.cfg.mosiPad.toNat ∨ p = s.cfg.rstPad.toNat)
      ∧ padOut s s.cfg.csPad.toNat = s.pins.csN ∧ padOut s s.cfg.dcPad.toNat = s.pins.dc
      ∧ padOut s s.cfg.clkPad.toNat = s.pins.sclk ∧ padOut s s.cfg.mosiPad.toNat = s.pins.mosi
      ∧ padOut s s.cfg.rstPad.toNat = s.pins.rstN
      ∧ padOe s s.cfg.misoPad.toNat = false ∧ padOe s s.cfg.busyPad.toNat = false
      ∧ ∀ p, padCount s.build ≤ p → padOe s p = false)

/-- R147, R134: `dc` changes only while CS is high, before and after the change. The change that INIT makes (R134: it sets
`dc = 0`) is counted in. -/
def Obligations.DcChangesOnlyWithChipSelectHigh : Prop :=
  ∀ s t : State, Inv s → s.stat.configured = true → (input s).blkRst = false → step s = .next t →
    t.pins.dc ≠ s.pins.dc → s.pins.csN = true ∧ t.pins.csN = true ∧ t.pins.sclk = false

/-- R149: `rst_n` is driven to 1 by INIT, and to 0 and then 1 by RESET; nothing else changes it. -/
def Obligations.OnlyInitAndResetDriveRst : Prop :=
  ∀ s t : State, Inv s → (input s).blkRst = false → step s = .next t → t.pins.rstN ≠ s.pins.rstN →
    (s.seq.offer = some (encode .init) ∧ t.pins.rstN = true)
    ∨ (s.seq.offer = some (encode .reset) ∧ t.pins.rstN = false)
    ∨ (s.seq.offer = none ∧ s.seq.step = .delay .resetLow ∧ t.pins.rstN = true)

/-- R148, R150: the level on any pad but BUSY's makes no difference to what the sequencer does in a cycle, an accept cycle or
a later one. -/
def Obligations.OnlyTheBusyPadIsSampled : Prop :=
  ∀ (s u : State) (i : CycleIn) (pads : Levels), input s = i → s.env.cycle < s.env.script.length →
    busyLevel s.cfg pads = busyLevel s.cfg i.pads → sequencerCycle s = .next u →
    sequencerCycle { s with env := { s.env with script := s.env.script.set s.env.cycle { i with pads := pads } } }
      = .next { u with env := { u.env with script := s.env.script.set s.env.cycle { i with pads := pads } } }

/-! ## The whole machine -/

/-- R55, R291: every piece of state after block reset that the spec gives a value. -/
def Obligations.ResetValues : Prop :=
  State.reset.regs = {
    ctrl := 0, cfgSize := 0, cfgBus := 0, pinmux0 := 0x3F3F3F3F, pinmux1 := 0x003F3F3F, panelOpc := 0x00001210
    fbBase := 0, fbSize := 0, regionX := 0, regionY := 0, ponBase := 0, ponLen := 0, initBase := 0, initLen := 0
    poffBase := 0, poffLen := 0, busyTimeout := 0 }
  ∧ statusWord State.reset = 0 ∧ errWord State.reset = 0 ∧ irqWord State.reset = 0 ∧ irq State.reset = false
  ∧ State.reset.stat.panel = .uninitialized ∧ State.reset.seq.op = none
  ∧ State.reset.seq.pre = .uninitialized ∧ State.reset.seq.prior = .uninitialized
  ∧ State.reset.seq.tp = 0 ∧ State.reset.seq.tend = 0 ∧ State.reset.seq.rcmd = 0 ∧ State.reset.seq.rctl = 0
  ∧ State.reset.seq.rlen = 0 ∧ State.reset.seq.ri = 0 ∧ State.reset.seq.y = 0 ∧ State.reset.seq.bx = 0
  ∧ State.reset.seq.bxlo = 0 ∧ State.reset.seq.bxhi = 0 ∧ State.reset.seq.timer = 0 ∧ State.reset.seq.waited = 0
  ∧ State.reset.seq.polls = 0 ∧ State.reset.seq.sent = false ∧ State.reset.seq.csHeld = false
  ∧ State.reset.cfg = {
    width := 0, height := 0, depth := 0, clkdiv := 0, csPad := 0x3F, dcPad := 0x3F, clkPad := 0x3F
    mosiPad := 0x3F, misoPad := 0x3F, rstPad := 0x3F, busyPad := 0x3F }
  ∧ ∀ p, padOe State.reset p = false ∧ padOut State.reset p = false

/-- R290, R292: block reset, whatever runs and whatever the host asks: every piece of block state is at its reset value, with
no event and no register access. That the cursor is then at no statement is the model's choice (log 11), and so is that an
access R71 does not permit is dropped in such a cycle and not refused (log 16). That the trace and the host's reads outlive
block reset is the model's choice (log 18). -/
def Obligations.BlockResetAbandonsEverything : Prop :=
  ∀ s : State, (input s).blkRst = true →
    ∃ t, step s = .next t ∧ t.regs = State.reset.regs ∧ t.stat = State.reset.stat ∧ t.cfg = State.reset.cfg
      ∧ t.seq = State.reset.seq ∧ t.env.trace = s.env.trace ∧ t.env.reads = s.env.reads ∧ t.build = s.build
      ∧ irq t = false ∧ statusWord t = 0 ∧ ∀ p, padOe t p = false

/-- R185, R24: PanelState moves only by the transitions of the table; every change is in the trace, and a PanelState already
held is not entered again. -/
def Obligations.PanelStateFollowsTheTable : Prop :=
  ∀ s t : State, Inv s → (input s).blkRst = false → step s = .next t →
    ∃ evs : List Event, t.env.trace = s.env.trace ++ evs.map (fun e => (s.env.cycle, e))
      ∧ pathLegal (panelPath s.stat.panel evs) = true
      ∧ (panelPath s.stat.panel evs).getLast? = some t.stat.panel

/-- R26: CONFIGURED is set by a successful INIT and stays 1 until block reset; only that INIT writes `cfg` (R41). -/
def Obligations.OnlyInitConfigures : Prop :=
  ∀ s t : State, (input s).blkRst = false → step s = .next t →
    (s.stat.configured = true → t.stat.configured = true)
    ∧ ((t.stat.configured ≠ s.stat.configured ∨ t.cfg ≠ s.cfg) →
      s.seq.offer = some (encode .init) ∧ t.stat.code = .none ∧ t.cfg = configOf s.regs
        ∧ LegalConfig s.build t.cfg)

/-- R27: FATAL is set by a fatal error only, and cleared by a successful INIT only. -/
def Obligations.FatalIsClearedOnlyByInit : Prop :=
  ∀ s t : State, Inv s → (input s).blkRst = false → step s = .next t →
    (s.stat.fatal = true → t.stat.fatal = false →
      s.seq.offer = some (encode .init) ∧ t.stat.code = .none ∧ t.stat.panel = .uninitialized)
    ∧ (s.stat.fatal = false → t.stat.fatal = true →
      (t.stat.code = .busTransaction ∨ t.stat.code = .memFault ∨ t.stat.code = .seqFormat) ∧ s.seq.sent = true
        ∧ t.stat.panel = .uninitialized)

/-- R73: no step of the block writes host memory: after any step an address reads what the host wrote to it in that cycle, or
what it held before. That the host's memory writes happen in a cycle with block reset too is the model's choice (log 16). -/
def Obligations.BlockNeverWritesHostMemory : Prop :=
  ∀ s t : State, step s = .next t → ∀ a : Nat,
    memGet t.mem a =
      (((input s).memWrites.reverse.find? fun c => c.1.toNat == a).map Prod.snd).or (memGet s.mem a)

/-- R86, R74: at the end of its latency a read that does not fault hands on the byte the host wrote before the operation, when
the host has not written it since; with a race (R87) it hands on one of the values the byte has held. The set of those values
is the model's reading (log 6). That memory is looked at in the cycle after a read's last one is the model's reading (log 14).
-/
def Obligations.ReadReturnsWhatTheHostWrote : Prop :=
  ∀ (s : State) (a : Nat) (d : ReadDraw) (r : ReadRet) (b : Byte), s.seq.step = .read a 0 d r → d.fault = false →
    memGet s.mem a = some b →
    ((∀ c ∈ s.env.raced, c.1 ≠ a) → advance s = afterRead r b s)
    ∧ ∃ v, (v = b ∨ ∃ c ∈ s.env.raced, c.1 = a ∧ v = c.2.getD d.byte) ∧ advance s = afterRead r v s

/-- The invariant holds after reset. It gathers R25, R44, R134, R172, R186, R261 and the canonical form of memory. That the
cursor is then at no statement is the model's choice (log 11). -/
def Obligations.InvariantAtReset : Prop :=
  Inv State.reset

/-- Every step keeps the invariant: reserved register bits read 0 (R22), a rest state has PanelState Uninitialized or Idle
(R25), FATAL means CONFIGURED and Uninitialized (R261), a latched configuration is legal (R172), the lines hold the levels of
the statement the cursor is at (R134, R137 to R142), every read is inside its table or framebuffer (R75, R225). In it the
cursor at rest is the model's choice (log 11 after block reset, log 12 after a finish), and what is offered and where
`s.cs_held` is 1 its reading (logs 7 and 9). -/
def Obligations.EveryStepKeepsTheInvariant : Prop :=
  ∀ s t : State, Inv s → step s = .next t → Inv t

/-- From a state that meets the invariant the step never faults: no operation loses its cursor, and no instruction stops. That
a cycle with block reset has a next state beside an access R71 does not permit too is the model's choice (log 16), and so is
the fault it excludes (log 22). -/
def Obligations.NoStepLosesItsOperation : Prop :=
  ∀ s : State, Inv s → (∀ f, step s ≠ .fault f)
    ∧ ((input s).blkRst = true ∨ badAccess s = none → ∃ t, step s = .next t)
end

