-- ==== Sys2Proof/Laws/Bits.lean ====
section
/-!
SUPPORT. The bits of words built from fields: `place`, and the CMD word.
-/

namespace Sys2Proof

theorem getLsbD_place {n : Nat} (lo : Nat) (v : BitVec n) (i : Nat) :
    (place lo v).getLsbD i = (decide (i < 32) && decide (lo ≤ i) && v.getLsbD (i - lo)) := by
  unfold place
  rw [BitVec.getLsbD_shiftLeft, BitVec.getLsbD_setWidth]
  by_cases h1 : i < 32
  · by_cases h2 : lo ≤ i
    · simp [h1, h2, show ¬ i < lo by omega, show i - lo < 32 by omega]
    · simp [h1, h2, show i < lo by omega]
  · simp [h1]

/-- The three fields of an operation's word (30_encoding.md R101). -/
theorem encode_fields (i : Instr) : cmdRsvd (encode i) = 0 ∧ cmdOp (encode i) = i.opcode ∧ cmdArg (encode i) = i.arg := by
  unfold cmdRsvd cmdOp cmdArg encode
  refine ⟨?_, ?_, ?_⟩ <;> apply BitVec.eq_of_getLsbD_eq <;> intro k hk <;>
    simp only [BitVec.getLsbD_extractLsb', BitVec.getLsbD_or, getLsbD_place]
  · rw [BitVec.getLsbD_of_ge i.opcode _ (by omega), BitVec.getLsbD_of_ge i.arg _ (by omega)]
    simp
  · simp [hk, show k < 32 by omega, show ¬ 8 ≤ k by omega]
  · rw [BitVec.getLsbD_of_ge i.opcode _ (by omega)]
    simp [hk, show 8 + k < 32 by omega]

/-- A word is made of its three fields. -/
theorem word_of_fields (w : Word) (h : cmdRsvd w = 0) : w = place 0 (cmdOp w) ||| place 8 (cmdArg w) := by
  unfold cmdRsvd at h
  unfold cmdOp cmdArg
  have h2 : ∀ j, 16 ≤ j → w.getLsbD j = false := by
    intro j hj
    have := congrArg (fun v : BitVec 16 => v.getLsbD (j - 16)) h
    simp only [BitVec.getLsbD_extractLsb'] at this
    rw [show 16 + (j - 16) = j by omega] at this
    by_cases hj2 : j < 32
    · simpa [show j - 16 < 16 by omega] using this
    · exact BitVec.getLsbD_of_ge _ _ (by omega)
  apply BitVec.eq_of_getLsbD_eq
  intro k hk
  simp only [BitVec.getLsbD_or, getLsbD_place, BitVec.getLsbD_extractLsb', hk, decide_true, Bool.true_and]
  rcases lt_or_ge k 8 with h8 | h8
  · simp [h8, show ¬ 8 ≤ k by omega]
  · rcases lt_or_ge k 16 with h16 | h16
    · simp [show ¬ k < 8 by omega, h8, show 8 + (k - 8) = k by omega, show k - 8 < 8 by omega]
    · rw [h2 k h16]
      simp [show ¬ k < 8 by omega, show ¬ k - 8 < 8 by omega]

end Sys2Proof
end

