-- ==== Sys2Proof/Laws/Config.lean ====
section
/-!
SUPPORT. `configLegal` computes exactly the six conditions of 41_panel_sequencer.md R172.
-/

namespace Sys2Proof.Machine

open Sys2Proof

theorem padReal_iff (b : Build) (p : BitVec 6) : padReal b p = true ↔ p.toNat < padCount b := by
  have h : 7 ≤ padCount b := by unfold padCount; omega
  unfold padReal
  simp
  omega

theorem ne_padNc (p : BitVec 6) : (p != padNc) = decide (p.toNat ≠ 63) := by
  unfold padNc
  revert p
  decide

theorem allDistinct_iff (l : List (BitVec 6)) : allDistinct l = true ↔ l.Nodup := by
  induction l with
  | nil => simp [allDistinct]
  | cons a t ih => simp [allDistinct, ih]

/-- The pads of a configuration in the order of the sections of R172 and in the model's order are the same pads. -/
theorem padList_perm (c : PanelConfig) :
    ([c.csPad, c.dcPad, c.clkPad, c.mosiPad, c.misoPad, c.rstPad, c.busyPad].filter (·.toNat ≠ 63)).Perm
      ((requiredPads c ++ [c.misoPad]).filter (· != padNc)) := by
  rw [show (fun p : BitVec 6 => p != padNc) = fun p => decide (p.toNat ≠ 63) from funext ne_padNc]
  refine List.Perm.filter _ ?_
  simp only [requiredPads, List.cons_append, List.nil_append]
  exact ((((List.perm_append_comm (l₁ := [c.misoPad]) (l₂ := [c.rstPad, c.busyPad])).cons _).cons _).cons _).cons _

theorem depth_iff (d : BitVec 4) :
    (d == 1 || d == 2 || d == 4 || d == 8) = true ↔ d.toNat = 1 ∨ d.toNat = 2 ∨ d.toNat = 4 ∨ d.toNat = 8 := by
  revert d
  decide

theorem isNc_or (p : BitVec 6) (b : Bool) : (p == padNc || b) = true ↔ p.toNat = 63 ∨ b = true := by
  have h : (p == padNc) = true ↔ p.toNat = 63 := by
    unfold padNc
    revert p
    decide
  rw [Bool.or_eq_true, h]

theorem configLegal_iff (b : Build) (c : PanelConfig) : configLegal b c = true ↔ LegalConfig b c := by
  simp only [configLegal, Bool.and_eq_true, decide_eq_true_eq, allDistinct_iff, depth_iff, requiredPads, List.all_eq_true,
    padReal_iff, isNc_or, beq_iff_eq (α := Nat)]
  constructor
  · rintro ⟨⟨⟨⟨⟨h1, h2⟩, h3⟩, h4⟩, h5⟩, h6⟩
    exact ⟨h1, h2, h3, h4, h5, (padList_perm c).nodup_iff.mpr h6⟩
  · rintro ⟨h1, h2, h3, h4, h5, h6⟩
    exact ⟨⟨⟨⟨⟨h1, h2⟩, h3⟩, h4⟩, h5⟩, (padList_perm c).nodup_iff.mp h6⟩

end Sys2Proof.Machine
end

