-- ==== Sys2Proof/Laws/State.lean ====
section
/-!
SUPPORT. What each update of the state leaves alone: one lemma per part of State per update, so that no later proof unfolds
a record update.
-/

namespace Sys2Proof.Machine

open Sys2Proof

/-! ## `emit` -/

@[simp] theorem emit_build (ev : Event) (s : State) : (emit ev s).build = s.build := rfl
@[simp] theorem emit_regs (ev : Event) (s : State) : (emit ev s).regs = s.regs := rfl
@[simp] theorem emit_stat (ev : Event) (s : State) : (emit ev s).stat = s.stat := rfl
@[simp] theorem emit_cfg (ev : Event) (s : State) : (emit ev s).cfg = s.cfg := rfl
@[simp] theorem emit_seq (ev : Event) (s : State) : (emit ev s).seq = s.seq := rfl
@[simp] theorem emit_snap (ev : Event) (s : State) : (emit ev s).snap = s.snap := rfl
@[simp] theorem emit_pins (ev : Event) (s : State) : (emit ev s).pins = s.pins := rfl
@[simp] theorem emit_mem (ev : Event) (s : State) : (emit ev s).mem = s.mem := rfl
@[simp] theorem emit_cycle (ev : Event) (s : State) : (emit ev s).env.cycle = s.env.cycle := rfl
@[simp] theorem emit_script (ev : Event) (s : State) : (emit ev s).env.script = s.env.script := rfl
@[simp] theorem emit_prog (ev : Event) (s : State) : (emit ev s).env.prog = s.env.prog := rfl
@[simp] theorem emit_raced (ev : Event) (s : State) : (emit ev s).env.raced = s.env.raced := rfl
@[simp] theorem emit_reads (ev : Event) (s : State) : (emit ev s).env.reads = s.env.reads := rfl
@[simp] theorem emit_trace (ev : Event) (s : State) :
    (emit ev s).env.trace = s.env.trace ++ [(s.env.cycle, ev)] := rfl

/-! ## `setStep` -/

@[simp] theorem setStep_build (st : Step) (s : State) : (setStep st s).build = s.build := rfl
@[simp] theorem setStep_regs (st : Step) (s : State) : (setStep st s).regs = s.regs := rfl
@[simp] theorem setStep_stat (st : Step) (s : State) : (setStep st s).stat = s.stat := rfl
@[simp] theorem setStep_cfg (st : Step) (s : State) : (setStep st s).cfg = s.cfg := rfl
@[simp] theorem setStep_seq (st : Step) (s : State) : (setStep st s).seq = { s.seq with step := st } := rfl
@[simp] theorem setStep_snap (st : Step) (s : State) : (setStep st s).snap = s.snap := rfl
@[simp] theorem setStep_pins (st : Step) (s : State) : (setStep st s).pins = s.pins := rfl
@[simp] theorem setStep_mem (st : Step) (s : State) : (setStep st s).mem = s.mem := rfl
@[simp] theorem setStep_env (st : Step) (s : State) : (setStep st s).env = s.env := rfl

/-! ## `setPanel` -/

/-- The event `SetState(p)` leaves: none when `p` is held already (10_state.md R24). -/
def panelEvent (p : PanelState) (s : State) : List (Nat × Event) :=
  if s.stat.panel = p then [] else [(s.env.cycle, .panel p)]

@[simp] theorem setPanel_build (p : PanelState) (s : State) : (setPanel p s).build = s.build := by
  unfold setPanel; split <;> rfl
@[simp] theorem setPanel_regs (p : PanelState) (s : State) : (setPanel p s).regs = s.regs := by
  unfold setPanel; split <;> rfl
@[simp] theorem setPanel_cfg (p : PanelState) (s : State) : (setPanel p s).cfg = s.cfg := by
  unfold setPanel; split <;> rfl
@[simp] theorem setPanel_seq (p : PanelState) (s : State) : (setPanel p s).seq = s.seq := by
  unfold setPanel; split <;> rfl
@[simp] theorem setPanel_snap (p : PanelState) (s : State) : (setPanel p s).snap = s.snap := by
  unfold setPanel; split <;> rfl
@[simp] theorem setPanel_pins (p : PanelState) (s : State) : (setPanel p s).pins = s.pins := by
  unfold setPanel; split <;> rfl
@[simp] theorem setPanel_mem (p : PanelState) (s : State) : (setPanel p s).mem = s.mem := by
  unfold setPanel; split <;> rfl
@[simp] theorem setPanel_stat (p : PanelState) (s : State) :
    (setPanel p s).stat = { s.stat with panel := p } := by
  unfold setPanel; split
  · subst p; rfl
  · rfl
@[simp] theorem setPanel_env (p : PanelState) (s : State) :
    (setPanel p s).env = { s.env with trace := s.env.trace ++ panelEvent p s } := by
  unfold setPanel panelEvent; split
  · simp
  · rfl

/-- `SetState(p)` says only this. -/
theorem setPanel_eq (p : PanelState) (s : State) :
    setPanel p s = { s with
      stat := { s.stat with panel := p }
      env := { s.env with trace := s.env.trace ++ panelEvent p s } } := by
  unfold setPanel panelEvent
  split
  · next h => subst h; simp
  · rfl

/-! ## `finish` -/

@[simp] theorem finish_build (c : Code) (s : State) : (finish c s).build = s.build := rfl
@[simp] theorem finish_regs (c : Code) (s : State) : (finish c s).regs = s.regs := rfl
@[simp] theorem finish_cfg (c : Code) (s : State) : (finish c s).cfg = s.cfg := rfl
@[simp] theorem finish_snap (c : Code) (s : State) : (finish c s).snap = s.snap := rfl
@[simp] theorem finish_pins (c : Code) (s : State) : (finish c s).pins = s.pins := rfl
@[simp] theorem finish_mem (c : Code) (s : State) : (finish c s).mem = s.mem := rfl
@[simp] theorem finish_seq (c : Code) (s : State) :
    (finish c s).seq = { s.seq with op := none, step := .idle } := rfl
@[simp] theorem finish_stat (c : Code) (s : State) :
    (finish c s).stat =
      { s.stat with code := c, irqDone := true, irqErr := s.stat.irqErr || c != .none } := rfl
@[simp] theorem finish_env (c : Code) (s : State) :
    (finish c s).env =
      { s.env with trace := s.env.trace ++ [(s.env.cycle, .done (s.seq.op.getD 0) c)] } := rfl

/-! ## `begin` -/

@[simp] theorem begin_build (op arg : Byte) (s : State) : (begin op arg s).build = s.build := rfl
@[simp] theorem begin_regs (op arg : Byte) (s : State) : (begin op arg s).regs = s.regs := rfl
@[simp] theorem begin_stat (op arg : Byte) (s : State) : (begin op arg s).stat = s.stat := rfl
@[simp] theorem begin_cfg (op arg : Byte) (s : State) : (begin op arg s).cfg = s.cfg := rfl
@[simp] theorem begin_snap (op arg : Byte) (s : State) : (begin op arg s).snap = snapshot op arg s.regs := rfl
@[simp] theorem begin_pins (op arg : Byte) (s : State) : (begin op arg s).pins = s.pins := rfl
@[simp] theorem begin_mem (op arg : Byte) (s : State) : (begin op arg s).mem = s.mem := rfl
@[simp] theorem begin_env (op arg : Byte) (s : State) : (begin op arg s).env = s.env := rfl
@[simp] theorem begin_seq (op arg : Byte) (s : State) :
    (begin op arg s).seq =
      { s.seq with
        op := some op, offer := none, pre := s.stat.panel, sent := false, csHeld := false, step := .idle } := rfl

/-! ## `delayStart` and `readStart` -/

@[simp] theorem delayStart_build (ms : Nat) (r : DelayRet) (s : State) : (delayStart ms r s).build = s.build := rfl
@[simp] theorem delayStart_regs (ms : Nat) (r : DelayRet) (s : State) : (delayStart ms r s).regs = s.regs := rfl
@[simp] theorem delayStart_stat (ms : Nat) (r : DelayRet) (s : State) : (delayStart ms r s).stat = s.stat := rfl
@[simp] theorem delayStart_cfg (ms : Nat) (r : DelayRet) (s : State) : (delayStart ms r s).cfg = s.cfg := rfl
@[simp] theorem delayStart_snap (ms : Nat) (r : DelayRet) (s : State) : (delayStart ms r s).snap = s.snap := rfl
@[simp] theorem delayStart_pins (ms : Nat) (r : DelayRet) (s : State) : (delayStart ms r s).pins = s.pins := rfl
@[simp] theorem delayStart_mem (ms : Nat) (r : DelayRet) (s : State) : (delayStart ms r s).mem = s.mem := rfl
@[simp] theorem delayStart_env (ms : Nat) (r : DelayRet) (s : State) : (delayStart ms r s).env = s.env := rfl
@[simp] theorem delayStart_seq (ms : Nat) (r : DelayRet) (s : State) :
    (delayStart ms r s).seq = { s.seq with timer := ms * clkPerMs s.build - 1, step := .delay r } := rfl

@[simp] theorem readStart_build (a : Nat) (r : ReadRet) (s : State) : (readStart a r s).build = s.build := rfl
@[simp] theorem readStart_regs (a : Nat) (r : ReadRet) (s : State) : (readStart a r s).regs = s.regs := rfl
@[simp] theorem readStart_stat (a : Nat) (r : ReadRet) (s : State) : (readStart a r s).stat = s.stat := rfl
@[simp] theorem readStart_cfg (a : Nat) (r : ReadRet) (s : State) : (readStart a r s).cfg = s.cfg := rfl
@[simp] theorem readStart_snap (a : Nat) (r : ReadRet) (s : State) : (readStart a r s).snap = s.snap := rfl
@[simp] theorem readStart_pins (a : Nat) (r : ReadRet) (s : State) :
    (readStart a r s).pins = { s.pins with sclk := false } := rfl
@[simp] theorem readStart_mem (a : Nat) (r : ReadRet) (s : State) : (readStart a r s).mem = s.mem := rfl
@[simp] theorem readStart_env (a : Nat) (r : ReadRet) (s : State) : (readStart a r s).env = s.env := rfl
@[simp] theorem readStart_seq (a : Nat) (r : ReadRet) (s : State) :
    (readStart a r s).seq =
      { s.seq with step := .read a (max 1 (input s).draw.latency - 1) (input s).draw r } := rfl

/-! ## `driveRst` -/

@[simp] theorem driveRst_build (l : Bool) (s : State) : (driveRst l s).build = s.build := rfl
@[simp] theorem driveRst_regs (l : Bool) (s : State) : (driveRst l s).regs = s.regs := rfl
@[simp] theorem driveRst_stat (l : Bool) (s : State) : (driveRst l s).stat = s.stat := rfl
@[simp] theorem driveRst_cfg (l : Bool) (s : State) : (driveRst l s).cfg = s.cfg := rfl
@[simp] theorem driveRst_seq (l : Bool) (s : State) : (driveRst l s).seq = s.seq := rfl
@[simp] theorem driveRst_snap (l : Bool) (s : State) : (driveRst l s).snap = s.snap := rfl
@[simp] theorem driveRst_pins (l : Bool) (s : State) : (driveRst l s).pins = { s.pins with rstN := l } := rfl
@[simp] theorem driveRst_mem (l : Bool) (s : State) : (driveRst l s).mem = s.mem := rfl
@[simp] theorem driveRst_env (l : Bool) (s : State) :
    (driveRst l s).env = { s.env with trace := s.env.trace ++ [(s.env.cycle, .rstPin l)] } := rfl

/-! ## `nextCycle` -/

@[simp] theorem nextCycle_build (pr : List HostStmt) (s : State) : (nextCycle pr s).build = s.build := rfl
@[simp] theorem nextCycle_regs (pr : List HostStmt) (s : State) : (nextCycle pr s).regs = s.regs := rfl
@[simp] theorem nextCycle_stat (pr : List HostStmt) (s : State) : (nextCycle pr s).stat = s.stat := rfl
@[simp] theorem nextCycle_cfg (pr : List HostStmt) (s : State) : (nextCycle pr s).cfg = s.cfg := rfl
@[simp] theorem nextCycle_seq (pr : List HostStmt) (s : State) : (nextCycle pr s).seq = s.seq := rfl
@[simp] theorem nextCycle_snap (pr : List HostStmt) (s : State) : (nextCycle pr s).snap = s.snap := rfl
@[simp] theorem nextCycle_pins (pr : List HostStmt) (s : State) : (nextCycle pr s).pins = s.pins := rfl
@[simp] theorem nextCycle_mem (pr : List HostStmt) (s : State) : (nextCycle pr s).mem = s.mem := rfl
@[simp] theorem nextCycle_env (pr : List HostStmt) (s : State) :
    (nextCycle pr s).env =
      { s.env with cycle := s.env.cycle + 1, prog := pr, raced := if active s then s.env.raced else [] } := rfl

end Sys2Proof.Machine
end

