-- ==== Sys2Proof/Laws/Frame.lean ====
section
/-!
SUPPORT. The frame of a running operation: what no cycle of it changes, and what the accept cycle of an operation leaves
alone.
-/

namespace Sys2Proof.Machine

open Sys2Proof

/-- What a cycle of a running operation leaves alone. -/
structure Steady (s t : State) : Prop where
  build : t.build = s.build
  regs : t.regs = s.regs
  cfg : t.cfg = s.cfg
  configured : t.stat.configured = s.stat.configured
  overrun : t.stat.overrun = s.stat.overrun
  offer : t.seq.offer = s.seq.offer
  pre : t.seq.pre = s.seq.pre
  snap : t.snap = s.snap
  mem : t.mem = s.mem
  cycle : t.env.cycle = s.env.cycle
  script : t.env.script = s.env.script
  prog : t.env.prog = s.env.prog
  raced : t.env.raced = s.env.raced
  reads : t.env.reads = s.env.reads

theorem Steady.refl (s : State) : Steady s s := by constructor <;> rfl

theorem Steady.trans {s t u : State} (h : Steady s t) (k : Steady t u) : Steady s u := by
  constructor
  · rw [k.build, h.build]
  · rw [k.regs, h.regs]
  · rw [k.cfg, h.cfg]
  · rw [k.configured, h.configured]
  · rw [k.overrun, h.overrun]
  · rw [k.offer, h.offer]
  · rw [k.pre, h.pre]
  · rw [k.snap, h.snap]
  · rw [k.mem, h.mem]
  · rw [k.cycle, h.cycle]
  · rw [k.script, h.script]
  · rw [k.prog, h.prog]
  · rw [k.raced, h.raced]
  · rw [k.reads, h.reads]

theorem steady_emit (ev : Event) (s : State) : Steady s (emit ev s) := by constructor <;> rfl

theorem steady_setStep (st : Step) (s : State) : Steady s (setStep st s) := by constructor <;> rfl

theorem steady_setPanel (p : PanelState) (s : State) : Steady s (setPanel p s) := by constructor <;> simp

theorem steady_finish (c : Code) (s : State) : Steady s (finish c s) := by constructor <;> rfl

theorem steady_fatalFinish (e : Code) (s : State) : Steady s (fatalFinish e s) := by
  unfold fatalFinish
  constructor <;> simp

theorem steady_raise (e : Code) (s : State) : Steady s (raise e s) := by
  unfold raise
  split
  · split
    · constructor <;> rfl
    · exact steady_fatalFinish e s
  · exact (steady_setPanel _ _).trans (steady_finish _ _)

theorem steady_cleanupCycle (l : Nat) (e : Code) (s : State) : Steady s (cleanupCycle l e s) := by
  unfold cleanupCycle
  split
  · exact steady_fatalFinish e s
  · exact steady_setStep _ s

theorem steady_delayStart (ms : Nat) (r : DelayRet) (s : State) : Steady s (delayStart ms r s) := by constructor <;> rfl

theorem steady_readStart (a : Nat) (r : ReadRet) (s : State) : Steady s (readStart a r s) := by constructor <;> rfl

theorem steady_txHold (k : Kind) (b : Byte) (ph : Phase) (l : Nat) (f : Bool) (r : TxRet) (s : State) :
    Steady s (txHold k b ph l f r s) := by
  unfold txHold
  split
  · constructor <;> rfl
  · exact steady_setStep _ s

theorem steady_txPhase (k : Kind) (b : Byte) (ph : Phase) (f : Bool) (r : TxRet) (s : State) :
    Steady s (txPhase k b ph f r s) := by
  unfold txPhase
  exact Steady.trans (by constructor <;> rfl) (steady_txHold k b ph _ f r _)

theorem steady_txStart (k : Kind) (b : Byte) (r : TxRet) (s : State) : Steady s (txStart k b r s) := by
  unfold txStart
  exact Steady.trans (by constructor <;> rfl) (steady_txPhase k b _ false r _)

/-- A continuation that leaves alone what a running operation leaves alone. -/
def SteadyNext (next : State → State) : Prop := ∀ s, Steady s (next s)

theorem steady_runEnd (r : RunRet) {next : State → State} (h : SteadyNext next) : SteadyNext (runEnd r next) := by
  intro s
  unfold runEnd
  split
  · constructor <;> rfl
  · exact h s

theorem steady_pollSample (r : PollRet) {next : State → State} (h : SteadyNext next) :
    SteadyNext (pollSample r next) := by
  intro s
  unfold pollSample
  have h0 : Steady s (emit (.busySample (sampleBusy s)) { s with seq := { s.seq with polls := s.seq.polls + 1 } }) := by
    constructor <;> rfl
  dsimp only
  split
  · exact (h0.trans (steady_setPanel _ _)).trans (h _)
  · split
    · exact (h0.trans (steady_setPanel _ _)).trans (steady_raise _ _)
    · exact h0.trans (steady_delayStart _ _ _)

theorem steady_waitIdle (r : PollRet) {next : State → State} (h : SteadyNext next) : SteadyNext (waitIdle r next) := by
  intro s
  unfold waitIdle
  refine Steady.trans ?_ (steady_pollSample r h _)
  exact Steady.trans (by constructor <;> rfl) (steady_setPanel _ _)

theorem steady_pollAgain (r : PollRet) {next : State → State} (h : SteadyNext next) : SteadyNext (pollAgain r next) := by
  intro s
  unfold pollAgain
  exact Steady.trans (by constructor <;> rfl) (steady_pollSample r h _)

theorem steady_playRecord : SteadyNext playRecord := by
  intro s
  unfold playRecord
  split
  · split
    · exact steady_raise _ s
    · exact steady_readStart _ _ s
  · exact (steady_setPanel _ _).trans (steady_finish _ _)

theorem steady_playAdvance : SteadyNext playAdvance := by
  intro s
  unfold playAdvance
  exact Steady.trans (by constructor <;> rfl) (steady_playRecord _)

theorem steady_playWait : SteadyNext playWait := by
  intro s
  unfold playWait
  split
  · exact steady_waitIdle .play steady_playAdvance s
  · exact steady_playAdvance s

theorem steady_playData : SteadyNext playData := by
  intro s
  unfold playData
  split
  · exact steady_readStart _ _ s
  · exact steady_runEnd .play steady_playWait s

theorem steady_playGotLen (b : Byte) : SteadyNext (playGotLen b) := by
  intro s
  unfold playGotLen
  have h0 : Steady s { s with seq := { s.seq with rlen := b } } := by constructor <;> rfl
  dsimp only
  split
  · exact h0.trans (steady_raise _ _)
  · exact h0.trans (steady_txStart _ _ _ _)

theorem steady_checkPassed (n : PanelState) : SteadyNext (checkPassed n) := by
  intro s
  unfold checkPassed
  exact Steady.trans ((steady_setPanel n s).trans (by constructor <;> rfl)) (steady_playRecord _)

theorem steady_checkRecord (n : PanelState) (o : Nat) : SteadyNext (checkRecord n o) := by
  intro s
  unfold checkRecord
  split
  · split
    · exact steady_raise _ s
    · exact steady_readStart _ _ s
  · exact steady_checkPassed n s

theorem steady_checkGotLen (n : PanelState) (o : Nat) (c b : Byte) : SteadyNext (checkGotLen n o c b) := by
  intro s
  unfold checkGotLen
  split
  · exact steady_raise _ s
  · split
    · exact steady_raise _ s
    · exact steady_checkRecord _ _ s

theorem steady_tableBody (n : PanelState) : SteadyNext (tableBody n) := by
  intro s
  unfold tableBody
  split
  · exact steady_checkPassed n s
  · split
    · exact steady_raise _ s
    · exact steady_checkRecord _ _ s

theorem steady_flushRead : SteadyNext flushRead := fun s => steady_readStart _ _ s

theorem steady_flushRefresh : SteadyNext flushRefresh := fun s => steady_txStart _ _ _ s

theorem steady_flushSentData : SteadyNext flushSentData := by
  intro s
  unfold flushSentData
  split
  · exact Steady.trans (by constructor <;> rfl) (steady_flushRead _)
  · split
    · exact Steady.trans (by constructor <;> rfl) (steady_flushRead _)
    · exact steady_runEnd .flush steady_flushRefresh s

theorem steady_flushBody : SteadyNext flushBody := by
  intro s
  unfold flushBody
  split
  · exact steady_raise _ s
  · split
    · exact steady_raise _ s
    · exact Steady.trans (by constructor <;> rfl) (steady_txStart _ _ _ _)

theorem steady_afterTx (r : TxRet) : SteadyNext (afterTx r) := by
  cases r with
  | send => exact steady_runEnd .send (steady_finish .none)
  | playCmd => exact fun s => Steady.trans (by constructor <;> rfl) (steady_playData _)
  | playData => exact fun s => Steady.trans (by constructor <;> rfl) (steady_playData _)
  | flushWriteRam => exact fun s => Steady.trans (by constructor <;> rfl) (steady_flushRead _)
  | flushData => exact steady_flushSentData
  | flushRefresh => exact steady_waitIdle .flush (steady_finish .none)

theorem steady_afterRun (r : RunRet) : SteadyNext (afterRun r) := by
  cases r with
  | send => exact steady_finish .none
  | play => exact steady_playWait
  | flush => exact steady_flushRefresh

theorem steady_afterRead (r : ReadRet) (b : Byte) : SteadyNext (afterRead r b) := by
  cases r with
  | checkCtl n o => exact fun s => steady_readStart _ _ s
  | checkLen n o c => exact steady_checkGotLen n o c b
  | playCmd => exact fun s => Steady.trans (by constructor <;> rfl) (steady_readStart _ _ _)
  | playCtl => exact fun s => Steady.trans (by constructor <;> rfl) (steady_readStart _ _ _)
  | playLen => exact steady_playGotLen b
  | playData => exact fun s => steady_txStart _ _ _ s
  | flushData => exact fun s => steady_txStart _ _ _ s

theorem steady_afterPoll (r : PollRet) : SteadyNext (afterPoll r) := by
  cases r with
  | waitIdle => exact steady_finish .none
  | play => exact steady_playAdvance
  | flush => exact steady_finish .none

theorem steady_driveRst (l : Bool) (s : State) : Steady s (driveRst l s) := by constructor <;> rfl

theorem steady_afterDelay (r : DelayRet) : SteadyNext (afterDelay r) := by
  cases r with
  | resetLow => exact fun s => (steady_driveRst true s).trans (steady_delayStart _ _ _)
  | resetHigh => exact fun s => (steady_setPanel _ s).trans (steady_finish _ _)
  | poll q => exact steady_pollAgain q (steady_afterPoll q)

theorem steady_txCycle (k : Kind) (b : Byte) (ph : Phase) (l : Nat) (f : Bool) (r : TxRet) {next : State → State}
    (h : SteadyNext next) : SteadyNext (txCycle k b ph l f r next) := by
  have hret : SteadyNext (txReturn f next) := by
    intro s
    unfold txReturn
    split
    · exact steady_raise _ s
    · exact h s
  intro s
  unfold txCycle
  split
  · split
    · exact steady_txPhase _ _ _ _ _ s
    · exact steady_txPhase _ _ _ _ _ s
    · exact steady_txPhase _ _ _ _ _ s
    · split
      · exact hret s
      · exact steady_txPhase _ _ _ _ _ s
    · exact hret s
  · exact steady_txHold _ _ _ _ _ _ s

/-- A cycle of a running operation leaves alone the registers, `cfg`, CONFIGURED, OVERRUN, the snapshot, `s.pre`, host
memory, and everything outside the block but the trace. -/
theorem steady_advance (s : State) : Steady s (advance s) := by
  unfold advance
  split
  · exact Steady.refl s
  · exact steady_txCycle _ _ _ _ _ _ (steady_afterTx _) s
  · unfold runEndCycle
    split
    · exact steady_afterRun _ s
    · exact steady_setStep _ s
  · unfold readCycle
    split
    · split
      · exact steady_raise _ s
      · exact steady_afterRead _ _ s
    · exact steady_setStep _ s
  · unfold delayCycle
    split
    · exact steady_afterDelay _ s
    · constructor <;> rfl
  · exact steady_cleanupCycle _ _ s

/-- The statements of the accept cycle after the acceptance itself; INIT's are not among them, since it writes `cfg`. -/
def acceptBody : Instr → State → State
  | .init => initBody
  | .sendCmd _ => fun t => txStart .command t.snap.arg .send t
  | .sendData _ => fun t => txStart .data t.snap.arg .send t
  | .reset => resetBody
  | .waitIdle => waitIdle .waitIdle (finish .none)
  | .powerOn => tableBody .poweringOn
  | .initRegs => tableBody .poweringOn
  | .powerOff => tableBody .poweringOff
  | .flush => flushBody

/-- Every meaning is the acceptance of its operation. -/
theorem exec_eq (i : Instr) (s : State) : exec i s = .next (accept i (acceptBody i) s) := by cases i <;> rfl

theorem steady_acceptBody (i : Instr) (hi : i ≠ .init) : SteadyNext (acceptBody i) := by
  intro s
  cases i with
  | init => exact absurd rfl hi
  | sendCmd b => exact steady_txStart _ _ _ s
  | sendData b => exact steady_txStart _ _ _ s
  | reset =>
    exact ((steady_setPanel _ s).trans (steady_driveRst _ _)).trans (steady_delayStart _ _ _)
  | waitIdle => exact steady_waitIdle .waitIdle (steady_finish .none) s
  | powerOn => exact steady_tableBody _ s
  | initRegs => exact steady_tableBody _ s
  | powerOff => exact steady_tableBody _ s
  | flush => exact steady_flushBody s

end Sys2Proof.Machine
end

