-- ==== Sys2Proof/Laws/Memory.lean ====
section
/-!
SUPPORT. The laws of the host memory: a read after a write, other addresses left alone, the canonical form kept, and what a
`MemRead` answers.
-/

namespace Sys2Proof.Machine

open Sys2Proof

/-- A read after a write to the same address gives the byte written. -/
theorem memGet_memSet_same (m : List Host.Cell) (a : Nat) (v : Byte) : memGet (memSet m a v) a = some v := by
  induction m with
  | nil => simp [memSet, memGet]
  | cons c rest ih =>
    obtain ⟨x, b⟩ := c
    simp only [memSet]
    split
    · simp [memGet]
    · split
      · next h => subst h; simp [memGet]
      · next h1 h2 => simp [memGet, Ne.symm h2, ih]

/-- A write leaves every other address alone. -/
theorem memGet_memSet_other (m : List Host.Cell) (a x : Nat) (v : Byte) (h : x ≠ a) :
    memGet (memSet m a v) x = memGet m x := by
  induction m with
  | nil => simp [memSet, memGet, Ne.symm h]
  | cons c rest ih =>
    obtain ⟨y, b⟩ := c
    simp only [memSet]
    split
    · simp [memGet, Ne.symm h]
    · split
      · next h2 => subst h2; simp [memGet, Ne.symm h]
      · simp [memGet, ih]

theorem memRising_memSet (m : List Host.Cell) (lo : Option Nat) (a : Nat) (v : Byte)
    (hlo : lo.all (· < a) = true) (ha : a < 2 ^ 32) (h : memRising lo m = true) :
    memRising lo (memSet m a v) = true := by
  induction m generalizing lo with
  | nil =>
    simp only [memSet, memRising, Bool.and_eq_true, decide_eq_true_eq]
    exact ⟨⟨hlo, ha⟩, trivial⟩
  | cons c rest ih =>
    obtain ⟨x, b⟩ := c
    simp only [memRising, Bool.and_eq_true, decide_eq_true_eq] at h
    simp only [memSet]
    split
    · next hx =>
      simp only [memRising, Bool.and_eq_true, decide_eq_true_eq, Option.all_some]
      exact ⟨⟨hlo, ha⟩, ⟨hx, h.1.2⟩, h.2⟩
    · split
      · next _ hx =>
        subst hx
        simp only [memRising, Bool.and_eq_true, decide_eq_true_eq]
        exact ⟨⟨h.1.1, ha⟩, h.2⟩
      · next h1 h2 =>
        have : x < a := by omega
        simp only [memRising, Bool.and_eq_true, decide_eq_true_eq]
        exact ⟨h.1, ih (some x) (by simpa using this) h.2⟩

/-- A host write keeps the canonical form. -/
theorem memSet_wf (m : List Host.Cell) (a : Word) (v : Byte) (h : Memory.wf m = true) :
    Memory.wf (memSet m a.toNat v) = true :=
  memRising_memSet m none a.toNat v rfl a.isLt h

theorem memGet_below (m : List Host.Cell) (lo x : Nat) (h : memRising (some lo) m = true) (hx : x ≤ lo) :
    memGet m x = none := by
  induction m generalizing lo with
  | nil => rfl
  | cons c rest ih =>
    obtain ⟨a, b⟩ := c
    simp only [memRising, Bool.and_eq_true, decide_eq_true_eq, Option.all_some] at h
    have : a ≠ x := by omega
    simp only [memGet, this, if_false]
    exact ih a h.2 (by omega)

/-- Two memories in canonical form that read alike are the same list. -/
theorem memRising_ext (m m' : List Host.Cell) (lo : Option Nat) (h : memRising lo m = true)
    (h' : memRising lo m' = true) (heq : ∀ x, memGet m x = memGet m' x) : m = m' := by
  induction m generalizing m' lo with
  | nil =>
    cases m' with
    | nil => rfl
    | cons c r => obtain ⟨a, b⟩ := c; have := heq a; simp [memGet] at this
  | cons c r ih =>
    obtain ⟨a, b⟩ := c
    simp only [memRising, Bool.and_eq_true, decide_eq_true_eq] at h
    cases m' with
    | nil => have := heq a; simp [memGet] at this
    | cons c' r' =>
      obtain ⟨a', b'⟩ := c'
      simp only [memRising, Bool.and_eq_true, decide_eq_true_eq] at h'
      have ha : a = a' := by
        rcases Nat.lt_trichotomy a a' with hl | he | hg
        · have := heq a
          simp only [memGet, if_true, Nat.ne_of_gt hl, if_false] at this
          rw [memGet_below r' a' a h'.2 (by omega)] at this
          simp at this
        · exact he
        · have := heq a'
          simp only [memGet, if_true, Nat.ne_of_gt hg, if_false] at this
          rw [memGet_below r a a' h.2 (by omega)] at this
          simp at this
      subst ha
      have hb : b = b' := by have := heq a; simpa [memGet] using this
      subst hb
      congr 1
      refine ih r' (some a) h.2 h'.2 fun x => ?_
      by_cases hx : a = x
      · subst hx
        rw [memGet_below r a a h.2 le_rfl, memGet_below r' a a h'.2 le_rfl]
      · have := heq x
        simpa [memGet, hx] using this

/-- A byte the host wrote, and has not written since the operation was offered, is what a read that does not fault answers
(20_memory.md R74, R86). -/
theorem readAnswer_unraced (s : State) (a : Nat) (d : ReadDraw) (b : Byte) (hb : memGet s.mem a = some b)
    (hr : s.env.raced.filter (·.1 = a) = []) (hf : d.fault = false) : readAnswer s a d = some b := by
  simp [readAnswer, readCandidates, hb, hr, hf, Nat.mod_one]

/-- What a read answers, whatever its draw, is a fault or one of the candidates (20_memory.md R87). -/
theorem readAnswer_mem (s : State) (a : Nat) (d : ReadDraw) (b : Byte) (h : readAnswer s a d = some b) :
    d.fault = false ∧ b ∈ readCandidates s a d.byte := by
  unfold readAnswer at h
  split at h
  · cases h
  · next hf =>
    refine ⟨by simpa using hf, ?_⟩
    have hpos : 0 < (readCandidates s a d.byte).length := by simp [readCandidates]
    have hlt := Nat.mod_lt d.pick hpos
    simp only [Option.some.injEq] at h
    rw [← h, List.getD_eq_getElem?_getD, List.getElem?_eq_getElem hlt]
    exact List.getElem_mem hlt

/-- What the host's memory writes of a cycle leave alone. -/
structure MemOnly (s t : State) : Prop where
  build : t.build = s.build
  regs : t.regs = s.regs
  stat : t.stat = s.stat
  cfg : t.cfg = s.cfg
  seq : t.seq = s.seq
  snap : t.snap = s.snap
  pins : t.pins = s.pins
  cycle : t.env.cycle = s.env.cycle
  script : t.env.script = s.env.script
  prog : t.env.prog = s.env.prog
  trace : t.env.trace = s.env.trace
  reads : t.env.reads = s.env.reads

theorem hostMemWrites_memOnly (ws : List (Word × Byte)) (s : State) : MemOnly s (ws.foldl hostMemWrite s) := by
  induction ws generalizing s with
  | nil => constructor <;> rfl
  | cons w ws ih =>
    have h := ih (hostMemWrite s w)
    exact ⟨h.build, h.regs, h.stat, h.cfg, h.seq, h.snap, h.pins, h.cycle, h.script, h.prog, h.trace, h.reads⟩

theorem hostMemWrites_wf (ws : List (Word × Byte)) (s : State) (h : Memory.wf s.mem = true) :
    Memory.wf (ws.foldl hostMemWrite s).mem = true := by
  induction ws generalizing s with
  | nil => exact h
  | cons w ws ih => exact ih (hostMemWrite s w) (memSet_wf s.mem w.1 w.2 h)

end Sys2Proof.Machine
end

