-- ==== Sys2Proof/Laws/Invariant.lean ====
section
/-!
SUPPORT. How each shared operation keeps the invariant while an operation runs: from what it needs of the state it is
called in to `Inv` of the state it leaves.
-/

namespace Sys2Proof.Machine

open Sys2Proof

/-- What holds throughout a running operation, whatever statement it is at. -/
structure Ambient (s : State) : Prop where
  memory : Memory.wf s.mem = true
  regs : RegsInv s.regs
  op : s.seq.op ≠ none
  offer : s.seq.offer = none
  configured : s.stat.configured = true
  fatal : s.stat.fatal = false
  pre : Resting s.seq.pre
  config : configLegal s.build s.cfg = true

theorem Inv.ambient {s : State} (h : Inv s) (hop : s.seq.op ≠ none) (hoff : s.seq.offer = none) : Ambient s :=
  have hr := h.control.running hop hoff
  ⟨h.memory, h.regs, hop, hoff, hr.2.1, hr.2.2.1, hr.2.2.2, h.control.config hr.2.1⟩

/-- `Inv` of a running operation, statement by statement. -/
theorem Ambient.inv {s : State} (h : Ambient s) (hst : s.seq.step ≠ .idle) (hp : PanelAt s.seq s.stat.panel)
    (hpins : PinsAt s.seq s.snap s.pins) (hheld : s.seq.csHeld = true → s.seq.sent = true ∧ HeldAt s.seq.step)
    (htx : TxAt s.seq s.cfg s.snap) (hreads : ReadsAt s.seq s.cfg s.snap) : Inv s where
  memory := h.memory
  regs := h.regs
  control :=
    { rest := fun hn => absurd hn h.op
      offered := fun w hw => by rw [h.offer] at hw; cases hw
      running := fun _ _ => ⟨hst, h.configured, h.fatal, h.pre⟩
      panel := hp
      fatal := fun hf => by rw [h.fatal] at hf; cases hf
      unconfigured := fun hc => by rw [h.configured] at hc; cases hc
      config := fun _ => h.config }
  bus := { pins := fun _ => hpins, held := hheld, tx := htx }
  reads := hreads

/-- Finishing leaves the block at rest: PanelState must be a resting one and the lines idle. -/
theorem finish_inv (c : Code) {s : State} (hm : Memory.wf s.mem = true) (hr : RegsInv s.regs)
    (hoff : s.seq.offer = none) (hp : Resting s.stat.panel)
    (hf : s.stat.fatal = true → s.stat.configured = true ∧ s.stat.panel = .uninitialized)
    (hu : s.stat.configured = false → s.stat.panel = .uninitialized)
    (hc : s.stat.configured = true → configLegal s.build s.cfg = true)
    (hi : s.stat.configured = true → IdlePins s.pins) (hh : s.seq.csHeld = false) : Inv (finish c s) where
  memory := hm
  regs := hr
  control :=
    { rest := fun _ => ⟨hoff, rfl⟩
      offered := fun w hw => by simp [hoff] at hw
      running := fun hop => absurd rfl hop
      panel := hp
      fatal := hf
      unconfigured := hu
      config := hc }
  bus := { pins := hi, held := fun h => by simp [hh] at h, tx := trivial }
  reads := trivial

theorem Ambient.finish_inv {s : State} (h : Ambient s) (c : Code) (hp : Resting s.stat.panel) (hi : IdlePins s.pins)
    (hh : s.seq.csHeld = false) : Inv (finish c s) :=
  Machine.finish_inv c h.memory h.regs h.offer hp (fun hf => by rw [h.fatal] at hf; cases hf)
    (fun hc => by rw [h.configured] at hc; cases hc) (fun _ => h.config) (fun _ => hi) hh

theorem Ambient.setPanel {s : State} (h : Ambient s) (p : PanelState) : Ambient (setPanel p s) := by
  constructor <;> simp [h.memory, h.regs, h.op, h.offer, h.configured, h.fatal, h.pre, h.config]

theorem Ambient.emit {s : State} (h : Ambient s) (ev : Event) : Ambient (emit ev s) :=
  ⟨h.memory, h.regs, h.op, h.offer, h.configured, h.fatal, h.pre, h.config⟩

theorem Ambient.fatalFinish_inv {s : State} (h : Ambient s) (e : Code) (hi : IdlePins s.pins)
    (hh : s.seq.csHeld = false) : Inv (fatalFinish e s) := by
  unfold fatalFinish
  refine Machine.finish_inv e ?_ ?_ ?_ ?_ ?_ ?_ ?_ ?_ ?_ <;>
    simp [h.memory, h.regs, h.offer, h.configured, h.config, hi, hh, Resting]

theorem halfPeriod_pos (c : PanelConfig) : 0 < halfPeriod c := by unfold halfPeriod; omega

/-- `raise E` keeps the invariant: the lines must idle unless CS is held in a burst run, and a non-fatal error is raised
with CS free. -/
theorem Ambient.raise_inv {s : State} (h : Ambient s) (e : Code)
    (hi : s.seq.csHeld = false → IdlePins s.pins) (hsent : s.seq.csHeld = true → s.seq.sent = true ∧ isFatal e true = true)
    (hrst : s.pins.rstN = true)
    (hp : s.stat.panel = .idle ∨ s.stat.panel = .uninitialized ∨ Powering s.stat.panel) :
    Inv (raise e s) := by
  unfold raise
  split
  · next hf =>
    split
    · refine Ambient.inv ⟨h.memory, h.regs, h.op, h.offer, h.configured, h.fatal, h.pre, h.config⟩ ?_ ?_ ?_ ?_ ?_ ?_
      · simp
      · simpa [PanelAt] using hp
      · simp [PinsAt, IdlePins, idleLines, hrst]
      · simp
      · have := halfPeriod_pos s.cfg
        have hs := hsent (by assumption)
        simp only [TxAt]
        exact ⟨by omega, hs⟩
      · simp [ReadsAt]
    · next hh => exact h.fatalFinish_inv e (hi (by simpa using hh)) (by simpa using hh)
  · next hf =>
    have hh : s.seq.csHeld = false := by
      by_contra hc
      have hs := hsent (by simpa using hc)
      exact hf (hs.1 ▸ hs.2)
    refine (h.setPanel s.seq.pre).finish_inv e ?_ ?_ ?_
    · simpa using h.pre
    · simpa using hi hh
    · simpa using hh

/-! ## Starting a timed statement -/

theorem Ambient.seqUpd {s : State} (h : Ambient s) (q : Seq) (hop : q.op = s.seq.op) (hoff : q.offer = s.seq.offer)
    (hpre : q.pre = s.seq.pre) : Ambient { s with seq := q } :=
  ⟨h.memory, h.regs, by rw [hop]; exact h.op, by rw [hoff]; exact h.offer, h.configured, h.fatal,
    by rw [hpre]; exact h.pre, h.config⟩

theorem Ambient.delayStart {s : State} (h : Ambient s) (ms : Nat) (r : DelayRet) : Ambient (delayStart ms r s) :=
  h.seqUpd _ rfl rfl rfl

/-- A delay of the busy-poll, or RESET's, begins with the lines idle. -/
theorem Ambient.delayStart_inv {s : State} (h : Ambient s) (ms : Nat) (r : DelayRet)
    (hp : PanelAt { s.seq with step := .delay r } s.stat.panel)
    (hpins : PinsAt { s.seq with step := .delay r } s.snap s.pins) (hh : s.seq.csHeld = false)
    (hreads : ReadsAt { s.seq with step := .delay r } s.cfg s.snap) :
    Inv (Machine.delayStart ms r s) := by
  refine (h.delayStart ms r).inv (by simp) ?_ ?_ ?_ ?_ ?_
  · cases r with
    | poll q => cases q <;> exact hp
    | _ => exact hp
  · cases r with
    | poll q => exact hpins
    | _ => exact hpins
  · simp [hh]
  · simp [TxAt]
  · cases r with
    | poll q => cases q <;> exact hreads
    | _ => exact hreads

theorem Ambient.readStart {s : State} (h : Ambient s) (a : Nat) (r : ReadRet) : Ambient (readStart a r s) :=
  ⟨h.memory, h.regs, h.op, h.offer, h.configured, h.fatal, h.pre, h.config⟩

/-- A read begins with the lines idle, or inside a burst run with CS held. -/
theorem Ambient.readStart_inv {s : State} (h : Ambient s) (a : Nat) (r : ReadRet)
    (hp : ∀ l d, PanelAt { s.seq with step := .read a l d r } s.stat.panel)
    (hrst : s.pins.rstN = true) (hcs : s.pins.csN = !s.seq.csHeld) (hmosi : s.seq.csHeld = false → s.pins.mosi = false)
    (hburst : s.seq.csHeld = true → s.snap.burst = true ∧ s.pins.dc = true ∧ s.seq.sent = true ∧
      (r = .playData ∨ r = .flushData))
    (hreads : ∀ l d, ReadsAt { s.seq with step := .read a l d r } s.cfg s.snap) :
    Inv (Machine.readStart a r s) := by
  refine (h.readStart a r).inv (by simp) ?_ ?_ ?_ ?_ ?_
  · have := hp (max 1 (input s).draw.latency - 1) (input s).draw
    cases r <;> exact this
  · refine ⟨rfl, hrst, hcs, fun hh => ⟨(hburst hh).1, (hburst hh).2.1⟩, hmosi⟩
  · intro hh
    obtain ⟨-, -, hs, hr⟩ := hburst hh
    refine ⟨hs, ?_⟩
    rcases hr with rfl | rfl <;> trivial
  · simp [TxAt]
  · have := hreads (max 1 (input s).draw.latency - 1) (input s).draw
    cases r <;> exact this

/-! ## Transactions -/

/-- What a transaction's caller owes: the kind it sends, PanelState, and where its reads are. -/
structure TxCtx (k : Kind) (r : TxRet) (s : State) : Prop where
  sent : s.seq.sent = true
  panel : ∀ b ph l f, PanelAt { s.seq with step := .tx k b ph l f r } s.stat.panel
  reads : ∀ b ph l f, ReadsAt { s.seq with step := .tx k b ph l f r } s.cfg s.snap
  kind : TxKind r k

theorem heldAt_tx {k : Kind} {r : TxRet} (hk : k = .data) {s : State} (h : TxCtx k r s) (b : Byte) (ph : Phase) (l : Nat)
    (f : Bool) : HeldAt (.tx k b ph l f r) := by
  have := h.kind
  subst hk
  cases r <;> simp [HeldAt, TxKind] at this ⊢

/-- A cycle of a phase with its levels on the lines keeps the invariant. -/
theorem Ambient.txHold_inv {s : State} (h : Ambient s) {k : Kind} {b : Byte} {ph : Phase} {left : Nat} {failed : Bool}
    {r : TxRet} (hctx : TxCtx k r s) (hleft : left < halfPeriod s.cfg) (hf : failed = true → ph = .e)
    (hpins : PinsAt { s.seq with step := .tx k b ph left failed r } s.snap s.pins)
    (hheld : s.seq.csHeld = true → k = .data) : Inv (txHold k b ph left failed r s) := by
  unfold txHold
  split
  · next hlast =>
    obtain ⟨rfl, rfl⟩ := hlast
    have ha : Ambient (Machine.emit (.tx k b)
        { s with seq := { s.seq with csHeld := inBurst k s, step := .tx k b (.high 0) 0 (input s).busFault r } }) :=
      ⟨h.memory, h.regs, h.op, h.offer, h.configured, h.fatal, h.pre, h.config⟩
    refine ha.inv (by simp) ?_ ?_ ?_ ?_ ?_
    · have := hctx.panel b (.high 0) 0 (input s).busFault
      cases r <;> exact this
    · simp only [PinsAt] at hpins ⊢
      obtain ⟨h1, h2, h3, h4, h5, h6, -⟩ := hpins
      refine ⟨h1, h2, h3, h4, h5, h6, ?_⟩
      simp only [emit_seq, emit_snap, inBurst, Bool.and_eq_true, beq_iff_eq]
      exact id
    · intro hh
      simp only [emit_seq, inBurst, Bool.and_eq_true, beq_iff_eq] at hh
      exact ⟨hctx.sent, heldAt_tx hh.1 hctx _ _ _ _⟩
    · show 0 < halfPeriod s.cfg ∧ _
      exact ⟨hleft, hctx.sent, fun _ => .inr ⟨rfl, rfl⟩, fun _ => rfl, hctx.kind⟩
    · have := hctx.reads b (.high 0) 0 (input s).busFault
      cases r <;> exact this
  · next hlast =>
    have ha : Ambient (setStep (.tx k b ph left failed r) s) :=
      ⟨h.memory, h.regs, h.op, h.offer, h.configured, h.fatal, h.pre, h.config⟩
    refine ha.inv (by simp) ?_ ?_ ?_ ?_ ?_
    · have := hctx.panel b ph left failed
      cases r <;> exact this
    · cases ph <;> exact hpins
    · intro hh
      exact ⟨hctx.sent, heldAt_tx (hheld hh) hctx _ _ _ _⟩
    · show left < halfPeriod s.cfg ∧ _
      exact ⟨hleft, hctx.sent, fun hft => .inl (hf hft), fun hl => absurd hl hlast, hctx.kind⟩
    · have := hctx.reads b ph left failed
      cases r <;> exact this

theorem TxCtx.pins {k : Kind} {r : TxRet} {s : State} (h : TxCtx k r s) (p : Pins) : TxCtx k r { s with pins := p } :=
  ⟨h.sent, h.panel, h.reads, h.kind⟩

/-- The first cycle of a phase keeps the invariant. -/
theorem Ambient.txPhase_inv {s : State} (h : Ambient s) {k : Kind} {b : Byte} {ph : Phase} {failed : Bool}
    {r : TxRet} (hctx : TxCtx k r s) (hf : failed = true → ph = .e) (hrst : s.pins.rstN = true)
    (hdc : ph ≠ .p → s.pins.dc = (k == .data)) (hfree : ph = .p ∨ ph = .e → s.seq.csHeld = false)
    (hbit : ∀ i, ph = .low i ∨ ph = .high i → i ≤ 7) (hheld : s.seq.csHeld = true → k = .data ∧ s.snap.burst = true) :
    Inv (txPhase k b ph failed r s) := by
  have ha : Ambient { s with pins := phasePins k b ph s.pins } :=
    ⟨h.memory, h.regs, h.op, h.offer, h.configured, h.fatal, h.pre, h.config⟩
  have hpos := halfPeriod_pos s.cfg
  unfold txPhase
  refine ha.txHold_inv (hctx.pins _) (by simpa using hpos) hf ?_ (fun hh => (hheld hh).1)
  cases ph with
  | p => exact ⟨⟨rfl, rfl, rfl, hrst⟩, rfl, hfree (.inl rfl)⟩
  | low i => exact ⟨rfl, rfl, rfl, hdc (by simp), hrst, hbit i (.inl rfl), hheld⟩
  | high i => exact ⟨rfl, rfl, rfl, hdc (by simp), hrst, hbit i (.inr rfl), hheld⟩
  | e => exact ⟨⟨rfl, rfl, rfl, hrst⟩, hdc (by simp), hfree (.inr rfl)⟩

/-- `SpiTx` starts: with the lines idle, or with CS held in a burst run of data bytes. -/
theorem Ambient.txStart_inv {s : State} (h : Ambient s) {k : Kind} {b : Byte} {r : TxRet}
    (hctx : TxCtx k r { s with seq := { s.seq with sent := true } }) (hrst : s.pins.rstN = true)
    (hheld : s.seq.csHeld = true → k = .data ∧ s.snap.burst = true ∧ s.pins.dc = true) :
    Inv (txStart k b r s) := by
  have ha : Ambient { s with seq := { s.seq with sent := true } } :=
      ⟨h.memory, h.regs, h.op, h.offer, h.configured, h.fatal, h.pre, h.config⟩
  unfold txStart
  cases hc : s.seq.csHeld with
  | false =>
    simp only [Bool.false_eq_true, if_false]
    exact ha.txPhase_inv hctx (by simp) hrst (by simp) (fun _ => hc) (by simp) (fun hh => by simp [hc] at hh)
  | true =>
    obtain ⟨hk, hb, hd⟩ := hheld hc
    simp only [if_true]
    exact ha.txPhase_inv hctx (by simp) hrst (fun _ => by simpa [hk] using hd) (by simp) (by simp) (fun _ => ⟨hk, hb⟩)

/-- The lines between two statements: idle with CS free, or inside a burst run with CS held. -/
structure LinesOk (s : State) : Prop where
  free : s.seq.csHeld = false → IdlePins s.pins
  held : s.seq.csHeld = true →
    s.pins.csN = false ∧ s.pins.rstN = true ∧ s.pins.dc = true ∧ s.snap.burst = true ∧ s.seq.sent = true

theorem LinesOk.of_free {s : State} (hh : s.seq.csHeld = false) (hi : IdlePins s.pins) : LinesOk s :=
  ⟨fun _ => hi, fun h => by rw [hh] at h; cases h⟩

theorem LinesOk.rstN {s : State} (h : LinesOk s) : s.pins.rstN = true := by
  cases hc : s.seq.csHeld with
  | false => exact (h.free hc).2.2.2
  | true => exact (h.held hc).2.1

/-- A run ends: CS is given back, or was free already. -/
theorem Ambient.runEnd_inv {s : State} (h : Ambient s) (r : RunRet) (next : State → State) (hl : LinesOk s)
    (hnext : s.seq.csHeld = false → Inv (next s))
    (hp : ∀ l, PanelAt { s.seq with step := .runEnd l r } s.stat.panel)
    (hreads : ∀ l, ReadsAt { s.seq with step := .runEnd l r } s.cfg s.snap) : Inv (runEnd r next s) := by
  unfold runEnd
  split
  · next hc =>
    obtain ⟨-, hr, hd, -, hs⟩ := hl.held hc
    refine Ambient.inv ⟨h.memory, h.regs, h.op, h.offer, h.configured, h.fatal, h.pre, h.config⟩ ?_ ?_ ?_ ?_ ?_ ?_
    · simp
    · have := hp (halfPeriod s.cfg - 1)
      cases r <;> exact this
    · exact ⟨⟨rfl, rfl, rfl, hr⟩, hd, rfl⟩
    · simp
    · have := halfPeriod_pos s.cfg
      exact ⟨by simpa using this, hs⟩
    · have := hreads (halfPeriod s.cfg - 1)
      cases r <;> exact this
  · next hc => exact hnext (by simpa using hc)

/-! ## The busy-poll -/

/-- One turn of the poll keeps the invariant. -/
theorem Ambient.pollSample_inv {s : State} (h : Ambient s) (r : PollRet) (next : State → State)
    (hh : s.seq.csHeld = false) (hi : IdlePins s.pins)
    (hp : PanelAt { s.seq with step := .delay (.poll r) } s.stat.panel)
    (hreads : ReadsAt { s.seq with step := .delay (.poll r) } s.cfg s.snap)
    (hnext : ∀ t, Ambient t → t.stat.panel = s.seq.prior → t.pins = s.pins →
      t.seq = { s.seq with polls := s.seq.polls + 1 } → t.snap = s.snap → t.cfg = s.cfg → Inv (next t)) :
    Inv (pollSample r next s) := by
  have ht : Ambient (Machine.emit (.busySample (sampleBusy s)) { s with seq := { s.seq with polls := s.seq.polls + 1 } }) :=
    ⟨h.memory, h.regs, h.op, h.offer, h.configured, h.fatal, h.pre, h.config⟩
  unfold pollSample
  dsimp only
  split
  · exact hnext _ (ht.setPanel _) (by simp) (by simp) (by simp) (by simp) (by simp)
  · split
    · refine (ht.setPanel _).raise_inv _ ?_ ?_ ?_ ?_
      · intro _; simpa using hi
      · simp [hh]
      · simpa using hi.2.2.2
      · simp only [setPanel_stat]
        cases r with
        | waitIdle =>
          have : s.seq.prior = s.seq.pre := hp.2
          rw [this]
          rcases h.pre with h1 | h1 <;> simp [h1]
        | play => exact .inr (.inr hp.2.1)
        | flush => exact .inl hp.2.1
    · refine ht.delayStart_inv _ _ ?_ ⟨hi, hh⟩ hh ?_
      · cases r <;> exact hp
      · cases r <;> exact hreads

/-- The busy-poll is entered with the lines idle. -/
theorem Ambient.waitIdle_inv {s : State} (h : Ambient s) (r : PollRet) (next : State → State)
    (hh : s.seq.csHeld = false) (hi : IdlePins s.pins)
    (hp : PanelAt { s.seq with step := .delay (.poll r), prior := s.stat.panel } .busy)
    (hreads : ReadsAt { s.seq with step := .delay (.poll r) } s.cfg s.snap)
    (hnext : ∀ t, Ambient t → t.stat.panel = s.stat.panel → t.pins = s.pins →
      t.seq = { s.seq with prior := s.stat.panel, waited := 0, polls := 1 } → t.snap = s.snap → t.cfg = s.cfg →
      Inv (next t)) :
    Inv (waitIdle r next s) := by
  have hb : Ambient { s with seq := { s.seq with prior := s.stat.panel, waited := 0, polls := 0 } } :=
    ⟨h.memory, h.regs, h.op, h.offer, h.configured, h.fatal, h.pre, h.config⟩
  refine (hb.setPanel .busy).pollSample_inv r next ?_ ?_ ?_ ?_ ?_
  · simpa using hh
  · simpa using hi
  · simp only [setPanel_seq, setPanel_stat]
    cases r <;> exact hp
  · simp only [setPanel_seq, setPanel_cfg, setPanel_snap]
    cases r <;> exact hreads
  · intro t h1 h2 h3 h4 h5 h6
    refine hnext t h1 ?_ ?_ ?_ ?_ ?_
    · simpa using h2
    · simpa using h3
    · simpa using h4
    · simpa using h5
    · simpa using h6

/-! ## The sequence player -/

/-- What holds between two statements of the player. -/
structure PlayCtx (s : State) : Prop where
  ambient : Ambient s
  panel : Powering s.stat.panel
  pre : s.seq.pre = .idle
  table : PlayTable s.seq s.snap

theorem PlayCtx.playRecord_inv {s : State} (h : PlayCtx s) (hh : s.seq.csHeld = false) (hi : IdlePins s.pins) :
    Inv (playRecord s) := by
  unfold playRecord
  split
  · split
    · exact h.ambient.raise_inv _ (fun _ => hi) (by simp [hh]) hi.2.2.2 (.inr (.inr h.panel))
    · next hle =>
      refine h.ambient.readStart_inv _ _ (fun _ _ => ⟨h.panel, h.pre⟩) hi.2.2.2 (by simp [hi.1, hh])
        (fun _ => hi.2.2.1) (by simp [hh]) (fun _ _ => ⟨rfl, h.table, ?_⟩)
      show s.seq.tp + 3 ≤ s.seq.tend
      omega
  · exact (h.ambient.setPanel _).finish_inv _ (by simp [Resting]) (by simpa using hi) (by simpa using hh)

theorem PlayCtx.playAdvance_inv {s : State} (h : PlayCtx s) (hh : s.seq.csHeld = false) (hi : IdlePins s.pins) :
    Inv (playAdvance s) := by
  unfold playAdvance
  have ha := h.ambient
  refine PlayCtx.playRecord_inv
    ⟨⟨ha.memory, ha.regs, ha.op, ha.offer, ha.configured, ha.fatal, ha.pre, ha.config⟩, h.panel, h.pre, ?_⟩ hh hi
  have := h.table
  exact ⟨by have := this.1; simp; omega, this.2.1, this.2.2⟩

theorem PlayCtx.playWait_inv {s : State} (h : PlayCtx s) (hh : s.seq.csHeld = false) (hi : IdlePins s.pins)
    (hb : s.seq.tp + 3 + s.seq.rlen.toNat ≤ s.seq.tend) : Inv (playWait s) := by
  unfold playWait
  split
  · refine h.ambient.waitIdle_inv .play _ hh hi ⟨rfl, h.panel, h.pre⟩ ⟨h.table, hb⟩ ?_
    intro t h1 h2 h3 h4 h5 h6
    refine PlayCtx.playAdvance_inv ⟨h1, by rw [h2]; exact h.panel, by rw [h4]; exact h.pre, ?_⟩ (by rw [h4]; exact hh)
      (by rw [h3]; exact hi)
    rw [h4, h5]
    exact h.table
  · exact h.playAdvance_inv hh hi

theorem PlayCtx.playData_inv {s : State} (h : PlayCtx s) (hl : LinesOk s)
    (hb : s.seq.tp + 3 + s.seq.rlen.toNat ≤ s.seq.tend) : Inv (playData s) := by
  unfold playData
  split
  · next hlt =>
    refine h.ambient.readStart_inv _ _ (fun _ _ => ⟨h.panel, h.pre⟩) hl.rstN ?_ (fun hc => (hl.free hc).2.2.1)
      (fun hc => ⟨(hl.held hc).2.2.2.1, (hl.held hc).2.2.1, (hl.held hc).2.2.2.2, .inl rfl⟩)
      (fun _ _ => ⟨rfl, h.table, hlt, hb⟩)
    cases hc : s.seq.csHeld with
    | false => simpa using (hl.free hc).1
    | true => simpa using (hl.held hc).1
  · exact h.ambient.runEnd_inv _ _ hl (fun hc => h.playWait_inv hc (hl.free hc) hb) (fun _ => ⟨h.panel, h.pre⟩)
      (fun _ => ⟨h.table, hb⟩)

theorem PlayCtx.playGotLen_inv {s : State} (h : PlayCtx s) (hh : s.seq.csHeld = false) (hi : IdlePins s.pins)
    (b : Byte) : Inv (playGotLen b s) := by
  unfold playGotLen
  have ha := h.ambient
  have ht : Ambient { s with seq := { s.seq with rlen := b } } :=
    ⟨ha.memory, ha.regs, ha.op, ha.offer, ha.configured, ha.fatal, ha.pre, ha.config⟩
  dsimp only
  split
  · exact ht.raise_inv _ (fun _ => hi) (by simp [hh]) hi.2.2.2 (.inr (.inr h.panel))
  · next hb =>
    simp only [not_or, not_lt] at hb
    exact ht.txStart_inv ⟨rfl, fun _ _ _ _ => ⟨h.panel, h.pre⟩, fun _ _ _ _ => ⟨h.table, hb.2⟩, rfl⟩ hi.2.2.2
      (by simp [hh])

/-! ## The check pass -/

/-- What holds between two statements of the check pass. -/
structure CheckCtx (next : PanelState) (s : State) : Prop where
  ambient : Ambient s
  panel : s.stat.panel = .idle
  pre : s.seq.pre = .idle
  powering : Powering next
  free : s.seq.csHeld = false
  idle : IdlePins s.pins
  fits : s.snap.base.toNat + s.snap.len.toNat ≤ 2 ^ 32

theorem CheckCtx.checkPassed_inv {n : PanelState} {s : State} (h : CheckCtx n s) : Inv (checkPassed n s) := by
  unfold checkPassed
  dsimp only
  have ha := h.ambient.setPanel n
  refine PlayCtx.playRecord_inv
    ⟨⟨ha.memory, ha.regs, ha.op, ha.offer, ha.configured, ha.fatal, ha.pre, ha.config⟩, ?_, ?_, ?_⟩ ?_ ?_
  · simpa using h.powering
  · simpa using h.pre
  · exact ⟨by simp, by simp, by simpa using h.fits⟩
  · simpa using h.free
  · simpa using h.idle

theorem CheckCtx.raise_inv {n : PanelState} {s : State} (h : CheckCtx n s) (e : Code) : Inv (raise e s) :=
  h.ambient.raise_inv e (fun _ => h.idle) (by simp [h.free]) h.idle.2.2.2 (.inl h.panel)

theorem CheckCtx.checkRecord_inv {n : PanelState} {s : State} (h : CheckCtx n s) (o : Nat) :
    Inv (checkRecord n o s) := by
  unfold checkRecord
  split
  · split
    · exact h.raise_inv _
    · next hle =>
      exact h.ambient.readStart_inv _ _ (fun _ _ => ⟨h.panel, h.pre, h.powering⟩) h.idle.2.2.2
        (by simp [h.idle.1, h.free]) (fun _ => h.idle.2.2.1) (by simp [h.free])
        (fun _ _ => ⟨rfl, by simpa using hle, h.fits⟩)
  · exact h.checkPassed_inv

theorem CheckCtx.checkGotCtl_inv {n : PanelState} {s : State} (h : CheckCtx n s) (o : Nat) (b : Byte)
    (ho : o + 3 ≤ s.snap.len.toNat) : Inv (checkGotCtl n o b s) :=
  h.ambient.readStart_inv _ _ (fun _ _ => ⟨h.panel, h.pre, h.powering⟩) h.idle.2.2.2
    (by simp [h.idle.1, h.free]) (fun _ => h.idle.2.2.1) (by simp [h.free]) (fun _ _ => ⟨rfl, ho, h.fits⟩)

theorem CheckCtx.checkGotLen_inv {n : PanelState} {s : State} (h : CheckCtx n s) (o : Nat) (ctl b : Byte) :
    Inv (checkGotLen n o ctl b s) := by
  unfold checkGotLen
  split
  · exact h.raise_inv _
  · split
    · exact h.raise_inv _
    · exact h.checkRecord_inv _

theorem tableBody_inv {n : PanelState} {s : State} (ha : Ambient s) (hp : s.stat.panel = .idle)
    (hpre : s.seq.pre = .idle) (hn : Powering n) (hh : s.seq.csHeld = false) (hi : IdlePins s.pins) :
    Inv (tableBody n s) := by
  unfold tableBody
  split
  · next hl =>
    exact CheckCtx.checkPassed_inv ⟨ha, hp, hpre, hn, hh, hi, by
      rw [hl]; have := s.snap.base.isLt; simp; omega⟩
  · split
    · exact ha.raise_inv _ (fun _ => hi) (by simp [hh]) hi.2.2.2 (.inl hp)
    · next hb =>
      simp only [not_or, not_lt] at hb
      exact CheckCtx.checkRecord_inv ⟨ha, hp, hpre, hn, hh, hi, hb.2⟩ 0

/-! ## The flush engine -/

/-- What holds between two statements of FLUSH once its checks have passed. -/
structure FlushCtx (s : State) : Prop where
  ambient : Ambient s
  panel : s.stat.panel = .idle
  pre : s.seq.pre = .idle
  geometry : FlushGeometry s.seq s.cfg s.snap

/-- In a legal configuration a valid region's columns are in order (42_flush_engine.md R223). -/
theorem columns_ordered {b : Build} {c : PanelConfig} {n : Snap} (hc : configLegal b c = true)
    (hr : regionValid c n = true) : firstColumn c n ≤ lastColumn c n ∧ lastColumn c n < stride c := by
  simp only [configLegal, Bool.and_eq_true, decide_eq_true_eq, beq_iff_eq, Bool.or_eq_true] at hc
  simp only [regionValid, decide_eq_true_eq] at hr
  obtain ⟨⟨⟨⟨⟨-, hd⟩, hmod⟩, -⟩, -⟩, -⟩ := hc
  have hpos : 1 ≤ c.depth.toNat := by
    rcases hd with ((hd | hd) | hd) | hd <;> rw [hd] <;> decide
  unfold firstColumn lastColumn stride
  have h1 : n.x1.toNat * c.depth.toNat ≤ n.x2.toNat * c.depth.toNat := Nat.mul_le_mul_right _ hr.1
  have h2 : (n.x2.toNat + 1) * c.depth.toNat = n.x2.toNat * c.depth.toNat + c.depth.toNat := by ring
  have h3 : (n.x2.toNat + 1) * c.depth.toNat ≤ c.width.toNat * c.depth.toNat := Nat.mul_le_mul_right _ hr.2.1
  omega

theorem FlushCtx.flushRead_inv {s : State} (h : FlushCtx s) (hl : LinesOk s) (hcur : FlushCursor s.seq s.snap) :
    Inv (flushRead s) := by
  unfold flushRead
  refine h.ambient.readStart_inv _ _ (fun _ _ => ⟨h.panel, h.pre⟩) hl.rstN ?_ (fun hc => (hl.free hc).2.2.1)
    (fun hc => ⟨(hl.held hc).2.2.2.1, (hl.held hc).2.2.1, (hl.held hc).2.2.2.2, .inr rfl⟩)
    (fun _ _ => ⟨rfl, h.geometry, hcur⟩)
  cases hc : s.seq.csHeld with
  | false => simpa using (hl.free hc).1
  | true => simpa using (hl.held hc).1

theorem FlushCtx.flushRefresh_inv {s : State} (h : FlushCtx s) (hh : s.seq.csHeld = false) (hi : IdlePins s.pins) :
    Inv (flushRefresh s) :=
  h.ambient.txStart_inv ⟨rfl, fun _ _ _ _ => ⟨h.panel, h.pre⟩, fun _ _ _ _ => trivial, rfl⟩ hi.2.2.2 (by simp [hh])

theorem FlushCtx.flushSentData_inv {s : State} (h : FlushCtx s) (hl : LinesOk s) (hcur : FlushCursor s.seq s.snap) :
    Inv (flushSentData s) := by
  unfold flushSentData
  have ha := h.ambient
  have hord := columns_ordered ha.config h.geometry.1
  obtain ⟨c1, c2, c3, c4⟩ := hcur
  split
  · next hx =>
    exact FlushCtx.flushRead_inv
      ⟨⟨ha.memory, ha.regs, ha.op, ha.offer, ha.configured, ha.fatal, ha.pre, ha.config⟩, h.panel, h.pre, h.geometry⟩
      ⟨hl.free, hl.held⟩ ⟨c1, c2, Nat.le_succ_of_le c3, hx⟩
  · split
    · next hy =>
      refine FlushCtx.flushRead_inv
        ⟨⟨ha.memory, ha.regs, ha.op, ha.offer, ha.configured, ha.fatal, ha.pre, ha.config⟩, h.panel, h.pre, h.geometry⟩
        ⟨hl.free, hl.held⟩ ⟨Nat.le_succ_of_le c1, hy, le_rfl, ?_⟩
      show s.seq.bxlo ≤ s.seq.bxhi
      rw [h.geometry.2.2.1, h.geometry.2.2.2]
      exact hord.1
    · exact ha.runEnd_inv _ _ hl (fun hc => h.flushRefresh_inv hc (hl.free hc)) (fun _ => ⟨h.panel, h.pre⟩)
        (fun _ => trivial)

theorem FlushCtx.flushSentWriteRam_inv {s : State} (h : FlushCtx s) (hh : s.seq.csHeld = false)
    (hi : IdlePins s.pins) : Inv (flushSentWriteRam s) := by
  unfold flushSentWriteRam
  have ha := h.ambient
  have hord := columns_ordered ha.config h.geometry.1
  have hv := h.geometry.1
  simp only [regionValid, decide_eq_true_eq] at hv
  refine FlushCtx.flushRead_inv
    ⟨⟨ha.memory, ha.regs, ha.op, ha.offer, ha.configured, ha.fatal, ha.pre, ha.config⟩, h.panel, h.pre, h.geometry⟩
    (LinesOk.of_free hh hi) ⟨le_rfl, hv.2.2.1, le_rfl, ?_⟩
  show s.seq.bxlo ≤ s.seq.bxhi
  rw [h.geometry.2.2.1, h.geometry.2.2.2]
  exact hord.1

theorem flushBody_inv {s : State} (ha : Ambient s) (hp : s.stat.panel = .idle) (hpre : s.seq.pre = .idle)
    (hh : s.seq.csHeld = false) (hi : IdlePins s.pins) : Inv (flushBody s) := by
  unfold flushBody
  split
  · exact ha.raise_inv _ (fun _ => hi) (by simp [hh]) hi.2.2.2 (.inl hp)
  · next hv =>
    split
    · exact ha.raise_inv _ (fun _ => hi) (by simp [hh]) hi.2.2.2 (.inl hp)
    · next hu =>
      have ht : Ambient { s with
          seq := { s.seq with bxlo := firstColumn s.cfg s.snap, bxhi := lastColumn s.cfg s.snap } } :=
        ⟨ha.memory, ha.regs, ha.op, ha.offer, ha.configured, ha.fatal, ha.pre, ha.config⟩
      exact ht.txStart_inv (k := .command) (r := .flushWriteRam)
        ⟨rfl, fun _ _ _ _ => ⟨hp, hpre⟩, fun _ _ _ _ => ⟨by simpa using hv, by simpa using hu, rfl, rfl⟩, rfl⟩ hi.2.2.2
        (by simp [hh])

end Sys2Proof.Machine
end

