-- ==== Sys2Proof/Laws/PerInstr.lean ====
section
/-!
SUPPORT. One lemma per operation about its word.
-/

namespace Sys2Proof.Laws.Encoding

open Sys2Proof

/-- The operation is well formed, its OP byte is one of the nine of the opcode map, and the three fields of its word are OP,
ARG and 0 (30_encoding.md R101, R106). -/
def Statement (i : Instr) : Prop :=
  i.wf = true ∧ 1 ≤ i.opcode.toNat ∧ i.opcode.toNat ≤ 9
    ∧ cmdOp (encode i) = i.opcode ∧ cmdArg (encode i) = i.arg ∧ cmdRsvd (encode i) = 0

theorem of_opcode (i : Instr) (hw : i.wf = true) (h : 1 ≤ i.opcode.toNat ∧ i.opcode.toNat ≤ 9) : Statement i := by
  obtain ⟨h1, h2, h3⟩ := encode_fields i
  exact ⟨hw, h.1, h.2, h2, h3, h1⟩

theorem init : Statement .init := of_opcode _ rfl (by decide)
theorem sendCmd (arg : Byte) : Statement (.sendCmd arg) := of_opcode _ rfl (by simp [Instr.opcode])
theorem sendData (arg : Byte) : Statement (.sendData arg) := of_opcode _ rfl (by simp [Instr.opcode])
theorem reset : Statement .reset := of_opcode _ rfl (by decide)
theorem waitIdle : Statement .waitIdle := of_opcode _ rfl (by decide)
theorem powerOn : Statement .powerOn := of_opcode _ rfl (by decide)
theorem initRegs : Statement .initRegs := of_opcode _ rfl (by decide)
theorem powerOff : Statement .powerOff := of_opcode _ rfl (by decide)
theorem flush : Statement .flush := of_opcode _ rfl (by decide)

end Sys2Proof.Laws.Encoding
end

