-- ==== Sys2Proof/Laws/Sequencer.lean ====
section
/-!
SUPPORT. A running operation keeps the invariant from one cycle to the next, whatever statement it is at.
-/

namespace Sys2Proof.Machine

open Sys2Proof

/-- After a transaction's last cycle. -/
theorem afterTx_inv {s : State} (ha : Ambient s) {k : Kind} {b : Byte} {ph : Phase} {l : Nat} {f : Bool} (r : TxRet)
    (hst : s.seq.step = .tx k b ph l f r) (hp : PanelAt s.seq s.stat.panel) (hl : LinesOk s)
    (hheld : s.seq.csHeld = true → HeldAt s.seq.step)
    (hr : ReadsAt s.seq s.cfg s.snap) : Inv (afterTx r s) := by
  have hfree : ¬ HeldAt s.seq.step → s.seq.csHeld = false := fun h => by
    by_contra hc; exact h (hheld (by simpa using hc))
  unfold PanelAt at hp
  unfold ReadsAt at hr
  rw [hst] at hp hr hfree
  cases r with
  | send =>
    refine ha.runEnd_inv .send _ hl (fun hc => ha.finish_inv _ ?_ (hl.free hc) hc) (fun _ => hp) (fun _ => trivial)
    rw [hp]; exact ha.pre
  | playCmd =>
    have hc := hfree (by simp [HeldAt])
    exact PlayCtx.playData_inv ⟨ha.seqUpd _ rfl rfl rfl, hp.1, hp.2, hr.1⟩ ⟨hl.free, hl.held⟩ hr.2
  | playData => exact PlayCtx.playData_inv ⟨ha.seqUpd _ rfl rfl rfl, hp.1, hp.2, hr.1⟩ ⟨hl.free, hl.held⟩ hr.2
  | flushWriteRam =>
    have hc := hfree (by simp [HeldAt])
    exact FlushCtx.flushSentWriteRam_inv ⟨ha, hp.1, hp.2, hr⟩ hc (hl.free hc)
  | flushData => exact FlushCtx.flushSentData_inv ⟨ha, hp.1, hp.2, hr.1⟩ hl hr.2
  | flushRefresh =>
    have hc := hfree (by simp [HeldAt])
    refine ha.waitIdle_inv .flush _ hc (hl.free hc) ⟨rfl, hp.1, hp.2⟩ trivial ?_
    intro t h1 h2 h3 h4 h5 h6
    refine h1.finish_inv _ ?_ (by rw [h3]; exact hl.free hc) (by rw [h4]; exact hc)
    rw [h2, hp.1]; exact .inr rfl

theorem afterRun_inv {s : State} (ha : Ambient s) {l : Nat} (r : RunRet)
    (hst : s.seq.step = .runEnd l r) (hp : PanelAt s.seq s.stat.panel) (hi : IdlePins s.pins)
    (hh : s.seq.csHeld = false) (hr : ReadsAt s.seq s.cfg s.snap)  : Inv (afterRun r s) := by
  unfold PanelAt at hp
  unfold ReadsAt at hr
  rw [hst] at hp hr
  cases r with
  | send => exact ha.finish_inv _ (by rw [hp]; exact ha.pre) hi hh
  | play => exact PlayCtx.playWait_inv ⟨ha, hp.1, hp.2, hr.1⟩ hh hi hr.2
  | flush => 
    exact ha.txStart_inv ⟨rfl, fun _ _ _ _ => hp, fun _ _ _ _ => trivial, rfl⟩ hi.2.2.2 (by simp [hh])

theorem afterRead_inv {s : State} (ha : Ambient s) {a l : Nat} {d : ReadDraw} (r : ReadRet) (b : Byte)
    (hst : s.seq.step = .read a l d r) (hp : PanelAt s.seq s.stat.panel) (hl : LinesOk s)
    (hheld : s.seq.csHeld = true → HeldAt s.seq.step)
    (hr : ReadsAt s.seq s.cfg s.snap)  : Inv (afterRead r b s) := by
  have hfree : ¬ HeldAt s.seq.step → s.seq.csHeld = false := fun h => by
    by_contra hc; exact h (hheld (by simpa using hc))
  unfold PanelAt at hp
  unfold ReadsAt at hr
  rw [hst] at hp hr hfree
  cases r with
  | checkCtl n o =>
    have hc := hfree (by simp [HeldAt])
    exact CheckCtx.checkGotCtl_inv ⟨ha, hp.1, hp.2.1, hp.2.2, hc, hl.free hc, hr.2.2⟩ o b hr.2.1
  | checkLen n o ctl =>
    have hc := hfree (by simp [HeldAt])
    exact CheckCtx.checkGotLen_inv ⟨ha, hp.1, hp.2.1, hp.2.2, hc, hl.free hc, hr.2.2⟩ o ctl b
  | playCmd =>
    have hc := hfree (by simp [HeldAt])
    have hi := hl.free hc
    exact (ha.seqUpd { s.seq with rcmd := b } rfl rfl rfl).readStart_inv _ _ (fun _ _ => hp) hi.2.2.2
      (by simp [hi.1, hc]) (fun _ => hi.2.2.1) (by simp [hc]) (fun _ _ => ⟨rfl, hr.2⟩)
  | playCtl =>
    have hc := hfree (by simp [HeldAt])
    have hi := hl.free hc
    exact (ha.seqUpd { s.seq with rctl := b } rfl rfl rfl).readStart_inv _ _ (fun _ _ => hp) hi.2.2.2
      (by simp [hi.1, hc]) (fun _ => hi.2.2.1) (by simp [hc]) (fun _ _ => ⟨rfl, hr.2⟩)
  | playLen =>
    have hc := hfree (by simp [HeldAt])
    exact PlayCtx.playGotLen_inv ⟨ha, hp.1, hp.2, hr.2.1⟩ hc (hl.free hc) b
  | playData =>
    exact ha.txStart_inv ⟨rfl, fun _ _ _ _ => hp, fun _ _ _ _ => ⟨hr.2.1, hr.2.2.2⟩, rfl⟩ hl.rstN
      (fun hc => ⟨rfl, (hl.held hc).2.2.2.1, (hl.held hc).2.2.1⟩)
  | flushData =>
    exact ha.txStart_inv ⟨rfl, fun _ _ _ _ => hp, fun _ _ _ _ => hr.2, rfl⟩ hl.rstN
      (fun hc => ⟨rfl, (hl.held hc).2.2.2.1, (hl.held hc).2.2.1⟩)

/-- At every statement but a delay and an idle cursor PanelState is one an error may be raised in. -/
theorem PanelAt.raisable {q : Seq} {p : PanelState} (h : PanelAt q p) (hpre : Resting q.pre)
    (hd : ∀ r, q.step ≠ .delay r) : p = .idle ∨ p = .uninitialized ∨ Powering p := by
  have hres : ∀ {x : PanelState}, Resting x → x = .idle ∨ x = .uninitialized ∨ Powering x :=
    fun hx => hx.elim (fun h => .inr (.inl h)) .inl
  unfold PanelAt at h
  split at h
  all_goals first
    | exact hres h
    | (subst h; exact hres hpre)
    | exact .inr (.inr h.1)
    | exact .inl h.1
    | exact h
    | (next hs => exact absurd hs (hd _))

theorem readCycle_inv {s : State} (h : Inv s) (ha : Ambient s) {a l : Nat} {d : ReadDraw} {r : ReadRet}
    (hst : s.seq.step = .read a l d r) : Inv (readCycle a l d r (afterRead r) s) := by
  have hp := h.control.panel
  have hpins := h.bus.pins ha.configured
  have hheld := h.bus.held
  have hr := h.reads
  have hl : LinesOk s := by
    unfold PinsAt at hpins
    rw [hst] at hpins
    obtain ⟨h1, h2, h3, h4, h5⟩ := hpins
    exact ⟨fun hc => ⟨by simpa [hc] using h3, h1, h5 hc, h2⟩,
      fun hc => ⟨by simpa [hc] using h3, h2, (h4 hc).2, (h4 hc).1, (hheld hc).1⟩⟩
  unfold readCycle
  split
  · split
    · refine ha.raise_inv _ hl.free (fun hc => ?_) hl.rstN (hp.raisable ha.pre (by simp [hst]))
      exact ⟨(hheld hc).1, rfl⟩
    · exact afterRead_inv ha r _ hst hp hl (fun hc => (hheld hc).2) hr
  · refine Ambient.inv (s := setStep (.read a (l - 1) d r) s)
      ⟨h.memory, h.regs, ha.op, ha.offer, ha.configured, ha.fatal, ha.pre, ha.config⟩ (by simp) ?_ ?_ ?_ ?_ ?_
    · unfold PanelAt at hp ⊢; rw [hst] at hp
      cases r <;> exact hp
    · unfold PinsAt at hpins ⊢; rw [hst] at hpins
      exact hpins
    · intro hc
      have := hheld hc
      rw [hst] at this
      cases r <;> exact this
    · simp [TxAt]
    · unfold ReadsAt at hr ⊢; rw [hst] at hr
      cases r <;> exact hr

theorem delayCycle_inv {s : State} (h : Inv s) (ha : Ambient s) {r : DelayRet}
    (hst : s.seq.step = .delay r) : Inv (delayCycle (afterDelay r) s) := by
  have hp := h.control.panel
  have hpins := h.bus.pins ha.configured
  have hr := h.reads
  have hh : s.seq.csHeld = false := by
    unfold PinsAt at hpins; rw [hst] at hpins
    rcases r with _ | _ | _
    · exact hpins.2.2.2.2
    · exact hpins.2
    · exact hpins.2
  unfold delayCycle
  split
  · unfold PanelAt at hp
    unfold PinsAt at hpins
    unfold ReadsAt at hr
    rw [hst] at hp hpins hr
    cases r with
    | resetLow =>
      exact (Ambient.mk ha.memory ha.regs ha.op ha.offer ha.configured ha.fatal ha.pre ha.config : Ambient (driveRst true s)).delayStart_inv
        _ _ hp ⟨⟨hpins.1, hpins.2.1, hpins.2.2.1, rfl⟩, hh⟩ hh trivial
    | resetHigh =>
      exact (ha.setPanel .idle).finish_inv _ (by simp [Resting]) (by simpa using hpins.1) (by simpa using hh)
    | poll r =>
      refine (ha.seqUpd { s.seq with waited := s.seq.waited + pollMs s.build } rfl rfl rfl).pollSample_inv r _ hh
        hpins.1 ?_ ?_ ?_
      · cases r <;> exact hp
      · cases r <;> exact hr
      · intro t h1 h2 h3 h4 h5 h6
        have hti : IdlePins t.pins := by rw [h3]; exact hpins.1
        have hth : t.seq.csHeld = false := by rw [h4]; exact hh
        cases r with
        | waitIdle => exact h1.finish_inv _ (by rw [h2]; show Resting s.seq.prior; rw [hp.2]; exact ha.pre) hti hth
        | flush => exact h1.finish_inv _ (by rw [h2]; show Resting s.seq.prior; rw [hp.2.1]; exact .inr rfl) hti hth
        | play =>
          refine PlayCtx.playAdvance_inv ⟨h1, by rw [h2]; exact hp.2.1, by rw [h4]; exact hp.2.2, ?_⟩ hth hti
          rw [h4, h5]
          exact hr.1
  · refine (ha.seqUpd { s.seq with timer := s.seq.timer - 1 } rfl rfl rfl).inv (by simp [hst]) ?_ ?_ ?_ ?_ ?_
    · exact hp
    · exact hpins
    · exact h.bus.held
    · exact h.bus.tx
    · exact hr

theorem txCycle_inv {s : State} (h : Inv s) (ha : Ambient s) {k : Kind} {b : Byte} {ph : Phase} {l : Nat} {f : Bool}
    {r : TxRet} (hst : s.seq.step = .tx k b ph l f r) : Inv (txCycle k b ph l f r (afterTx r) s) := by
  have hp := h.control.panel
  have hpins := h.bus.pins ha.configured
  have hheld := h.bus.held
  have hr := h.reads
  have htx := h.bus.tx
  unfold TxAt at htx
  rw [hst] at htx
  obtain ⟨hlt, hsent, hfail, hlast, hkind⟩ := htx
  have hctx : TxCtx k r s := by
    refine ⟨hsent, ?_, ?_, hkind⟩
    · intro b' ph' l' f'
      unfold PanelAt at hp ⊢; rw [hst] at hp
      cases r <;> exact hp
    · intro b' ph' l' f'
      unfold ReadsAt at hr ⊢; rw [hst] at hr
      cases r <;> exact hr
  have hrs := hp.raisable ha.pre (by simp [hst])
  have hret : LinesOk s → Inv (txReturn f (afterTx r) s) := by
    intro hl
    unfold txReturn
    split
    · exact ha.raise_inv _ hl.free (fun _ => ⟨hsent, rfl⟩) hl.rstN hrs
    · exact afterTx_inv ha r hst hp hl (fun hc => (hheld hc).2) hr
  unfold PinsAt at hpins
  rw [hst] at hpins
  unfold txCycle
  split
  · next hz =>
    subst hz
    cases ph with
    | p =>
      have hf : f = false := by
        by_contra hc
        rcases hfail (by simpa using hc) with h1 | h1 <;> simp at h1
      exact ha.txPhase_inv hctx (by simp [hf]) hpins.1.2.2.2 (fun _ => hpins.2.1) (by simp) (by simp)
        (by simp [hpins.2.2])
    | low i =>
      have hf : f = false := by
        by_contra hc
        rcases hfail (by simpa using hc) with h1 | h1 <;> simp at h1
      obtain ⟨-, -, -, hd, hrst, hi, hb⟩ := hpins
      exact ha.txPhase_inv hctx (by simp [hf]) hrst (fun _ => hd) (by simp) (by simp; omega) hb
    | high i =>
      obtain ⟨hcs, hsk, hm, hd, hrst, hi, hb⟩ := hpins
      cases i with
      | zero =>
        have hcs' := hlast ⟨rfl, rfl⟩
        dsimp only
        split
        · next hin =>
          refine hret ?_
          have hin' : k = .data ∧ s.snap.burst = true := by simpa [inBurst] using hin
          have hc : s.seq.csHeld = true := by rw [hcs', hin'.1, hin'.2]; rfl
          refine ⟨fun hc' => ?_, fun _ => ⟨hcs, hrst, ?_, hin'.2, hsent⟩⟩
          · rw [hc] at hc'; cases hc'
          · rw [hd, hin'.1]; rfl
        · next hin =>
          have hin' : (k == .data && s.snap.burst) = false := by simpa [inBurst] using hin
          have hc : s.seq.csHeld = false := by rw [hcs', hin']
          exact ha.txPhase_inv hctx (fun _ => rfl) hrst (fun _ => hd) (fun _ => hc) (by simp)
            (by simp [hc])
      | succ i =>
        have hf : f = false := by
          by_contra hc
          rcases hfail (by simpa using hc) with h1 | h1 <;> simp at h1
        exact ha.txPhase_inv hctx (by simp [hf]) hrst (fun _ => hd) (by simp) (by simp; omega) hb
    | e =>
      exact hret (LinesOk.of_free hpins.2.2 hpins.1)
  · next hz =>
    have hfe : f = true → ph = .e := fun hft => by
      rcases hfail hft with h1 | h1
      · exact h1
      · exact absurd h1.2 hz
    refine ha.txHold_inv hctx (by omega) hfe ?_ ?_
    · cases ph <;> exact hpins
    · intro hc
      cases ph with
      | p => rw [hpins.2.2] at hc; cases hc
      | e => rw [hpins.2.2] at hc; cases hc
      | low i => exact (hpins.2.2.2.2.2.2 hc).1
      | high i => exact (hpins.2.2.2.2.2.2 hc).1

/-- A running operation keeps the invariant, cycle by cycle. -/
theorem advance_inv {s : State} (h : Inv s) (hop : s.seq.op ≠ none) (hoff : s.seq.offer = none) : Inv (advance s) := by
  have ha := h.ambient hop hoff
  unfold advance
  cases hst : s.seq.step with
  | idle => exact h
  | tx k b ph l f r => exact txCycle_inv h ha hst
  | read a l d r => exact readCycle_inv h ha hst
  | delay r => exact delayCycle_inv h ha hst
  | runEnd l r =>
    have hp := h.control.panel
    have hpins := h.bus.pins ha.configured
    have hr := h.reads
    have htx := h.bus.tx
    have hpins' := hpins
    unfold PinsAt at hpins'
    rw [hst] at hpins'
    unfold TxAt at htx
    rw [hst] at htx
    dsimp only
    unfold runEndCycle
    split
    · exact afterRun_inv ha r hst hp hpins'.1 hpins'.2.2 hr
    · refine Ambient.inv (s := setStep (.runEnd (l - 1) r) s)
        ⟨h.memory, h.regs, ha.op, ha.offer, ha.configured, ha.fatal, ha.pre, ha.config⟩ (by simp) ?_ ?_ ?_ ?_ ?_
      · unfold PanelAt at hp ⊢; rw [hst] at hp
        cases r <;> exact hp
      · exact hpins'
      · simp [hpins'.2.2]
      · exact ⟨Nat.lt_of_le_of_lt (Nat.sub_le _ _) htx.1, htx.2⟩
      · unfold ReadsAt at hr ⊢; rw [hst] at hr
        cases r <;> exact hr
  | cleanup l e =>
    have hp := h.control.panel
    have hpins := h.bus.pins ha.configured
    have htx := h.bus.tx
    unfold PinsAt at hpins
    unfold TxAt at htx
    rw [hst] at hpins htx
    dsimp only
    unfold cleanupCycle
    split
    · exact ha.fatalFinish_inv e hpins.1 hpins.2
    · refine Ambient.inv (s := setStep (.cleanup (l - 1) e) s)
        ⟨h.memory, h.regs, ha.op, ha.offer, ha.configured, ha.fatal, ha.pre, ha.config⟩ (by simp) ?_ ?_ ?_ ?_ ?_
      · unfold PanelAt at hp ⊢; rw [hst] at hp
        exact hp
      · exact hpins
      · simp [hpins.2]
      · exact ⟨Nat.lt_of_le_of_lt (Nat.sub_le _ _) htx.1, htx.2⟩
      · simp [ReadsAt]

end Sys2Proof.Machine
end

