-- ==== Sys2Proof/Laws/Run.lean ====
section
/-!
SUPPORT. Runs of several cycles with a silent host: how they compose, and what one transaction, one delay and one read take.

`Seg n t u` says: when the sequencer has just made its actions `t` in a cycle, then `n` cycles later it has just made its
actions `u`.
-/

namespace Sys2Proof.Machine

open Sys2Proof

/-! ## Composition -/

theorem cycles_add (m n : Nat) (s t : State) (h : cycles m s = .next t) : cycles (m + n) s = cycles n t := by
  induction m generalizing s with
  | zero => simp only [cycles, Host.Outcome.next.injEq] at h; subst h; simp
  | succ m ih =>
    rw [Nat.succ_add]
    simp only [cycles] at h ⊢
    split at h
    · next u hu => exact ih u h
    · cases h
    · cases h

/-- The next cycle begins, with a host that has nothing to do. -/
def tick (t : State) : State := nextCycle [] t

/-- The same state `n` cycles later. -/
def later (n : Nat) (s : State) : State := { s with env := { s.env with cycle := s.env.cycle + n } }

@[simp] theorem later_build (n : Nat) (s : State) : (later n s).build = s.build := rfl
@[simp] theorem later_regs (n : Nat) (s : State) : (later n s).regs = s.regs := rfl
@[simp] theorem later_stat (n : Nat) (s : State) : (later n s).stat = s.stat := rfl
@[simp] theorem later_cfg (n : Nat) (s : State) : (later n s).cfg = s.cfg := rfl
@[simp] theorem later_seq (n : Nat) (s : State) : (later n s).seq = s.seq := rfl
@[simp] theorem later_snap (n : Nat) (s : State) : (later n s).snap = s.snap := rfl
@[simp] theorem later_pins (n : Nat) (s : State) : (later n s).pins = s.pins := rfl
@[simp] theorem later_mem (n : Nat) (s : State) : (later n s).mem = s.mem := rfl
@[simp] theorem later_cycle (n : Nat) (s : State) : (later n s).env.cycle = s.env.cycle + n := rfl
@[simp] theorem later_script (n : Nat) (s : State) : (later n s).env.script = s.env.script := rfl
@[simp] theorem later_prog (n : Nat) (s : State) : (later n s).env.prog = s.env.prog := rfl
@[simp] theorem later_raced (n : Nat) (s : State) : (later n s).env.raced = s.env.raced := rfl
@[simp] theorem later_trace (n : Nat) (s : State) : (later n s).env.trace = s.env.trace := rfl
@[simp] theorem later_zero (s : State) : later 0 s = s := rfl
theorem later_later (m n : Nat) (s : State) : later n (later m s) = later (m + n) s := by
  simp [later, Nat.add_assoc]

theorem inputAt_later (n c : Nat) (s : State) : inputAt (later n s) c = inputAt s c := rfl

/-- An operation is running, at a statement, and the host has no program left. -/
structure Running (t : State) : Prop where
  op : t.seq.op ≠ none
  offer : t.seq.offer = none
  cursor : t.seq.step ≠ .idle
  prog : t.env.prog = []

theorem Running.tick_eq {t : State} (h : Running t) : tick t = later 1 t := by
  have ha : active t = true := by
    have := h.op
    unfold active
    cases hq : t.seq.op with
    | none => exact absurd hq this
    | some _ => rfl
  simp only [tick, nextCycle, ha, if_true, later, ← h.prog]

/-- `n` cycles lead from the actions `t` to the actions `u`. -/
def Seg (n : Nat) (t u : State) : Prop := cycles n (tick t) = .next (tick u)

theorem Seg.refl (t : State) : Seg 0 t t := rfl

theorem Seg.trans {m n : Nat} {t u v : State} (h : Seg m t u) (h' : Seg n u v) : Seg (m + n) t v := by
  unfold Seg at *
  rw [cycles_add m n _ _ h, h']

theorem Seg.cast {m n : Nat} {t u v : State} (h : Seg m t u) (hm : m = n) (hu : u = v) : Seg n t v := by
  subst hm hu
  exact h

/-- A cycle in which the host is silent. -/
theorem endCycle_quiet {s : State} (t : State) (hq : quietInput (input s)) (hp : s.env.prog = []) :
    badAccess s = none ∧ endCycle s t = tick t := by
  obtain ⟨-, hh, hm⟩ := hq
  have ht : hostTurn s = (none, []) := by
    unfold hostTurn
    rcases hh with h | h <;> rw [h] <;> simp [hp]
  refine ⟨by simp [badAccess, ht], ?_⟩
  simp [endCycle, ht, hostAccess, hm, tick]

/-- One cycle of a running operation. -/
theorem Running.seg_one {t : State} (h : Running t) (hq : quietInput (inputAt t (t.env.cycle + 1))) :
    Seg 1 t (advance (later 1 t)) := by
  have hqi : quietInput (input (later 1 t)) := hq
  obtain ⟨hb, he⟩ := endCycle_quiet (advance (later 1 t)) hqi h.prog
  have ha : active (later 1 t) = true := by
    have := h.op
    unfold active
    rw [later_seq]
    cases hs : t.seq.op with
    | none => exact absurd hs this
    | some _ => rfl
  unfold Seg
  rw [h.tick_eq]
  have hseq : sequencerCycle (later 1 t) = .next (advance (later 1 t)) := by
    simp [sequencerCycle, h.offer, ha, h.cursor]
  have hstep : step (later 1 t) = .next (tick (advance (later 1 t))) := by
    simp [step, hqi.1, hb, hseq, he]
  simp [cycles, hstep]

/-! ## Transactions -/

/-- The host is silent in the `n` cycles after the one with the actions `t`. -/
def SilentAfter (n : Nat) (t : State) : Prop := ∀ k < n, quietInput (inputAt t (t.env.cycle + 1 + k))

theorem SilentAfter.mono {m n : Nat} {t : State} (h : SilentAfter n t) (hm : m ≤ n) : SilentAfter m t :=
  fun k hk => h k (Nat.lt_of_lt_of_le hk hm)

theorem SilentAfter.later {m n : Nat} {t : State} (h : SilentAfter (m + n) t) : SilentAfter n (later m t) := by
  intro k hk
  have := h (m + k) (by omega)
  rw [inputAt_later, later_cycle]
  convert this using 2
  omega

/-- The script is the same and the cycle too, so the silence is. -/
theorem SilentAfter.congr {n : Nat} {t u : State} (h : SilentAfter n t) (hs : u.env.script = t.env.script)
    (hc : u.env.cycle = t.env.cycle) : SilentAfter n u := by
  intro k hk
  have := h k hk
  unfold inputAt at this ⊢
  rw [hs, hc]
  exact this

/-- What makes a state one that a running operation's actions leave: everything but the cursor. -/
structure Alive (s : State) : Prop where
  op : s.seq.op ≠ none
  offer : s.seq.offer = none
  prog : s.env.prog = []

theorem Alive.running {s : State} (h : Alive s) (hs : s.seq.step ≠ .idle) : Running s := ⟨h.op, h.offer, hs, h.prog⟩

theorem Alive.later {s : State} (h : Alive s) (n : Nat) : Alive (later n s) := ⟨h.op, h.offer, h.prog⟩

theorem txHold_setStep (k : Kind) (b : Byte) (ph : Phase) (l : Nat) (f : Bool) (r : TxRet) (st : Step) (s : State) :
    txHold k b ph l f r (setStep st s) = txHold k b ph l f r s := by
  unfold txHold
  split <;> rfl

theorem txPhase_setStep (k : Kind) (b : Byte) (ph : Phase) (f : Bool) (r : TxRet) (st : Step) (s : State) :
    txPhase k b ph f r (setStep st s) = txPhase k b ph f r s := by
  unfold txPhase
  rw [← txHold_setStep k b ph _ f r st]
  rfl

/-- The cycles of a phase before its last one. -/
theorem txHold_seg {s : State} (h : Alive s) (k : Kind) (b : Byte) (ph : Phase) (l : Nat) (f : Bool) (r : TxRet)
    (hq : SilentAfter l s) : Seg l (txHold k b ph l f r s) (txHold k b ph 0 f r (later l s)) := by
  induction l generalizing s with
  | zero => exact Seg.refl _
  | succ l ih =>
    have hs : txHold k b ph (l + 1) f r s = setStep (.tx k b ph (l + 1) f r) s := by simp [txHold]
    have hr : Running (setStep (.tx k b ph (l + 1) f r) s) := ⟨h.op, h.offer, by simp, h.prog⟩
    have h1 := hr.seg_one (hq 0 (by omega))
    have hadv : advance (later 1 (setStep (.tx k b ph (l + 1) f r) s)) = txHold k b ph l f r (later 1 s) := by
      show txCycle k b ph (l + 1) f r _ _ = _
      simp only [txCycle, Nat.succ_ne_zero, if_false, Nat.add_sub_cancel]
      exact txHold_setStep k b ph l f r _ (later 1 s)
    rw [hadv] at h1
    have h2 := ih (h.later 1) (SilentAfter.later (m := 1) (by rw [Nat.add_comm]; exact hq))
    rw [hs, show later (l + 1) s = later l (later 1 s) by rw [later_later, Nat.add_comm]]
    exact (h1.trans h2).cast (Nat.add_comm 1 l) rfl

/-- `txHold`'s cursor, when it is not the cycle that samples the bus fault. -/
theorem txHold_eq {k : Kind} {b : Byte} {ph : Phase} {l : Nat} {f : Bool} {r : TxRet} (s : State)
    (hn : ¬(ph = .high 0 ∧ l = 0)) : txHold k b ph l f r s = setStep (.tx k b ph l f r) s := by
  unfold txHold
  rw [if_neg hn]

/-- The phase after a phase. -/
def Phase.next : Phase → Phase
  | .p => .low 7
  | .low i => .high i
  | .high (i + 1) => .low i
  | .high 0 => .e
  | .e => .e

/-- A whole phase, up to the first cycle of the next one. -/
theorem txPhase_seg {s : State} (h : Alive s) (k : Kind) (b : Byte) (ph : Phase) (f : Bool) (r : TxRet)
    (hne : ph ≠ .e) (hn : ph ≠ .high 0) (hq : SilentAfter (halfPeriod s.cfg) s) :
    Seg (halfPeriod s.cfg) (txPhase k b ph f r s)
      (txPhase k b ph.next f r { later (halfPeriod s.cfg) s with pins := phasePins k b ph s.pins }) := by
  have hpos := halfPeriod_pos s.cfg
  obtain ⟨l, hl⟩ : ∃ l, halfPeriod s.cfg = l + 1 := ⟨halfPeriod s.cfg - 1, by omega⟩
  rw [hl] at hq ⊢
  have h0 : txPhase k b ph f r s = txHold k b ph l f r { s with pins := phasePins k b ph s.pins } := by
    simp [txPhase, hl]
  have ha : Alive { s with pins := phasePins k b ph s.pins } := ⟨h.op, h.offer, h.prog⟩
  have h1 := txHold_seg ha k b ph l f r ((hq.mono (Nat.le_succ l)).congr rfl rfl)
  rw [h0]
  refine h1.trans ?_
  rw [txHold_eq _ (by simp [hn])]
  have hr : Running (setStep (.tx k b ph 0 f r) (later l { s with pins := phasePins k b ph s.pins })) :=
    ⟨h.op, h.offer, by simp, h.prog⟩
  have h2 := hr.seg_one (by
    have := hq l (by omega)
    show quietInput (inputAt s (s.env.cycle + l + 1))
    convert this using 2
    omega)
  refine h2.cast rfl ?_
  show txCycle k b ph 0 f r _ _ = _
  rw [← txPhase_setStep k b ph.next f r (.tx k b ph 0 f r) { later (l + 1) s with pins := phasePins k b ph s.pins }]
  simp only [txCycle, if_true]
  cases ph with
  | e => exact absurd rfl hne
  | p => rfl
  | low i => rfl
  | high i =>
    cases i with
    | zero => exact absurd rfl hn
    | succ i => rfl

theorem phasePins_phasePins (k : Kind) (b : Byte) (ph ph' : Phase) (p : Pins) (hp : ph ≠ .p) :
    phasePins k b ph' (phasePins k b ph p) = phasePins k b ph' p := by
  cases ph <;> cases ph' <;> first | rfl | exact absurd rfl hp

theorem txPhase_pins (k : Kind) (b : Byte) (ph ph' : Phase) (f : Bool) (r : TxRet) (s : State) (hp : ph ≠ .p) :
    txPhase k b ph' f r { s with pins := phasePins k b ph s.pins } = txPhase k b ph' f r s := by
  unfold txPhase
  simp only [phasePins_phasePins k b ph ph' s.pins hp]

/-- The levels from bit `i` to the last cycle of `H_0`. -/
theorem txBits_seg {s : State} (h : Alive s) (k : Kind) (b : Byte) (f : Bool) (r : TxRet) (i : Nat)
    (hq : SilentAfter (2 * halfPeriod s.cfg * (i + 1)) s) :
    Seg (2 * halfPeriod s.cfg * i + halfPeriod s.cfg) (txPhase k b (.low i) f r s)
      (txPhase k b (.high 0) f r (later (2 * halfPeriod s.cfg * i + halfPeriod s.cfg) s)) := by
  have hb : 2 * halfPeriod s.cfg * (i + 1) = 2 * halfPeriod s.cfg * i + halfPeriod s.cfg + halfPeriod s.cfg := by ring
  rw [hb] at hq
  clear hb
  induction i generalizing s with
  | zero =>
    have h1 := txPhase_seg h k b (.low 0) f r (by simp) (by simp) (hq.mono (by omega))
    simp only [Nat.mul_zero, Nat.zero_add]
    have := txPhase_pins k b (.low 0) (.high 0) f r (later (halfPeriod s.cfg) s) (by simp)
    rw [← this]
    exact h1
  | succ i ih =>
    have e1 : 2 * halfPeriod s.cfg * (i + 1) = 2 * halfPeriod s.cfg * i + halfPeriod s.cfg + halfPeriod s.cfg := by ring
    have h1 := txPhase_seg h k b (.low (i + 1)) f r (by simp) (by simp) (hq.mono (by omega))
    have p1 := txPhase_pins k b (.low (i + 1)) (.high (i + 1)) f r (later (halfPeriod s.cfg) s) (by simp)
    have h1' : Seg (halfPeriod s.cfg) (txPhase k b (.low (i + 1)) f r s)
        (txPhase k b (.high (i + 1)) f r (later (halfPeriod s.cfg) s)) := by rw [← p1]; exact h1
    have h2 := txPhase_seg (h.later (halfPeriod s.cfg)) k b (.high (i + 1)) f r (by simp) (by simp)
      (SilentAfter.later (hq.mono (by simp only [later_cfg]; omega)))
    have p2 := txPhase_pins k b (.high (i + 1)) (.low i) f r (later (halfPeriod s.cfg + halfPeriod s.cfg) s) (by simp)
    have h2' : Seg (halfPeriod s.cfg) (txPhase k b (.high (i + 1)) f r (later (halfPeriod s.cfg) s))
        (txPhase k b (.low i) f r (later (halfPeriod s.cfg + halfPeriod s.cfg) s)) := by
      rw [← p2, ← later_later]; exact h2
    have h3 := ih (h.later (halfPeriod s.cfg + halfPeriod s.cfg)) 
      (SilentAfter.later (hq.mono (by simp only [later_cfg]; omega)))
    refine ((h1'.trans h2').trans h3).cast ?_ ?_
    · simp only [later_cfg]; omega
    · rw [later_later]
      congr 2
      simp only [later_cfg]
      omega

/-- The state in the last cycle of `H_0` of a byte that began with the lines of `s`. -/
def sampled (k : Kind) (b : Byte) (r : TxRet) (s : State) : State :=
  emit (.tx k b)
    { s with
      pins := phasePins k b (.high 0) s.pins
      seq := { s.seq with csHeld := inBurst k s, step := .tx k b (.high 0) 0 (input s).busFault r } }

/-- From the first cycle of `L_7` to the last cycle of `H_0`: 16 phases. -/
theorem txByte_seg {s : State} (h : Alive s) (k : Kind) (b : Byte) (r : TxRet)
    (hq : SilentAfter (16 * halfPeriod s.cfg) s) :
    Seg (16 * halfPeriod s.cfg - 1) (txPhase k b (.low 7) false r s)
      (sampled k b r (later (16 * halfPeriod s.cfg - 1) s)) := by
  have hpos := halfPeriod_pos s.cfg
  have h1 := txBits_seg h k b false r 7 (hq.mono (by omega))
  have ha : Alive { later (2 * halfPeriod s.cfg * 7 + halfPeriod s.cfg) s with
      pins := phasePins k b (.high 0) s.pins } := ⟨h.op, h.offer, h.prog⟩
  have h2 := txHold_seg ha k b (.high 0) (halfPeriod s.cfg - 1) false r
    (SilentAfter.congr (SilentAfter.later (m := 2 * halfPeriod s.cfg * 7 + halfPeriod s.cfg) (hq.mono (by omega))) rfl rfl)
  have h3 := h1.trans h2
  refine h3.cast (by omega) ?_
  have e : 2 * halfPeriod s.cfg * 7 + halfPeriod s.cfg + (halfPeriod s.cfg - 1) = 16 * halfPeriod s.cfg - 1 := by omega
  unfold txHold sampled
  simp only [and_self, if_true]
  rw [show later (16 * halfPeriod s.cfg - 1) s
      = later (halfPeriod s.cfg - 1) (later (2 * halfPeriod s.cfg * 7 + halfPeriod s.cfg) s) by rw [later_later, e]]
  rfl

/-- From the last cycle of `H_0` on, a byte framed alone takes phase E. -/
theorem txClose_seg {s : State} (h : Alive s) (k : Kind) (b : Byte) (r : TxRet) (hb : inBurst k s = false)
    (hq : SilentAfter (halfPeriod s.cfg + 1) s) :
    Seg (halfPeriod s.cfg + 1) (sampled k b r s)
      (txReturn (input s).busFault (afterTx r)
        (later (halfPeriod s.cfg + 1)
          { s with
            pins := phasePins k b .e s.pins
            seq := { s.seq with csHeld := false, step := .tx k b .e 0 (input s).busFault r }
            env := { s.env with trace := s.env.trace ++ [(s.env.cycle, .tx k b)] } })) := by
  have hpos := halfPeriod_pos s.cfg
  obtain ⟨l, hl⟩ : ∃ l, halfPeriod s.cfg = l + 1 := ⟨halfPeriod s.cfg - 1, by omega⟩
  have hr : Running (sampled k b r s) := ⟨h.op, h.offer, by simp [sampled], h.prog⟩
  have h1 := hr.seg_one (hq 0 (by omega))
  have ha : Alive (later 1 { s with
      pins := phasePins k b .e s.pins
      seq := { s.seq with csHeld := false, step := .tx k b (.high 0) 0 (input s).busFault r }
      env := { s.env with trace := s.env.trace ++ [(s.env.cycle, .tx k b)] } }) := ⟨h.op, h.offer, h.prog⟩
  have e1 : advance (later 1 (sampled k b r s)) = txHold k b .e l (input s).busFault r
      (later 1 { s with
        pins := phasePins k b .e s.pins
        seq := { s.seq with csHeld := false, step := .tx k b (.high 0) 0 (input s).busFault r }
        env := { s.env with trace := s.env.trace ++ [(s.env.cycle, .tx k b)] } }) := by
    show txCycle k b (.high 0) 0 (input s).busFault r _ _ = _
    have hb' : inBurst k (later 1 (sampled k b r s)) = false := hb
    simp only [txCycle, if_true, hb', Bool.false_eq_true, if_false]
    unfold txPhase
    show txHold k b .e (halfPeriod s.cfg - 1) _ _ _ = _
    rw [hl, Nat.add_sub_cancel]
    congr 1
    unfold sampled
    simp only [hb]
    rfl
  rw [e1] at h1
  have h2 := txHold_seg ha k b .e l (input s).busFault r
    (SilentAfter.congr (SilentAfter.later (m := 1) (hq.mono (by omega))) rfl rfl)
  have h12 := h1.trans h2
  rw [txHold_eq _ (by simp)] at h12
  have hr2 : Running (setStep (.tx k b .e 0 (input s).busFault r) (later l (later 1 { s with
      pins := phasePins k b .e s.pins
      seq := { s.seq with csHeld := false, step := .tx k b (.high 0) 0 (input s).busFault r }
      env := { s.env with trace := s.env.trace ++ [(s.env.cycle, .tx k b)] } }))) :=
    ⟨h.op, h.offer, by simp, h.prog⟩
  have hq3 : quietInput (inputAt s (s.env.cycle + 1 + l + 1)) := by
    have := hq (l + 1) (by omega)
    convert this using 2
    omega
  have h3 := hr2.seg_one hq3
  have h4 := h12.trans h3
  refine h4.cast (show 1 + l + 1 = halfPeriod s.cfg + 1 by omega) ?_
  show txCycle k b .e 0 (input s).busFault r _ _ = _
  simp only [txCycle, if_true]
  congr 1
  simp only [hl, later, setStep]
  congr 2
  omega

/-- `SpiTx` outside a burst run: `18 * h` cycles, its `TX` in cycle `17 * h - 1` of them (40_bus_transport.md R137 to R140). -/
theorem txAlone_seg {s : State} (h : Alive s) (k : Kind) (b : Byte) (r : TxRet) (hb : inBurst k s = false)
    (hc : s.seq.csHeld = false) (hq : SilentAfter (18 * halfPeriod s.cfg) s) :
    Seg (18 * halfPeriod s.cfg) (txStart k b r s)
      (txReturn (inputAt s (s.env.cycle + (17 * halfPeriod s.cfg - 1))).busFault (afterTx r)
        (later (18 * halfPeriod s.cfg)
          { s with
            pins := { s.pins with csN := true, sclk := false, mosi := false, dc := k == .data }
            seq := { s.seq with
              sent := true, csHeld := false
              step := .tx k b .e 0 (inputAt s (s.env.cycle + (17 * halfPeriod s.cfg - 1))).busFault r }
            env := { s.env with trace := s.env.trace ++ [(s.env.cycle + (17 * halfPeriod s.cfg - 1), .tx k b)] } })) := by
  have hpos := halfPeriod_pos s.cfg
  have ha : Alive { s with seq := { s.seq with sent := true } } := ⟨h.op, h.offer, h.prog⟩
  have h0 : txStart k b r s = txPhase k b .p false r { s with seq := { s.seq with sent := true } } := by
    unfold txStart; simp [hc]
  have h1 := txPhase_seg ha k b .p false r (by simp) (by simp) ((hq.mono (by show halfPeriod s.cfg ≤ _; omega)).congr rfl rfl)
  have ha2 : Alive { later (halfPeriod s.cfg) { s with seq := { s.seq with sent := true } } with
      pins := phasePins k b .p s.pins } := ⟨h.op, h.offer, h.prog⟩
  have h2 := txByte_seg ha2 k b r (SilentAfter.congr (SilentAfter.later (m := halfPeriod s.cfg) (hq.mono (by
    show halfPeriod s.cfg + 16 * halfPeriod s.cfg ≤ _
    omega))) rfl rfl)
  have ha3 := ha2.later (16 * halfPeriod s.cfg - 1)
  have h3 := txClose_seg ha3 k b r hb (SilentAfter.congr (SilentAfter.later
    (m := halfPeriod s.cfg + (16 * halfPeriod s.cfg - 1)) (hq.mono (by
    show halfPeriod s.cfg + (16 * halfPeriod s.cfg - 1) + (halfPeriod s.cfg + 1) ≤ _
    omega))) rfl (Nat.add_assoc _ _ _))
  have h4 := (h1.trans h2).trans h3
  rw [h0]
  have e17 : halfPeriod s.cfg + (16 * halfPeriod s.cfg - 1) = 17 * halfPeriod s.cfg - 1 := by omega
  have e18 : 17 * halfPeriod s.cfg - 1 + (halfPeriod s.cfg + 1) = 18 * halfPeriod s.cfg := by omega
  have ec : s.env.cycle + halfPeriod s.cfg + (16 * halfPeriod s.cfg - 1) = s.env.cycle + (17 * halfPeriod s.cfg - 1) := by
    omega
  have ed : s.env.cycle + (17 * halfPeriod s.cfg - 1) + (halfPeriod s.cfg + 1) = s.env.cycle + 18 * halfPeriod s.cfg := by
    omega
  refine h4.cast ?_ ?_
  · show halfPeriod s.cfg + (16 * halfPeriod s.cfg - 1) + (halfPeriod s.cfg + 1) = _
    omega
  · have ef : (input (later (16 * halfPeriod s.cfg - 1) { later (halfPeriod s.cfg) { s with seq := { s.seq with sent := true } } with
      pins := phasePins k b .p s.pins })) = inputAt s (s.env.cycle + (17 * halfPeriod s.cfg - 1)) := by
      show inputAt s (s.env.cycle + halfPeriod s.cfg + (16 * halfPeriod s.cfg - 1)) = _
      rw [ec]
    simp only [ef]
    congr 1
    simp only [later, phasePins, ec, ed]

/-- The first data byte of a burst run opens the frame: `17 * h` cycles (40_bus_transport.md R142). -/
theorem txBurst_seg {s : State} (h : Alive s) (b : Byte) (r : TxRet)
    (hc : s.seq.csHeld = false) (hq : SilentAfter (17 * halfPeriod s.cfg) s) :
    Seg (17 * halfPeriod s.cfg - 1) (txStart .data b r s)
      (sampled .data b r
        (later (17 * halfPeriod s.cfg - 1)
          { s with pins := { s.pins with dc := true }, seq := { s.seq with sent := true } })) := by
  have hpos := halfPeriod_pos s.cfg
  have ha : Alive { s with seq := { s.seq with sent := true } } := ⟨h.op, h.offer, h.prog⟩
  have h0 : txStart .data b r s = txPhase .data b .p false r { s with seq := { s.seq with sent := true } } := by
    unfold txStart; simp [hc]
  have h1 := txPhase_seg ha .data b .p false r (by simp) (by simp) ((hq.mono (by show halfPeriod s.cfg ≤ _; omega)).congr rfl rfl)
  have ha2 : Alive { later (halfPeriod s.cfg) { s with seq := { s.seq with sent := true } } with
      pins := phasePins .data b .p s.pins } := ⟨h.op, h.offer, h.prog⟩
  have h2 := txByte_seg ha2 .data b r (SilentAfter.congr (SilentAfter.later (m := halfPeriod s.cfg) (hq.mono (by
    show halfPeriod s.cfg + 16 * halfPeriod s.cfg ≤ _
    omega))) rfl rfl)
  have h3 := h1.trans h2
  rw [h0]
  have ec : s.env.cycle + halfPeriod s.cfg + (16 * halfPeriod s.cfg - 1) = s.env.cycle + (17 * halfPeriod s.cfg - 1) := by
    omega
  refine h3.cast ?_ ?_
  · show halfPeriod s.cfg + (16 * halfPeriod s.cfg - 1) = _
    omega
  · show sampled .data b r (later (16 * halfPeriod s.cfg - 1) { later (halfPeriod s.cfg) { s with seq := { s.seq with sent := true } } with
      pins := phasePins .data b .p s.pins }) = _
    simp only [sampled, later, ec, input, inputAt, phasePins, inBurst]
    rfl

/-- Every later data byte of a burst run: `16 * h` cycles. -/
theorem txBurstNext_seg {s : State} (h : Alive s) (b : Byte) (r : TxRet)
    (hc : s.seq.csHeld = true) (hq : SilentAfter (16 * halfPeriod s.cfg) s) :
    Seg (16 * halfPeriod s.cfg - 1) (txStart .data b r s)
      (sampled .data b r
        (later (16 * halfPeriod s.cfg - 1) { s with seq := { s.seq with sent := true } })) := by
  have ha : Alive { s with seq := { s.seq with sent := true } } := ⟨h.op, h.offer, h.prog⟩
  have h0 : txStart .data b r s = txPhase .data b (.low 7) false r { s with seq := { s.seq with sent := true } } := by
    unfold txStart; simp [hc]
  rw [h0]
  exact txByte_seg ha .data b r (hq.congr rfl rfl)

/-- From the last cycle of `H_0` on, a byte of a burst run returns in the next cycle with CS still low. -/
theorem txBurstReturn_seg {s : State} (h : Alive s) (b : Byte) (r : TxRet) (hb : s.snap.burst = true)
    (hq : SilentAfter 1 s) :
    Seg 1 (sampled .data b r s)
      (txReturn (input s).busFault (afterTx r)
        (later 1
          { s with
            pins := phasePins .data b (.high 0) s.pins
            seq := { s.seq with csHeld := true, step := .tx .data b (.high 0) 0 (input s).busFault r }
            env := { s.env with trace := s.env.trace ++ [(s.env.cycle, .tx .data b)] } })) := by
  have hr : Running (sampled .data b r s) := ⟨h.op, h.offer, by simp [sampled], h.prog⟩
  have h1 := hr.seg_one (hq 0 (by omega))
  have hi : inBurst .data s = true := by simp [inBurst, hb]
  refine h1.cast rfl ?_
  show txCycle .data b (.high 0) 0 (input s).busFault r _ _ = _
  have hb' : inBurst .data (later 1 (sampled .data b r s)) = true := hi
  simp only [txCycle, if_true, hb']
  congr 1
  simp only [sampled, hi]
  rfl

/-! ## Delays, reads and the phase E of a run -/

/-- `Delay(ms)` takes `ms * CLK_PER_MS` cycles (60_exceptions.md R272). -/
theorem delay_seg {s : State} (h : Alive s) (ms : Nat) (r : DelayRet) (hpos : 0 < ms * clkPerMs s.build)
    (hq : SilentAfter (ms * clkPerMs s.build) s) :
    Seg (ms * clkPerMs s.build) (delayStart ms r s)
      (afterDelay r (later (ms * clkPerMs s.build)
        { s with seq := { s.seq with timer := 0, step := .delay r } })) := by
  obtain ⟨l, hl⟩ : ∃ l, ms * clkPerMs s.build = l + 1 := ⟨ms * clkPerMs s.build - 1, by omega⟩
  have hrun : ∀ (m : Nat) (t : State), Alive t → SilentAfter m t →
      Seg m { t with seq := { t.seq with timer := m, step := .delay r } }
        (later m { t with seq := { t.seq with timer := 0, step := .delay r } }) := by
    intro m
    induction m with
    | zero => intro t _ _; exact Seg.refl _
    | succ m ih =>
      intro t ht hs
      have hr : Running { t with seq := { t.seq with timer := m + 1, step := .delay r } } :=
        ⟨ht.op, ht.offer, by simp, ht.prog⟩
      have h1 := hr.seg_one (hs 0 (by omega))
      have h2 := ih (later 1 t) (ht.later 1) (SilentAfter.later (m := 1) (by rw [Nat.add_comm]; exact hs))
      have h3 := h1.trans (u := { later 1 t with seq := { t.seq with timer := m, step := .delay r } }) h2
      refine h3.cast (Nat.add_comm 1 m) ?_
      simp only [later, Nat.add_assoc, Nat.add_comm 1 m]
  have h1 := hrun l s h (hq.mono (by omega))
  have hr : Running (later l { s with seq := { s.seq with timer := 0, step := .delay r } }) :=
    ⟨h.op, h.offer, by simp, h.prog⟩
  have h2 := hr.seg_one (by
    have := hq l (by omega)
    show quietInput (inputAt s (s.env.cycle + l + 1))
    convert this using 2
    omega)
  have h0 : delayStart ms r s = { s with seq := { s.seq with timer := l, step := .delay r } } := by
    unfold delayStart; rw [hl]; rfl
  rw [h0, hl]
  refine (h1.trans h2).cast rfl ?_
  rw [later_later]
  rfl

/-- `MemRead` takes its latency, and at least one cycle (20_memory.md R74, 40_bus_transport.md R144). -/
theorem read_seg {s : State} (h : Alive s) (a : Nat) (r : ReadRet)
    (hq : SilentAfter (max 1 (input s).draw.latency) s) :
    Seg (max 1 (input s).draw.latency) (readStart a r s)
      (readCycle a 0 (input s).draw r (afterRead r)
        (later (max 1 (input s).draw.latency)
          { s with
            pins := { s.pins with sclk := false }
            seq := { s.seq with step := .read a 0 (input s).draw r } })) := by
  obtain ⟨l, hl⟩ : ∃ l, max 1 (input s).draw.latency = l + 1 := ⟨max 1 (input s).draw.latency - 1, by omega⟩
  have hrun : ∀ (m : Nat) (d : ReadDraw) (t : State), Alive t → SilentAfter m t →
      Seg m (setStep (.read a m d r) t) (later m (setStep (.read a 0 d r) t)) := by
    intro m d
    induction m with
    | zero => intro t _ _; exact Seg.refl _
    | succ m ih =>
      intro t ht hs
      have hr : Running (setStep (.read a (m + 1) d r) t) := ⟨ht.op, ht.offer, by simp, ht.prog⟩
      have h1 := hr.seg_one (hs 0 (by omega))
      have h2 := ih (later 1 t) (ht.later 1) (SilentAfter.later (m := 1) (by rw [Nat.add_comm]; exact hs))
      have h3 := h1.trans (u := setStep (.read a m d r) (later 1 t)) h2
      refine h3.cast (Nat.add_comm 1 m) ?_
      simp only [later, setStep, Nat.add_assoc, Nat.add_comm 1 m]
  have ha : Alive { s with pins := { s.pins with sclk := false } } := ⟨h.op, h.offer, h.prog⟩
  have h1 := hrun l (input s).draw { s with pins := { s.pins with sclk := false } } ha
    ((hq.mono (by omega)).congr rfl rfl)
  have hr : Running (later l (setStep (.read a 0 (input s).draw r) { s with pins := { s.pins with sclk := false } })) :=
    ⟨h.op, h.offer, by simp, h.prog⟩
  have h2 := hr.seg_one (by
    have := hq l (by omega)
    show quietInput (inputAt s (s.env.cycle + l + 1))
    convert this using 2
    omega)
  have h0 : readStart a r s = setStep (.read a l (input s).draw r) { s with pins := { s.pins with sclk := false } } := by
    unfold readStart; simp only [hl, Nat.add_sub_cancel]; rfl
  rw [h0, hl]
  refine (h1.trans h2).cast rfl ?_
  rw [later_later]
  rfl

/-- Phase E of a burst run takes `h` cycles (40_bus_transport.md R142). -/
theorem runEnd_seg {s : State} (h : Alive s) (r : RunRet) (hc : s.seq.csHeld = true)
    (hq : SilentAfter (halfPeriod s.cfg) s) :
    Seg (halfPeriod s.cfg) (runEnd r (afterRun r) s)
      (afterRun r (later (halfPeriod s.cfg)
        { s with pins := idleLines s.pins, seq := { s.seq with csHeld := false, step := .runEnd 0 r } })) := by
  have hpos := halfPeriod_pos s.cfg
  obtain ⟨l, hl⟩ : ∃ l, halfPeriod s.cfg = l + 1 := ⟨halfPeriod s.cfg - 1, by omega⟩
  have hrun : ∀ (m : Nat) (t : State), Alive t → SilentAfter m t →
      Seg m (setStep (.runEnd m r) t) (later m (setStep (.runEnd 0 r) t)) := by
    intro m
    induction m with
    | zero => intro t _ _; exact Seg.refl _
    | succ m ih =>
      intro t ht hs
      have hr : Running (setStep (.runEnd (m + 1) r) t) := ⟨ht.op, ht.offer, by simp, ht.prog⟩
      have h1 := hr.seg_one (hs 0 (by omega))
      have h2 := ih (later 1 t) (ht.later 1) (SilentAfter.later (m := 1) (by rw [Nat.add_comm]; exact hs))
      have h3 := h1.trans (u := setStep (.runEnd m r) (later 1 t)) h2
      refine h3.cast (Nat.add_comm 1 m) ?_
      simp only [later, setStep, Nat.add_assoc, Nat.add_comm 1 m]
  have ha : Alive { s with pins := idleLines s.pins, seq := { s.seq with csHeld := false } } := ⟨h.op, h.offer, h.prog⟩
  have h1 := hrun l _ ha ((hq.mono (by omega)).congr rfl rfl)
  have hr : Running (later l (setStep (.runEnd 0 r) { s with
      pins := idleLines s.pins, seq := { s.seq with csHeld := false } })) :=
    ⟨h.op, h.offer, by simp, h.prog⟩
  have h2 := hr.seg_one (by
    have := hq l (by omega)
    show quietInput (inputAt s (s.env.cycle + l + 1))
    convert this using 2
    omega)
  have h0 : runEnd r (afterRun r) s = setStep (.runEnd l r) { s with
      pins := idleLines s.pins, seq := { s.seq with csHeld := false } } := by
    unfold runEnd; rw [hl]; simp [hc]; rfl
  rw [h0, hl]
  refine (h1.trans h2).cast rfl ?_
  rw [later_later]
  rfl

end Sys2Proof.Machine
end

