-- ==== Sys2Proof/Laws/Poll.lean ====
section
/-!
SUPPORT. The busy-poll as a run of cycles (41_panel_sequencer.md R177 to R180), and how a run starts from an accept cycle.
-/

namespace Sys2Proof.Machine

open Sys2Proof

/-! ## From the accept cycle on -/

theorem QuietFor.silentAfter {n : Nat} {s : State} (h : QuietFor (n + 1) s) {t : State}
    (hs : t.env.script = s.env.script) (hc : t.env.cycle = s.env.cycle) : SilentAfter n t := by
  intro k hk
  have := h.2 (1 + k) (by omega)
  unfold inputAt at this ⊢
  rwa [hs, hc, Nat.add_assoc]

/-- `Check` passes. -/
theorem accept_pass {s : State} (ho : Operational s) (i : Instr) (ha : acceptedIn i s.stat.panel = true)
    (body : State → State) : accept i body s = body (begin i.opcode i.arg s) := by
  have h : acceptCheck i s.stat = .none := by
    unfold acceptCheck
    split
    · rfl
    · simp [ho.1, ho.2, ha]
  unfold accept
  rw [h]

/-- The cycles after an accept cycle with a silent host. -/
theorem Seg.after_accept {s t u : State} {n : Nat} (hq : QuietFor (n + 1) s) (h : Seg n t u) :
    cycles n (endCycle s t) = .next (tick u) := by
  rw [(endCycle_quiet t (by simpa [input] using hq.2 0 (by omega)) hq.1).2]
  exact h

/-! ## The poll loop -/

/-- The events of `n` samples that read 1, `d` cycles apart, from cycle `c` on. -/
def pollEvents (c d n : Nat) : List (Nat × Event) := (List.range n).map fun j => (c + j * d, .busySample true)

theorem pollEvents_succ (c d n : Nat) : pollEvents c d (n + 1) = (c, .busySample true) :: pollEvents (c + d) d n := by
  unfold pollEvents
  rw [List.range_succ_eq_map]
  simp only [List.map_cons, List.map_map, Nat.zero_mul, Nat.add_zero, List.cons.injEq, true_and]
  refine List.map_congr_left fun j _ => ?_
  simp [Nat.succ_mul, Nat.add_assoc, Nat.add_comm]

/-- The state in which a sample is about to be taken after `n` samples that read 1: `w` and `p` are `s.waited` and `s.polls`
before them. -/
def polledBusy (r : PollRet) (w p d n : Nat) (s : State) : State :=
  later (n * d)
    { s with
      seq := { s.seq with
        waited := w + n * pollMs s.build, polls := p + n
        timer := if n = 0 then s.seq.timer else 0
        step := if n = 0 then s.seq.step else .delay (.poll r) }
      env := { s.env with trace := s.env.trace ++ pollEvents s.env.cycle d n } }

/-- One sample that reads 1 before the timeout. -/
theorem pollSample_busy {s : State} (r : PollRet) (next : State → State)
    (hb : busyLevel s.cfg (input s).pads = true) (ht : s.snap.timeout = 0 ∨ s.seq.waited < s.snap.timeout.toNat) :
    pollSample r next s = delayStart (pollMs s.build) (.poll r)
      (emit (.busySample true) { s with seq := { s.seq with polls := s.seq.polls + 1 } }) := by
  have hs : sampleBusy s = true := hb
  unfold pollSample
  simp only [hs, Bool.not_true, Bool.false_eq_true, if_false]
  rw [if_neg (by
    rintro ⟨h1, h2⟩
    rcases ht with h | h
    · exact h1 h
    · omega)]

/-- `n` samples that read 1 before the timeout, `POLL_MS` apart, lead to the next sample. -/
theorem poll_seg (r : PollRet) (d n : Nat) : ∀ (s : State) (w p : Nat), d = pollMs s.build * clkPerMs s.build →
    Alive s → SilentAfter (n * d) s →
    (∀ j < n, s.snap.timeout = 0 ∨ w + j * pollMs s.build < s.snap.timeout.toNat) →
    (∀ j < n, busyLevel s.cfg (inputAt s (s.env.cycle + j * d)).pads = true) →
    Seg (n * d) (pollSample r (afterPoll r) { s with seq := { s.seq with waited := w, polls := p } })
      (pollSample r (afterPoll r) (polledBusy r w p d n s)) := by
  induction n with
  | zero =>
    intro s w p _ _ _ _ _
    simp [polledBusy, pollEvents]
    exact Seg.refl _
  | succ n ih =>
    intro s w p hd ha hs ht hb
    have hpos : 0 < d := by
      rw [hd]
      exact Nat.mul_pos (by unfold pollMs; omega) (by unfold clkPerMs; omega)
    have hb0 := hb 0 (by omega)
    have ht0 := ht 0 (by omega)
    simp only [Nat.zero_mul, Nat.add_zero] at hb0 ht0
    rw [pollSample_busy (s := { s with seq := { s.seq with waited := w, polls := p } }) r _ hb0 ht0]
    have h1 := delay_seg
      (s := emit (.busySample true) { s with seq := { s.seq with waited := w, polls := p + 1 } })
      ⟨ha.op, ha.offer, ha.prog⟩ (pollMs s.build) (.poll r) (by show 0 < pollMs s.build * clkPerMs s.build; omega)
      ((hs.mono (show pollMs s.build * clkPerMs s.build ≤ _ by
        rw [← hd]; exact Nat.le_mul_of_pos_left _ (by omega))).congr rfl rfl)
    have h2 := ih
      (later d { s with
        seq := { s.seq with waited := w, polls := p + 1, timer := 0, step := .delay (.poll r) }
        env := { s.env with trace := s.env.trace ++ [(s.env.cycle, .busySample true)] } })
      (w + pollMs s.build) (p + 1) hd ⟨ha.op, ha.offer, ha.prog⟩
      (SilentAfter.congr (SilentAfter.later (m := d) (hs.mono (by rw [Nat.succ_mul, Nat.add_comm]))) rfl rfl)
      (fun j hj => by
        rcases ht (j + 1) (by omega) with h | h
        · exact .inl h
        · right
          show w + pollMs s.build + j * pollMs s.build < s.snap.timeout.toNat
          rw [Nat.succ_mul] at h
          omega)
      (fun j hj => by
        have := hb (j + 1) (by omega)
        rw [Nat.succ_mul] at this
        show busyLevel s.cfg (inputAt s (s.env.cycle + d + j * d)).pads = true
        rwa [show s.env.cycle + d + j * d = s.env.cycle + (j * d + d) by omega])
    subst hd
    refine (h1.trans h2).cast (by rw [Nat.succ_mul, Nat.add_comm]; rfl) ?_
    congr 1
    simp only [polledBusy, later, pollEvents_succ]
    simp
    refine ⟨⟨?_, ?_⟩, ?_⟩ <;> ring
end Sys2Proof.Machine
end

