-- ==== Sys2Proof/Tests/Slice0.lean ====
section
/-!
SUPPORT. The model's own tests, and for each obligation with hypotheses a state and operands that meet them together.

Expected values come from spec/95_test_vectors.md (Part 1 and Part 2, by section number) and from the encodings of
spec/30_encoding.md, worked out by hand.
-/

namespace Sys2Proof.Tests

open Sys2Proof Sys2Proof.Machine

/-! ## Small states -/

/-- A cycle in which nothing happens outside and a read takes one cycle. -/
def quiet : CycleIn :=
  { blkRst := false, host := .idle, memWrites := [], pads := 0, busFault := false
    draw := { latency := 1, fault := false, byte := 0, pick := 0 } }

/-- BUSY, on pad 6, is 1. -/
def busy : CycleIn := { quiet with pads := 0x40 }

/-- The transfer fails. -/
def failing : CycleIn := { quiet with busFault := true }

/-- The host makes an access. -/
def asks (a : Access) : CycleIn := { quiet with host := .access a }

/-- The block of 95_test_vectors.md, with one clock per millisecond and a poll each millisecond. -/
def board : Build := { clkPerMs := 1, resetLowMs := 200, resetHighMs := 200, pollMs := 1, padCount := 8 }

/-- The registers of configuration S16 and a full-screen FLUSH of FB8; the power-on table is `04 01 00`. -/
def setup : Regs :=
  { Regs.reset with
    cfgSize := 0x00040010, cfgBus := 0x00000001, pinmux0 := 0x04030201, pinmux1 := 0x0006053F
    fbBase := 0x20000000, fbSize := 8, regionX := 0x000F0000, regionY := 0x00030000
    ponBase := 0x20000100, ponLen := 3, poffBase := 0x20000100, poffLen := 3 }

/-- FB8 and the table `04 01 00`. -/
def memory : List Host.Cell :=
  [(0x20000000, 0xAA), (0x20000001, 0x55), (0x20000002, 0x0F), (0x20000003, 0xF0), (0x20000004, 0x12), (0x20000005, 0x34),
    (0x20000006, 0x56), (0x20000007, 0x78), (0x20000100, 0x04), (0x20000101, 0x01), (0x20000102, 0x00)]

/-- Configured and at rest in PanelState `p`, with `script` ahead. -/
def bench (p : PanelState) (script : List CycleIn) : State :=
  { State.reset with
    build := board, regs := setup, cfg := configOf setup, mem := memory, pins := initPins
    stat := { Stat.reset with panel := p, configured := true }
    env := { Env.reset with script := script } }

/-- The same with registers `g`. -/
def benchWith (g : Regs) : State := { bench .idle [] with regs := g }

/-- Just out of block reset, with S16 in the registers. -/
def fresh : State := { State.reset with build := board, regs := setup }

/-- An operation with opcode `op` runs, at statement `st`; it snapped `g`. -/
def running (op : Byte) (g : Regs) (p : PanelState) (st : Step) (script : List CycleIn) : State :=
  { bench p script with
    regs := g, snap := snapshot op 0 g
    seq := { Seq.reset with op := some op, pre := .idle, prior := .idle, step := st, tp := 0x20000100, tend := 0x20000103 } }

/-- What a step or an accept cycle leaves, if it goes on. -/
def result : Host.Outcome State Fault Refusal → Option State
  | .next t => some t
  | .fault _ => none
  | .refused _ => none

/-- The events of the accept cycle of an operation. -/
def events (i : Instr) (s : State) : Option (List Event) := (result (exec i s)).map fun t => eventsOf t.env.trace

/-! ## Decoding (30_encoding.md R101 to R107, 95_test_vectors.md 2.1), the words written out bit by bit -/

theorem test_decode_init : decodeWord 0b00000000000000000000000000000001 = some .init := by decide
theorem test_decode_send_cmd : decodeWord 0b00000000000000001010010100000010 = some (.sendCmd 0xA5) := by decide
theorem test_decode_send_data : decodeWord 0b00000000000000001111111100000011 = some (.sendData 0xFF) := by decide
theorem test_decode_reset : decodeWord 0b00000000000000000000000000000100 = some .reset := by decide
theorem test_decode_wait_idle : decodeWord 0b00000000000000000000000000000101 = some .waitIdle := by decide
theorem test_decode_power_on : decodeWord 0b00000000000000000000000000000110 = some .powerOn := by decide
theorem test_decode_init_regs : decodeWord 0b00000000000000000000000000000111 = some .initRegs := by decide
theorem test_decode_power_off : decodeWord 0b00000000000000000000000000001000 = some .powerOff := by decide
theorem test_decode_flush : decodeWord 0b00000000000000000000000000001001 = some .flush := by decide

theorem test_decode_illegal :
    [0x00000104, 0x00010002, 0x80000009, 0x00000000, 0x0000000A, 0x000000FF].map decodeWord
      = [none, none, none, none, none, none] := by decide

theorem test_encode :
    [Instr.init, .sendCmd 0xA5, .sendData 0xFF, .waitIdle, .flush].map encode
      = [0x00000001, 0x0000A502, 0x0000FF03, 0x00000005, 0x00000009] := by decide

theorem test_table_word : decodeTableWord 32 0xA502 = some (.sendCmd 0xA5) ∧ decodeTableWord 32 0x104 = none := by decide

/-- R120 and 95_test_vectors.md P1. -/
theorem test_record_bytes :
    encodeTable [assembleRec 0x01 [0x03, 0x00, 0x2B, 0x2B] false, assembleRec 0x04 [] true]
      = [0x01, 0x00, 0x04, 0x03, 0x00, 0x2B, 0x2B, 0x04, 0x01, 0x00] := by decide

/-- R119. -/
theorem test_host_send :
    hostSend 0x10 [0xAA] = [.write .cmd 0x00001002, .sync, .write .cmd 0x0000AA03, .sync] := by decide

/-- R118, with 95_test_vectors.md 2.1. -/
theorem test_text_of_operations :
    ["INIT", "SEND_CMD 0xA5", "SEND_DATA 255", "FLUSH", "SEND_DATA 256", "FLUSH 1", "flush"].map
      (fun l => assembleOperation l.toList)
      = [some 0x00000001, some 0x0000A502, some 0x0000FF03, some 0x00000009, none, none, none] := by decide

/-- R119, with lines of 95_test_vectors.md P1 and P2. -/
theorem test_text_of_host_programs :
    assembleHost ["W CFG_SIZE, 0x0004_0010     ; 0x14".toList, "W PON_LEN, 10".toList, "OP FLUSH".toList, "SYNC".toList,
        "R ERR".toList]
      = some [.write .cfgSize 0x00040010, .write .ponLen 10, .write .cmd 0x00000009, .sync, .read .err] := by decide

/-- R120, with 95_test_vectors.md P1. -/
theorem test_text_of_tables :
    assembleTable [".rec 0x01, [0x03, 0x00, 0x2B, 0x2B]".toList, ".rec 0x04, [], wait".toList]
      = some [0x01, 0x00, 0x04, 0x03, 0x00, 0x2B, 0x2B, 0x04, 0x01, 0x00] := by decide

/-! ## Well-formedness: each check refuses an ill-formed term -/

theorem test_wf_record_reserved : (Record.mk 0x04 0x02 []).wf = false := by decide
theorem test_wf_record_length : (Record.mk 0x04 0x00 (List.replicate 256 0)).wf = false := by
  unfold Record.wf
  rw [List.length_replicate]
  decide
theorem test_wf_record : (Record.mk 0x04 0x01 (List.replicate 255 0)).wf = true := by
  unfold Record.wf
  rw [List.length_replicate]
  decide
theorem test_wf_access_width : (Access.read 2 0x00).wf = false ∧ (Access.write 1 0x00 0).wf = false := by decide
theorem test_wf_access_alignment : (Access.read 4 0x02).wf = false ∧ (Access.write 4 0x0A 0).wf = false := by decide
theorem test_wf_access_window : (Access.read 4 0x100).wf = false ∧ (Access.write 4 0xFC 0).wf = true := by decide
theorem test_wf_build :
    board.wf = true ∧ ({ board with clkPerMs := 0 } : Build).wf = false ∧ ({ board with resetLowMs := 199 } : Build).wf = false
      ∧ ({ board with resetHighMs := 199 } : Build).wf = false ∧ ({ board with pollMs := 0 } : Build).wf = false
      ∧ ({ board with padCount := 6 } : Build).wf = false ∧ ({ board with padCount := 64 } : Build).wf = false := by decide

/-! ## Registers (95_test_vectors.md 2.4, 2.8, 2.9) -/

theorem test_status_ready : statusWord (bench .idle [quiet]) = 0x00000013 := by decide

theorem test_status_busy_flush :
    statusWord { running 0x09 setup .busy (.delay (.poll .flush)) [busy, busy] with
      env := { Env.reset with script := [busy, busy], cycle := 1 } } = 0x0000095C := by decide

/-- DONE_IE and ERR_IE against IRQ, row by row. -/
theorem test_irq_enables :
    ([(0x0, false), (0x2, false), (0x4, false), (0x4, true), (0x6, true)].map fun (c, e) =>
      irq { bench .idle [] with
        regs := { setup with ctrl := c }, stat := { Stat.reset with irqDone := true, irqErr := e } })
      = [false, true, false, true, true] := by decide

/-- ERR with code MEM_FAULT and OVERRUN set, and IRQ with both bits, as the host reads them. -/
theorem test_err_and_irq_read :
    ([{ bench .idle [] with
        stat := { Stat.reset with code := .memFault, overrun := true, irqDone := true, irqErr := true } }].map
      fun s => (readOffset s 0x0C, readOffset s 0x10)) = [(0x0000010B, 0x00000003)] := by decide

theorem test_irq_clear :
    ((result (step { bench .idle [asks (.write 4 0x10 0x1)] with
        stat := { Stat.reset with configured := true, panel := .idle, irqDone := true, irqErr := true } })).map irqWord)
      = some 0x2 := by decide

theorem test_overrun_cleared :
    ((result (step { bench .idle [asks (.write 4 0x0C 0x100)] with
        stat := { Stat.reset with configured := true, panel := .idle, overrun := true, code := .memFault } })).map errWord)
      = some 0x0000000B := by decide

/-- A CMD write while RESET runs is dropped and sets OVERRUN. -/
theorem test_overrun :
    ((result (step { running 0x04 setup .resetting (.delay .resetHigh) [asks (.write 4 0x08 0x5)] with
        seq := { Seq.reset with op := some 0x04, pre := .idle, step := .delay .resetHigh, timer := 9 } })).map
      fun t => (errWord t, t.seq.op, t.seq.offer)) = some (0x00000100, some 0x04, none) := by decide

theorem test_reserved_bits :
    ((result (step (bench .idle [asks (.write 4 0x18 0xFFFFFFFF)]))).map fun t => readOffset t 0x18) = some 0x0000FF0F := by
  decide

theorem test_access_refused : (match step (bench .idle [asks (.read 4 0x02)]) with
    | .refused (.registerAccess size off) => some (size, off)
    | _ => none) = some (4, 2) := by decide

/-! ## INIT (95_test_vectors.md 2.3) -/

theorem test_init_configs :
    ([(0x00040010, 0x00000001, 0x04030201, 0x0006053F), (0x00040010, 0x00000000, 0x04030201, 0x0006053F),
      (0x00040010, 0x00000003, 0x04030201, 0x0006053F), (0x0004000C, 0x00000001, 0x04030201, 0x0006053F),
      (0x0004000C, 0x00000002, 0x04030201, 0x0006053F), (0x00040000, 0x00000001, 0x04030201, 0x0006053F),
      (0x00000010, 0x00000001, 0x04030201, 0x0006053F), (0x00040010, 0x0000FF08, 0x04030201, 0x0006053F),
      (0x00040010, 0x00000001, 0x04030101, 0x0006053F), (0x00040010, 0x00000001, 0x04030201, 0x00063F3F),
      (0x00040010, 0x00000001, 0x04030208, 0x0006053F), (0x00040010, 0x00000001, 0x04030201, 0x00060507),
      (0x00040010, 0x00000001, 0x04030201, 0x00060501)].map fun (a, b, c, d) =>
        configLegal board (configOf { Regs.reset with cfgSize := a, cfgBus := b, pinmux0 := c, pinmux1 := d }))
      = [true, false, false, false, true, false, false, true, false, false, false, true, false] := by decide

theorem test_init_again : events .init (bench .idle [quiet]) = some [.panel .uninitialized, .done 0x01 .none] := by decide

theorem test_init_clears_fatal :
    ((result (exec .init { bench .uninitialized [quiet] with
        stat := { Stat.reset with configured := true, fatal := true } })).map fun t => statusWord t) = some 0x00000010 := by
  decide

/-! ## Acceptance (95_test_vectors.md 2.2) -/

theorem test_checks_of_an_unconfigured_block :
    ([Instr.flush, .sendCmd 0x12, .init].map fun i => events i { State.reset with build := board })
      = [some [.done 0x09 .notConfigured], some [.done 0x02 .notConfigured], some [.done 0x01 .badConfig]] := by decide

theorem test_checks_before_reset :
    ([Instr.flush, .powerOn, .powerOff].map fun i => events i (bench .uninitialized [quiet]))
      = [some [.done 0x09 .invalidState], some [.done 0x06 .invalidState], some [.done 0x08 .invalidState]] := by decide

theorem test_checks_of_a_halted_block :
    ([Instr.flush, .reset].map fun i => events i { bench .uninitialized [quiet] with
        stat := { Stat.reset with configured := true, fatal := true } })
      = [some [.done 0x09 .halted], some [.done 0x04 .halted]] := by decide

theorem test_illegal_word_of_a_halted_block :
    eventsOf (rejectIllegal 0x0000000A { bench .uninitialized [quiet] with
      stat := { Stat.reset with configured := true, fatal := true } }).env.trace = [.done 0x0A .illegalOp] := by decide

/-! ## SEND_CMD and SEND_DATA (95_test_vectors.md 2.4) -/

theorem test_send_cmd_phase_p :
    ((result (exec (.sendCmd 0xA5) (bench .idle [quiet]))).map fun t => (t.pins, t.seq.step))
      = some ({ csN := true, dc := false, sclk := false, mosi := false, rstN := true },
          .tx .command 0xA5 .p 0 false .send) := by decide

/-- Cycle 16: `TX(C,0xA5)`, `sclk` high, bit 0 of the byte. -/
theorem test_send_cmd_last_bit :
    ((result (step { running 0x02 setup .idle (.tx .command 0xA5 (.low 0) 0 false .send) [quiet] with
        pins := { csN := false, dc := false, sclk := false, mosi := true, rstN := true } })).map
      fun t => (t.pins.sclk, t.pins.mosi, eventsOf t.env.trace)) = some (true, true, [.tx .command 0xA5]) := by decide

theorem test_send_data_phase_p :
    ((result (exec (.sendData 0x00) { bench .idle [quiet] with
        cfg := configOf { setup with cfgBus := 0x00000101 } })).map fun t => (t.pins.dc, t.seq.step))
      = some (true, .tx .data 0x00 .p 1 false .send) := by decide

/-- Cycle 18 of a transfer that failed: STATUS 0x30, ERR.CODE 1, IRQ 3. -/
theorem test_bus_fault :
    ((result (step (running 0x02 setup .idle (.tx .command 0xA5 .e 0 true .send) [quiet]))).map
      fun t => (eventsOf t.env.trace, statusWord t, errWord t, irqWord t))
      = some ([.panel .uninitialized, .done 0x02 .busTransaction], 0x00000030, 1, 3) := by decide

/-! ## RESET and WAIT_IDLE (95_test_vectors.md L1-C, 2.2, 2.5) -/

theorem test_reset_first_cycle :
    ((result (exec .reset (bench .uninitialized [quiet]))).map fun t => (eventsOf t.env.trace, t.pins.rstN, t.seq.timer))
      = some ([.panel .resetting, .rstPin false], false, 199) := by decide

theorem test_wait_idle_at_once :
    events .waitIdle (bench .uninitialized [quiet])
      = some [.panel .busy, .busySample false, .panel .uninitialized, .done 0x05 .none] := by decide

/-- BUSY_TIMEOUT 1: the second sample, one poll later, times out. -/
theorem test_wait_idle_times_out :
    ((result (step (running 0x05 { setup with busyTimeout := 1 } .busy (.delay (.poll .waitIdle)) [busy]))).map
      fun t => eventsOf t.env.trace) = some [.busySample true, .panel .idle, .done 0x05 .busyTimeout] := by decide

/-! ## Tables (95_test_vectors.md 2.6) -/

theorem test_tables :
    ([[], [0x04, 0x01, 0x00], [0x04, 0x01, 0x01], [0x04, 0x01], [0x04, 0x01, 0x00, 0x12],
      [0x01, 0x00, 0x04, 0x03, 0x00, 0x2B, 0x2B, 0x04, 0x01, 0x00]].map fun b => (parseTable b).map List.length)
      = [some 0, some 1, none, none, none, some 2] := by decide

theorem test_empty_tables :
    ([(Instr.powerOn, { setup with ponLen := 0 }), (.initRegs, setup), (.powerOff, { setup with poffLen := 0 })].map
      fun (i, g) => events i (benchWith g))
      = [some [.panel .poweringOn, .panel .idle, .done 0x06 .none], some [.panel .poweringOn, .panel .idle, .done 0x07 .none],
          some [.panel .poweringOff, .panel .idle, .done 0x08 .none]] := by decide

theorem test_bad_tables :
    ([{ setup with ponBase := 0 }, { setup with ponBase := 0xFFFFFFFE }, { setup with ponLen := 2 }].map
      fun g => events .powerOn (benchWith g))
      = [some [.done 0x06 .seqFormat], some [.done 0x06 .seqFormat], some [.done 0x06 .seqFormat]] := by decide

/-- Reserved control bits end the check pass. -/
theorem test_reserved_control_bits :
    eventsOf (checkGotLen .poweringOn 0 0x02 0 (running 0x06 setup .idle .idle [])).env.trace = [.done 0x06 .seqFormat] := by
  decide

/-! ## FLUSH (95_test_vectors.md 2.7) -/

theorem test_flush_columns :
    ([(0x000F0000, 0x00030000), (0x000F0008, 0x00020001), (0x00090003, 0x00000000), (0x00000000, 0x00030003),
      (0x000F000F, 0x00000000), (0x00080007, 0x00030000), (0x00070000, 0x00010001)].map fun (x, y) =>
        let n := snapshot 0x09 0 { setup with regionX := x, regionY := y }
        (firstColumn (configOf setup) n, lastColumn (configOf setup) n, n.y1.toNat, n.y2.toNat))
      = [(0, 1, 0, 3), (1, 1, 1, 2), (0, 1, 0, 0), (0, 0, 3, 3), (1, 1, 0, 0), (0, 1, 0, 3), (0, 0, 1, 1)] := by decide

theorem test_flush_columns_of_other_depths :
    ([(0x00040008, 2, 0x00040003), (0x00040008, 2, 0x00030000), (0x00040004, 4, 0x00010001), (0x00040004, 4, 0x00030002),
      (0x00040002, 8, 0x00010001)].map fun (w, d, x) =>
        let g := { setup with cfgSize := w, cfgBus := d, regionX := x }
        (stride (configOf g), firstColumn (configOf g) (snapshot 0x09 0 g), lastColumn (configOf g) (snapshot 0x09 0 g)))
      = [(2, 0, 1), (2, 0, 0), (2, 0, 0), (2, 1, 1), (2, 1, 1)] := by decide

theorem test_flush_invalid_regions :
    ([(0x00100000, 0x00030000), (0x00040005, 0x00030000), (0x000F0000, 0x00040000), (0x000F0000, 0x00010002),
      (0xFFFFFFFF, 0x00000000)].map fun (x, y) => events .flush (benchWith { setup with regionX := x, regionY := y, fbBase := 0 }))
      = List.replicate 5 (some [.done 0x09 .invalidRegion]) := by decide

theorem test_flush_buffers :
    ([(0x00000000, 8), (0x20000000, 7), (0x20000000, 8), (0x20000000, 0x1000), (0xFFFFFFF8, 8), (0xFFFFFFF9, 8)].map
      fun (b, n) => events .flush (benchWith { setup with fbBase := b, fbSize := n }))
      = [some [.done 0x09 .allocation], some [.done 0x09 .allocation], some [], some [], some [],
          some [.done 0x09 .allocation]] := by decide

/-! ## Host memory (20_memory.md R70) -/

theorem test_memory :
    memGet (memSet memory 0x20000003 0x99) 0x20000003 = some 0x99 ∧ memGet (memSet memory 0x20000003 0x99) 0x20000002 = some 0x0F
      ∧ memGet memory 0x20000008 = none := by decide

/-! ## Witnesses: states and operands that meet the hypotheses of each obligation -/

/-! ### Silent hosts, and states that meet the invariant -/

theorem quietFor_script {s : State} (n : Nat) (hp : s.env.prog = []) (hs : ∀ i ∈ s.env.script, quietInput i) :
    QuietFor n s := by
  refine ⟨hp, fun k _ => ?_⟩
  unfold inputAt
  rw [List.getD_eq_getElem?_getD]
  cases h : s.env.script[s.env.cycle + k]? with
  | none => exact ⟨rfl, .inr rfl, rfl⟩
  | some i => exact hs i (List.mem_of_getElem? h)

theorem quiet_quiet : quietInput quiet := ⟨rfl, .inl rfl, rfl⟩
theorem busy_quiet : quietInput busy := ⟨rfl, .inl rfl, rfl⟩
theorem failing_quiet : quietInput failing := ⟨rfl, .inl rfl, rfl⟩

theorem inputAt_replicate {s : State} {m : Nat} {i : CycleIn} (hs : s.env.script = List.replicate m i) (c : Nat)
    (hc : c < m) : inputAt s c = i := by
  unfold inputAt
  simp [hs, List.getD_eq_getElem?_getD, hc]

/-- At rest, before the first INIT. -/
theorem fresh_inv : Inv fresh where
  memory := rfl
  regs := by unfold RegsInv; decide
  control :=
    { rest := fun _ => ⟨rfl, rfl⟩, offered := fun w hw => (nomatch hw), running := fun h => absurd rfl h
      panel := .inl rfl, fatal := fun h => (nomatch h), unconfigured := fun _ => rfl, config := fun h => by cases h }
  bus := { pins := fun h => (nomatch h), held := fun h => (nomatch h), tx := trivial }
  reads := trivial

/-- At rest after INIT, whatever the script, with nothing or a word offered. -/
theorem bench_inv (p : PanelState) (script : List CycleIn) (hp : Resting p) : Inv (bench p script) where
  memory := by show Memory.wf memory = true; decide
  regs := by show RegsInv setup; unfold RegsInv; decide
  control :=
    { rest := fun _ => ⟨rfl, rfl⟩, offered := fun w hw => (nomatch hw), running := fun h => absurd rfl h
      panel := hp, fatal := fun h => (nomatch h), unconfigured := fun h => (nomatch h)
      config := fun _ => by show configLegal board (configOf setup) = true; decide }
  bus := { pins := fun _ => ⟨rfl, rfl, rfl, rfl⟩, held := fun h => (nomatch h), tx := trivial }
  reads := trivial

/-- The same with a word offered. -/
theorem offered_inv (w : Word) (p : PanelState) (script : List CycleIn) (hp : Resting p) :
    Inv { bench p script with seq := { Seq.reset with op := some (cmdOp w), offer := some w } } where
  memory := (bench_inv p script hp).memory
  regs := (bench_inv p script hp).regs
  control :=
    { rest := fun h => (nomatch h)
      offered := fun v hv => by
        simp only [Option.some.injEq] at hv
        subst hv
        exact ⟨rfl, rfl⟩
      running := fun _ h => (nomatch h)
      panel := hp, fatal := fun h => (nomatch h), unconfigured := fun h => (nomatch h)
      config := (bench_inv p script hp).control.config }
  bus := { pins := fun _ => ⟨rfl, rfl, rfl, rfl⟩, held := fun h => (nomatch h), tx := trivial }
  reads := trivial

/-- What holds of every state that `running` builds. -/
theorem running_ambient (op : Byte) (g : Regs) (p : PanelState) (st : Step) (script : List CycleIn) (hg : RegsInv g) :
    Ambient (running op g p st script) where
  memory := by show Memory.wf memory = true; decide
  regs := hg
  op := by simp [running]
  offer := rfl
  configured := rfl
  fatal := rfl
  pre := .inr rfl
  config := by show configLegal board (configOf setup) = true; decide

theorem setup_regs : RegsInv setup := by unfold RegsInv; decide

/-- BURST_EN is 1. -/
def burstSetup : Regs := { setup with ctrl := 1 }

theorem burst_regs : RegsInv burstSetup := by unfold RegsInv; decide

/-- A poll that waits, of WAIT_IDLE from Idle. -/
def polling (script : List CycleIn) : State := running 0x05 setup .busy (.delay (.poll .waitIdle)) script

theorem polling_inv (script : List CycleIn) : Inv (polling script) := by
  refine (running_ambient _ _ _ _ _ setup_regs).inv ?_ ?_ ?_ ?_ ?_ ?_ <;>
    simp [running, bench, PanelAt, PinsAt, IdlePins, TxAt, ReadsAt, Seq.reset, initPins]

/-- FLUSH of the whole screen, with BURST_EN 1, is at statement `st` with the cursor at row `y` and byte column `x`; `held`
says whether a burst run holds CS. -/
def flushing (st : Step) (held : Bool) (y x : Nat) (pins : Pins) (script : List CycleIn) : State :=
  { running 0x09 burstSetup .idle st script with
    seq := { Seq.reset with
      op := some 0x09, pre := .idle, sent := true, csHeld := held, y := y, bx := x, bxhi := 1, step := st }
    pins := pins }

theorem flushing_ambient (st : Step) (held : Bool) (y x : Nat) (pins : Pins) (script : List CycleIn) :
    Ambient (flushing st held y x pins script) :=
  ⟨by show Memory.wf memory = true; decide, burst_regs, by simp [flushing], rfl, rfl, rfl, .inr rfl,
    by show configLegal board (configOf setup) = true; decide⟩

theorem flushing_geometry (st : Step) (held : Bool) (y x : Nat) :
    FlushGeometry (flushing st held y x initPins []).seq (configOf setup) (snapshot 0x09 0 burstSetup) := by
  refine ⟨by decide, by decide, ?_, ?_⟩
  · show 0 = firstColumn (configOf setup) (snapshot 0x09 0 burstSetup)
    decide
  · show 1 = lastColumn (configOf setup) (snapshot 0x09 0 burstSetup)
    decide

/-- FLUSH reads its first byte, with the draw `d`. -/
def fetchingWith (d : ReadDraw) (held : Bool) (script : List CycleIn) : State :=
  flushing (.read 0x20000000 0 d .flushData) held 0 0
    { csN := !held, sclk := false, mosi := false, dc := true, rstN := true } script

/-- The same with a read that does not fault. -/
def fetching (held : Bool) (script : List CycleIn) : State := fetchingWith quiet.draw held script

theorem fetchingWith_inv (d : ReadDraw) (held : Bool) (script : List CycleIn) : Inv (fetchingWith d held script) := by
  refine (flushing_ambient ..).inv (by simp [flushing]) ⟨rfl, rfl⟩ ?_ ?_ trivial ?_
  · exact ⟨rfl, rfl, rfl, fun _ => ⟨rfl, rfl⟩, fun _ => rfl⟩
  · exact fun _ => ⟨rfl, trivial⟩
  · refine ⟨?_, flushing_geometry .idle held 0 0, ?_, Nat.zero_le _, Nat.le_refl 0, Nat.zero_le 1⟩
    · show 0x20000000 = fbAddress (configOf setup) (snapshot 0x09 0 burstSetup) 0 0
      decide
    · show (snapshot 0x09 0 burstSetup).y1.toNat ≤ 0
      decide

theorem fetching_inv (held : Bool) (script : List CycleIn) : Inv (fetching held script) := fetchingWith_inv _ held script

/-- The last cycle of FLUSH's REFRESH transaction. -/
def refreshing (failed : Bool) (script : List CycleIn) : State :=
  flushing (.tx .command 0x12 .e 0 failed .flushRefresh) false 3 1 initPins script

theorem refreshing_inv (failed : Bool) (script : List CycleIn) : Inv (refreshing failed script) :=
  (flushing_ambient ..).inv (by simp [flushing]) ⟨rfl, rfl⟩ ⟨⟨rfl, rfl, rfl, rfl⟩, rfl, rfl⟩ (fun h => (nomatch h))
    ⟨Nat.succ_pos _, rfl, fun _ => .inl rfl, fun h => (nomatch h.1), rfl⟩ trivial

/-- The last cycle of `H_0` of the data byte 0x57 at row `y`, byte column `x`. -/
def streaming (failed : Bool) (y x : Nat) (script : List CycleIn) : State :=
  flushing (.tx .data 0x57 (.high 0) 0 failed .flushData) true y x
    { csN := false, sclk := true, mosi := true, dc := true, rstN := true } script

theorem streaming_inv (failed : Bool) (y x : Nat) (script : List CycleIn) (hy : y ≤ 3) (hx : x ≤ 1) :
    Inv (streaming failed y x script) := by
  refine (flushing_ambient ..).inv (by simp [flushing]) ⟨rfl, rfl⟩ ?_ (fun _ => ⟨rfl, trivial⟩) ?_ ?_
  · exact ⟨rfl, rfl, rfl, rfl, rfl, Nat.zero_le 7, fun _ => ⟨rfl, rfl⟩⟩
  · exact ⟨Nat.succ_pos _, rfl, fun _ => .inr ⟨rfl, rfl⟩, fun _ => rfl, rfl⟩
  · refine ⟨flushing_geometry .idle true y x, ?_, ?_, Nat.zero_le x, hx⟩
    · show (snapshot 0x09 0 burstSetup).y1.toNat ≤ y
      exact Nat.le_trans (by decide) (Nat.zero_le y)
    · show y ≤ (snapshot 0x09 0 burstSetup).y2.toNat
      exact Nat.le_trans hy (by decide)

/-- The first cycle of phase P of FLUSH's burst run. -/
def burstOpening (script : List CycleIn) : State :=
  flushing (.tx .data 0xAA .p 0 false .flushData) false 0 0 { initPins with dc := true } script

theorem burstOpening_inv (script : List CycleIn) : Inv (burstOpening script) := by
  refine (flushing_ambient ..).inv (by simp [flushing]) ⟨rfl, rfl⟩ ⟨⟨rfl, rfl, rfl, rfl⟩, rfl, rfl⟩ (fun h => (nomatch h))
    ⟨Nat.succ_pos _, rfl, fun h => (nomatch h), fun h => (nomatch h.1), rfl⟩ ?_
  refine ⟨flushing_geometry .idle false 0 0, ?_, Nat.zero_le _, Nat.le_refl 0, Nat.zero_le 1⟩
  show (snapshot 0x09 0 burstSetup).y1.toNat ≤ 0
  decide

/-- POWER_ON plays the record at 0x20000100 of a table of `len` bytes; it is at statement `st`, in PoweringOn. -/
def playing (st : Step) (ctl : Byte) (len : Word) (sent : Bool) (script : List CycleIn) : State :=
  { running 0x06 { setup with ponLen := len } .poweringOn st script with
    seq := { Seq.reset with
      op := some 0x06, pre := .idle, sent := sent, tp := 0x20000100, tend := 0x20000100 + len.toNat, rctl := ctl
      step := st } }

theorem playing_ambient (st : Step) (ctl : Byte) (len : Word) (sent : Bool) (script : List CycleIn) :
    Ambient (playing st ctl len sent script) :=
  ⟨by show Memory.wf memory = true; decide, setup_regs, by simp [playing], rfl, rfl, rfl, .inr rfl,
    by show configLegal board (configOf setup) = true; decide⟩

/-- The last cycle of the command byte of a record without data. -/
def recordSent (ctl : Byte) (len : Word) (script : List CycleIn) : State :=
  playing (.tx .command 0x04 .e 0 false .playCmd) ctl len true script

theorem recordSent_inv (ctl : Byte) (len : Word) (script : List CycleIn) (h3 : 3 ≤ len.toNat) (h9 : len.toNat ≤ 9) :
    Inv (recordSent ctl len script) := by
  refine (playing_ambient ..).inv (by simp [playing]) ⟨.inl rfl, rfl⟩ ⟨⟨rfl, rfl, rfl, rfl⟩, rfl, rfl⟩ (fun h => (nomatch h))
    ⟨Nat.succ_pos _, rfl, fun _ => .inl rfl, fun h => (nomatch h.1), rfl⟩ ?_
  refine ⟨⟨Nat.le_refl 0x20000100, rfl, ?_⟩, ?_⟩
  · show 0x20000100 + len.toNat ≤ 2 ^ 32
    omega
  · show 0x20000100 + 3 + 0 ≤ 0x20000100 + len.toNat
    omega

/-- The last cycle of the read of a record's LEN. -/
def lengthRead (ctl : Byte) (sent : Bool) : State := playing (.read 0x20000102 0 quiet.draw .playLen) ctl 3 sent []

theorem lengthRead_inv (ctl : Byte) (sent : Bool) : Inv (lengthRead ctl sent) := by
  refine (playing_ambient ..).inv (by simp [playing]) ⟨.inl rfl, rfl⟩ ?_ (fun h => (nomatch h)) trivial ?_
  · exact ⟨rfl, rfl, rfl, (nomatch ·), fun _ => rfl⟩
  · exact ⟨rfl, ⟨Nat.le_refl 0x20000100, rfl, by show 0x20000100 + 3 ≤ 2 ^ 32; decide⟩, Nat.le_refl 0x20000103⟩

/-- POWER_ON's check pass reads the CTL of its first record, with the draw `d`. -/
def checkingWith (d : ReadDraw) : State :=
  running 0x06 setup .idle (.read 0x20000101 0 d (.checkCtl .poweringOn 0)) []

/-- The same with a read that does not fault. -/
def checking : State := checkingWith quiet.draw

theorem checkingWith_inv (d : ReadDraw) : Inv (checkingWith d) := by
  refine (running_ambient _ _ _ _ _ setup_regs).inv (by simp [running]) ⟨rfl, rfl, .inl rfl⟩ ?_ ?_ trivial ?_
  · exact ⟨rfl, rfl, rfl, (nomatch ·), fun _ => rfl⟩
  · exact fun h => (nomatch h)
  · exact ⟨rfl, by show 0 + 3 ≤ setup.ponLen.toNat; decide, by
      show setup.ponBase.toNat + setup.ponLen.toNat ≤ 2 ^ 32; decide⟩

theorem checking_inv : Inv checking := checkingWith_inv _

/-- The last cycle of the abort cleanup after a bus fault in a burst run. -/
def aborting : State :=
  { running 0x09 burstSetup .idle (.cleanup 0 .busTransaction) [] with
    seq := { Seq.reset with op := some 0x09, pre := .idle, sent := true, step := .cleanup 0 .busTransaction } }

theorem aborting_inv : Inv aborting := by
  have ha : Ambient aborting :=
    ⟨by show Memory.wf memory = true; decide, burst_regs, by simp [aborting], rfl, rfl, rfl, .inr rfl,
      by show configLegal board (configOf setup) = true; decide⟩
  exact ha.inv (by simp [aborting]) (.inl rfl) ⟨⟨rfl, rfl, rfl, rfl⟩, rfl⟩ (fun h => by cases h)
    ⟨by decide, rfl, rfl⟩ trivial

/-- SEND_CMD's transaction after its first cycle. -/
def opening : State :=
  { running 0x02 setup .idle (.tx .command 0xA5 .p 0 false .send) [] with
    seq := { Seq.reset with op := some 0x02, pre := .idle, sent := true, step := .tx .command 0xA5 .p 0 false .send } }

theorem opening_inv : Inv opening := by
  have ha : Ambient opening :=
    ⟨by show Memory.wf memory = true; decide, setup_regs, by simp [opening], rfl, rfl, rfl, .inr rfl,
      by show configLegal board (configOf setup) = true; decide⟩
  exact ha.inv (by simp [opening]) rfl ⟨⟨rfl, rfl, rfl, rfl⟩, rfl, rfl⟩ (fun h => (nomatch h))
    ⟨by decide, rfl, fun h => (nomatch h), by decide, trivial⟩ trivial

theorem setup_legal : LegalConfig board (configOf setup) := (configLegal_iff _ _).mp (by decide)

/-! ### Encoding -/

theorem witness_DecodeAndEncodeAgree :
    (Instr.sendCmd 0xFF).wf = true ∧ decodeWord 0x0000FF02 = some (.sendCmd 0xFF) := by decide

/-- Each clause, at a boundary of its range. -/
theorem witness_IllegalWordIsRejected :
    (0x00010002 : Word).extractLsb' 16 16 ≠ 0
    ∧ ((0x00000104 : Word).extractLsb' 0 8 ≠ 0x02 ∧ (0x00000104 : Word).extractLsb' 0 8 ≠ 0x03
      ∧ (0x00000104 : Word).extractLsb' 8 8 ≠ 0)
    ∧ (0x00000000 : Word).extractLsb' 0 8 = 0x00 ∧ 0x0A ≤ ((0x0000000A : Word).extractLsb' 0 8).toNat
    ∧ (offerWord 0x0000000A fresh).seq.offer = some 0x0000000A
    ∧ (input (offerWord 0x0000000A fresh)).blkRst = false ∧ badAccess (offerWord 0x0000000A fresh) = none := by decide

theorem witness_SequenceTableRoundTrips :
    parseTable [0x04, 0x01, 0x00] = some [⟨0x04, 0x01, []⟩] ∧ encodeTable [⟨0x04, 0x01, []⟩] = [0x04, 0x01, 0x00]
      ∧ parseTable [0x04, 0x01, 0x01] = none := by decide

/-! ### The step -/

theorem witness_StepRunsTheOfferedOperation :
    (input (offerWord 0x00000009 (bench .idle [quiet]))).blkRst = false
    ∧ badAccess (offerWord 0x00000009 (bench .idle [quiet])) = none
    ∧ (offerWord 0x00000009 (bench .idle [quiet])).seq.offer = some 0x00000009
    ∧ decodeWord 0x00000009 = some .flush ∧ decodeTableWord 32 0x00000009 = some .flush := by decide

/-- Both clauses: a block at rest, and one that runs. -/
theorem witness_StepWithoutOffer :
    ((input (bench .idle [quiet])).blkRst = false ∧ badAccess (bench .idle [quiet]) = none
      ∧ (bench .idle [quiet]).seq.offer = none ∧ (bench .idle [quiet]).seq.op = none)
    ∧ (input (polling [quiet])).blkRst = false ∧ badAccess (polling [quiet]) = none ∧ (polling [quiet]).seq.offer = none
    ∧ (polling [quiet]).seq.op ≠ none ∧ (polling [quiet]).seq.step ≠ .idle := by decide

/-- Both clauses: a write to a block at rest, and one while WAIT_IDLE runs; and a cycle with host memory writes. -/
theorem witness_CmdWriteOffersOrOverruns :
    (∃ u, sequencerCycle (bench .idle [asks (.write 4 0x08 0x9)]) = .next u
      ∧ (input (bench .idle [asks (.write 4 0x08 0x9)])).blkRst = false
      ∧ (input (bench .idle [asks (.write 4 0x08 0x9)])).memWrites = []
      ∧ (hostTurn (bench .idle [asks (.write 4 0x08 0x9)])).1 = some (.write 4 0x08 0x9)
      ∧ active (bench .idle [asks (.write 4 0x08 0x9)]) = false ∧ (bench .idle [asks (.write 4 0x08 0x9)]).seq.offer = none)
    ∧ ∃ u, sequencerCycle (polling [asks (.write 4 0x08 0x9)]) = .next u
      ∧ (input (polling [asks (.write 4 0x08 0x9)])).blkRst = false
      ∧ (input (polling [asks (.write 4 0x08 0x9)])).memWrites = []
      ∧ (hostTurn (polling [asks (.write 4 0x08 0x9)])).1 = some (.write 4 0x08 0x9)
      ∧ active (polling [asks (.write 4 0x08 0x9)]) = true
      ∧ (hostTurn (polling [{ asks (.write 4 0x08 0x9) with memWrites := [(0x20000000, 1)] }])).1
        = some (.write 4 0x08 0x9) :=
  ⟨⟨_, rfl, by decide⟩, _, rfl, by decide⟩

/-! ### Acceptance and INIT -/

/-- Each clause: HALTED, NOT_CONFIGURED, and INVALID_STATE in Uninitialized and in Busy. -/
theorem witness_RejectionsFollowTheAcceptanceMatrix :
    Instr.flush ≠ .init ∧ Instr.sendCmd 0 ≠ .init
    ∧ ({ bench .uninitialized [] with stat := { Stat.reset with configured := true, fatal := true } }).stat.fatal = true
    ∧ (fresh.stat.fatal = false ∧ fresh.stat.configured = false)
    ∧ ((bench .uninitialized []).stat.fatal = false ∧ (bench .uninitialized []).stat.configured = true
      ∧ (bench .uninitialized []).stat.panel ≠ .idle)
    ∧ (bench .busy []).stat.fatal = false ∧ (bench .busy []).stat.configured = true
    ∧ (bench .busy []).stat.panel ≠ .uninitialized ∧ (bench .busy []).stat.panel ≠ .idle := by decide

theorem witness_OperationReadsOnlyItsSnapshot : ∃ t, exec .powerOn (bench .idle [quiet]) = .next t := ⟨_, rfl⟩

/-- Both clauses: S16 is legal, the reset values are not (DEPTH is 0). -/
theorem witness_InitLatchesOrRejects :
    (LegalConfig fresh.build (configOf fresh.regs) ∧ (configOf fresh.regs).width = fresh.regs.cfgSize.extractLsb' 0 16)
    ∧ ¬LegalConfig board (configOf Regs.reset) := by
  refine ⟨⟨setup_legal, rfl⟩, fun h => ?_⟩
  have := (configLegal_iff _ _).mpr h
  revert this
  decide

/-! ### The transport -/

theorem witness_SendRunsOneTransaction :
    ∃ (s : State) (h : Nat), h = s.cfg.clkdiv.toNat + 1 ∧ Operational s ∧ Resting s.stat.panel ∧ QuietFor (18 * h + 1) s
      ∧ (inputAt s (s.env.cycle + (17 * h - 1))).busFault = false :=
  ⟨bench .idle (List.replicate 17 quiet), 1, rfl, ⟨rfl, rfl⟩, .inr rfl,
    quietFor_script _ rfl fun i hi => by rw [List.eq_of_mem_replicate hi]; exact quiet_quiet, rfl⟩

/-- In the last cycle of phase E, with `h = 1`. -/
theorem witness_TransactionWaveform :
    ∃ (s : State) (h n : Nat), Inv s ∧ s.seq.op ≠ none ∧ s.seq.offer = none ∧ h = s.cfg.clkdiv.toNat + 1
      ∧ s.seq.step = .tx .command 0xA5 .p (h - 1) false .send ∧ ¬(Kind.command = .data ∧ s.snap.burst = true)
      ∧ n = 18 * h - 1 ∧ n < 18 * h ∧ QuietFor n s :=
  ⟨opening, 1, 17, opening_inv, by decide, rfl, rfl, rfl, by decide, rfl, by decide,
    quietFor_script _ rfl fun i hi => (nomatch hi)⟩

/-- At the last of the 18 phases. -/
theorem witness_SendWaveform :
    ∃ (s : State) (h n : Nat), h = s.cfg.clkdiv.toNat + 1 ∧ n = 18 * h - 1 ∧ n < 18 * h ∧ Operational s
      ∧ Resting s.stat.panel ∧ QuietFor (n + 1) s :=
  ⟨bench .uninitialized [], 1, 17, rfl, rfl, by decide, ⟨rfl, rfl⟩, .inl rfl, quietFor_script _ rfl fun i hi => by cases hi⟩

theorem witness_BusFaultIsFatal :
    ∃ (s : State) (h : Nat), h = s.cfg.clkdiv.toNat + 1 ∧ Operational s ∧ Resting s.stat.panel ∧ QuietFor (18 * h + 1) s
      ∧ (inputAt s (s.env.cycle + (17 * h - 1))).busFault = true :=
  ⟨bench .idle (List.replicate 17 failing), 1, rfl, ⟨rfl, rfl⟩, .inr rfl,
    quietFor_script _ rfl fun i hi => by rw [List.eq_of_mem_replicate hi]; exact failing_quiet, rfl⟩

/-- Both clauses: the REFRESH byte of FLUSH, framed alone, and a data byte inside a burst run. -/
theorem witness_BusFaultRaisesBusTransaction :
    (Inv (refreshing true []) ∧ (refreshing true []).seq.op = some 0x09 ∧ (refreshing true []).seq.offer = none
      ∧ (refreshing true []).seq.step = .tx .command 0x12 .e 0 true .flushRefresh)
    ∧ Inv (streaming true 0 0 []) ∧ (streaming true 0 0 []).seq.op = some 0x09
    ∧ (streaming true 0 0 []).seq.offer = none
    ∧ (streaming true 0 0 []).seq.step = .tx .data 0x57 (.high 0) 0 true .flushData
    ∧ (streaming true 0 0 []).snap.burst = true :=
  ⟨⟨refreshing_inv _ _, rfl, rfl, rfl⟩, streaming_inv _ _ _ _ (by decide) (by decide), rfl, rfl, rfl, by decide⟩

/-! ### RESET and the busy-poll -/

theorem witness_ResetPulsesThePanel :
    ∃ (s : State) (low high : Nat), low = resetLowMs s.build * clkPerMs s.build
      ∧ high = resetHighMs s.build * clkPerMs s.build ∧ Operational s ∧ Resting s.stat.panel
      ∧ QuietFor (low + high + 1) s :=
  ⟨bench .idle [], 200, 200, by decide, by decide, ⟨rfl, rfl⟩, .inr rfl, quietFor_script _ rfl fun i hi => by cases hi⟩

/-- One sample that reads 1, then one that reads 0, with a timeout of one poll more. -/
theorem witness_WaitIdleTakesExactlyNSamples :
    ∃ (s : State) (n d : Nat), n = 1 ∧ d = pollMs s.build * clkPerMs s.build ∧ Operational s ∧ Resting s.stat.panel
      ∧ QuietFor (n * d + 1) s ∧ (s.regs.busyTimeout = 0 ∨ ∀ j < n, j * pollMs s.build < s.regs.busyTimeout.toNat)
      ∧ (∀ j < n, busyLevel s.cfg (inputAt s (s.env.cycle + j * d)).pads = true)
      ∧ busyLevel s.cfg (inputAt s (s.env.cycle + n * d)).pads = false :=
  ⟨{ bench .idle [busy, quiet] with regs := { setup with busyTimeout := 1 } }, 1, 1, rfl, by decide, ⟨rfl, rfl⟩, .inr rfl,
    quietFor_script _ rfl (by
      intro i hi
      simp only [bench, List.mem_cons, List.not_mem_nil, or_false] at hi
      rcases hi with rfl | rfl
      · exact busy_quiet
      · exact quiet_quiet),
    .inr (by decide), by decide, by decide⟩

theorem witness_WaitIdleTimesOut :
    ∃ (s : State) (n d : Nat), d = pollMs s.build * clkPerMs s.build ∧ s.regs.busyTimeout ≠ 0
      ∧ n = (s.regs.busyTimeout.toNat + pollMs s.build - 1) / pollMs s.build ∧ Operational s ∧ Resting s.stat.panel
      ∧ QuietFor (n * d + 1) s ∧ ∀ j ≤ n, busyLevel s.cfg (inputAt s (s.env.cycle + j * d)).pads = true :=
  ⟨{ bench .idle (List.replicate 2 busy) with regs := { setup with busyTimeout := 1 } }, 1, 1, by decide, by decide, by decide,
    ⟨rfl, rfl⟩, .inr rfl, quietFor_script _ rfl fun i hi => by rw [List.eq_of_mem_replicate hi]; exact busy_quiet, by decide⟩

/-- A poll that begins in the present cycle and reads 1 once. -/
theorem poll_once {s : State} (hs : s.env.script = [busy, quiet]) (hc : s.env.cycle = 0) (hp : s.env.prog = [])
    (hb : s.build = board) (hg : s.cfg = configOf setup) (ht : s.snap.timeout = 0) :
    1 = pollMs s.build * clkPerMs s.build ∧ QuietFor (1 * 1 + 1) s
      ∧ (s.snap.timeout = 0 ∨ ∀ j < 1, j * pollMs s.build < s.snap.timeout.toNat)
      ∧ (∀ j < 1, busyLevel s.cfg (inputAt s (s.env.cycle + j * 1)).pads = true)
      ∧ busyLevel s.cfg (inputAt s (s.env.cycle + 1 * 1)).pads = false := by
  refine ⟨by rw [hb]; decide, quietFor_script _ hp ?_, .inl ht, ?_, ?_⟩
  · intro i hi
    rw [hs] at hi
    simp only [List.mem_cons, List.not_mem_nil, or_false] at hi
    rcases hi with rfl | rfl
    · exact busy_quiet
    · exact quiet_quiet
  · intro j hj
    obtain rfl : j = 0 := by omega
    simp only [inputAt, hs, hc, hg]
    decide
  · simp only [inputAt, hs, hc, hg]
    decide

/-- Each clause, after one sample that reads 1: FLUSH, a table at its end, one with a next record, and one with less than a
header left. -/
theorem witness_PollOfFlushOrTableReturns :
    (∃ s, Inv s ∧ s.seq.op = some 0x09 ∧ s.seq.offer = none ∧ PollFollows .flush s
      ∧ 1 = pollMs s.build * clkPerMs s.build ∧ QuietFor (1 * 1 + 1) s
      ∧ (s.snap.timeout = 0 ∨ ∀ j < 1, j * pollMs s.build < s.snap.timeout.toNat)
      ∧ (∀ j < 1, busyLevel s.cfg (inputAt s (s.env.cycle + j * 1)).pads = true)
      ∧ busyLevel s.cfg (inputAt s (s.env.cycle + 1 * 1)).pads = false)
    ∧ ∀ len ∈ [3, 5, 6], ∃ s, Inv s ∧ s.seq.op = some 0x06 ∧ s.seq.offer = none ∧ PollFollows .play s
      ∧ 1 = pollMs s.build * clkPerMs s.build ∧ QuietFor (1 * 1 + 1) s
      ∧ (s.snap.timeout = 0 ∨ ∀ j < 1, j * pollMs s.build < s.snap.timeout.toNat)
      ∧ (∀ j < 1, busyLevel s.cfg (inputAt s (s.env.cycle + j * 1)).pads = true)
      ∧ busyLevel s.cfg (inputAt s (s.env.cycle + 1 * 1)).pads = false
      ∧ s.seq.tp + 3 + s.seq.rlen.toNat = 0x20000103 ∧ s.seq.tend = 0x20000100 + len := by
  refine ⟨⟨refreshing false [busy, quiet], refreshing_inv _ _, rfl, rfl, ⟨_, rfl⟩,
    poll_once rfl rfl rfl rfl rfl (by decide)⟩, fun len hl => ?_⟩
  have hn : len = 3 ∨ len = 5 ∨ len = 6 := by simpa using hl
  have hw : (BitVec.ofNat 32 len).toNat = len := by rcases hn with rfl | rfl | rfl <;> rfl
  obtain ⟨h1, h2, h3, h4, h5⟩ := poll_once (s := recordSent 0x01 (BitVec.ofNat 32 len) [busy, quiet]) rfl rfl rfl rfl rfl (by
    show setup.busyTimeout = 0
    decide)
  exact ⟨_, recordSent_inv 0x01 (BitVec.ofNat 32 len) [busy, quiet] (by omega) (by omega), rfl, rfl,
    ⟨by show ctlWait 0x01 = true; decide, .inr (.inl ⟨_, rfl, rfl⟩)⟩, h1, h2, h3, h4, h5, rfl,
    congrArg (0x20000100 + ·) hw⟩

/-- The invariant does not look at the timeout an operation has snapped. -/
theorem timeout_inv {s : State} (h : Inv s) (v : Word) : Inv { s with snap := { s.snap with timeout := v } } where
  memory := h.memory
  regs := h.regs
  control := ⟨h.control.rest, h.control.offered, h.control.running, h.control.panel, h.control.fatal,
    h.control.unconfigured, h.control.config⟩
  bus := ⟨h.bus.pins, h.bus.held, h.bus.tx⟩
  reads := h.reads

/-- FLUSH and a table record, with a timeout of one poll. -/
theorem witness_PollOfFlushOrTableTimesOut :
    ∀ r ∈ [PollRet.flush, .play], ∃ (s : State) (op : Byte) (n d : Nat), Inv s ∧ s.seq.op = some op ∧ s.seq.offer = none
      ∧ PollFollows r s ∧ d = pollMs s.build * clkPerMs s.build ∧ s.snap.timeout ≠ 0
      ∧ n = (s.snap.timeout.toNat + pollMs s.build - 1) / pollMs s.build ∧ QuietFor (n * d + 1) s
      ∧ ∀ j ≤ n, busyLevel s.cfg (inputAt s (s.env.cycle + j * d)).pads = true := by
  intro r hr
  have hq : ∀ i ∈ List.replicate 2 busy, quietInput i := fun i hi => by rw [List.eq_of_mem_replicate hi]; exact busy_quiet
  have hr : r = .flush ∨ r = .play := by simpa using hr
  rcases hr with rfl | rfl
  · exact ⟨{ refreshing false (List.replicate 2 busy) with
        snap := { (refreshing false []).snap with timeout := 1 } }, 0x09, 1, 1,
      timeout_inv (refreshing_inv false (List.replicate 2 busy)) 1, rfl, rfl, ⟨_, rfl⟩, by decide, by decide, by decide, quietFor_script _ rfl hq, by decide⟩
  · exact ⟨{ recordSent 0x01 3 (List.replicate 2 busy) with
        snap := { (recordSent 0x01 3 []).snap with timeout := 1 } }, 0x06, 1, 1,
      timeout_inv (recordSent_inv 0x01 3 (List.replicate 2 busy) (by decide) (by decide)) 1, rfl, rfl, ⟨by show ctlWait 0x01 = true; decide, .inr (.inl ⟨_, rfl, rfl⟩)⟩, by decide, by decide, by decide,
      quietFor_script _ rfl hq, by decide⟩

theorem witness_UnboundedWaitStaysStuck :
    ∃ (s u : State), Inv s ∧ s.seq.op ≠ none ∧ s.seq.offer = none ∧ s.seq.step = .delay (.poll .waitIdle)
      ∧ s.snap.timeout = 0
      ∧ (∀ k < 1, (inputAt s (s.env.cycle + k)).blkRst = false
        ∧ busyLevel s.cfg (inputAt s (s.env.cycle + k)).pads = true)
      ∧ cycles 1 s = .next u :=
  ⟨polling [busy], _, polling_inv _, by decide, rfl, rfl, rfl, by decide, rfl⟩

/-! ### Tables -/

/-- Each clause: an empty table; a null base, a table that passes 2^32 by one byte, and one of two bytes; a table of one
record. -/
theorem witness_TableOperationFirstCycle :
    (Instr.powerOn, PanelState.poweringOn, fun g : Regs => (g.ponBase, g.ponLen)) ∈ tableOperations
    ∧ Operational (bench .idle []) ∧ (bench .idle []).stat.panel = .idle
    ∧ ({ setup with ponLen := 0 } : Regs).ponLen = 0
    ∧ (({ setup with ponBase := 0 } : Regs).ponLen ≠ 0 ∧ ({ setup with ponBase := 0 } : Regs).ponBase = 0)
    ∧ 2 ^ 32 < (0xFFFFFFFE : Word).toNat + setup.ponLen.toNat ∧ ({ setup with ponLen := 2 } : Regs).ponLen.toNat < 3
    ∧ setup.ponBase ≠ 0 ∧ setup.ponBase.toNat + setup.ponLen.toNat ≤ 2 ^ 32 ∧ 3 ≤ setup.ponLen.toNat :=
  ⟨.head _, ⟨rfl, rfl⟩, by decide⟩

/-- The table `04 01 00`: one record with its WAIT flag set. -/
theorem witness_WellFormedTableIsPlayed :
    ∃ (s : State) (base len : Word) (rs : List Record) (latency bound reads body : Nat),
      (Instr.powerOn, PanelState.poweringOn, fun g : Regs => (g.ponBase, g.ponLen)) ∈ tableOperations
      ∧ (base, len) = (s.regs.ponBase, s.regs.ponLen) ∧ Operational s ∧ s.stat.panel = .idle ∧ (len ≠ 0 → base ≠ 0)
      ∧ base.toNat + len.toNat ≤ 2 ^ 32 ∧ (encodeTable rs).length = len.toNat ∧ (∀ r ∈ rs, r.wf = true)
      ∧ HoldsBytes base.toNat (encodeTable rs) s ∧ IdlePins s.pins ∧ 1 ≤ latency
      ∧ reads = (rs.map fun r => 5 + r.data.length).sum
      ∧ body = (rs.map (recordCycles (s.regs.ctrl.getLsbD 0) (halfPeriod s.cfg))).sum ∧ bound = reads * latency + body
      ∧ QuietFor (bound + 1) s ∧ Faultless (bound + 1) latency s ∧ PanelReady (bound + 1) s := by
  refine ⟨bench .idle (List.replicate 24 quiet), 0x20000100, 3, [⟨0x04, 0x01, []⟩], 1, 23, 5, 18, .head _, rfl, ⟨rfl, rfl⟩,
    rfl, by decide, by decide, by decide, by decide, ⟨rfl, by decide⟩, ⟨rfl, rfl, rfl, rfl⟩, by decide, by decide, by decide,
    by decide, quietFor_script _ rfl fun i hi => by rw [List.eq_of_mem_replicate hi]; exact quiet_quiet, ?_, ?_⟩
  · intro k hk
    rw [inputAt_replicate (m := 24) rfl _ (by simp [bench, Env.reset]; omega)]
    decide
  · intro k hk
    rw [inputAt_replicate (m := 24) rfl _ (by simp [bench, Env.reset]; omega)]
    decide

/-- The table `04 01` followed by a count that runs past its end. -/
theorem witness_MalformedTableIsRefused :
    ∃ (s : State) (base len : Word) (bytes : List Byte) (latency : Nat),
      (Instr.powerOn, PanelState.poweringOn, fun g : Regs => (g.ponBase, g.ponLen)) ∈ tableOperations
      ∧ (base, len) = (s.regs.ponBase, s.regs.ponLen) ∧ Operational s ∧ s.stat.panel = .idle ∧ base ≠ 0
      ∧ base.toNat + len.toNat ≤ 2 ^ 32 ∧ bytes.length = len.toNat ∧ HoldsBytes base.toNat bytes s
      ∧ (∀ rs, parseTable bytes = some rs → ∃ r ∈ rs, r.ctl.extractLsb' 1 7 ≠ 0) ∧ IdlePins s.pins ∧ 1 ≤ latency
      ∧ QuietFor (bytes.length * latency + 1) s ∧ Faultless (bytes.length * latency + 1) latency s := by
  refine ⟨{ bench .idle (List.replicate 4 quiet) with mem := memSet memory 0x20000102 0x01 }, 0x20000100, 3,
    [0x04, 0x01, 0x01], 1, .head _, rfl, ⟨rfl, rfl⟩, rfl, by decide, by decide, by decide, ⟨rfl, by decide⟩, ?_,
    ⟨rfl, rfl, rfl, rfl⟩, by decide,
    quietFor_script _ rfl fun i hi => by rw [List.eq_of_mem_replicate hi]; exact quiet_quiet, ?_⟩
  · intro rs h
    have hn : parseTable [0x04, 0x01, 0x01] = none := by decide
    rw [hn] at h
    cases h
  · intro k hk
    rw [inputAt_replicate (m := 4) rfl _ (by simp [bench, Env.reset] at hk ⊢; omega)]
    decide

/-- Each clause: a header with a reserved bit before anything is sent, a length past the table's end after a record, and two
bytes left at a record head. -/
theorem witness_RacedTableRaisesSeqFormat :
    (Inv (lengthRead 0x02 false) ∧ (lengthRead 0x02 false).seq.op = some 0x06 ∧ (lengthRead 0x02 false).seq.offer = none
      ∧ (lengthRead 0x02 false).seq.step = .read 0x20000102 0 quiet.draw .playLen
      ∧ readAnswer (lengthRead 0x02 false) 0x20000102 quiet.draw = some 0x00
      ∧ (lengthRead 0x02 false).seq.rctl.extractLsb' 1 7 ≠ 0 ∧ (lengthRead 0x02 false).seq.sent = false)
    ∧ (Inv (lengthRead 0x00 true) ∧ 0x20000103 < (lengthRead 0x00 true).seq.tp + 3 + (0x01 : Byte).toNat
      ∧ (lengthRead 0x00 true).seq.tend = 0x20000103 ∧ (lengthRead 0x00 true).seq.sent = true)
    ∧ Inv (recordSent 0x00 5 []) ∧ RecordEnds (recordSent 0x00 5 [])
    ∧ ctlWait (recordSent 0x00 5 []).seq.rctl = false
    ∧ (recordSent 0x00 5 []).seq.tp + 3 + (recordSent 0x00 5 []).seq.rlen.toNat < (recordSent 0x00 5 []).seq.tend
    ∧ (recordSent 0x00 5 []).seq.tend < (recordSent 0x00 5 []).seq.tp + 3 + (recordSent 0x00 5 []).seq.rlen.toNat + 3 :=
  ⟨⟨lengthRead_inv _ _, rfl, rfl, rfl, by decide, by decide, rfl⟩, ⟨lengthRead_inv _ _, by decide, by decide, rfl⟩,
    recordSent_inv _ _ _ (by decide) (by decide), .inr (.inl ⟨_, rfl, rfl⟩), by decide, by decide, by decide⟩

/-! ### FLUSH -/

/-- The least invalid column (x2 = WIDTH); the least invalid sizes; and the greatest valid base. -/
theorem witness_FlushFirstCycle :
    Operational (bench .idle []) ∧ (bench .idle []).stat.panel = .idle
    ∧ ¬((0 : Nat) ≤ 16 ∧ 16 < (configOf setup).width.toNat ∧ (0 : Nat) ≤ 3 ∧ 3 < (configOf setup).height.toNat)
    ∧ ((0 : Nat) ≤ 15 ∧ 15 < (configOf setup).width.toNat ∧ (0 : Nat) ≤ 3 ∧ 3 < (configOf setup).height.toNat)
    ∧ ({ setup with fbBase := 0 } : Regs).fbBase = 0
    ∧ ({ setup with fbSize := 7 } : Regs).fbSize.toNat < fbSizeNeeded (configOf setup)
    ∧ 2 ^ 32 < (0xFFFFFFF9 : Word).toNat + fbSizeNeeded (configOf setup)
    ∧ fbSizeNeeded (configOf setup) ≤ setup.fbSize.toNat
    ∧ (0xFFFFFFF8 : Word).toNat + fbSizeNeeded (configOf setup) ≤ 2 ^ 32 :=
  ⟨⟨rfl, rfl⟩, by decide⟩

/-- The last column of the second row: one byte, 0xF0. -/
theorem witness_FlushSendsTheRegion :
    ∃ (s : State) (x1 x2 y1 y2 lo hi latency count bound body : Nat) (fb : Nat → Nat → Byte),
      x1 = (s.regs.regionX.extractLsb' 0 16).toNat ∧ x2 = (s.regs.regionX.extractLsb' 16 16).toNat
      ∧ y1 = (s.regs.regionY.extractLsb' 0 16).toNat ∧ y2 = (s.regs.regionY.extractLsb' 16 16).toNat
      ∧ Operational s ∧ s.stat.panel = .idle ∧ LegalConfig s.build s.cfg ∧ IdlePins s.pins
      ∧ x1 ≤ x2 ∧ x2 < s.cfg.width.toNat ∧ y1 ≤ y2 ∧ y2 < s.cfg.height.toNat
      ∧ s.regs.fbBase ≠ 0 ∧ fbSizeNeeded s.cfg ≤ s.regs.fbSize.toNat ∧ s.regs.fbBase.toNat + fbSizeNeeded s.cfg ≤ 2 ^ 32
      ∧ lo = x1 * s.cfg.depth.toNat / 8 ∧ hi = ((x2 + 1) * s.cfg.depth.toNat - 1) / 8 ∧ s.env.raced = []
      ∧ (∀ y x, y1 ≤ y → y ≤ y2 → lo ≤ x → x ≤ hi →
        memGet s.mem (s.regs.fbBase.toNat + y * stride s.cfg + x) = some (fb y x))
      ∧ 1 ≤ latency ∧ count = (y2 - y1 + 1) * (hi - lo + 1)
      ∧ body = (if s.regs.ctrl.getLsbD 0 then 18 * halfPeriod s.cfg * 2 + (16 * count + 2) * halfPeriod s.cfg
        else 18 * halfPeriod s.cfg * (count + 2))
      ∧ bound = count * latency + body
      ∧ QuietFor (bound + 1) s ∧ Faultless (bound + 1) latency s ∧ PanelReady (bound + 1) s := by
  refine ⟨{ bench .idle (List.replicate 56 quiet) with regs := { setup with regionX := 0x000F000F, regionY := 0x00010001 } },
    15, 15, 1, 1, 1, 1, 1, 1, 55, 54, fun _ _ => 0xF0, by decide, by decide, by decide, by decide, ⟨rfl, rfl⟩, rfl, setup_legal,
    ⟨rfl, rfl, rfl, rfl⟩, by decide, by decide, by decide, by decide, by decide, by decide, by decide, by decide, by decide,
    rfl, ?_, by decide, by decide, by decide, by decide,
    quietFor_script _ rfl fun i hi => by rw [List.eq_of_mem_replicate hi]; exact quiet_quiet, ?_, ?_⟩
  · intro y x h1 h2 h3 h4
    obtain rfl : y = 1 := by omega
    obtain rfl : x = 1 := by omega
    decide
  · intro k hk
    rw [inputAt_replicate (m := 56) rfl _ (by simp [bench, Env.reset]; omega)]
    decide
  · intro k hk
    rw [inputAt_replicate (m := 56) rfl _ (by simp [bench, Env.reset]; omega)]
    decide

theorem witness_FlushReadsInsideTheFramebuffer :
    Inv (fetching false []) ∧ (fetching false []).seq.op ≠ none ∧ (fetching false []).seq.offer = none
      ∧ (fetching false []).seq.step = .read 0x20000000 0 quiet.draw .flushData :=
  ⟨fetching_inv _ _, by decide, rfl, rfl⟩

theorem witness_TableReadsInsideTheTable :
    Inv checking ∧ checking.seq.op ≠ none ∧ checking.seq.offer = none
      ∧ checking.seq.step = .read 0x20000101 0 quiet.draw (.checkCtl .poweringOn 0)
      ∧ ReadRet.checkCtl .poweringOn 0 ≠ .flushData :=
  ⟨checking_inv, by decide, rfl, rfl, by decide⟩

theorem witness_BurstRunHoldsChipSelect :
    Inv (fetching true []) ∧ (fetching true []).seq.op ≠ none ∧ (fetching true []).seq.offer = none
      ∧ (fetching true []).seq.csHeld = true
      ∧ (fetching true []).seq.step = .read 0x20000000 0 quiet.draw .flushData
      ∧ readAnswer (fetching true []) 0x20000000 quiet.draw = some 0xAA
      ∧ QuietFor (16 * ((fetching true []).cfg.clkdiv.toNat + 1)) (fetching true []) :=
  ⟨fetching_inv _ _, by decide, rfl, rfl, rfl, by decide, quietFor_script _ rfl fun i hi => by cases hi⟩

/-- At the last cycle of `H_0`, with `h = 1`. -/
theorem witness_BurstRunOpens :
    ∃ (s : State) (h n : Nat), Inv s ∧ s.seq.op ≠ none ∧ s.seq.offer = none ∧ h = s.cfg.clkdiv.toNat + 1
      ∧ s.snap.burst = true ∧ s.seq.step = .tx .data 0xAA .p (h - 1) false .flushData ∧ n = 17 * h - 1 ∧ n < 17 * h
      ∧ QuietFor n s :=
  ⟨burstOpening [], 1, 16, burstOpening_inv _, by decide, rfl, rfl, by decide, rfl, rfl, by decide,
    quietFor_script _ rfl fun i hi => (nomatch hi)⟩

/-- Each clause: the next column, the next row, and the end of the run. -/
theorem witness_BurstRunWaitsAndCloses :
    (∀ p ∈ [(0, 0), (0, 1), (3, 1)], Inv (streaming false p.1 p.2 []) ∧ (streaming false p.1 p.2 []).seq.op ≠ none
      ∧ (streaming false p.1 p.2 []).seq.offer = none ∧ (streaming false p.1 p.2 []).snap.burst = true
      ∧ (streaming false p.1 p.2 []).seq.step = .tx .data 0x57 (.high 0) 0 false .flushData
      ∧ QuietFor 1 (streaming false p.1 p.2 []))
    ∧ RunGoesOn (streaming false 0 0 []) .flushData 0x20000001 .flushData
    ∧ RunGoesOn (streaming false 0 1 []) .flushData 0x20000002 .flushData
    ∧ RunEnds (streaming false 3 1 []) .flushData .flush := by
  refine ⟨fun p hp => ?_, .inr (.inl ⟨rfl, rfl, by decide, by decide⟩),
    .inr (.inr ⟨rfl, rfl, by decide, by decide, by decide⟩), .inr (.inr ⟨rfl, rfl, by decide, by decide⟩)⟩
  have hb : p.1 ≤ 3 ∧ p.2 ≤ 1 := by
    simp only [List.mem_cons, List.not_mem_nil, or_false] at hp
    rcases hp with rfl | rfl | rfl <;> decide
  refine ⟨streaming_inv _ _ _ _ hb.1 hb.2, by simp [streaming, flushing], rfl, ?_, rfl,
    quietFor_script _ rfl fun i hi => (nomatch hi)⟩
  show (snapshot 0x09 0 burstSetup).burst = true
  decide

/-! ### Errors -/

/-- Each clause: a fatal error with CS free, one with CS held, and one that is not fatal. -/
theorem witness_RaiseEndsTheOperation :
    ((fetching false []).seq.op = some 0x09 ∧ Code.memFault ≠ .none ∧ (fetching false []).seq.sent = true
      ∧ (fetching false []).seq.csHeld = false)
    ∧ (fetching true []).seq.csHeld = true
    ∧ ¬(Code.memFault = .busTransaction
      ∨ ((Code.memFault = .memFault ∨ Code.memFault = .seqFormat) ∧ checking.seq.sent = true)) := by decide

theorem witness_AbortReleasesTheBus :
    Inv aborting ∧ aborting.seq.op = some 0x09 ∧ aborting.seq.offer = none
      ∧ aborting.seq.step = .cleanup 0 .busTransaction ∧ QuietFor 1 aborting :=
  ⟨aborting_inv, rfl, rfl, rfl, quietFor_script _ rfl fun i hi => by cases hi⟩

/-- The read's answer is a fault. -/
def faulting : ReadDraw := { quiet.draw with fault := true }

/-- Each clause: a read after the first transaction, one before it, and one in phase W of a burst run. -/
theorem witness_ReadFaultRaisesMemFault :
    faulting.fault = true
    ∧ (Inv (fetchingWith faulting false []) ∧ (fetchingWith faulting false []).seq.op = some 0x09
      ∧ (fetchingWith faulting false []).seq.offer = none
      ∧ (fetchingWith faulting false []).seq.step = .read 0x20000000 0 faulting .flushData
      ∧ (fetchingWith faulting false []).seq.csHeld = false ∧ (fetchingWith faulting false []).seq.sent = true)
    ∧ (Inv (checkingWith faulting) ∧ (checkingWith faulting).seq.op = some 0x06
      ∧ (checkingWith faulting).seq.offer = none
      ∧ (checkingWith faulting).seq.step = .read 0x20000101 0 faulting (.checkCtl .poweringOn 0)
      ∧ (checkingWith faulting).seq.sent = false)
    ∧ Inv (fetchingWith faulting true []) ∧ (fetchingWith faulting true []).seq.csHeld = true :=
  ⟨rfl, ⟨fetchingWith_inv _ _ _, rfl, rfl, rfl, rfl, rfl⟩, ⟨checkingWith_inv _, rfl, rfl, rfl, rfl⟩,
    fetchingWith_inv _ _ _, rfl⟩

/-- Both alternatives: a poll whose sample reads 0 ends WAIT_IDLE, one whose sample reads 1 does not. -/
theorem witness_OperationEndsOnlyByFinishing :
    (∃ t, Inv (polling [quiet]) ∧ (input (polling [quiet])).blkRst = false ∧ step (polling [quiet]) = .next t
      ∧ active t = false)
    ∧ ∃ t, Inv (polling [busy]) ∧ (input (polling [busy])).blkRst = false ∧ step (polling [busy]) = .next t
      ∧ active t = true :=
  ⟨⟨_, polling_inv _, rfl, rfl, rfl⟩, _, polling_inv _, rfl, rfl, rfl⟩

/-! ### The host's side -/

/-- A word is offered, and the host writes `v` at `off` in its accept cycle. -/
def accepting (w : Word) (off : Nat) (v : Word) : State :=
  { bench .idle [asks (.write 4 off v)] with seq := { Seq.reset with op := some (cmdOp w), offer := some w } }

/-- At the first parameter register's offset, the last one's and the window's last, at rest, in the cycle in which WAIT_IDLE finishes, and in the accept
cycle of FLUSH. -/
theorem witness_HostWriteSetsTheWritableBits :
    ∀ off ∈ [0x00, 0x50, 0xFC],
      ∀ s ∈ [bench .idle [asks (.write 4 off 0xFFFFFFFF)], polling [asks (.write 4 off 0xFFFFFFFF)],
        accepting 0x00000009 off 0xFFFFFFFF],
      (input s).blkRst = false ∧ off < 0x100 ∧ off % 4 = 0 ∧ (hostTurn s).1 = some (.write 4 off 0xFFFFFFFF)
        ∧ ∃ u, sequencerCycle s = .next u := by
  intro off ho s hs
  simp only [List.mem_cons, List.not_mem_nil, or_false] at ho hs
  rcases ho with rfl | rfl | rfl <;> rcases hs with rfl | rfl | rfl <;>
    exact ⟨rfl, by decide, by decide, rfl, _, rfl⟩

/-- Both clauses, in the cycle in which WAIT_IDLE finishes, with host memory writes in it and without. -/
theorem witness_WriteOneClearsUnlessSet :
    ∀ a ∈ [Access.write 4 0x10 1, .write 4 0x0C 0x100],
      ∀ i ∈ [asks a, { asks a with memWrites := [(0x20000000, 1)] }],
      (input (polling [i])).blkRst = false ∧ (hostTurn (polling [i])).1 = some a
        ∧ ∃ u, sequencerCycle (polling [i]) = .next u := by
  intro a ha i hi
  simp only [List.mem_cons, List.not_mem_nil, or_false] at ha hi
  rcases ha with rfl | rfl <;> rcases hi with rfl | rfl <;> exact ⟨rfl, rfl, _, rfl⟩

theorem witness_RegisterReadsHaveNoSideEffect :
    ∃ u, (input (polling [asks (.read 4 0xFC)])).blkRst = false ∧ 0xFC < 0x100 ∧ 0xFC % 4 = 0
      ∧ (hostTurn (polling [asks (.read 4 0xFC)])).1 = some (.read 4 0xFC)
      ∧ sequencerCycle (polling [asks (.read 4 0xFC)]) = .next u :=
  ⟨_, rfl, by decide, by decide, rfl, rfl⟩

/-- Both sides of the equivalence: a misaligned read is refused, the first offset past the window too, the last one in it not. -/
theorem witness_OnlyIllegalAccessesAreRefused :
    step (bench .idle [asks (.read 4 0x02)]) = .refused (.registerAccess 4 0x02)
    ∧ step (bench .idle [asks (.write 4 0x100 0)]) = .refused (.registerAccess 4 0x100)
    ∧ (∃ t, step (bench .idle [asks (.read 4 0xFC)]) = .next t) ∧ (input (bench .idle [asks (.read 4 0xFC)])).blkRst = false :=
  ⟨rfl, rfl, ⟨_, rfl⟩, rfl⟩

/-- A CMD write while WAIT_IDLE runs, and one in the accept cycle of FLUSH. -/
theorem witness_HostCannotDisturbTheCycleInWhichItActs :
    ∀ s ∈ [polling [asks (.write 4 0x08 0x4)], accepting 0x00000009 0x08 0x4],
      active s = true ∧ (input s).blkRst = false ∧ (∃ u, sequencerCycle s = .next u) ∧ ∃ t, step s = .next t := by
  intro s hs
  simp only [List.mem_cons, List.not_mem_nil, or_false] at hs
  rcases hs with rfl | rfl <;> exact ⟨rfl, rfl, ⟨_, rfl⟩, _, rfl⟩

/-- Each clause: SYNC, a write, a read, an operation. -/
theorem witness_SyncPollsActive :
    ∀ p ∈ [[HostStmt.sync], [.write .irq 1], [.read .err], hostOp .flush], ∃ s : State,
      (input s).host = .program ∧ s.env.prog = p :=
  fun p _ => ⟨{ bench .idle [{ quiet with host := .program }] with
    env := { Env.reset with script := [{ quiet with host := .program }], prog := p } }, rfl, rfl⟩

/-! ### Pads -/

/-- Both clauses: before and after the first INIT. -/
theorem witness_PadsCarryTheirSignals :
    (Inv fresh ∧ fresh.stat.configured = false) ∧ Inv (bench .idle []) ∧ (bench .idle []).stat.configured = true :=
  ⟨⟨fresh_inv, rfl⟩, bench_inv _ _ (.inr rfl), rfl⟩

/-- SEND_DATA raises `dc`. -/
theorem witness_DcChangesOnlyWithChipSelectHigh :
    ∃ (s t : State), Inv s ∧ s.stat.configured = true ∧ (input s).blkRst = false ∧ step s = .next t
      ∧ t.pins.dc ≠ s.pins.dc :=
  ⟨_, _, offered_inv 0x00000003 .idle [quiet] (.inr rfl), rfl, rfl, rfl, by decide⟩

/-- RESET lowers `rst_n`. -/
theorem witness_OnlyInitAndResetDriveRst :
    ∃ (s t : State), Inv s ∧ (input s).blkRst = false ∧ step s = .next t ∧ t.pins.rstN ≠ s.pins.rstN :=
  ⟨_, _, offered_inv 0x00000004 .idle [quiet] (.inr rfl), rfl, rfl, by decide⟩

/-- Pads 0 to 5, 7 and above high instead of low, in a poll's later sample and in the accept cycle of WAIT_IDLE, which takes
its first one. -/
theorem witness_OnlyTheBusyPadIsSampled :
    ∀ s ∈ [polling [quiet], { bench .idle [quiet] with seq := { Seq.reset with op := some 0x05, offer := some 0x00000005 } }],
      input s = quiet ∧ s.env.cycle < s.env.script.length
        ∧ busyLevel s.cfg 0xFFFFFFFFFFFFFFBF = busyLevel s.cfg quiet.pads ∧ ∃ u, sequencerCycle s = .next u := by
  intro s hs
  simp only [List.mem_cons, List.not_mem_nil, or_false] at hs
  rcases hs with rfl | rfl <;> exact ⟨by decide, by decide, by decide, _, rfl⟩

/-! ### The whole machine -/

theorem witness_BlockResetAbandonsEverything : (input (polling [{ busy with blkRst := true }])).blkRst = true := rfl

/-- A WAIT_IDLE that leaves Busy. -/
theorem witness_PanelStateFollowsTheTable :
    ∃ (t : State), Inv (polling [quiet]) ∧ (input (polling [quiet])).blkRst = false ∧ step (polling [quiet]) = .next t
      ∧ t.stat.panel ≠ (polling [quiet]).stat.panel :=
  ⟨_, polling_inv _, rfl, rfl, by decide⟩

/-- The first INIT. -/
theorem witness_OnlyInitConfigures :
    ∃ (t : State), (input (offerWord 0x00000001 fresh)).blkRst = false ∧ step (offerWord 0x00000001 fresh) = .next t
      ∧ t.stat.configured ≠ (offerWord 0x00000001 fresh).stat.configured :=
  ⟨_, rfl, rfl, by decide⟩

/-- Both clauses: INIT clears FATAL; the end of an abort cleanup sets it. -/
theorem witness_FatalIsClearedOnlyByInit :
    (∃ (s t : State), Inv s ∧ (input s).blkRst = false ∧ step s = .next t ∧ s.stat.fatal = true ∧ t.stat.fatal = false)
    ∧ ∃ t, Inv aborting ∧ (input aborting).blkRst = false ∧ step aborting = .next t ∧ aborting.stat.fatal = false
      ∧ t.stat.fatal = true := by
  refine ⟨⟨{ bench .uninitialized [quiet] with
      stat := { (bench .uninitialized [quiet]).stat with fatal := true }
      seq := { Seq.reset with op := some 0x01, offer := some 0x00000001 } }, _, ?_, rfl, rfl, rfl, rfl⟩,
    _, aborting_inv, rfl, rfl, rfl, rfl⟩
  have h := offered_inv 0x00000001 .uninitialized [quiet] (.inl rfl)
  exact
    { memory := h.memory, regs := h.regs, reads := h.reads
      control :=
        { rest := h.control.rest, offered := h.control.offered
          running := fun _ ho => (nomatch ho)
          panel := h.control.panel, fatal := fun _ => ⟨rfl, rfl⟩, unconfigured := fun hc => (nomatch hc)
          config := h.control.config }
      bus := { pins := h.bus.pins, held := h.bus.held, tx := trivial } }

theorem witness_BlockNeverWritesHostMemory :
    ∃ t, step (polling [{ quiet with memWrites := [(0x20000000, 1), (0x20000000, 2)] }]) = .next t := ⟨_, rfl⟩

/-- Both clauses: no race, and a race with the host. -/
theorem witness_ReadReturnsWhatTheHostWrote :
    ∃ s t : State, (s.seq.step = .read 0x20000000 0 quiet.draw .flushData ∧ quiet.draw.fault = false
        ∧ memGet s.mem 0x20000000 = some 0xAA ∧ ∀ c ∈ s.env.raced, c.1 ≠ 0x20000000)
      ∧ t.seq.step = .read 0x20000000 0 quiet.draw .flushData ∧ memGet t.mem 0x20000000 = some 0xAA
      ∧ ∃ c ∈ t.env.raced, c.1 = 0x20000000 :=
  ⟨fetching false [], { fetching false [] with env := { Env.reset with raced := [(0x20000000, some 0x11)] } },
    ⟨rfl, rfl, by decide, fun c hc => (nomatch hc)⟩, rfl, by decide, by simp⟩

theorem witness_EveryStepKeepsTheInvariant : ∃ t, Inv (polling [busy]) ∧ step (polling [busy]) = .next t :=
  ⟨_, polling_inv _, rfl⟩

/-- Both alternatives of the second clause: block reset, and no refused access. -/
theorem witness_NoStepLosesItsOperation :
    Inv (polling [{ busy with blkRst := true }]) ∧ (input (polling [{ busy with blkRst := true }])).blkRst = true
      ∧ Inv (polling [busy]) ∧ badAccess (polling [busy]) = none :=
  ⟨polling_inv _, rfl, polling_inv _, rfl⟩

end Sys2Proof.Tests
end

section
/-!
SUPPORT. One cycle of the whole machine: what a step is made of, what the host's side of a cycle leaves alone, and the
acceptance of a word. From these, with `advance_inv`, every step keeps the invariant.
-/

namespace Sys2Proof.Machine

open Sys2Proof

/-! ## What a step is made of -/

/-- Without block reset a step is the sequencer's cycle and then the host's side of it. -/
theorem step_of_sequencerCycle {s u : State} (hb : (input s).blkRst = false) (ha : badAccess s = none)
    (hu : sequencerCycle s = .next u) : step s = .next (endCycle s u) := by
  simp [step, hb, ha, hu]

theorem step_of_blkRst {s : State} (hb : (input s).blkRst = true) : step s = .next (blockReset s) := by
  simp [step, hb]

theorem endCycle_of_step {s t : State} (hb : (input s).blkRst = false) (h : step s = .next t) :
    ∃ u, sequencerCycle s = .next u ∧ t = endCycle s u := by
  unfold step at h
  rw [hb, if_neg Bool.false_ne_true] at h
  split at h
  · cases h
  · split at h
    · next u hu => cases h; exact ⟨u, hu, rfl⟩
    · cases h
    · cases h

/-- What the sequencer can do in a cycle: accept or reject the offered word, rest, or go on with the running operation. -/
theorem sequencerCycle_cases {s u : State} (h : sequencerCycle s = .next u) :
    (∃ w i, s.seq.offer = some w ∧ decodeWord w = some i ∧ u = accept i (acceptBody i) s)
    ∨ (∃ w, s.seq.offer = some w ∧ u = rejectIllegal w s)
    ∨ (s.seq.offer = none ∧ s.seq.op = none ∧ u = s)
    ∨ (s.seq.offer = none ∧ s.seq.op ≠ none ∧ u = advance s) := by
  unfold sequencerCycle at h
  split at h
  · next w hw =>
    split at h
    · next i hi =>
      rw [exec_eq] at h
      cases h
      exact .inl ⟨w, i, hw, hi, rfl⟩
    · cases h
      exact .inr (.inl ⟨w, hw, rfl⟩)
  · next hoff =>
    split at h
    · next ha =>
      cases h
      exact .inr (.inr (.inl ⟨hoff, by simpa [active] using ha, rfl⟩))
    · next ha =>
      split at h
      · cases h
      · cases h
        exact .inr (.inr (.inr ⟨hoff, by simpa [active, Option.isSome_iff_ne_none] using ha, rfl⟩))

/-- In a state of the invariant the sequencer always has something to do next. -/
theorem Inv.sequencerCycle_next {s : State} (h : Inv s) : ∃ u, sequencerCycle s = .next u := by
  unfold sequencerCycle
  split
  · split
    · exact ⟨_, exec_eq _ _⟩
    · exact ⟨_, rfl⟩
  · next hoff =>
    split
    · exact ⟨_, rfl⟩
    · next ha =>
      have hop : s.seq.op ≠ none := by simpa [active, Option.isSome_iff_ne_none] using ha
      rw [if_neg (h.control.running hop hoff).1]
      exact ⟨_, rfl⟩

/-! ## The host's register access -/

/-- What the host, short of block reset, leaves alone of the state `u` that the sequencer has led to. -/
structure HostFrame (u t : State) : Prop where
  build : t.build = u.build
  cfg : t.cfg = u.cfg
  snap : t.snap = u.snap
  pins : t.pins = u.pins
  panel : t.stat.panel = u.stat.panel
  configured : t.stat.configured = u.stat.configured
  fatal : t.stat.fatal = u.stat.fatal
  code : t.stat.code = u.stat.code
  trace : t.env.trace = u.env.trace

theorem HostFrame.trans {s t u : State} (h : HostFrame s t) (k : HostFrame t u) : HostFrame s u :=
  ⟨k.build.trans h.build, k.cfg.trans h.cfg, k.snap.trans h.snap, k.pins.trans h.pins, k.panel.trans h.panel,
    k.configured.trans h.configured, k.fatal.trans h.fatal, k.code.trans h.code, k.trace.trans h.trace⟩

/-- The parameter registers after a host write at an offset of the window. -/
def regsAfterWrite (off : Nat) (v : Word) (g : Regs) : Regs := (Reg.ofOffset off).elim g (writeParam · v g)

/-- A write to none of CMD, ERR and IRQ reaches a parameter register at most. -/
theorem writeOffset_param {off : Nat} (hc : Reg.ofOffset off ≠ some .cmd) (he : Reg.ofOffset off ≠ some .err)
    (hi : Reg.ofOffset off ≠ some .irq) (s u : State) (v : Word) :
    writeOffset s u off v = { u with regs := regsAfterWrite off v u.regs } := by
  unfold writeOffset regsAfterWrite
  cases hr : Reg.ofOffset off with
  | none => rfl
  | some r =>
    rw [hr] at hc he hi
    cases r with
    | cmd => exact absurd rfl hc
    | err => exact absurd rfl he
    | irq => exact absurd rfl hi
    | _ => rfl

/-- What a host write does: offer a word, clear bits of ERR or IRQ, or set a parameter register. -/
theorem writeOffset_cases (s u : State) (off : Nat) (v : Word) :
    (Reg.ofOffset off = some .cmd ∧ writeOffset s u off v = offerCmd s u v)
    ∨ (Reg.ofOffset off = some .err ∧ writeOffset s u off v = { u with stat := writeErr u.stat v })
    ∨ (Reg.ofOffset off = some .irq ∧ writeOffset s u off v = { u with stat := writeIrq s u v })
    ∨ writeOffset s u off v = { u with regs := regsAfterWrite off v u.regs } := by
  by_cases hc : Reg.ofOffset off = some .cmd
  · exact .inl ⟨hc, by simp [writeOffset, hc]⟩
  by_cases he : Reg.ofOffset off = some .err
  · exact .inr (.inl ⟨he, by simp [writeOffset, he]⟩)
  by_cases hi : Reg.ofOffset off = some .irq
  · exact .inr (.inr (.inl ⟨hi, by simp [writeOffset, hi]⟩))
  · exact .inr (.inr (.inr (writeOffset_param hc he hi s u v)))

theorem offerCmd_frame (s u : State) (w : Word) : HostFrame u (offerCmd s u w) := by
  unfold offerCmd
  split <;> constructor <;> rfl

@[simp] theorem offerCmd_regs (s u : State) (w : Word) : (offerCmd s u w).regs = u.regs := by
  unfold offerCmd
  split <;> rfl

@[simp] theorem offerCmd_mem (s u : State) (w : Word) : (offerCmd s u w).mem = u.mem := by
  unfold offerCmd
  split <;> rfl

theorem writeOffset_frame (s u : State) (off : Nat) (v : Word) : HostFrame u (writeOffset s u off v) := by
  obtain ⟨-, h⟩ | ⟨-, h⟩ | ⟨-, h⟩ | h := writeOffset_cases s u off v <;> rw [h]
  · exact offerCmd_frame s u v
  all_goals constructor <;> rfl

theorem hostAccess_frame (s u : State) (a : Option Access) : HostFrame u (hostAccess s u a) := by
  obtain _ | ⟨_ | ⟨_, off, v⟩⟩ := a
  · constructor <;> rfl
  · constructor <;> rfl
  · exact writeOffset_frame s u off v

theorem writeOffset_regs (s u : State) (off : Nat) (v : Word) :
    (writeOffset s u off v).regs = regsAfterWrite off v u.regs := by
  obtain ⟨ho, h⟩ | ⟨ho, h⟩ | ⟨ho, h⟩ | h := writeOffset_cases s u off v <;> rw [h]
  all_goals simp [regsAfterWrite, ho, writeParam]

theorem hostAccess_mem (s u : State) (a : Option Access) : (hostAccess s u a).mem = u.mem := by
  obtain _ | ⟨_ | ⟨_, off, v⟩⟩ := a
  · rfl
  · rfl
  · show (writeOffset s u off v).mem = u.mem
    obtain ⟨-, h⟩ | ⟨-, h⟩ | ⟨-, h⟩ | h := writeOffset_cases s u off v <;> rw [h]
    exact offerCmd_mem s u v

/-- The host reaches the sequencer's state only by offering a word while no operation is active. -/
theorem hostAccess_seq (s u : State) (a : Option Access) :
    (hostAccess s u a).seq = u.seq
    ∨ active s = false ∧ ∃ w,
      (hostAccess s u a).seq = { u.seq with op := some (cmdOp w), offer := some w, step := .idle } := by
  obtain _ | ⟨_ | ⟨_, off, v⟩⟩ := a
  · exact .inl rfl
  · exact .inl rfl
  · show (writeOffset s u off v).seq = u.seq ∨ _ ∧ ∃ w, (writeOffset s u off v).seq = _
    obtain ⟨-, h⟩ | ⟨-, h⟩ | ⟨-, h⟩ | h := writeOffset_cases s u off v <;> rw [h]
    · unfold offerCmd
      split
      · exact .inl rfl
      · next hs => exact .inr ⟨by simpa using hs, v, rfl⟩
    all_goals exact .inl rfl

/-- The bits that hold nothing stay 0 whatever the host writes (10_state.md R22). -/
theorem regsInv_writeParam {g : Regs} (h : RegsInv g) (r : Reg) (v : Word) : RegsInv (writeParam r v g) := by
  obtain ⟨h1, h2, h3, h4, h5⟩ := h
  have hm : ∀ m : Word, v &&& m &&& m = v &&& m := fun m => by rw [BitVec.and_assoc, BitVec.and_self]
  cases r with
  | ctrl => exact ⟨hm _, h2, h3, h4, h5⟩
  | cfgBus => exact ⟨h1, hm _, h3, h4, h5⟩
  | pinmux0 => exact ⟨h1, h2, hm _, h4, h5⟩
  | pinmux1 => exact ⟨h1, h2, h3, hm _, h5⟩
  | panelOpc => exact ⟨h1, h2, h3, h4, hm _⟩
  | _ => exact ⟨h1, h2, h3, h4, h5⟩

theorem regsInv_hostAccess {u : State} (h : RegsInv u.regs) (s : State) (a : Option Access) :
    RegsInv (hostAccess s u a).regs := by
  obtain _ | ⟨_ | ⟨_, off, v⟩⟩ := a
  · exact h
  · exact h
  · show RegsInv (writeOffset s u off v).regs
    rw [writeOffset_regs, regsAfterWrite]
    cases Reg.ofOffset off with
    | none => exact h
    | some r => exact regsInv_writeParam h r v

/-! ## The end of a cycle -/

/-- The end of a cycle adds the host's memory writes and the move to the next cycle to the host's access. -/
theorem endCycle_memOnly (s u : State) :
    MemOnly (hostAccess s u (hostTurn s).1) ((input s).memWrites.foldl hostMemWrite (hostAccess s u (hostTurn s).1)) :=
  hostMemWrites_memOnly _ _

@[simp] theorem endCycle_regs (s u : State) : (endCycle s u).regs = (hostAccess s u (hostTurn s).1).regs :=
  (endCycle_memOnly s u).regs
@[simp] theorem endCycle_stat (s u : State) : (endCycle s u).stat = (hostAccess s u (hostTurn s).1).stat :=
  (endCycle_memOnly s u).stat
@[simp] theorem endCycle_seq (s u : State) : (endCycle s u).seq = (hostAccess s u (hostTurn s).1).seq :=
  (endCycle_memOnly s u).seq
@[simp] theorem endCycle_reads (s u : State) :
    (endCycle s u).env.reads = (hostAccess s u (hostTurn s).1).env.reads := (endCycle_memOnly s u).reads

theorem endCycle_frame (s u : State) : HostFrame u (endCycle s u) := by
  refine (hostAccess_frame s u (hostTurn s).1).trans ?_
  have h := endCycle_memOnly s u
  exact ⟨h.build, h.cfg, h.snap, h.pins, by simp, by simp, by simp, by simp, h.trace⟩

/-- Without memory writes of the host in the cycle, memory is left alone. -/
theorem endCycle_mem {s : State} (h : (input s).memWrites = []) (u : State) : (endCycle s u).mem = u.mem := by
  show ((input s).memWrites.foldl hostMemWrite (hostAccess s u (hostTurn s).1)).mem = u.mem
  rw [h]
  exact hostAccess_mem s u _

theorem endCycle_mem_wf {u : State} (h : Memory.wf u.mem = true) (s : State) : Memory.wf (endCycle s u).mem = true :=
  hostMemWrites_wf _ _ (by rw [hostAccess_mem]; exact h)

/-! ## The invariant and the host -/

/-- The host's side of a cycle keeps the invariant where it leaves the sequencer's state alone. -/
theorem Inv.of_hostFrame {u t : State} (h : Inv u) (k : HostFrame u t) (hseq : t.seq = u.seq)
    (hmem : Memory.wf t.mem = true) (hregs : RegsInv t.regs) : Inv t where
  memory := hmem
  regs := hregs
  control :=
    { rest := by rw [hseq]; exact h.control.rest
      offered := by rw [hseq]; exact h.control.offered
      running := by rw [hseq, k.configured, k.fatal]; exact h.control.running
      panel := by rw [hseq, k.panel]; exact h.control.panel
      fatal := by rw [k.fatal, k.configured, k.panel]; exact h.control.fatal
      unconfigured := by rw [k.configured, k.panel]; exact h.control.unconfigured
      config := by rw [k.configured, k.build, k.cfg]; exact h.control.config }
  bus :=
    { pins := by rw [k.configured, hseq, k.snap, k.pins]; exact h.bus.pins
      held := by rw [hseq]; exact h.bus.held
      tx := by rw [hseq, k.cfg, k.snap]; exact h.bus.tx }
  reads := by rw [hseq, k.cfg, k.snap]; exact h.reads

/-- While the cursor is at no statement, CS is free and the lines idle. -/
theorem Inv.csHeld_of_idle {s : State} (h : Inv s) (hst : s.seq.step = .idle) : s.seq.csHeld = false := by
  by_contra hc
  have hheld := (h.bus.held (by simpa using hc)).2
  rw [hst] at hheld
  exact hheld

theorem Inv.idlePins_of_idle {s : State} (h : Inv s) (hst : s.seq.step = .idle) (hc : s.stat.configured = true) :
    IdlePins s.pins := by
  have hpins := h.bus.pins hc
  unfold PinsAt at hpins
  rwa [hst] at hpins

theorem Inv.resting_of_idle {s : State} (h : Inv s) (hst : s.seq.step = .idle) : Resting s.stat.panel := by
  have hp := h.control.panel
  unfold PanelAt at hp
  rwa [hst] at hp

/-- Offering a word to a block at rest keeps the invariant. -/
theorem Inv.offer {u : State} (h : Inv u) (hop : u.seq.op = none) (w : Word) :
    Inv { u with seq := { u.seq with op := some (cmdOp w), offer := some w, step := .idle } } := by
  have hst := (h.control.rest hop).2
  have hh := h.csHeld_of_idle hst
  exact
    { memory := h.memory
      regs := h.regs
      control :=
        { rest := fun hn => by simp at hn
          offered := fun w' hw => by cases hw; exact ⟨rfl, rfl⟩
          running := fun _ hoff => by simp at hoff
          panel := h.resting_of_idle hst
          fatal := h.control.fatal
          unconfigured := h.control.unconfigured
          config := h.control.config }
      bus := { pins := h.idlePins_of_idle hst, held := fun hc => by simp [hh] at hc, tx := trivial }
      reads := trivial }

/-- The end of a cycle keeps the invariant: a word can be offered only when the sequencer is at rest. -/
theorem Inv.endCycle {u : State} (h : Inv u) (s : State) (hrest : active s = false → u.seq.op = none) :
    Inv (endCycle s u) := by
  have hmem := endCycle_mem_wf h.memory s
  have hregs : RegsInv (Machine.endCycle s u).regs := by
    rw [endCycle_regs]
    exact regsInv_hostAccess h.regs s _
  have hframe := endCycle_frame s u
  obtain hseq | ⟨ha, w, hseq⟩ := hostAccess_seq s u (hostTurn s).1
  · exact h.of_hostFrame hframe (by rw [endCycle_seq, hseq]) hmem hregs
  · refine (h.offer (hrest ha) w).of_hostFrame ?_ (by rw [endCycle_seq, hseq]) hmem hregs
    exact ⟨hframe.build, hframe.cfg, hframe.snap, hframe.pins, hframe.panel, hframe.configured, hframe.fatal,
      hframe.code, hframe.trace⟩

/-! ## The invariant after block reset -/

/-- A block whose registers, STATUS and sequencer are at their reset values meets the invariant. -/
theorem inv_of_reset {t : State} (hmem : Memory.wf t.mem = true) (hregs : t.regs = Regs.reset)
    (hstat : t.stat = Stat.reset) (hseq : t.seq = Seq.reset) : Inv t where
  memory := hmem
  regs := by rw [hregs]; unfold RegsInv; decide
  control :=
    { rest := by rw [hseq]; exact fun _ => ⟨rfl, rfl⟩
      offered := by rw [hseq]; exact fun _ hw => nomatch hw
      running := by rw [hseq]; exact fun hop => absurd rfl hop
      panel := by rw [hseq, hstat]; exact .inl rfl
      fatal := by rw [hstat]; exact fun hf => nomatch hf
      unconfigured := by rw [hstat]; exact fun _ => rfl
      config := by rw [hstat]; exact fun hc => nomatch hc }
  bus :=
    { pins := by rw [hstat]; exact fun hc => nomatch hc
      held := by rw [hseq]; exact fun hh => nomatch hh
      tx := by rw [hseq]; trivial }
  reads := by rw [hseq]; trivial

theorem blockReset_inv {s : State} (h : Memory.wf s.mem = true) : Inv (blockReset s) :=
  inv_of_reset (hostMemWrites_wf _ s h) rfl rfl rfl

/-! ## The invariant and the acceptance of a word -/

/-- What `Check` has shown when it lets an operation other than INIT pass (60_exceptions.md R257). -/
theorem acceptCheck_pass {i : Instr} {st : Stat} (hi : i ≠ .init) (h : acceptCheck i st = .none) :
    st.fatal = false ∧ st.configured = true ∧ acceptedIn i st.panel = true := by
  unfold acceptCheck at h
  rw [if_neg hi] at h
  split at h
  · cases h
  · next hf =>
    split at h
    · cases h
    · next hc =>
      split at h
      · cases h
      · next ha => exact ⟨by simpa using hf, by simpa using hc, by simpa using ha⟩

/-- An acceptance is a rejection, or runs the operation's first statements. -/
theorem accept_cases (i : Instr) (body : State → State) (s : State) :
    (acceptCheck i s.stat = .none ∧ accept i body s = body (begin i.opcode i.arg s))
    ∨ (acceptCheck i s.stat ≠ .none ∧ accept i body s = finish (acceptCheck i s.stat) (begin i.opcode i.arg s)) := by
  unfold accept
  cases acceptCheck i s.stat with
  | none => exact .inl ⟨rfl, rfl⟩
  | _ => exact .inr ⟨nofun, rfl⟩

/-- A word that is rejected leaves the block at rest. -/
theorem Inv.begin_finish {s : State} (h : Inv s) (hst : s.seq.step = .idle) (c : Code) (op arg : Byte) :
    Inv (finish c (begin op arg s)) :=
  finish_inv c h.memory h.regs rfl (h.resting_of_idle hst) h.control.fatal h.control.unconfigured h.control.config
    (h.idlePins_of_idle hst) rfl

/-- INIT with a configuration that is not legal ends as a rejection does (41_panel_sequencer.md R171). -/
theorem initBody_begin_illegal {s : State} (h : configLegal s.build (configOf s.regs) = false) (op arg : Byte) :
    initBody (begin op arg s) = finish .badConfig (begin op arg s) := by
  simp [initBody, h, raise, isFatal, setPanel]

/-- INIT keeps the invariant, whether it latches a configuration or not. -/
theorem initBody_inv {s : State} (h : Inv s) (hst : s.seq.step = .idle) (op arg : Byte) :
    Inv (initBody (begin op arg s)) := by
  cases hl : configLegal s.build (configOf s.regs) with
  | false =>
    rw [initBody_begin_illegal hl]
    exact h.begin_finish hst _ _ _
  | true =>
    unfold initBody
    rw [if_pos (by simpa using hl)]
    refine finish_inv _ ?_ ?_ ?_ ?_ ?_ ?_ ?_ ?_ ?_ <;> simp [h.memory, h.regs, Resting, initPins, IdlePins, hl]

/-- The first statements of an operation that `Check` let pass keep the invariant. -/
theorem acceptBody_inv {t : State} (ha : Ambient t) {i : Instr} (hi : i ≠ .init)
    (hp : acceptedIn i t.stat.panel = true) (hpre : t.seq.pre = t.stat.panel) (hh : t.seq.csHeld = false)
    (hl : IdlePins t.pins) : Inv (acceptBody i t) := by
  have hsend : ∀ (k : Kind) (b : Byte), Inv (txStart k b .send t) := fun k b =>
    ha.txStart_inv ⟨rfl, fun _ _ _ _ => hpre.symm, fun _ _ _ _ => trivial, trivial⟩ hl.2.2.2 (by simp [hh])
  have htable : ∀ n, Powering n → t.stat.panel = .idle → Inv (tableBody n t) := fun n hn hpi =>
    tableBody_inv ha hpi (hpre.trans hpi) hn hh hl
  cases i with
  | init => exact absurd rfl hi
  | sendCmd b => exact hsend _ _
  | sendData b => exact hsend _ _
  | reset =>
    have hd : Ambient (driveRst false (setPanel .resetting t)) := by
      have hs := ha.setPanel .resetting
      exact ⟨hs.memory, hs.regs, hs.op, hs.offer, hs.configured, hs.fatal, hs.pre, hs.config⟩
    refine hd.delayStart_inv _ _ ?_ ?_ (by simpa using hh) trivial
    · simp [PanelAt]
    · simp [PinsAt, hh, hl.1, hl.2.1, hl.2.2.1]
  | waitIdle =>
    refine ha.waitIdle_inv .waitIdle _ hh hl ⟨rfl, hpre.symm⟩ trivial fun u hu hpanel hpins hseq _ _ => ?_
    refine hu.finish_inv _ ?_ (by rw [hpins]; exact hl) (by rw [hseq]; exact hh)
    rw [hpanel, ← hpre]
    exact ha.pre
  | powerOn => exact htable _ (.inl rfl) (by simpa [acceptedIn] using hp)
  | initRegs => exact htable _ (.inl rfl) (by simpa [acceptedIn] using hp)
  | powerOff => exact htable _ (.inr rfl) (by simpa [acceptedIn] using hp)
  | flush =>
    have hpi : t.stat.panel = .idle := by simpa [acceptedIn] using hp
    exact flushBody_inv ha hpi (hpre.trans hpi) hh hl

/-- The accept cycle keeps the invariant. -/
theorem accept_inv {s : State} (h : Inv s) (hst : s.seq.step = .idle) (i : Instr) :
    Inv (accept i (acceptBody i) s) := by
  obtain ⟨hpass, he⟩ | ⟨-, he⟩ := accept_cases i (acceptBody i) s <;> rw [he]
  · by_cases hi : i = .init
    · subst hi
      exact initBody_inv h hst _ _
    · obtain ⟨hf, hc, hp⟩ := acceptCheck_pass hi hpass
      have ha : Ambient (begin i.opcode i.arg s) :=
        ⟨h.memory, h.regs, by simp, rfl, hc, hf, h.resting_of_idle hst, h.control.config hc⟩
      exact acceptBody_inv ha hi hp rfl rfl (h.idlePins_of_idle hst hc)
  · exact h.begin_finish hst _ _ _

/-- What the sequencer does in a cycle keeps the invariant. -/
theorem sequencerCycle_inv {s u : State} (h : Inv s) (hu : sequencerCycle s = .next u) : Inv u := by
  obtain ⟨w, i, hw, -, rfl⟩ | ⟨w, hw, rfl⟩ | ⟨-, -, rfl⟩ | ⟨hoff, hop, rfl⟩ := sequencerCycle_cases hu
  · exact accept_inv h (h.control.offered w hw).2 i
  · exact h.begin_finish (h.control.offered w hw).2 _ _ _
  · exact h
  · exact advance_inv h hop hoff

/-- At rest the sequencer stays at rest. -/
theorem Inv.rest_of_sequencerCycle {s u : State} (h : Inv s) (hu : sequencerCycle s = .next u)
    (ha : active s = false) : u.seq.op = none := by
  have hop : s.seq.op = none := by simpa [active] using ha
  have hoff := (h.control.rest hop).1
  simp only [sequencerCycle, hoff, ha, Bool.not_false, if_true, Host.Outcome.next.injEq] at hu
  rw [← hu, hop]

/-- Settles O58: block reset restores the invariant, the sequencer's cycle keeps it, and so does the host's side of it. -/
theorem everyStepKeepsTheInvariant : Obligations.EveryStepKeepsTheInvariant := by
  intro s t h hstep
  cases hb : (input s).blkRst with
  | true =>
    rw [step_of_blkRst hb] at hstep
    cases hstep
    exact blockReset_inv h.memory
  | false =>
    obtain ⟨u, hu, rfl⟩ := endCycle_of_step hb hstep
    exact (sequencerCycle_inv h hu).endCycle s (h.rest_of_sequencerCycle hu)

/-- Settles O57: every field the invariant speaks of has its reset value. -/
theorem invariantAtReset : Obligations.InvariantAtReset := inv_of_reset rfl rfl rfl rfl

/-- Settles O59: in a state of the invariant the sequencer's cycle always answers a next state, so that only the check of the
register access can keep a step from one. -/
theorem noStepLosesItsOperation : Obligations.NoStepLosesItsOperation := by
  unfold Obligations.NoStepLosesItsOperation
  intro s h
  obtain ⟨u, hu⟩ := h.sequencerCycle_next
  cases hb : (input s).blkRst with
  | true =>
    have hstep := step_of_blkRst hb
    exact ⟨by simp [hstep], fun _ => ⟨_, hstep⟩⟩
  | false =>
    refine ⟨?_, fun hacc => ⟨_, step_of_sequencerCycle hb (hacc.resolve_left (by simp)) hu⟩⟩
    cases ha : badAccess s with
    | none => simp [step_of_sequencerCycle hb ha hu]
    | some a => simp [step, hb, ha]

end Sys2Proof.Machine
end

section
/-!
SUPPORT. A running operation reads no parameter register: its cycle commutes with any change of them.
-/

namespace Sys2Proof.Machine

open Sys2Proof

/-! ## The running operation reads no register -/

/-- The state with other values in the parameter registers. -/
def withRegs (g : Regs) (s : State) : State := { s with regs := g }

/-- A statement that does the same whatever the parameter registers hold, and leaves them alone. Where a statement is a
record update that speaks of other parts of the state only, this holds by `rfl`. -/
def RegsBlind (f : State → State) : Prop := ∀ g s, f (withRegs g s) = withRegs g (f s)

theorem RegsBlind.comp {f h : State → State} (hf : RegsBlind f) (hh : RegsBlind h) : RegsBlind fun s => f (h s) :=
  fun g s => (congrArg f (hh g s)).trans (hf g (h s))

/-- A choice is blind where its condition and both its sides are. -/
theorem regsBlind_ite {c : State → Prop} [∀ s, Decidable (c s)] {f h : State → State}
    (hc : ∀ g s, c (withRegs g s) = c s) (hf : RegsBlind f) (hh : RegsBlind h) :
    RegsBlind fun s => if c s then f s else h s := fun g s => by
  simp only [hc g s]
  split
  · exact hf g s
  · exact hh g s

theorem regsBlind_setPanel (p : PanelState) : RegsBlind (setPanel p) := by
  unfold setPanel
  exact regsBlind_ite (fun _ _ => rfl) (fun _ _ => rfl) (fun _ _ => rfl)

theorem regsBlind_finish (c : Code) : RegsBlind (finish c) := fun _ _ => rfl

theorem regsBlind_fatalFinish (e : Code) : RegsBlind (fatalFinish e) :=
  (regsBlind_finish e).comp ((regsBlind_setPanel .uninitialized).comp fun _ _ => rfl)

theorem regsBlind_raise (e : Code) : RegsBlind (raise e) := by
  unfold raise
  refine regsBlind_ite (fun _ _ => rfl) (regsBlind_ite (fun _ _ => rfl) (fun _ _ => rfl) (regsBlind_fatalFinish e)) ?_
  exact (regsBlind_finish e).comp fun g s => regsBlind_setPanel s.seq.pre g s

theorem regsBlind_txHold (k : Kind) (b : Byte) (ph : Phase) (l : Nat) (f : Bool) (r : TxRet) :
    RegsBlind (txHold k b ph l f r) := by
  unfold txHold
  exact regsBlind_ite (fun _ _ => rfl) (fun _ _ => rfl) (fun _ _ => rfl)

theorem regsBlind_txPhase (k : Kind) (b : Byte) (ph : Phase) (f : Bool) (r : TxRet) :
    RegsBlind (txPhase k b ph f r) := fun g s =>
  regsBlind_txHold k b ph (halfPeriod s.cfg - 1) f r g { s with pins := phasePins k b ph s.pins }

theorem regsBlind_txStart (k : Kind) (b : Byte) (r : TxRet) : RegsBlind (txStart k b r) := fun g s =>
  regsBlind_txPhase k b (if s.seq.csHeld then .low 7 else .p) false r g { s with seq := { s.seq with sent := true } }

theorem regsBlind_txReturn (f : Bool) {next : State → State} (h : RegsBlind next) : RegsBlind (txReturn f next) := by
  unfold txReturn
  exact regsBlind_ite (fun _ _ => rfl) (regsBlind_raise _) h

theorem regsBlind_txCycle (k : Kind) (b : Byte) (ph : Phase) (l : Nat) (f : Bool) (r : TxRet) {next : State → State}
    (h : RegsBlind next) : RegsBlind (txCycle k b ph l f r next) := by
  unfold txCycle
  refine regsBlind_ite (fun _ _ => rfl) ?_ (regsBlind_txHold _ _ _ _ _ _)
  match ph with
  | .p => exact regsBlind_txPhase _ _ _ _ _
  | .low i => exact regsBlind_txPhase _ _ _ _ _
  | .high (i + 1) => exact regsBlind_txPhase _ _ _ _ _
  | .high 0 => exact regsBlind_ite (fun _ _ => rfl) (regsBlind_txReturn f h) (regsBlind_txPhase _ _ _ _ _)
  | .e => exact regsBlind_txReturn f h

theorem regsBlind_runEnd (r : RunRet) {next : State → State} (h : RegsBlind next) : RegsBlind (runEnd r next) := by
  unfold runEnd
  exact regsBlind_ite (fun _ _ => rfl) (fun _ _ => rfl) h

/-- One turn of the poll loop, said with the state after its sample (41_panel_sequencer.md R177). -/
def pollSampled (s : State) : State :=
  emit (.busySample (sampleBusy s)) { s with seq := { s.seq with polls := s.seq.polls + 1 } }

theorem pollSample_eq (r : PollRet) (next : State → State) (s : State) :
    pollSample r next s =
      if !sampleBusy s then next (setPanel s.seq.prior (pollSampled s))
      else if s.snap.timeout ≠ 0 ∧ s.snap.timeout.toNat ≤ s.seq.waited then
        raise .busyTimeout (setPanel s.seq.prior (pollSampled s))
      else delayStart (pollMs s.build) (.poll r) (pollSampled s) := rfl

theorem regsBlind_pollSample (r : PollRet) {next : State → State} (h : RegsBlind next) :
    RegsBlind (pollSample r next) := by
  have hprior : RegsBlind fun s => setPanel s.seq.prior (pollSampled s) :=
    fun g s => regsBlind_setPanel s.seq.prior g (pollSampled s)
  rw [show pollSample r next = _ from funext (pollSample_eq r next)]
  refine regsBlind_ite (fun _ _ => rfl) (h.comp hprior) ?_
  exact regsBlind_ite (fun _ _ => rfl) ((regsBlind_raise _).comp hprior) (fun _ _ => rfl)

theorem regsBlind_waitIdle (r : PollRet) {next : State → State} (h : RegsBlind next) : RegsBlind (waitIdle r next) :=
  (regsBlind_pollSample r h).comp ((regsBlind_setPanel .busy).comp fun _ _ => rfl)

theorem regsBlind_pollAgain (r : PollRet) {next : State → State} (h : RegsBlind next) :
    RegsBlind (pollAgain r next) := (regsBlind_pollSample r h).comp fun _ _ => rfl

theorem regsBlind_playRecord : RegsBlind playRecord := by
  unfold playRecord
  refine regsBlind_ite (fun _ _ => rfl) ?_ ((regsBlind_finish _).comp (regsBlind_setPanel _))
  exact regsBlind_ite (fun _ _ => rfl) (regsBlind_raise _) (fun _ _ => rfl)

theorem regsBlind_playAdvance : RegsBlind playAdvance := regsBlind_playRecord.comp fun _ _ => rfl

theorem regsBlind_playWait : RegsBlind playWait := by
  unfold playWait
  exact regsBlind_ite (fun _ _ => rfl) (regsBlind_waitIdle _ regsBlind_playAdvance) regsBlind_playAdvance

theorem regsBlind_playData : RegsBlind playData := by
  unfold playData
  exact regsBlind_ite (fun _ _ => rfl) (fun _ _ => rfl) (regsBlind_runEnd _ regsBlind_playWait)

theorem regsBlind_playGotLen (b : Byte) : RegsBlind (playGotLen b) := by
  unfold playGotLen
  refine regsBlind_ite (fun _ _ => rfl) ((regsBlind_raise _).comp fun _ _ => rfl) fun g s => ?_
  exact regsBlind_txStart .command s.seq.rcmd .playCmd g { s with seq := { s.seq with rlen := b } }

theorem regsBlind_checkPassed (n : PanelState) : RegsBlind (checkPassed n) := by
  unfold checkPassed
  exact regsBlind_playRecord.comp fun g s => by rw [regsBlind_setPanel n g s]; rfl

theorem regsBlind_checkRecord (n : PanelState) (o : Nat) : RegsBlind (checkRecord n o) := by
  unfold checkRecord
  refine regsBlind_ite (fun _ _ => rfl) ?_ (regsBlind_checkPassed n)
  exact regsBlind_ite (fun _ _ => rfl) (regsBlind_raise _) (fun _ _ => rfl)

theorem regsBlind_checkGotLen (n : PanelState) (o : Nat) (c b : Byte) : RegsBlind (checkGotLen n o c b) := by
  unfold checkGotLen
  refine regsBlind_ite (fun _ _ => rfl) (regsBlind_raise _) ?_
  exact regsBlind_ite (fun _ _ => rfl) (regsBlind_raise _) (regsBlind_checkRecord n _)

theorem regsBlind_flushRefresh : RegsBlind flushRefresh := fun g s => regsBlind_txStart .command s.snap.refresh _ g s

theorem regsBlind_flushSentData : RegsBlind flushSentData := by
  unfold flushSentData
  refine regsBlind_ite (fun _ _ => rfl) (fun _ _ => rfl) ?_
  exact regsBlind_ite (fun _ _ => rfl) (fun _ _ => rfl) (regsBlind_runEnd _ regsBlind_flushRefresh)

theorem regsBlind_afterTx (r : TxRet) : RegsBlind (afterTx r) := by
  cases r with
  | send => exact regsBlind_runEnd .send (regsBlind_finish .none)
  | playCmd => exact regsBlind_playData.comp fun _ _ => rfl
  | playData => exact regsBlind_playData.comp fun _ _ => rfl
  | flushWriteRam => exact fun _ _ => rfl
  | flushData => exact regsBlind_flushSentData
  | flushRefresh => exact regsBlind_waitIdle .flush (regsBlind_finish .none)

theorem regsBlind_afterRun (r : RunRet) : RegsBlind (afterRun r) := by
  cases r with
  | send => exact regsBlind_finish .none
  | play => exact regsBlind_playWait
  | flush => exact regsBlind_flushRefresh

theorem regsBlind_afterRead (r : ReadRet) (b : Byte) : RegsBlind (afterRead r b) := by
  cases r with
  | checkCtl n o => exact fun _ _ => rfl
  | checkLen n o c => exact regsBlind_checkGotLen n o c b
  | playCmd => exact fun _ _ => rfl
  | playCtl => exact fun _ _ => rfl
  | playLen => exact regsBlind_playGotLen b
  | playData => exact regsBlind_txStart .data b .playData
  | flushData => exact regsBlind_txStart .data b .flushData

theorem regsBlind_afterPoll (r : PollRet) : RegsBlind (afterPoll r) := by
  cases r with
  | waitIdle => exact regsBlind_finish .none
  | play => exact regsBlind_playAdvance
  | flush => exact regsBlind_finish .none

theorem regsBlind_afterDelay (r : DelayRet) : RegsBlind (afterDelay r) := by
  cases r with
  | resetLow => exact fun _ _ => rfl
  | resetHigh => exact (regsBlind_finish .none).comp (regsBlind_setPanel .idle)
  | poll q => exact regsBlind_pollAgain q (regsBlind_afterPoll q)

theorem regsBlind_readCycle (a l : Nat) (d : ReadDraw) (r : ReadRet) : RegsBlind (readCycle a l d r (afterRead r)) := by
  unfold readCycle
  refine regsBlind_ite (fun _ _ => rfl) (fun g s => ?_) (fun _ _ => rfl)
  rw [show readAnswer (withRegs g s) a d = readAnswer s a d from rfl]
  cases readAnswer s a d with
  | none => exact regsBlind_raise .memFault g s
  | some b => exact regsBlind_afterRead r b g s

theorem regsBlind_runEndCycle (l : Nat) (r : RunRet) : RegsBlind (runEndCycle l r (afterRun r)) := by
  unfold runEndCycle
  exact regsBlind_ite (fun _ _ => rfl) (regsBlind_afterRun r) (fun _ _ => rfl)

theorem regsBlind_delayCycle (r : DelayRet) : RegsBlind (delayCycle (afterDelay r)) := by
  unfold delayCycle
  exact regsBlind_ite (fun _ _ => rfl) (regsBlind_afterDelay r) (fun _ _ => rfl)

theorem regsBlind_cleanupCycle (l : Nat) (e : Code) : RegsBlind (cleanupCycle l e) := by
  unfold cleanupCycle
  exact regsBlind_ite (fun _ _ => rfl) (regsBlind_fatalFinish e) (fun _ _ => rfl)

/-- What a running operation does in a cycle is the same whatever the parameter registers hold (10_state.md R51). -/
theorem regsBlind_advance : RegsBlind advance := by
  intro g s
  unfold advance
  rw [show (withRegs g s).seq.step = s.seq.step from rfl]
  cases s.seq.step with
  | idle => rfl
  | tx k b ph l f r => exact regsBlind_txCycle k b ph l f r (regsBlind_afterTx r) g s
  | runEnd l r => exact regsBlind_runEndCycle l r g s
  | read a l d r => exact regsBlind_readCycle a l d r g s
  | delay r => exact regsBlind_delayCycle r g s
  | cleanup l e => exact regsBlind_cleanupCycle l e g s

/-! ## The snapshot -/

/-- INIT writes neither the snapshot nor a register, whether it latches a configuration or not. -/
theorem initBody_snap_regs (s : State) : (initBody s).snap = s.snap ∧ (initBody s).regs = s.regs := by
  unfold initBody
  split
  · simp
  · exact ⟨(steady_raise _ s).snap, (steady_raise _ s).regs⟩

theorem acceptBody_snap (i : Instr) (t : State) : (acceptBody i t).snap = t.snap := by
  by_cases hi : i = .init
  · subst hi
    exact (initBody_snap_regs t).1
  · exact (steady_acceptBody i hi t).snap

/-- The accept cycle leaves the snapshot of the registers as they stood at its start, accepted or rejected. -/
theorem accept_snap (i : Instr) (s : State) : (accept i (acceptBody i) s).snap = snapshot i.opcode i.arg s.regs := by
  obtain ⟨-, he⟩ | ⟨-, he⟩ := accept_cases i (acceptBody i) s <;> rw [he]
  · rw [acceptBody_snap, begin_snap]
  · rw [finish_snap, begin_snap]

/-- Settles O9: the accept cycle takes the snapshot, no later cycle writes it, and no later cycle reads a register. -/
theorem operationReadsOnlyItsSnapshot : Obligations.OperationReadsOnlyItsSnapshot := by
  refine ⟨fun i s t h => ?_, fun s => (steady_advance s).snap, fun s g => regsBlind_advance g s⟩
  rw [exec_eq] at h
  cases h
  rw [accept_snap]
  refine ⟨rfl, rfl, rfl, rfl, rfl, rfl, rfl, rfl, rfl, rfl, rfl, ?_⟩
  cases i <;> rfl

end Sys2Proof.Machine
end

section
/-!
SUPPORT. The host's writes to the register window, over what the sequencer does in the cycle.
-/

namespace Sys2Proof.Machine

open Sys2Proof

/-! ## The parameter registers -/

theorem ofOffset_eq_some {off : Nat} {r : Reg} : Reg.ofOffset off = some r ↔ r.offset = off := by
  constructor
  · intro h
    unfold Reg.ofOffset at h
    split at h <;> cases h <;> rfl
  · rintro rfl
    cases r <;> rfl

theorem accept_regs (i : Instr) (s : State) : (accept i (acceptBody i) s).regs = s.regs := by
  obtain ⟨-, he⟩ | ⟨-, he⟩ := accept_cases i (acceptBody i) s <;> rw [he]
  · by_cases hi : i = .init
    · subst hi
      exact (initBody_snap_regs _).2
    · exact (steady_acceptBody i hi _).regs
  · rfl

/-- The sequencer writes no parameter register. -/
theorem sequencerCycle_regs {s u : State} (h : sequencerCycle s = .next u) : u.regs = s.regs := by
  obtain ⟨w, i, -, -, rfl⟩ | ⟨w, -, rfl⟩ | ⟨-, -, rfl⟩ | ⟨-, -, rfl⟩ := sequencerCycle_cases h
  · exact accept_regs i s
  · rfl
  · rfl
  · exact (steady_advance s).regs

/-- A row of `parameterRegisters` gives the register's offset, its mask, and the field a read of it returns. -/
theorem parameterRegisters_row : ∀ p ∈ parameterRegisters,
    p.1.offset = p.2.1 ∧ writable p.1 = p.2.2.2 ∧ ∀ s, readReg s p.1 = p.2.2.1 s.regs := by
  simp [parameterRegisters, Reg.offset, writable, readReg]

/-- A write to a parameter register sets its writable bits, and leaves the field of every other one alone. -/
theorem parameterRegisters_writeParam (r : Reg) (v : Word) (g : Regs) : ∀ p ∈ parameterRegisters,
    p.2.2.1 (writeParam r v g) = if p.1 = r then v &&& p.2.2.2 else p.2.2.1 g := by
  simp only [parameterRegisters, List.forall_mem_cons]
  cases r <;>
    exact ⟨rfl, rfl, rfl, rfl, rfl, rfl, rfl, rfl, rfl, rfl, rfl, rfl, rfl, rfl, rfl, rfl, rfl, nofun⟩

/-- A write at an offset of the window reaches the parameter register at that offset. -/
theorem parameterRegisters_regsAfterWrite (off : Nat) (v : Word) (g : Regs) : ∀ p ∈ parameterRegisters,
    p.2.2.1 (regsAfterWrite off v g) = if p.2.1 = off then v &&& p.2.2.2 else p.2.2.1 g := by
  intro p hp
  have hoff : p.1.offset = p.2.1 := (parameterRegisters_row p hp).1
  unfold regsAfterWrite
  cases hr : Reg.ofOffset off with
  | none =>
    have hne : p.2.1 ≠ off := fun he => by rw [ofOffset_eq_some.mpr (hoff.trans he)] at hr; cases hr
    rw [if_neg hne]
    rfl
  | some r =>
    have hiff : p.1 = r ↔ p.2.1 = off := by rw [← hoff, ← ofOffset_eq_some, hr, Option.some.injEq, eq_comm]
    show p.2.2.1 (writeParam r v g) = _
    rw [parameterRegisters_writeParam r v g p hp]
    simp only [hiff]

theorem readOffset_row (s : State) : ∀ p ∈ parameterRegisters, readOffset s p.2.1 = p.2.2.1 s.regs := by
  intro p hp
  obtain ⟨hoff, -, hread⟩ := parameterRegisters_row p hp
  rw [readOffset, ofOffset_eq_some.mpr hoff]
  exact hread s

/-- Offsets above the last register are reserved and read 0 (10_state.md R43). -/
theorem readOffset_reserved (s : State) {off : Nat} (h : 0x54 ≤ off) : readOffset s off = 0 := by
  have hnone : Reg.ofOffset off = none := by
    cases hr : Reg.ofOffset off with
    | none => rfl
    | some r =>
      have hoff := ofOffset_eq_some.mp hr
      cases r <;> simp only [Reg.offset] at hoff <;> omega
  rw [readOffset, hnone]

/-! ## A step in which the host writes -/

theorem badAccess_write {s : State} {off : Nat} {v : Word} (h : (hostTurn s).1 = some (.write 4 off v))
    (ho : off < 0x100) (ha : off % 4 = 0) : badAccess s = none := by
  simp [badAccess, h, Access.wf, ho, ha]

theorem hostAccess_write {s : State} {off : Nat} {v : Word} (h : (hostTurn s).1 = some (.write 4 off v)) (u : State) :
    hostAccess s u (hostTurn s).1 = writeOffset s u off v := by rw [h]; rfl

/-- Settles O37: the sequencer writes no parameter register, and the host's write reaches the one at its offset. -/
theorem hostWriteSetsTheWritableBits : Obligations.HostWriteSetsTheWritableBits := by
  intro s u off v hb ho ha hw hu
  have hacc := hostAccess_write hw u
  have hregs : (endCycle s u).regs = regsAfterWrite off v s.regs := by
    rw [endCycle_regs, hacc, writeOffset_regs, sequencerCycle_regs hu]
  refine ⟨endCycle s u, step_of_sequencerCycle hb (badAccess_write hw ho ha) hu, ?_, ?_, ?_, rfl⟩
  · intro r o field mask hrow
    obtain ⟨hoff, hmask, -⟩ := parameterRegisters_row _ hrow
    refine ⟨hoff, hmask, readOffset_row s _ hrow, readOffset_row (endCycle s u) _ hrow, ?_⟩
    rw [hregs]
    exact parameterRegisters_regsAfterWrite off v s.regs _ hrow
  · intro hcmd herr hirq
    have hparam := writeOffset_param (fun hr => hcmd (ofOffset_eq_some.mp hr).symm)
      (fun hr => herr (ofOffset_eq_some.mp hr).symm) (fun hr => hirq (ofOffset_eq_some.mp hr).symm) s u v
    have hframe := endCycle_frame s u
    refine ⟨?_, ?_, hframe.snap, hframe.cfg, hframe.pins, hframe.trace, ?_⟩
    · rw [endCycle_stat, hacc, hparam]
    · rw [endCycle_seq, hacc, hparam]
    · rw [endCycle_reads, hacc, hparam]
  · exact fun o h54 => readOffset_reserved _ h54

/-- What is left of a step in which the host writes to IRQ or ERR: only the stored bits can differ from what the sequencer
makes of them. -/
theorem step_of_statWrite {s u : State} {off : Nat} {v : Word} {st : Stat} (hb : (input s).blkRst = false)
    (ho : off < 0x100) (ha : off % 4 = 0) (hu : sequencerCycle s = .next u)
    (hw : (hostTurn s).1 = some (.write 4 off v)) (hst : writeOffset s u off v = { u with stat := st }) :
    ∃ t, step s = .next t ∧ t.stat = st ∧ t.seq = u.seq ∧ t.regs = u.regs ∧ t.cfg = u.cfg ∧ t.snap = u.snap
      ∧ t.pins = u.pins ∧ t.env.trace = u.env.trace ∧ ((input s).memWrites = [] → t.mem = u.mem) := by
  have hacc := (hostAccess_write hw u).trans hst
  have hframe := endCycle_frame s u
  refine ⟨endCycle s u, step_of_sequencerCycle hb (badAccess_write hw ho ha) hu, ?_, ?_, ?_, hframe.cfg, hframe.snap,
    hframe.pins, hframe.trace, fun hm => endCycle_mem hm u⟩
  · rw [endCycle_stat, hacc]
  · rw [endCycle_seq, hacc]
  · rw [endCycle_regs, hacc]

/-- Settles O38: a write to IRQ or ERR is a write-1-to-clear in which a set of the same cycle wins. -/
theorem writeOneClearsUnlessSet : Obligations.WriteOneClearsUnlessSet := by
  intro s u v hb hu
  refine ⟨fun hw => ?_, fun hw => ?_⟩
  · exact step_of_statWrite hb (by decide) (by decide) hu hw rfl
  · refine step_of_statWrite hb (by decide) (by decide) hu hw ?_
    show { u with stat := writeErr u.stat v } = _
    rw [writeErr, w1c, Bool.or_false]

end Sys2Proof.Machine
end

section
/-!
SUPPORT. How a cycle of an operation ends: it goes on, it finishes, or it fails; and what INIT alone can do. From these, who
may write CONFIGURED, `cfg` and FATAL.
-/

namespace Sys2Proof.Machine

open Sys2Proof

/-! ## How a cycle of an operation ends -/

/-- `v` stands in the same cycle as `s`, before the operation's finish: `s.op`, ERR.CODE, IRQ and FATAL are as they were, and
no DONE has been emitted. -/
structure Within (s v : State) : Prop where
  op : v.seq.op = s.seq.op
  code : v.stat.code = s.stat.code
  fatal : v.stat.fatal = s.stat.fatal
  irqDone : v.stat.irqDone = s.stat.irqDone
  irqErr : v.stat.irqErr = s.stat.irqErr
  cycle : v.env.cycle = s.env.cycle
  trace : ∃ evs : List Event, v.env.trace = s.env.trace ++ evs.map (fun e => (s.env.cycle, e))
    ∧ ∀ e ∈ evs, ∀ o c, e ≠ .done o c

theorem Within.of_eq {s v : State} (hop : v.seq.op = s.seq.op) (hstat : v.stat = s.stat) (henv : v.env = s.env) :
    Within s v :=
  ⟨hop, by rw [hstat], by rw [hstat], by rw [hstat], by rw [hstat], by rw [henv], [], by simp [henv], by simp⟩

theorem Within.refl (s : State) : Within s s := .of_eq rfl rfl rfl

theorem Within.trans {s t u : State} (h : Within s t) (k : Within t u) : Within s u := by
  obtain ⟨as, has, hda⟩ := h.trace
  obtain ⟨bs, hbs, hdb⟩ := k.trace
  refine ⟨k.op.trans h.op, k.code.trans h.code, k.fatal.trans h.fatal, k.irqDone.trans h.irqDone,
    k.irqErr.trans h.irqErr, k.cycle.trans h.cycle, as ++ bs, by rw [hbs, has, h.cycle]; simp, fun e he => ?_⟩
  exact (List.mem_append.mp he).elim (hda e) (hdb e)

theorem Within.after_eq {s v u : State} (k : Within v u) (hop : v.seq.op = s.seq.op) (hstat : v.stat = s.stat)
    (henv : v.env = s.env) : Within s u := (Within.of_eq hop hstat henv).trans k

theorem within_emit {ev : Event} (h : ∀ o c, ev ≠ .done o c) (s : State) : Within s (emit ev s) :=
  ⟨rfl, rfl, rfl, rfl, rfl, rfl, [ev], rfl, by simpa using h⟩

theorem within_setPanel (p : PanelState) (s : State) : Within s (setPanel p s) := by
  unfold setPanel
  split
  · exact .refl s
  · exact ⟨rfl, rfl, rfl, rfl, rfl, rfl, [.panel p], rfl, by simp⟩

theorem within_txHold (k : Kind) (b : Byte) (ph : Phase) (l : Nat) (f : Bool) (r : TxRet) (s : State) :
    Within s (txHold k b ph l f r s) := by
  unfold txHold
  split
  · exact (within_emit (ev := .tx k b) (fun _ _ => nofun) _).after_eq rfl rfl rfl
  · exact .of_eq rfl rfl rfl

theorem within_txPhase (k : Kind) (b : Byte) (ph : Phase) (f : Bool) (r : TxRet) (s : State) :
    Within s (txPhase k b ph f r s) := by
  unfold txPhase
  exact (within_txHold k b ph _ f r _).after_eq rfl rfl rfl

theorem within_txStart (k : Kind) (b : Byte) (r : TxRet) (s : State) : Within s (txStart k b r s) := by
  unfold txStart
  exact (within_txPhase k b _ false r _).after_eq rfl rfl rfl

theorem within_pollSampled (s : State) : Within s (pollSampled s) := by
  unfold pollSampled
  exact (within_emit (ev := .busySample (sampleBusy s)) (fun _ _ => nofun) _).after_eq rfl rfl rfl

theorem within_driveRst (l : Bool) (s : State) : Within s (driveRst l s) := by
  unfold driveRst
  exact (within_emit (ev := .rstPin l) (fun _ _ => nofun) _).after_eq rfl rfl rfl

theorem within_delayStart (ms : Nat) (r : DelayRet) (s : State) : Within s (delayStart ms r s) := .of_eq rfl rfl rfl

/-- How the rest of a cycle that has come to `s` can end. -/
inductive CycleEnd (s u : State) : Prop where
  /-- The operation goes on in the next cycle. -/
  | goesOn (h : Within s u)
  /-- It finishes, without an error or after one that is not fatal. -/
  | finishes (c : Code) (v : State) (h : Within s v) (hu : u = finish c v)
  /-- It fails with an error that is fatal once a transaction has started, as one has (60_exceptions.md R251, R258). -/
  | fails (e : Code) (v : State) (h : Within s v) (hsent : s.seq.sent = true) (he : isFatal e true = true)
    (hu : u = fatalFinish e v)

/-- Statements before the last one of a cycle do not change how it can end, unless they start a transaction. -/
theorem CycleEnd.after {s v u : State} (k : CycleEnd v u) (h : Within s v) (hsent : v.seq.sent = s.seq.sent) :
    CycleEnd s u := by
  cases k with
  | goesOn hv => exact .goesOn (h.trans hv)
  | finishes c w hv hu => exact .finishes c w (h.trans hv) hu
  | fails e w hv hs he hu => exact .fails e w (h.trans hv) (hsent ▸ hs) he hu

/-- The same for statements that leave STATUS, ERR, IRQ and everything outside alone. -/
theorem CycleEnd.after_eq {s v u : State} (k : CycleEnd v u) (hop : v.seq.op = s.seq.op) (hstat : v.stat = s.stat)
    (henv : v.env = s.env) (hsent : v.seq.sent = s.seq.sent) : CycleEnd s u :=
  k.after (.of_eq hop hstat henv) hsent

/-- An error raised before the operation has started a transaction is not fatal, but for BUS_TRANSACTION. -/
theorem cycleEnd_raise {e : Code} {s : State} (h : e = .busTransaction → s.seq.sent = true) :
    CycleEnd s (raise e s) := by
  unfold raise
  split
  · next hf =>
    have hsent : s.seq.sent = true := by
      cases hs : s.seq.sent with
      | true => rfl
      | false =>
        rw [hs] at hf
        simp only [isFatal, Bool.and_false, Bool.or_false, beq_iff_eq] at hf
        rw [← hs, h hf]
    split
    · exact .goesOn (.of_eq rfl rfl rfl)
    · exact .fails e s (.refl s) hsent (hsent ▸ hf) rfl
  · exact .finishes e _ (within_setPanel _ s) rfl

/-- A statement whose cycle ends in one of these ways, whatever it starts from. -/
def Ends (f : State → State) : Prop := ∀ s, CycleEnd s (f s)

theorem ends_raise {e : Code} (h : e ≠ .busTransaction) : Ends (raise e) := fun _ => cycleEnd_raise fun he => absurd he h

theorem ends_finish (c : Code) : Ends (finish c) := fun s => .finishes c s (.refl s) rfl

theorem ends_readStart (a : Nat) (r : ReadRet) : Ends (readStart a r) := fun _ => .goesOn (.of_eq rfl rfl rfl)

theorem ends_txStart (k : Kind) (b : Byte) (r : TxRet) : Ends (txStart k b r) :=
  fun s => .goesOn (within_txStart k b r s)

theorem ends_runEnd (r : RunRet) {next : State → State} (h : Ends next) : Ends (runEnd r next) := by
  intro s
  unfold runEnd
  split
  · exact .goesOn (.of_eq rfl rfl rfl)
  · exact h s

theorem ends_pollSample (r : PollRet) {next : State → State} (h : Ends next) : Ends (pollSample r next) := by
  intro s
  have hprior : Within s (setPanel s.seq.prior (pollSampled s)) := (within_pollSampled s).trans (within_setPanel _ _)
  rw [pollSample_eq]
  split
  · exact (h _).after hprior (by simp [pollSampled])
  · split
    · exact (ends_raise (by decide) _).after hprior (by simp [pollSampled])
    · exact .goesOn ((within_pollSampled s).trans (within_delayStart _ _ _))

theorem ends_waitIdle (r : PollRet) {next : State → State} (h : Ends next) : Ends (waitIdle r next) := by
  intro s
  unfold waitIdle
  exact (ends_pollSample r h _).after ((within_setPanel .busy _).after_eq rfl rfl rfl) (by simp)

theorem ends_pollAgain (r : PollRet) {next : State → State} (h : Ends next) : Ends (pollAgain r next) :=
  fun _ => (ends_pollSample r h _).after_eq rfl rfl rfl rfl

theorem ends_playRecord : Ends playRecord := by
  intro s
  unfold playRecord
  split
  · split
    · exact ends_raise (by decide) s
    · exact ends_readStart _ _ s
  · exact (ends_finish _ _).after (within_setPanel _ s) (by simp)

theorem ends_playAdvance : Ends playAdvance := fun _ => (ends_playRecord _).after_eq rfl rfl rfl rfl

theorem ends_playWait : Ends playWait := by
  intro s
  unfold playWait
  split
  · exact ends_waitIdle .play ends_playAdvance s
  · exact ends_playAdvance s

theorem ends_playData : Ends playData := by
  intro s
  unfold playData
  split
  · exact ends_readStart _ _ s
  · exact ends_runEnd .play ends_playWait s

theorem ends_playGotLen (b : Byte) : Ends (playGotLen b) := by
  intro s
  unfold playGotLen
  refine CycleEnd.after_eq (v := { s with seq := { s.seq with rlen := b } }) ?_ rfl rfl rfl rfl
  dsimp only
  split
  · exact ends_raise (by decide) _
  · exact ends_txStart _ _ _ _

theorem ends_checkPassed (n : PanelState) : Ends (checkPassed n) := by
  intro s
  unfold checkPassed
  refine (ends_playRecord _).after ((within_setPanel n s).trans (.of_eq rfl rfl rfl)) ?_
  simp

theorem ends_checkRecord (n : PanelState) (o : Nat) : Ends (checkRecord n o) := by
  intro s
  unfold checkRecord
  split
  · split
    · exact ends_raise (by decide) s
    · exact ends_readStart _ _ s
  · exact ends_checkPassed n s

theorem ends_checkGotLen (n : PanelState) (o : Nat) (c b : Byte) : Ends (checkGotLen n o c b) := by
  intro s
  unfold checkGotLen
  split
  · exact ends_raise (by decide) s
  · split
    · exact ends_raise (by decide) s
    · exact ends_checkRecord _ _ s

theorem ends_tableBody (n : PanelState) : Ends (tableBody n) := by
  intro s
  unfold tableBody
  split
  · exact ends_checkPassed n s
  · split
    · exact ends_raise (by decide) s
    · exact ends_checkRecord n 0 s

theorem ends_flushRead : Ends flushRead := fun s => ends_readStart _ _ s

theorem ends_flushRefresh : Ends flushRefresh := fun s => ends_txStart _ _ _ s

theorem ends_flushSentData : Ends flushSentData := by
  intro s
  unfold flushSentData
  split
  · exact (ends_flushRead _).after_eq rfl rfl rfl rfl
  · split
    · exact (ends_flushRead _).after_eq rfl rfl rfl rfl
    · exact ends_runEnd .flush ends_flushRefresh s

theorem ends_flushBody : Ends flushBody := by
  intro s
  unfold flushBody
  split
  · exact ends_raise (by decide) s
  · split
    · exact ends_raise (by decide) s
    · exact (ends_txStart _ _ _ _).after_eq rfl rfl rfl rfl

theorem ends_afterTx (r : TxRet) : Ends (afterTx r) := by
  cases r with
  | send => exact ends_runEnd .send (ends_finish .none)
  | playCmd => exact fun s => (ends_playData _).after_eq rfl rfl rfl rfl
  | playData => exact fun s => (ends_playData _).after_eq rfl rfl rfl rfl
  | flushWriteRam => exact fun s => (ends_flushRead _).after_eq rfl rfl rfl rfl
  | flushData => exact ends_flushSentData
  | flushRefresh => exact ends_waitIdle .flush (ends_finish .none)

theorem ends_afterRun (r : RunRet) : Ends (afterRun r) := by
  cases r with
  | send => exact ends_finish .none
  | play => exact ends_playWait
  | flush => exact ends_flushRefresh

theorem ends_afterRead (r : ReadRet) (b : Byte) : Ends (afterRead r b) := by
  cases r with
  | checkCtl n o => exact fun s => ends_readStart _ _ s
  | checkLen n o c => exact ends_checkGotLen n o c b
  | playCmd => exact fun s => (ends_readStart _ _ _).after_eq rfl rfl rfl rfl
  | playCtl => exact fun s => (ends_readStart _ _ _).after_eq rfl rfl rfl rfl
  | playLen => exact ends_playGotLen b
  | playData => exact ends_txStart .data b .playData
  | flushData => exact ends_txStart .data b .flushData

theorem ends_afterPoll (r : PollRet) : Ends (afterPoll r) := by
  cases r with
  | waitIdle => exact ends_finish .none
  | play => exact ends_playAdvance
  | flush => exact ends_finish .none

theorem ends_afterDelay (r : DelayRet) : Ends (afterDelay r) := by
  cases r with
  | resetLow => exact fun s => .goesOn ((within_driveRst true s).trans (within_delayStart _ _ _))
  | resetHigh => exact fun s => (ends_finish .none _).after (within_setPanel .idle s) (by simp)
  | poll q => exact ends_pollAgain q (ends_afterPoll q)

/-- A transaction's cycle: its operation has started one. -/
theorem cycleEnd_txCycle (k : Kind) (b : Byte) (ph : Phase) (l : Nat) (f : Bool) (r : TxRet) {s : State}
    (hsent : s.seq.sent = true) : CycleEnd s (txCycle k b ph l f r (afterTx r) s) := by
  have hphase : ∀ ph', CycleEnd s (txPhase k b ph' f r s) := fun ph' => .goesOn (within_txPhase k b ph' f r s)
  have hret : CycleEnd s (txReturn f (afterTx r) s) := by
    unfold txReturn
    split
    · exact cycleEnd_raise fun _ => hsent
    · exact ends_afterTx r s
  unfold txCycle
  split
  · match ph with
    | .p => exact hphase _
    | .low i => exact hphase _
    | .high (i + 1) => exact hphase _
    | .high 0 =>
      dsimp only
      split
      · exact hret
      · exact hphase _
    | .e => exact hret
  · exact .goesOn (within_txHold ..)

theorem ends_readCycle (a l : Nat) (d : ReadDraw) (r : ReadRet) : Ends (readCycle a l d r (afterRead r)) := by
  intro s
  unfold readCycle
  split
  · split
    · exact ends_raise (by decide) s
    · exact ends_afterRead r _ s
  · exact .goesOn (.of_eq rfl rfl rfl)

/-- How a cycle of a running operation ends, in a state of the invariant. -/
theorem Inv.cycleEnd_advance {s : State} (h : Inv s) : CycleEnd s (advance s) := by
  have htx := h.bus.tx
  unfold TxAt at htx
  unfold advance
  cases hst : s.seq.step with
  | idle => exact .goesOn (.refl s)
  | tx k b ph l f r =>
    rw [hst] at htx
    exact cycleEnd_txCycle k b ph l f r htx.2.1
  | runEnd l r =>
    dsimp only
    unfold runEndCycle
    split
    · exact ends_afterRun r s
    · exact .goesOn (.of_eq rfl rfl rfl)
  | read a l d r => exact ends_readCycle a l d r s
  | delay r =>
    dsimp only
    unfold delayCycle
    split
    · exact ends_afterDelay r s
    · exact .goesOn (.of_eq rfl rfl rfl)
  | cleanup l e =>
    rw [hst] at htx
    dsimp only
    unfold cleanupCycle
    split
    · exact .fails e s (.refl s) htx.2.1 htx.2.2 rfl
    · exact .goesOn (.of_eq rfl rfl rfl)

/-- The first statements of every operation but INIT. -/
theorem ends_acceptBody {i : Instr} (hi : i ≠ .init) : Ends (acceptBody i) := by
  cases i with
  | init => exact absurd rfl hi
  | sendCmd b => exact fun s => ends_txStart _ _ _ s
  | sendData b => exact fun s => ends_txStart _ _ _ s
  | reset =>
    exact fun s => .goesOn
      (((within_setPanel .resetting s).trans (within_driveRst false _)).trans (within_delayStart _ _ _))
  | waitIdle => exact ends_waitIdle .waitIdle (ends_finish .none)
  | powerOn => exact ends_tableBody _
  | initRegs => exact ends_tableBody _
  | powerOff => exact ends_tableBody _
  | flush => exact ends_flushBody

/-! ## FATAL, CONFIGURED and the configuration in a cycle of the sequencer -/

/-- FATAL is as it was at a cycle's end, or the operation has failed after a transaction. -/
theorem CycleEnd.fatal {s u : State} (h : CycleEnd s u) :
    u.stat.fatal = s.stat.fatal ∨ s.seq.sent = true ∧ isFatal u.stat.code true = true ∧ u.stat.panel = .uninitialized := by
  cases h with
  | goesOn h => exact .inl h.fatal
  | finishes c v h hu => exact .inl (by rw [hu]; exact h.fatal)
  | fails e v _ hsent he hu => exact .inr ⟨hsent, by rw [hu]; exact he, by rw [hu]; simp [fatalFinish]⟩

theorem withoutOperand_eq_some {w : Word} {i j : Instr} (h : withoutOperand w i = some j) : cmdArg w = 0 ∧ i = j := by
  unfold withoutOperand at h
  split at h
  · next ha => exact ⟨ha, Option.some.inj h⟩
  · cases h

/-- A word that decodes to an operation has its OP and ARG, and RSVD 0 (30_encoding.md R101 to R106). -/
theorem fields_of_decodeWord {w : Word} {i : Instr} (h : decodeWord w = some i) :
    cmdRsvd w = 0 ∧ cmdOp w = i.opcode ∧ cmdArg w = i.arg := by
  unfold decodeWord at h
  split at h
  · cases h
  · next hr =>
    refine ⟨by simpa using hr, ?_⟩
    split at h
    case h_10 => cases h
    case h_2 hop => cases h; exact ⟨BitVec.eq_of_toNat_eq hop, rfl⟩
    case h_3 hop => cases h; exact ⟨BitVec.eq_of_toNat_eq hop, rfl⟩
    all_goals
      next hop =>
        obtain ⟨ha, rfl⟩ := withoutOperand_eq_some h
        exact ⟨BitVec.eq_of_toNat_eq hop, ha⟩

/-- A word that decodes to an operation is that operation's word. -/
theorem encode_of_decodeWord {w : Word} {i : Instr} (h : decodeWord w = some i) : encode i = w := by
  obtain ⟨hr, hop, ha⟩ := fields_of_decodeWord h
  rw [word_of_fields w hr, hop, ha, encode]

/-- What a successful INIT does to CONFIGURED, FATAL, `cfg`, PanelState and ERR.CODE (41_panel_sequencer.md R171). -/
structure InitDone (s u : State) : Prop where
  offered : s.seq.offer = some (encode .init)
  legal : configLegal s.build (configOf s.regs) = true
  cfg : u.cfg = configOf s.regs
  configured : u.stat.configured = true
  fatal : u.stat.fatal = false
  panel : u.stat.panel = .uninitialized
  code : u.stat.code = .none

/-- The acceptance of INIT configures the block, or leaves CONFIGURED, FATAL and `cfg` alone. -/
theorem accept_init_cases {s : State} (hoff : s.seq.offer = some (encode .init)) :
    InitDone s (accept .init initBody s)
    ∨ (accept .init initBody s).cfg = s.cfg ∧ (accept .init initBody s).stat.configured = s.stat.configured
      ∧ (accept .init initBody s).stat.fatal = s.stat.fatal := by
  show InitDone s (initBody (begin _ _ s)) ∨ (initBody (begin _ _ s)).cfg = s.cfg ∧ _
  cases hl : configLegal s.build (configOf s.regs) with
  | false =>
    right
    show (initBody _).cfg = _ ∧ (initBody _).stat.configured = _ ∧ (initBody _).stat.fatal = _
    rw [initBody_begin_illegal hl]
    exact ⟨rfl, rfl, rfl⟩
  | true =>
    left
    constructor <;> simp [initBody, hl, hoff]

/-- In a cycle of the sequencer INIT configures the block, or CONFIGURED and `cfg` stay. -/
theorem sequencerCycle_configures {s u : State} (h : sequencerCycle s = .next u) :
    InitDone s u ∨ u.cfg = s.cfg ∧ u.stat.configured = s.stat.configured := by
  obtain ⟨w, i, hw, hi, rfl⟩ | ⟨w, -, rfl⟩ | ⟨-, -, rfl⟩ | ⟨-, -, rfl⟩ := sequencerCycle_cases h
  · by_cases hinit : i = .init
    · subst hinit
      rw [← encode_of_decodeWord hi] at hw
      exact (accept_init_cases hw).imp id fun hr => ⟨hr.1, hr.2.1⟩
    · right
      obtain ⟨-, he⟩ | ⟨-, he⟩ := accept_cases i (acceptBody i) s <;> rw [he]
      · have hsteady := steady_acceptBody i hinit (begin i.opcode i.arg s)
        exact ⟨hsteady.cfg, hsteady.configured⟩
      · exact ⟨rfl, rfl⟩
  · exact .inr ⟨rfl, rfl⟩
  · exact .inr ⟨rfl, rfl⟩
  · exact .inr ⟨(steady_advance s).cfg, (steady_advance s).configured⟩

/-- Settles O53: of all that the sequencer and the host do in a cycle, only a successful INIT writes CONFIGURED or `cfg`. -/
theorem onlyInitConfigures : Obligations.OnlyInitConfigures := by
  intro s t hb hstep
  obtain ⟨u, hu, rfl⟩ := endCycle_of_step hb hstep
  have hframe := endCycle_frame s u
  rw [hframe.configured, hframe.cfg, hframe.code]
  obtain hinit | ⟨hcfg, hconf⟩ := sequencerCycle_configures hu
  · refine ⟨fun _ => hinit.configured, fun _ => ⟨hinit.offered, hinit.code, hinit.cfg, ?_⟩⟩
    rw [hinit.cfg]
    exact (configLegal_iff _ _).mp hinit.legal
  · refine ⟨fun h => hconf.trans h, fun h => ?_⟩
    exact absurd hcfg (h.resolve_left (not_not_intro hconf))

/-- How FATAL moves in a cycle of the sequencer: INIT clears it, a fatal error sets it after a transaction. -/
theorem Inv.fatal_cases {s u : State} (h : Inv s) (hu : sequencerCycle s = .next u) :
    InitDone s u ∨ u.stat.fatal = s.stat.fatal
    ∨ s.stat.fatal = false ∧ s.seq.sent = true ∧ isFatal u.stat.code true = true ∧ u.stat.panel = .uninitialized := by
  obtain ⟨w, i, hw, hi, rfl⟩ | ⟨w, -, rfl⟩ | ⟨-, -, rfl⟩ | ⟨hoff, hop, rfl⟩ := sequencerCycle_cases hu
  · by_cases hinit : i = .init
    · subst hinit
      rw [← encode_of_decodeWord hi] at hw
      exact (accept_init_cases hw).imp id fun hr => .inl hr.2.2
    · right; left
      obtain ⟨-, he⟩ | ⟨-, he⟩ := accept_cases i (acceptBody i) s <;> rw [he]
      · exact (ends_acceptBody hinit (begin i.opcode i.arg s)).fatal.resolve_right (by simp)
      · rfl
  · exact .inr (.inl rfl)
  · exact .inr (.inl rfl)
  · have hfatal : s.stat.fatal = false := (h.control.running hop hoff).2.2.1
    exact .inr (h.cycleEnd_advance.fatal.imp id fun hr => ⟨hfatal, hr⟩)

/-- The three codes of a fatal error (60_exceptions.md R251). -/
theorem fatal_codes {e : Code} (h : isFatal e true = true) : e = .busTransaction ∨ e = .memFault ∨ e = .seqFormat := by
  simpa [isFatal] using h

/-- Settles O54, by how a cycle of the sequencer ends; the host leaves FATAL, ERR.CODE and PanelState alone. -/
theorem fatalIsClearedOnlyByInit : Obligations.FatalIsClearedOnlyByInit := by
  intro s t h hb hstep
  obtain ⟨u, hu, rfl⟩ := endCycle_of_step hb hstep
  have hframe := endCycle_frame s u
  rw [hframe.fatal, hframe.code, hframe.panel]
  obtain hinit | hsame | ⟨hfree, hsent, hcode, hpanel⟩ := h.fatal_cases hu
  · exact ⟨fun _ _ => ⟨hinit.offered, hinit.code, hinit.panel⟩, fun _ hset => by simp [hinit.fatal] at hset⟩
  · rw [hsame]
    exact ⟨fun hset hfree => by simp [hset] at hfree, fun hfree hset => by simp [hfree] at hset⟩
  · exact ⟨fun hset => by simp [hfree] at hset, fun _ _ => ⟨fatal_codes hcode, hsent, hpanel⟩⟩

end Sys2Proof.Machine
end

section
/-!
SUPPORT. What the host and the board see: the pads, and the fields of STATUS, ERR and IRQ.
-/

namespace Sys2Proof.Machine

open Sys2Proof

/-! ## The pads of a legal configuration -/

theorem requiredPads_eq (c : PanelConfig) : requiredPads c = outputPads c ++ [c.busyPad] := rfl

theorem LegalConfig.required_lt {b : Build} {c : PanelConfig} (h : LegalConfig b c) {p : BitVec 6}
    (hp : p ∈ requiredPads c) : p.toNat < padCount b := h.pads p hp

/-- A pad that a required signal is on is not the value that means "not connected". -/
theorem LegalConfig.required_ne_padNc {b : Build} {c : PanelConfig} (h : LegalConfig b c) {p : BitVec 6}
    (hp : p ∈ requiredPads c) : p ≠ padNc := by
  have hle : padCount b ≤ 63 := by unfold padCount; omega
  rintro rfl
  exact absurd (h.required_lt hp) (Nat.not_lt.mpr hle)

/-- The required signals are on pads of their own, and MISO is on none of them (41_panel_sequencer.md R172, condition 6). -/
theorem LegalConfig.required_nodup {b : Build} {c : PanelConfig} (h : LegalConfig b c) :
    (requiredPads c).Nodup ∧ c.misoPad ∉ requiredPads c := by
  have hd := (padList_perm c).nodup_iff.mp h.distinct
  rw [List.filter_append, List.filter_eq_self.mpr fun p hp => by simpa using h.required_ne_padNc hp,
    List.nodup_append] at hd
  obtain ⟨hreq, -, hdisj⟩ := hd
  refine ⟨hreq, fun hm => ?_⟩
  exact hdisj _ hm _ (List.mem_filter.mpr ⟨List.mem_singleton.mpr rfl, by simpa using h.required_ne_padNc hm⟩) rfl

theorem LegalConfig.output_nodup {b : Build} {c : PanelConfig} (h : LegalConfig b c) :
    (outputPads c).Nodup ∧ c.busyPad ∉ outputPads c ∧ c.misoPad ∉ outputPads c := by
  obtain ⟨hreq, hmiso⟩ := h.required_nodup
  rw [requiredPads_eq, List.nodup_append] at hreq
  rw [requiredPads_eq, List.mem_append, not_or] at hmiso
  obtain ⟨hout, -, hdisj⟩ := hreq
  exact ⟨hout, fun hb => hdisj _ hb _ (List.mem_singleton.mpr rfl) rfl, hmiso.1⟩

/-! ## The drivers of the pads -/

theorem padOe_unconfigured {s : State} (h : s.stat.configured = false) (p : Nat) : padOe s p = false := by
  simp [padOe, h]

theorem padOut_unconfigured {s : State} (h : s.stat.configured = false) (p : Nat) : padOut s p = false := by
  simp [padOut, h]

theorem padOe_iff {s : State} (h : s.stat.configured = true) (p : Nat) :
    padOe s p = true ↔ ∃ q ∈ outputPads s.cfg, q.toNat = p := by
  simp [padOe, h]

theorem padOe_of_not_mem {s : State} (h : s.stat.configured = true) {q : BitVec 6} (hq : q ∉ outputPads s.cfg) :
    padOe s q.toNat = false := by
  rw [Bool.eq_false_iff, ne_eq, padOe_iff h]
  rintro ⟨q', hq', he⟩
  exact hq (BitVec.eq_of_toNat_eq he ▸ hq')

/-- On pads of their own the five signals each show on their pad. -/
theorem padOut_signals {s : State} (hc : s.stat.configured = true) (hd : (outputPads s.cfg).Nodup) :
    padOut s s.cfg.csPad.toNat = s.pins.csN ∧ padOut s s.cfg.dcPad.toNat = s.pins.dc
    ∧ padOut s s.cfg.clkPad.toNat = s.pins.sclk ∧ padOut s s.cfg.mosiPad.toNat = s.pins.mosi
    ∧ padOut s s.cfg.rstPad.toNat = s.pins.rstN := by
  simp only [outputPads, List.nodup_cons, List.mem_cons, List.not_mem_nil, or_false, not_or] at hd
  obtain ⟨⟨h1, h2, h3, h4⟩, ⟨h5, h6, h7⟩, ⟨h8, h9⟩, h10, -⟩ := hd
  simp [padOut, hc, BitVec.toNat_inj, Ne.symm h1, Ne.symm h2, Ne.symm h3, Ne.symm h4, Ne.symm h5, Ne.symm h6,
    Ne.symm h7, Ne.symm h8, Ne.symm h9, Ne.symm h10]

/-- Settles O46: in a state of the invariant a latched configuration is legal, so that the signals are on pads of their own. -/
theorem padsCarryTheirSignals : Obligations.PadsCarryTheirSignals := by
  intro s h
  refine ⟨fun hc p => ⟨padOe_unconfigured hc p, padOut_unconfigured hc p⟩, fun hc => ?_⟩
  have hlegal := (configLegal_iff _ _).mp (h.control.config hc)
  obtain ⟨hd, hbusy, hmiso⟩ := hlegal.output_nodup
  obtain ⟨hcs, hdc, hclk, hmosi, hrst⟩ := padOut_signals hc hd
  refine ⟨fun p => ?_, hcs, hdc, hclk, hmosi, hrst, padOe_of_not_mem hc hmiso, padOe_of_not_mem hc hbusy,
    fun p hp => ?_⟩
  · rw [padOe_iff hc]
    simp [outputPads, eq_comm]
  · rw [Bool.eq_false_iff, ne_eq, padOe_iff hc]
    rintro ⟨q, hq, rfl⟩
    exact absurd (hlegal.required_lt (by rw [requiredPads_eq]; exact List.mem_append_left _ hq)) (Nat.not_lt.mpr hp)

/-! ## The fields of the status words -/

/-- The field that a placed value fills reads that value. -/
theorem extractLsb'_place_same {n : Nat} (lo : Nat) (v : BitVec n) (h : lo + n ≤ 32) :
    (place lo v).extractLsb' lo n = v := by
  apply BitVec.eq_of_getLsbD_eq
  intro k hk
  rw [BitVec.getLsbD_extractLsb', getLsbD_place]
  simp [hk, show lo + k < 32 by omega]

/-- A bit outside of the field that a placed value fills reads 0. -/
theorem getLsbD_place_outside {n : Nat} (lo i : Nat) (v : BitVec n) (h : i < lo ∨ lo + n ≤ i) :
    (place lo v).getLsbD i = false := by
  rw [getLsbD_place]
  obtain h | h := h
  · simp [show ¬ lo ≤ i by omega]
  · rw [BitVec.getLsbD_of_ge v _ (by omega), Bool.and_false]

/-- A field outside of the one that a placed value fills reads 0. -/
theorem extractLsb'_place_outside {n : Nat} (lo lo' m : Nat) (v : BitVec n) (h : lo' + m ≤ lo ∨ lo + n ≤ lo') :
    (place lo v).extractLsb' lo' m = 0#m := by
  apply BitVec.eq_of_getLsbD_eq
  intro k hk
  rw [BitVec.getLsbD_extractLsb', getLsbD_place_outside lo (lo' + k) v (by omega)]
  simp

/-- A placed flag reads back. -/
theorem getLsbD_place_ofBool (i : Nat) (b : Bool) (h : i < 32) : (place i (BitVec.ofBool b)).getLsbD i = b := by
  rw [getLsbD_place]
  cases b <;> simp [h]

/-- Settles O43: each field of STATUS is the one value placed there. -/
theorem statusFields : Obligations.StatusFields := by
  intro s
  refine ⟨rfl, ?_, ?_, ?_, ?_, ?_, ?_, ?_, ?_⟩ <;>
    simp (disch := omega) only [statusWord, BitVec.extractLsb'_or, BitVec.getLsbD_or, extractLsb'_place_same,
      extractLsb'_place_outside, getLsbD_place_ofBool, getLsbD_place_outside, BitVec.or_zero, BitVec.zero_or,
      Bool.or_false, Bool.false_or]
  · cases s.stat.panel <;> rfl
  · rfl
  · rfl
  · rfl
  · rfl

/-- Settles O44: each field of ERR and of IRQ is the one value placed there. -/
theorem errAndIrqFields : Obligations.ErrAndIrqFields := by
  intro s
  refine ⟨rfl, ?_, ?_, ?_, ?_, rfl, ?_, ?_, ?_⟩ <;>
    simp (disch := omega) only [errWord, irqWord, BitVec.extractLsb'_or, BitVec.getLsbD_or, extractLsb'_place_same,
      extractLsb'_place_outside, getLsbD_place_ofBool, getLsbD_place_outside, BitVec.or_zero, Bool.or_false,
      Bool.false_or]
  · cases s.stat.code <;> rfl
  · rfl
  · rfl
  · rfl

/-- Settles O50: before the first INIT no pad is driven, and every other value is written in the reset state. -/
theorem resetValues : Obligations.ResetValues := by
  refine ⟨rfl, rfl, rfl, rfl, rfl, rfl, rfl, rfl, rfl, rfl, rfl, rfl, rfl, rfl, rfl, rfl, rfl, rfl, rfl, rfl, rfl, rfl,
    rfl, rfl, rfl, fun p => ?_⟩
  exact ⟨padOe_unconfigured rfl p, padOut_unconfigured rfl p⟩

end Sys2Proof.Machine
end

section
/-!
SUPPORT. Host memory and its reads: the block writes none, a read answers what the host wrote, and a table operation reads
inside its table. Last, which register accesses are answered and which are refused.
-/

namespace Sys2Proof.Machine

open Sys2Proof

/-! ## Writes of host memory -/

/-- After the host's writes of a cycle an address holds the last byte written to it, or else what it held before. -/
theorem memGet_hostMemWrites (ws : List (Word × Byte)) (s : State) (a : Nat) :
    memGet (ws.foldl hostMemWrite s).mem a =
      ((ws.reverse.find? fun c => c.1.toNat == a).map Prod.snd).or (memGet s.mem a) := by
  induction ws generalizing s with
  | nil => rfl
  | cons w ws ih =>
    have hw : memGet (hostMemWrite s w).mem a =
        (([w].find? fun c => c.1.toNat == a).map Prod.snd).or (memGet s.mem a) := by
      show memGet (memSet s.mem w.1.toNat w.2) a = _
      by_cases h : w.1.toNat = a
      · subst h
        simp [memGet_memSet_same]
      · simp [memGet_memSet_other _ _ _ _ (Ne.symm h), h]
    rw [List.foldl_cons, ih, hw, List.reverse_cons, List.find?_append, Option.map_or, Option.or_assoc]

theorem initBody_mem (s : State) : (initBody s).mem = s.mem := by
  unfold initBody
  split
  · simp
  · exact (steady_raise _ s).mem

theorem accept_mem (i : Instr) (s : State) : (accept i (acceptBody i) s).mem = s.mem := by
  obtain ⟨-, he⟩ | ⟨-, he⟩ := accept_cases i (acceptBody i) s <;> rw [he]
  · by_cases hi : i = .init
    · subst hi
      exact initBody_mem _
    · exact (steady_acceptBody i hi _).mem
  · rfl

/-- The sequencer writes no host memory (20_memory.md R73). -/
theorem sequencerCycle_mem {s u : State} (h : sequencerCycle s = .next u) : u.mem = s.mem := by
  obtain ⟨w, i, -, -, rfl⟩ | ⟨w, -, rfl⟩ | ⟨-, -, rfl⟩ | ⟨-, -, rfl⟩ := sequencerCycle_cases h
  · exact accept_mem i s
  · rfl
  · rfl
  · exact (steady_advance s).mem

/-- Settles O55: neither the sequencer nor the host's register access writes memory, so that the host's memory writes of the
cycle are all there is, in a cycle with block reset too. -/
theorem blockNeverWritesHostMemory : Obligations.BlockNeverWritesHostMemory := by
  intro s t hstep a
  cases hb : (input s).blkRst with
  | true =>
    rw [step_of_blkRst hb] at hstep
    cases hstep
    exact memGet_hostMemWrites _ s a
  | false =>
    obtain ⟨u, hu, rfl⟩ := endCycle_of_step hb hstep
    rw [← sequencerCycle_mem hu, ← hostAccess_mem s u (hostTurn s).1]
    exact memGet_hostMemWrites _ _ a

/-! ## Reads of host memory -/

/-- At the end of its latency a read that does not fault hands its answer to the statement after it. -/
theorem advance_of_readAnswer {s : State} {a : Nat} {d : ReadDraw} {r : ReadRet} {b : Byte}
    (hst : s.seq.step = .read a 0 d r) (h : readAnswer s a d = some b) : advance s = afterRead r b s := by
  simp [advance, hst, readCycle, h]

theorem exists_readAnswer {d : ReadDraw} (h : d.fault = false) (s : State) (a : Nat) :
    ∃ v, readAnswer s a d = some v := by
  simp [readAnswer, h]

/-- The candidates of a read are the byte's present value and those it held before each write that races with the read. -/
theorem mem_readCandidates {s : State} {a : Nat} {b : Byte} (hb : memGet s.mem a = some b) {free v : Byte} :
    v ∈ readCandidates s a free ↔ v = b ∨ ∃ c ∈ s.env.raced, c.1 = a ∧ v = c.2.getD free := by
  simp only [readCandidates, hb, Option.getD_some, List.mem_cons, List.mem_map, List.mem_filter, decide_eq_true_eq,
    and_assoc, eq_comm (b := v)]

/-- Settles O56: the answer of a read is one of its candidates, and without a race there is one candidate. -/
theorem readReturnsWhatTheHostWrote : Obligations.ReadReturnsWhatTheHostWrote := by
  intro s a d r b hst hf hb
  refine ⟨fun hr => advance_of_readAnswer hst (readAnswer_unraced s a d b hb ?_ hf), ?_⟩
  · simpa [List.filter_eq_nil_iff] using hr
  · obtain ⟨v, hv⟩ := exists_readAnswer hf s a
    exact ⟨v, (mem_readCandidates hb).mp (readAnswer_mem s a d v hv).2, advance_of_readAnswer hst hv⟩

/-- Settles O29: the invariant gives each read of the check pass and of the player its place in the table. -/
theorem tableReadsInsideTheTable : Obligations.TableReadsInsideTheTable := by
  intro s a left d r h _ _ hst hr
  have hreads := h.reads
  unfold ReadsAt PlayTable at hreads
  rw [hst] at hreads
  cases r with
  | flushData => exact absurd rfl hr
  | _ => dsimp only at hreads; omega

/-! ## Register accesses -/

theorem access_read_wf (size off : Nat) : (Access.read size off).wf = true ↔ size = 4 ∧ off % 4 = 0 ∧ off < 0x100 := by
  simp [Access.wf, and_assoc]

theorem access_write_wf (size off : Nat) (v : Word) :
    (Access.write size off v).wf = true ↔ size = 4 ∧ off % 4 = 0 ∧ off < 0x100 := access_read_wf size off

/-- The access of the host that R71 does not permit. -/
theorem badAccess_eq_some {s : State} {size off : Nat} :
    badAccess s = some (size, off) ↔
      ((hostTurn s).1 = some (.read size off) ∨ ∃ v, (hostTurn s).1 = some (.write size off v))
        ∧ ¬(size = 4 ∧ off % 4 = 0 ∧ off < 0x100) := by
  unfold badAccess
  obtain _ | ⟨size', off'⟩ | ⟨size', off', v⟩ := (hostTurn s).1
  · simp
  · simp only [access_read_wf, Option.ite_none_left_eq_some, Option.some.injEq, Prod.mk.injEq, Access.read.injEq,
      reduceCtorEq, exists_false, or_false]
    rw [and_comm]
    exact and_congr_right fun ⟨hs, ho⟩ => by rw [hs, ho]
  · simp only [access_write_wf, Option.ite_none_left_eq_some, Option.some.injEq, Prod.mk.injEq, Access.write.injEq,
      reduceCtorEq, exists_and_left, exists_eq', and_true, false_or]
    rw [and_comm]
    exact and_congr_right fun ⟨hs, ho⟩ => by rw [hs, ho]

/-- The sequencer itself refuses nothing. -/
theorem sequencerCycle_ne_refused (s : State) (r : Refusal) : sequencerCycle s ≠ .refused r := by
  unfold sequencerCycle
  split
  · split
    · rw [exec_eq]; nofun
    · nofun
  · split
    · nofun
    · split <;> nofun

theorem step_eq_refused {s : State} (hb : (input s).blkRst = false) {size off : Nat} :
    step s = .refused (.registerAccess size off) ↔ badAccess s = some (size, off) := by
  unfold step
  rw [hb, if_neg Bool.false_ne_true]
  cases ha : badAccess s with
  | some p => simp [Prod.ext_iff]
  | none =>
    have hne := sequencerCycle_ne_refused s
    cases hu : sequencerCycle s with
    | next u => simp
    | fault f => simp
    | refused r => exact absurd hu (hne r)

/-- Settles O40: the one refusal of a step is that of the access R71 does not permit. -/
theorem onlyIllegalAccessesAreRefused : Obligations.OnlyIllegalAccessesAreRefused :=
  fun _ _ _ hb => (step_eq_refused hb).trans badAccess_eq_some

theorem badAccess_read {s : State} {off : Nat} (h : (hostTurn s).1 = some (.read 4 off)) (ho : off < 0x100)
    (ha : off % 4 = 0) : badAccess s = none := by
  simp [badAccess, h, (access_read_wf 4 off).mpr ⟨rfl, ha, ho⟩]

/-- A read changes nothing but what the host has seen. -/
theorem hostAccess_read {s : State} {off : Nat} (h : (hostTurn s).1 = some (.read 4 off)) (u : State) :
    hostAccess s u (hostTurn s).1 =
      { u with env := { u.env with reads := u.env.reads ++ [(s.env.cycle, off, readOffset s off)] } } := by
  rw [h]
  rfl

/-- Settles O39: a permitted read lets the step go on, and the host's side of the cycle adds the value read. -/
theorem registerReadsHaveNoSideEffect : Obligations.RegisterReadsHaveNoSideEffect := by
  intro s u off hb ho ha hr hu
  have hacc := hostAccess_read hr u
  have hframe := endCycle_frame s u
  refine ⟨endCycle s u, step_of_sequencerCycle hb (badAccess_read hr ho ha) hu, ?_, ?_, ?_, hframe.cfg, ?_, hframe.snap,
    hframe.pins, hframe.trace⟩
  · rw [endCycle_reads, hacc]
  · rw [endCycle_regs, hacc]
  · rw [endCycle_stat, hacc]
  · rw [endCycle_seq, hacc]

end Sys2Proof.Machine
end

section
/-!
SUPPORT. An error of a running operation, said as the whole state it leaves, and the places where the player raises one
because the table has changed since its check pass.
-/

namespace Sys2Proof.Machine

open Sys2Proof

/-! ## What taking an error leaves -/

/-- A fatal error ends the operation at once when the bus is free (60_exceptions.md R258, R261). -/
theorem raise_eq_fatallyEnded {s : State} {op : Byte} {e : Code} (hop : s.seq.op = some op) (hh : s.seq.csHeld = false)
    (hf : isFatal e s.seq.sent = true) : raise e s = fatallyEnded op e s := by
  have he : e ≠ .none := by rintro rfl; cases hf
  simp [raise, hf, hh, fatalFinish, finish, emit, setPanel_eq, panelEvent, fatallyEnded, hop, he]

/-- An error that is not fatal returns to the PanelState the operation was accepted in (60_exceptions.md R258, R260). -/
theorem raise_eq_softlyEnded {s : State} {op : Byte} {e : Code} (hop : s.seq.op = some op) (he : e ≠ .none)
    (hf : isFatal e s.seq.sent = false) : raise e s = softlyEnded op e s := by
  simp [raise, hf, finish, emit, setPanel_eq, panelEvent, softlyEnded, hop, he]

theorem isFatal_seqFormat (sent : Bool) : isFatal .seqFormat sent = sent := by simp [isFatal]

/-! ## Where the player looks at the table again -/

/-- A running operation's cycle is `advance`. -/
theorem Inv.sequencerCycle_advance {s : State} (h : Inv s) (hop : s.seq.op ≠ none) (hoff : s.seq.offer = none) :
    sequencerCycle s = .next (advance s) := by
  have ha : active s = true := by simpa [active, Option.isSome_iff_ne_none] using hop
  simp [sequencerCycle, hoff, ha, (h.control.running hop hoff).1]

/-- A header that no longer fits the table (20_memory.md R92). -/
theorem playGotLen_bad {s : State} {b : Byte}
    (h : ctlReserved s.seq.rctl ≠ 0 ∨ s.seq.tend < s.seq.tp + 3 + b.toNat) :
    playGotLen b s = raise .seqFormat { s with seq := { s.seq with rlen := b } } := if_pos h

/-- A record head with less than a header left (41_panel_sequencer.md R181). -/
theorem playAdvance_short {s : State} (hlt : s.seq.tp + 3 + s.seq.rlen.toNat < s.seq.tend)
    (hshort : s.seq.tend < s.seq.tp + 3 + s.seq.rlen.toNat + 3) :
    playAdvance s = raise .seqFormat { s with seq := { s.seq with tp := s.seq.tp + 3 + s.seq.rlen.toNat } } :=
  (if_pos hlt).trans (if_pos hshort)

/-- A record without the WAIT flag is followed by the next one at once. -/
theorem playWait_of_noWait {s : State} (h : ctlWait s.seq.rctl = false) : playWait s = playAdvance s :=
  if_neg (by simp [h])

/-- A record whose data bytes are sent, with CS free, ends its run at once. -/
theorem playData_done {s : State} (hri : s.seq.rlen.toNat ≤ s.seq.ri) (hh : s.seq.csHeld = false) :
    playData s = playWait s := by
  simp [playData, Nat.not_lt.mpr hri, runEnd, hh]

/-- A transaction that is framed alone returns without a fault in the last cycle of its phase E. -/
theorem advance_of_txReturn {s : State} {k : Kind} {b : Byte} {r : TxRet} (hst : s.seq.step = .tx k b .e 0 false r) :
    advance s = afterTx r s := by
  simp [advance, hst, txCycle, txReturn]

/-- CS is free at every statement outside a burst run of data bytes. -/
theorem Inv.csHeld_of_not_heldAt {s : State} (h : Inv s) (hst : ¬ HeldAt s.seq.step) : s.seq.csHeld = false := by
  by_contra hc
  exact hst (h.bus.held (by simpa using hc)).2

/-- At the end of a record a transaction has started, and CS is free. -/
theorem RecordEnds.sent_free {s : State} (hr : RecordEnds s) (h : Inv s) (hop : s.seq.op ≠ none)
    (hoff : s.seq.offer = none) : s.seq.sent = true ∧ s.seq.csHeld = false := by
  have hpins := h.bus.pins (h.ambient hop hoff).configured
  have htx := h.bus.tx
  unfold PinsAt at hpins
  unfold TxAt at htx
  obtain hst | ⟨b, hst, -⟩ | ⟨b, hst, -⟩ := hr <;> rw [hst] at hpins htx
  · exact ⟨htx.2, hpins.2.2⟩
  · exact ⟨htx.2.1, hpins.2.2⟩
  · exact ⟨htx.2.1, hpins.2.2⟩

/-- After a record's last statement the player comes to the record's WAIT flag. The count of the data bytes is the loop's
(log 25). -/
theorem RecordEnds.advance_eq {s : State} (hr : RecordEnds s) (hh : s.seq.csHeld = false) :
    ∃ ri, advance s = playWait { s with seq := { s.seq with ri := ri } } := by
  obtain hst | ⟨b, hst, hlen⟩ | ⟨b, hst, hlen⟩ := hr
  · refine ⟨s.seq.ri, ?_⟩
    show advance s = playWait s
    simp [advance, hst, runEndCycle, afterRun]
  · exact ⟨0, (advance_of_txReturn hst).trans (playData_done (by simp [hlen]) hh)⟩
  · exact ⟨s.seq.ri + 1, (advance_of_txReturn hst).trans (playData_done hlen hh)⟩

/-- A header that has changed since the check pass ends the operation, fatally when a transaction has started. -/
theorem Inv.advance_of_badHeader {s : State} (h : Inv s) {op : Byte} (hop : s.seq.op = some op) {a : Nat} {d : ReadDraw}
    {b : Byte} (hst : s.seq.step = .read a 0 d .playLen) (hb : readAnswer s a d = some b)
    (hbad : ctlReserved s.seq.rctl ≠ 0 ∨ s.seq.tend < s.seq.tp + 3 + b.toNat) :
    (s.seq.sent = true → advance s = fatallyEnded op .seqFormat { s with seq := { s.seq with rlen := b } })
    ∧ (s.seq.sent = false → advance s = softlyEnded op .seqFormat { s with seq := { s.seq with rlen := b } }) := by
  have hadv := (advance_of_readAnswer hst hb).trans (playGotLen_bad hbad)
  have hh : s.seq.csHeld = false := h.csHeld_of_not_heldAt (by rw [hst]; exact id)
  exact ⟨fun hs => hadv.trans (raise_eq_fatallyEnded hop hh ((isFatal_seqFormat _).trans hs)),
    fun hs => hadv.trans (raise_eq_softlyEnded hop (by decide) ((isFatal_seqFormat _).trans hs))⟩

/-- Where a record that does not wait is followed by less than a header, the operation ends, fatally since the record's
command byte has been sent. -/
theorem playWait_short {s : State} {op : Byte} (hop : s.seq.op = some op) (hsent : s.seq.sent = true)
    (hh : s.seq.csHeld = false) (hwait : ctlWait s.seq.rctl = false)
    (hlt : s.seq.tp + 3 + s.seq.rlen.toNat < s.seq.tend) (hshort : s.seq.tend < s.seq.tp + 3 + s.seq.rlen.toNat + 3) :
    playWait s = fatallyEnded op .seqFormat
      { s with seq := { s.seq with tp := s.seq.tp + 3 + s.seq.rlen.toNat } } :=
  calc
    playWait s = playAdvance s := playWait_of_noWait hwait
    _ = raise .seqFormat { s with seq := { s.seq with tp := s.seq.tp + 3 + s.seq.rlen.toNat } } :=
      playAdvance_short hlt hshort
    _ = _ := raise_eq_fatallyEnded hop hh ((isFatal_seqFormat _).trans hsent)

/-- Settles O25: the player looks at the table again at each header and at each record head, and the bus is free at both
places. -/
theorem racedTableRaisesSeqFormat : Obligations.RacedTableRaisesSeqFormat := by
  intro s op h hop hoff
  have hop' : s.seq.op ≠ none := by simp [hop]
  rw [h.sequencerCycle_advance hop' hoff]
  refine ⟨fun a d b hst hb hbad => ?_, fun hr hwait hlt hshort => ?_⟩
  · obtain ⟨hfatal, hsoft⟩ := h.advance_of_badHeader hop hst hb hbad
    exact ⟨fun hs => congrArg _ (hfatal hs), fun hs => congrArg _ (hsoft hs)⟩
  · obtain ⟨hsent, hh⟩ := hr.sent_free h hop' hoff
    obtain ⟨ri, hadv⟩ := hr.advance_eq hh
    have hend := hadv.trans (playWait_short hop hsent hh hwait hlt hshort)
    exact ⟨hsent, ri, congrArg _ hend⟩

end Sys2Proof.Machine
end

section
/-!
SUPPORT. The CMD word and the host's program statements: decode and encode are inverse, an illegal word is rejected whole, and
what each statement of a host program asks of the register window.
-/

namespace Sys2Proof.Machine

open Sys2Proof

/-! ## The CMD word -/

/-- A word whose fields are those of an operation decodes to it (30_encoding.md R101 to R106). -/
theorem decodeWord_of_fields {w : Word} {i : Instr} (hr : cmdRsvd w = 0) (hop : cmdOp w = i.opcode)
    (ha : cmdArg w = i.arg) : decodeWord w = some i := by
  cases i <;> simp [decodeWord, withoutOperand, hr, hop, ha, Instr.opcode, Instr.arg]

theorem decodeWord_encode (i : Instr) : decodeWord (encode i) = some i := by
  obtain ⟨hr, hop, ha⟩ := encode_fields i
  exact decodeWord_of_fields hr hop ha

/-- Settles O2: the three fields determine the operation, and make up the whole word. -/
theorem decodeAndEncodeAgree : Obligations.DecodeAndEncodeAgree := by
  refine ⟨fun i _ => decodeWord_encode i, fun w i h => ⟨?_, encode_of_decodeWord h⟩⟩
  cases i <;> rfl

/-- The fields of a word written as a sum, as the opcode map writes the operations with an operand (30_encoding.md R106). -/
theorem fields_of_sum (op nn : Byte) :
    cmdRsvd (op.setWidth 32 + 0x100 * nn.setWidth 32) = 0 ∧ cmdOp (op.setWidth 32 + 0x100 * nn.setWidth 32) = op
    ∧ cmdArg (op.setWidth 32 + 0x100 * nn.setWidth 32) = nn := by
  have hop := op.isLt
  have hnn := nn.isLt
  refine ⟨?_, ?_, ?_⟩ <;> apply BitVec.eq_of_toNat_eq <;>
    simp only [cmdRsvd, cmdOp, cmdArg, BitVec.extractLsb'_toNat, BitVec.toNat_add, BitVec.toNat_mul,
      BitVec.toNat_setWidth, BitVec.ofNat_eq_ofNat, BitVec.toNat_ofNat, Nat.shiftRight_eq_div_pow] <;> omega

/-- Settles O1: each word of the opcode map has the fields of its operation. -/
theorem operationWordsDecode : Obligations.OperationWordsDecode := by
  refine ⟨decodeWord_encode .init, fun nn => ?_, fun nn => ?_, decodeWord_encode .reset, decodeWord_encode .waitIdle,
    decodeWord_encode .powerOn, decodeWord_encode .initRegs, decodeWord_encode .powerOff, decodeWord_encode .flush⟩
  · obtain ⟨hr, hop, ha⟩ := fields_of_sum 0x02 nn
    exact decodeWord_of_fields (i := .sendCmd nn) hr hop ha
  · obtain ⟨hr, hop, ha⟩ := fields_of_sum 0x03 nn
    exact decodeWord_of_fields (i := .sendData nn) hr hop ha

/-- The illegal words (30_encoding.md R103, R104, R107). -/
theorem decodeWord_eq_none {w : Word}
    (h : cmdRsvd w ≠ 0 ∨ (cmdOp w ≠ 0x02 ∧ cmdOp w ≠ 0x03 ∧ cmdArg w ≠ 0) ∨ cmdOp w = 0x00 ∨ 0x0A ≤ (cmdOp w).toNat) :
    decodeWord w = none := by
  cases hd : decodeWord w with
  | none => rfl
  | some i =>
    obtain ⟨hr, hop, ha⟩ := fields_of_decodeWord hd
    rw [hr, hop, ha] at h
    cases i <;> simp [Instr.opcode, Instr.arg] at h

/-- Settles O3: an illegal word decodes to nothing, and its rejection is a finish with ILLEGAL_OP. -/
theorem illegalWordIsRejected : Obligations.IllegalWordIsRejected := by
  intro w s t hw ht
  have hd : decodeWord w = none := decodeWord_eq_none hw
  refine ⟨hd, fun hoff => ?_⟩
  have hseq : sequencerCycle s = .next t := by
    have ht' : t = rejectIllegal w s := by simp [ht, rejectIllegal, finish, emit, begin, cmdOp, cmdArg]
    simp [sequencerCycle, hoff, hd, ht']
  exact ⟨hseq, fun hb ha => step_of_sequencerCycle hb ha hseq⟩

/-! ## The statements of a host program -/

/-- Settles O42: each statement is one access, and SYNC stays while bit 3 of STATUS, its ACTIVE, reads 1. -/
theorem syncPollsActive : Obligations.SyncPollsActive := by
  intro s rest hh
  obtain ⟨-, -, hactive, -⟩ := statusFields s
  refine ⟨fun hp => ?_, fun r v hp => ?_, fun r hp => ?_, fun i hp => ?_⟩
  · rw [hactive]
    simp only [hostTurn, hh, hp]
    rfl
  · simp [hostTurn, hh, hp]
  · simp [hostTurn, hh, hp]
  · simp [hostTurn, hh, hp, hostOp, Reg.offset]

end Sys2Proof.Machine
end

section
/-!
SUPPORT. The bytes of a sequence table: parsing and laying out are inverse.
-/

namespace Sys2Proof

/-! ## Records and their bytes -/

@[simp] theorem encodeTable_nil : encodeTable [] = [] := rfl

theorem encodeTable_cons (r : Record) (rs : List Record) :
    encodeTable (r :: rs) = r.cmd :: r.ctl :: BitVec.ofNat 8 r.data.length :: (r.data ++ encodeTable rs) := rfl

/-- A record takes three bytes more than its data (30_encoding.md R113). -/
theorem length_encodeTable_cons (r : Record) (rs : List Record) :
    (encodeTable (r :: rs)).length = 3 + r.data.length + (encodeTable rs).length := by
  simp only [encodeTable_cons, List.length_cons, List.length_append]
  omega

/-- LEN holds the number of data bytes when they are at most 255. -/
theorem toNat_ofNat_length {ds : List Byte} (h : ds.length ≤ 255) : (BitVec.ofNat 8 ds.length).toNat = ds.length := by
  rw [BitVec.toNat_ofNat]
  omega

/-- The parser takes a record off the front of its bytes. -/
theorem parseRecords_record {r : Record} (h : r.data.length ≤ 255) (fuel : Nat) (rest : List Byte) :
    parseRecords (fuel + 1) (r.encode ++ rest) = (parseRecords fuel rest).map (r :: ·) := by
  simp [parseRecords, Record.encode, toNat_ofNat_length h]

theorem parseRecords_encodeTable {rs : List Record} (h : ∀ r ∈ rs, r.data.length ≤ 255) {fuel : Nat}
    (hf : rs.length ≤ fuel) : parseRecords fuel (encodeTable rs) = some rs := by
  induction rs generalizing fuel with
  | nil => simp [parseRecords]
  | cons r rs ih =>
    obtain ⟨fuel, rfl⟩ : ∃ k, fuel = k + 1 := ⟨fuel - 1, by simp at hf; omega⟩
    show parseRecords (fuel + 1) (r.encode ++ encodeTable rs) = _
    rw [parseRecords_record (h r List.mem_cons_self), ih (fun q hq => h q (List.mem_cons_of_mem r hq)) (by simpa using hf)]
    rfl

theorem length_le_length_encodeTable (rs : List Record) : rs.length ≤ (encodeTable rs).length := by
  induction rs with
  | nil => simp
  | cons r rs ih =>
    rw [length_encodeTable_cons, List.length_cons]
    omega

/-- What parses to records is their bytes. -/
theorem encodeTable_of_parseRecords {fuel : Nat} {bytes : List Byte} {rs : List Record}
    (h : parseRecords fuel bytes = some rs) : encodeTable rs = bytes ∧ ∀ r ∈ rs, r.data.length ≤ 255 := by
  induction fuel, bytes using parseRecords.induct generalizing rs with
  | case1 fuel =>
    simp only [parseRecords, Option.some.injEq] at h
    simp [← h]
  | case2 fuel cmd ctl len rest hlen ih =>
    simp only [parseRecords, hlen, if_true, Option.map_eq_some_iff] at h
    obtain ⟨qs, hqs, rfl⟩ := h
    obtain ⟨henc, hdata⟩ := ih hqs
    have htake : (rest.take len.toNat).length = len.toNat := by simp [hlen]
    have hbyte : len.toNat ≤ 255 := by omega
    refine ⟨?_, by simpa [hlen, hbyte] using hdata⟩
    rw [encodeTable_cons, henc, htake, BitVec.ofNat_toNat, BitVec.setWidth_eq, List.take_append_drop]
  | case3 fuel cmd ctl len rest hlen => simp [parseRecords, hlen] at h
  | case4 fuel bytes hnil hcons => simp [parseRecords] at h

/-- Settles O4: the parser undoes the laying out, and only bytes laid out so parse. -/
theorem sequenceTableRoundTrips : Obligations.SequenceTableRoundTrips := by
  refine fun bytes rs => ⟨encodeTable_of_parseRecords, ?_⟩
  rintro ⟨rfl, hdata⟩
  exact parseRecords_encodeTable hdata (length_le_length_encodeTable rs)

end Sys2Proof
end

section
/-!
SUPPORT. The accept cycle of the operations that play a sequence table (30_encoding.md R114, 41_panel_sequencer.md R182 to
R184).
-/

namespace Sys2Proof.Machine

open Sys2Proof

/-- What a row of `tableOperations` says: the operation is accepted in Idle, runs `tableBody` with its PanelState, and takes
its table from its register pair. -/
structure TableOperation (i : Instr) (p : PanelState) (f : Regs → Word × Word) : Prop where
  arg : i.arg = 0
  accepted : acceptedIn i .idle = true
  body : acceptBody i = tableBody p
  powering : Powering p
  pair : ∀ g, tablePair i.opcode g = f g

theorem tableOperation_of_mem {i : Instr} {p : PanelState} {f : Regs → Word × Word} (h : (i, p, f) ∈ tableOperations) :
    TableOperation i p f := by
  simp only [tableOperations, List.mem_cons, Prod.mk.injEq, List.not_mem_nil, or_false] at h
  obtain ⟨rfl, rfl, rfl⟩ | ⟨rfl, rfl, rfl⟩ | ⟨rfl, rfl, rfl⟩ := h
  · exact ⟨rfl, rfl, rfl, .inl rfl, fun _ => rfl⟩
  · exact ⟨rfl, rfl, rfl, .inl rfl, fun _ => rfl⟩
  · exact ⟨rfl, rfl, rfl, .inr rfl, fun _ => rfl⟩

theorem Powering.ne_idle {p : PanelState} (h : Powering p) : p ≠ .idle := by
  rintro rfl
  simp [Powering] at h

theorem Powering.ne_busy {p : PanelState} (h : Powering p) : p ≠ .busy := by
  rintro rfl
  simp [Powering] at h

section
variable {s : State} {i : Instr} {p : PanelState} {f : Regs → Word × Word}

/-- In Idle the operation passes `Check` and comes to its body with its table in the snapshot. -/
theorem TableOperation.exec_eq (h : TableOperation i p f) (ho : Operational s) (hp : s.stat.panel = .idle) :
    exec i s = .next (tableBody p (begin i.opcode 0 s)) := by
  rw [Machine.exec_eq, accept_pass ho i (by rw [hp]; exact h.accepted), h.body, h.arg]

theorem TableOperation.snap_pair (h : TableOperation i p f) (arg : Byte) :
    ((begin i.opcode arg s).snap.base, (begin i.opcode arg s).snap.len) = f s.regs := h.pair s.regs

end

/-- SEQ_FORMAT before a transaction has started ends the operation as a rejection does: PanelState has not changed since its
acceptance (60_exceptions.md R259). -/
theorem raise_seqFormat_begin {i : Instr} (ha : i.arg = 0) (s : State) :
    raise .seqFormat (begin i.opcode 0 s) = rejected i .seqFormat s := by
  rw [raise_eq_softlyEnded (op := i.opcode) rfl (by decide) rfl]
  simp [softlyEnded, rejected, begin, ha]

/-! ## The table's checks (30_encoding.md R114) -/

theorem checkRecord_header {s : State} {o : Nat} (h : o + 3 ≤ s.snap.len.toNat) (p : PanelState) :
    checkRecord p o s = readStart (s.snap.base.toNat + o + 1) (.checkCtl p o) s := by
  unfold checkRecord
  rw [if_pos (by omega), if_neg (by omega)]

theorem checkRecord_short {s : State} {o : Nat} (h : o < s.snap.len.toNat) (h3 : s.snap.len.toNat < o + 3)
    (p : PanelState) : checkRecord p o s = raise .seqFormat s := by
  unfold checkRecord
  rw [if_pos h, if_pos h3]

theorem checkRecord_end {s : State} {o : Nat} (h : s.snap.len.toNat ≤ o) (p : PanelState) :
    checkRecord p o s = checkPassed p s := if_neg (by omega)

theorem tableBody_empty {s : State} (h : s.snap.len = 0) (p : PanelState) : tableBody p s = checkPassed p s := if_pos h

/-- A null base, a table that passes 2^32, or one shorter than a header is refused at once. -/
theorem tableBody_malformed {s : State} (hl : s.snap.len ≠ 0)
    (h : s.snap.base = 0 ∨ 2 ^ 32 < s.snap.base.toNat + s.snap.len.toNat ∨ s.snap.len.toNat < 3) (p : PanelState) :
    tableBody p s = raise .seqFormat s := by
  unfold tableBody
  rw [if_neg hl]
  split
  · rfl
  · next hb =>
    rw [← or_assoc] at h
    exact checkRecord_short (by bv_omega) (h.resolve_left hb) p

/-- Any other table is checked record by record; an empty one passes at once. -/
theorem tableBody_checks {s : State} (hb : s.snap.len ≠ 0 → s.snap.base ≠ 0)
    (h : s.snap.base.toNat + s.snap.len.toNat ≤ 2 ^ 32) (p : PanelState) : tableBody p s = checkRecord p 0 s := by
  unfold tableBody
  split
  · next h0 => exact (checkRecord_end (by simp [h0]) p).symm
  · next hl => rw [if_neg (by simp only [hb hl, false_or]; omega)]

/-- At the table's end the operation finishes in Idle (41_panel_sequencer.md R181). -/
theorem playRecord_end {s : State} (h : s.seq.tend ≤ s.seq.tp) : playRecord s = finish .none (setPanel .idle s) :=
  if_neg (by omega)

/-- Settles O22: the table's checks go one of three ways, and each is said by the lemma about it. -/
theorem tableOperationFirstCycle : Obligations.TableOperationFirstCycle := by
  intro s i p f base len hmem hpair ho hp
  have hop := tableOperation_of_mem hmem
  obtain ⟨hbase, hlen⟩ := Prod.mk.inj (hop.snap_pair (s := s) 0 |>.trans hpair.symm)
  rw [hop.exec_eq ho hp, ← hbase, ← hlen]
  refine ⟨fun h0 => ?_, fun hl hbad => ?_, fun hb hfit h3 => ?_⟩
  · have hne := hop.powering.ne_idle
    have hz : (snapshot i.opcode 0#8 s.regs).len = 0#32 := h0
    rw [tableBody_empty h0, checkPassed, playRecord_end (by simp [hz])]
    simp [finish, emit, setPanel_eq, panelEvent, begin, hp, hne, hne.symm, hz]
  · rw [tableBody_malformed hl hbad, raise_seqFormat_begin hop.arg]
  · rw [tableBody_checks (fun _ => hb) hfit, checkRecord_header (by omega)]
    simp [readStart, begin, hp, input, inputAt]

end Sys2Proof.Machine
end

section
/-!
SUPPORT. The check pass as a run of cycles: reads that nothing disturbs, the two reads of a record's header, and the refusal of
a malformed table.
-/

namespace Sys2Proof.Machine

open Sys2Proof

/-! ## Cycles that nothing disturbs -/

/-- An operation is running, and in the `n` cycles after the present one the host is silent; in them and in the present one no
transfer and no read fails, and a read takes at most `latency` cycles. -/
structure Undisturbed (n latency : Nat) (s : State) : Prop where
  alive : Alive s
  silent : SilentAfter n s
  faultless : Faultless (n + 1) latency s

/-- From an accept cycle on. -/
theorem Undisturbed.of_quietFor {n latency : Nat} {s t : State} (hq : QuietFor (n + 1) s)
    (hf : Faultless (n + 1) latency s) (ht : Alive t) (hs : t.env.script = s.env.script)
    (hc : t.env.cycle = s.env.cycle) : Undisturbed n latency t :=
  ⟨ht, hq.silentAfter hs hc, fun k hk => by unfold inputAt; rw [hs, hc]; exact hf k hk⟩

/-- What is left of the cycles that nothing disturbs when `m` of them have passed. -/
theorem Undisturbed.after {b m n latency : Nat} {s t : State} (h : Undisturbed b latency s) (hb : m + n ≤ b)
    (ht : Alive t) (hs : t.env.script = s.env.script) (hc : t.env.cycle = s.env.cycle + m) :
    Undisturbed n latency t := by
  refine ⟨ht, ?_, fun k hk => ?_⟩
  · exact (SilentAfter.later (h.silent.mono hb)).congr hs hc
  · have := h.faultless (m + k) (by omega)
    unfold inputAt at this ⊢
    rwa [hs, hc, Nat.add_assoc]

/-- `MemRead` of a byte that the host wrote and does not race with hands that byte on, after at least one cycle and at most
`latency` (20_memory.md R74, R86). -/
theorem memRead_seg {s : State} {n latency a : Nat} {b : Byte} (h : Undisturbed n latency s) (hl : 1 ≤ latency)
    (hn : latency ≤ n) (hb : memGet s.mem a = some b) (hr : s.env.raced = []) (r : ReadRet) :
    ∃ m st, 1 ≤ m ∧ m ≤ latency ∧ Seg m (readStart a r s)
      (afterRead r b (later m (setStep st { s with pins := { s.pins with sclk := false } }))) := by
  obtain ⟨-, hfault, hlat⟩ : _ ∧ (input s).draw.fault = false ∧ (input s).draw.latency ≤ latency :=
    h.faultless 0 (by omega)
  have hm : max 1 (input s).draw.latency ≤ latency := by omega
  refine ⟨_, .read a 0 (input s).draw r, le_max_left _ _, hm,
    (read_seg h.alive a r (h.silent.mono (hm.trans hn))).cast rfl ?_⟩
  have hans : readAnswer (later (max 1 (input s).draw.latency) { s with
      pins := { s.pins with sclk := false }
      seq := { s.seq with step := .read a 0 (input s).draw r } }) a (input s).draw = some b :=
    readAnswer_unraced _ a _ b hb (by simp [hr]) hfault
  rw [readCycle, if_pos rfl, hans]
  rfl

/-- The same where the clock line is low already, as it is outside a burst run. -/
theorem memRead_idle_seg {s : State} {n latency a : Nat} {b : Byte} (h : Undisturbed n latency s) (hl : 1 ≤ latency)
    (hn : latency ≤ n) (hb : memGet s.mem a = some b) (hr : s.env.raced = []) (hclk : s.pins.sclk = false)
    (r : ReadRet) :
    ∃ m st, 1 ≤ m ∧ m ≤ latency ∧ Seg m (readStart a r s) (afterRead r b (later m (setStep st s))) := by
  have hpins : { s with pins := { s.pins with sclk := false } } = s := by rw [← hclk]
  simpa only [hpins] using memRead_seg h hl hn hb hr r

/-! ## A table in host memory -/

theorem HoldsBytes.congr {a : Nat} {bytes : List Byte} {s t : State} (h : HoldsBytes a bytes s) (hm : t.mem = s.mem)
    (hr : t.env.raced = s.env.raced) : HoldsBytes a bytes t :=
  ⟨hr.trans h.1, fun k hk => by rw [hm]; exact h.2 k hk⟩

theorem HoldsBytes.append_left {a : Nat} {xs ys : List Byte} {s : State} (h : HoldsBytes a (xs ++ ys) s) :
    HoldsBytes a xs s :=
  ⟨h.1, fun k hk => by rw [h.2 k (by simp; omega), List.getElem_append_left hk]⟩

theorem HoldsBytes.append_right {a : Nat} {xs ys : List Byte} {s : State} (h : HoldsBytes a (xs ++ ys) s) :
    HoldsBytes (a + xs.length) ys s := by
  refine ⟨h.1, fun k hk => ?_⟩
  rw [Nat.add_assoc, h.2 (xs.length + k) (by simp; omega), List.getElem_append_right (by omega)]
  simp

theorem HoldsBytes.head {a : Nat} {b : Byte} {bs : List Byte} {s : State} (h : HoldsBytes a (b :: bs) s) :
    memGet s.mem a = some b := h.2 0 (by simp)

theorem HoldsBytes.tail {a : Nat} {b : Byte} {bs : List Byte} {s : State} (h : HoldsBytes a (b :: bs) s) :
    HoldsBytes (a + 1) bs s := HoldsBytes.append_right (xs := [b]) h

/-- Behind a record stand the bytes of those after it. -/
theorem HoldsBytes.after_record {a : Nat} {cmd ctl len : Byte} {data rest : List Byte} {s : State}
    (h : HoldsBytes a (cmd :: ctl :: len :: (data ++ rest)) s) : HoldsBytes (a + 3 + data.length) rest s :=
  HoldsBytes.append_right (a := a + 3) h.tail.tail.tail

/-! ## The check pass (30_encoding.md R114) -/

theorem checkGotLen_bad {s : State} {o : Nat} {ctl n : Byte}
    (h : ctlReserved ctl ≠ 0 ∨ s.snap.len.toNat < o + 3 + n.toNat) (p : PanelState) :
    checkGotLen p o ctl n s = raise .seqFormat s := by
  unfold checkGotLen
  split
  · rfl
  · next hc => exact if_pos (h.resolve_left hc)

theorem checkGotLen_good {s : State} {o : Nat} {ctl n : Byte} (hc : ctlReserved ctl = 0)
    (h : o + 3 + n.toNat ≤ s.snap.len.toNat) (p : PanelState) :
    checkGotLen p o ctl n s = checkRecord p (o + 3 + n.toNat) s := by
  unfold checkGotLen
  rw [if_neg (not_not_intro hc), if_neg (by omega)]

/-- The check pass reads a record's CTL and LEN, and looks at both. -/
theorem checkHeader_seg {s : State} {n latency o : Nat} {cmd ctl len : Byte} {rest : List Byte}
    (h : Undisturbed n latency s) (hl : 1 ≤ latency) (hn : 2 * latency ≤ n) (hclk : s.pins.sclk = false)
    (hbytes : HoldsBytes (s.snap.base.toNat + o) (cmd :: ctl :: len :: rest) s)
    (hfit : o + 3 ≤ s.snap.len.toNat) (p : PanelState) :
    ∃ m st, 2 ≤ m ∧ m ≤ 2 * latency ∧
      Seg m (checkRecord p o s) (checkGotLen p o ctl len (later m (setStep st s))) := by
  rw [checkRecord_header hfit]
  obtain ⟨m₁, st₁, h1, hm₁, hseg₁⟩ := memRead_idle_seg h hl (by omega) hbytes.tail.head hbytes.1 hclk (.checkCtl p o)
  obtain ⟨m₂, st₂, h2, hm₂, hseg₂⟩ := memRead_idle_seg (s := later m₁ (setStep st₁ s))
    (h.after (m := m₁) (n := latency) (by omega) ⟨h.alive.op, h.alive.offer, h.alive.prog⟩ rfl rfl) hl le_rfl
    hbytes.tail.tail.head hbytes.1 hclk (.checkLen p o ctl)
  refine ⟨m₁ + m₂, st₂, by omega, by omega, (hseg₁.trans hseg₂).cast rfl ?_⟩
  rw [← later_later]
  rfl

/-- A table that does not parse, or has reserved control bits set, is refused in the check pass. Each record that the pass goes
on from has at least three bytes, and two of them are read. -/
theorem checkRecord_malformed_seg {latency : Nat} (hl : 1 ≤ latency) (p : PanelState) {fuel : Nat} {bytes : List Byte} :
    ∀ {s : State} {o : Nat}, Undisturbed (bytes.length * latency) latency s → bytes.length ≤ fuel →
      s.pins.sclk = false → HoldsBytes (s.snap.base.toNat + o) bytes s → o + bytes.length = s.snap.len.toNat →
      (∀ rs, parseRecords fuel bytes = some rs → ∃ r ∈ rs, ctlReserved r.ctl ≠ 0) →
      ∃ n st, n ≤ bytes.length * latency ∧
        Seg n (checkRecord p o s) (raise .seqFormat (later n (setStep st s))) := by
  induction fuel, bytes using parseRecords.induct with
  | case1 fuel =>
    intro s o _ _ _ _ _ hbad
    simpa using hbad [] (by simp [parseRecords])
  | case2 fuel cmd ctl len rest hlen ih =>
    intro s o h hfuel hclk hbytes ho hbad
    simp only [List.length_cons] at h hfuel ho ⊢
    have hcost : (rest.length + 1 + 1 + 1) * latency = rest.length * latency + 3 * latency := by ring
    obtain ⟨m, st, -, hm, hseg⟩ := checkHeader_seg h hl (by omega) hclk hbytes (by omega) p
    by_cases hctl : ctlReserved ctl = 0
    · have hrest : HoldsBytes (s.snap.base.toNat + (o + 3 + len.toNat)) (rest.drop len.toNat) s := by
        rw [← List.take_append_drop len.toNat rest] at hbytes
        simpa [hlen, Nat.add_assoc] using hbytes.after_record
      have hdrop : (rest.drop len.toNat).length * latency ≤ rest.length * latency :=
        Nat.mul_le_mul_right _ (by simp)
      obtain ⟨n, st', hn, hseg'⟩ := ih (s := later m (setStep st s)) (o := o + 3 + len.toNat)
        (h.after (m := m) (by omega) ⟨h.alive.op, h.alive.offer, h.alive.prog⟩ rfl rfl) (by simp; omega) hclk
        hrest
        (by simp only [List.length_drop, later_snap, setStep_snap]; omega)
        (fun rs hrs => by
          obtain ⟨r, hr, hres⟩ := hbad _ (by simp only [parseRecords, hlen, if_true, hrs]; rfl)
          obtain rfl | hr := List.mem_cons.mp hr
          · exact absurd hctl hres
          · exact ⟨r, hr, hres⟩)
      rw [checkGotLen_good hctl (by simp only [later_snap, setStep_snap]; omega)] at hseg
      refine ⟨m + n, st', by omega, (hseg.trans hseg').cast rfl ?_⟩
      rw [← later_later]
      rfl
    · rw [checkGotLen_bad (.inl hctl)] at hseg
      exact ⟨m, st, by omega, hseg⟩
  | case3 fuel cmd ctl len rest hlen =>
    intro s o h _ hclk hbytes ho _
    simp only [List.length_cons] at h ho ⊢
    have hcost : (rest.length + 1 + 1 + 1) * latency = rest.length * latency + 3 * latency := by ring
    obtain ⟨m, st, -, hm, hseg⟩ := checkHeader_seg h hl (by omega) hclk hbytes (by omega) p
    rw [checkGotLen_bad (.inr (by simp only [later_snap, setStep_snap]; omega))] at hseg
    exact ⟨m, st, by omega, hseg⟩
  | case4 fuel bytes hnil hcons =>
    intro s o _ hfuel _ _ ho _
    have hshort : 0 < bytes.length ∧ bytes.length < 3 := by
      match fuel, bytes with
      | _, [] => exact (hnil rfl).elim
      | 0, _ :: _ => simp at hfuel
      | _ + 1, [_] => simp
      | _ + 1, [_, _] => simp
      | k + 1, a :: b :: c :: rest => exact absurd rfl (hcons k a b c rest rfl)
    rw [checkRecord_short (by omega) (by omega)]
    exact ⟨0, s.seq.step, Nat.zero_le _, Seg.refl _⟩

/-- Settles O24: the accept cycle starts the check pass, which the malformed table does not pass. -/
theorem malformedTableIsRefused : Obligations.MalformedTableIsRefused := by
  intro s i p f base len bytes latency hmem hpair ho hp hb hfit hlen hbytes hbad hpins hl hq hf
  have hop := tableOperation_of_mem hmem
  obtain ⟨hbase, hlen'⟩ := Prod.mk.inj (hop.snap_pair (s := s) 0 |>.trans hpair.symm)
  have hl0 : len ≠ 0 := by
    rintro rfl
    obtain rfl : bytes = [] := List.length_eq_zero_iff.mp hlen
    simpa using hbad [] rfl
  rw [← hbase] at hb hbytes
  rw [← hlen'] at hlen hl0
  obtain ⟨n, st, hn, hseg⟩ := checkRecord_malformed_seg (s := begin i.opcode 0 s) (o := 0) hl p
    (.of_quietFor hq hf ⟨by simp, rfl, hq.1⟩ rfl rfl) le_rfl hpins.2.1 hbytes (by omega) hbad
  refine ⟨_, n, hop.exec_eq ho hp, hn, ?_⟩
  rw [tableBody_checks (fun _ => hb) (by rw [hbase, hlen']; exact hfit),
    Seg.after_accept ⟨hq.1, fun k hk => hq.2 k (by omega)⟩ hseg, raise_eq_softlyEnded (op := i.opcode) rfl (by decide) rfl]
  simp [tick, nextCycle, softlyEnded, rejected, active, later, setStep, hop.arg, hq.1]

end Sys2Proof.Machine
end

section
/-!
SUPPORT. The player as a run of cycles (41_panel_sequencer.md R181): the check pass of a well-formed table, a byte on the bus in
both framings, the run of a record's data bytes, a record, and the table.
-/

namespace Sys2Proof.Machine

open Sys2Proof

theorem record_wf_iff (r : Record) : r.wf = true ↔ ctlReserved r.ctl = 0 ∧ r.data.length ≤ 255 := by
  simp [Record.wf, ctlReserved]

/-! ## The check pass of a well-formed table -/

/-- The check pass lets a table of well-formed records pass, after two reads for each record. -/
theorem checkRecord_wellFormed_seg {latency : Nat} (hl : 1 ≤ latency) (p : PanelState) (rs : List Record) :
    ∀ {s : State} {o : Nat}, Undisturbed (2 * rs.length * latency) latency s → s.pins.sclk = false →
      HoldsBytes (s.snap.base.toNat + o) (encodeTable rs) s → o + (encodeTable rs).length = s.snap.len.toNat →
      (∀ r ∈ rs, r.wf = true) →
      ∃ n st, 2 * rs.length ≤ n ∧ n ≤ 2 * rs.length * latency ∧
        Seg n (checkRecord p o s) (checkPassed p (later n (setStep st s))) := by
  induction rs with
  | nil =>
    intro s o _ _ _ ho _
    rw [checkRecord_end (by simpa using ho.ge)]
    exact ⟨0, s.seq.step, by simp, by simp, Seg.refl _⟩
  | cons r rs ih =>
    intro s o h hclk hbytes ho hwf
    obtain ⟨hr, hrs⟩ := List.forall_mem_cons.mp hwf
    obtain ⟨hctl, hdata⟩ := (record_wf_iff r).mp hr
    have hcost : 2 * (rs.length + 1) * latency = 2 * rs.length * latency + 2 * latency := by ring
    have hrest : HoldsBytes (s.snap.base.toNat + (o + 3 + r.data.length)) (encodeTable rs) s := by
      rw [encodeTable_cons] at hbytes
      simpa only [Nat.add_assoc] using hbytes.after_record
    rw [length_encodeTable_cons] at ho
    simp only [List.length_cons] at h ⊢
    obtain ⟨m, st, h2, hm, hseg⟩ := checkHeader_seg h hl (by omega) hclk hbytes (by omega) p
    rw [checkGotLen_good hctl (by rw [toNat_ofNat_length hdata, later_snap, setStep_snap]; omega),
      toNat_ofNat_length hdata] at hseg
    obtain ⟨n, st', h2', hn, hseg'⟩ := ih (s := later m (setStep st s)) (o := o + 3 + r.data.length)
      (h.after (m := m) (by omega) ⟨h.alive.op, h.alive.offer, h.alive.prog⟩ rfl rfl) hclk hrest
      (by rw [later_snap, setStep_snap]; omega) hrs
    refine ⟨m + n, st', by omega, by omega, (hseg.trans hseg').cast rfl ?_⟩
    rw [← later_later]
    rfl

/-! ## What the player changes -/

/-- The state `s` with what the player writes between the check pass and the end of the operation taken from `t`: its own
variables, the cursor, the transport lines, and the trace. -/
def withPlayed (t s : State) : State :=
  { s with
    seq := { s.seq with
      step := t.seq.step, tp := t.seq.tp, rcmd := t.seq.rcmd, rctl := t.seq.rctl, rlen := t.seq.rlen, ri := t.seq.ri
      prior := t.seq.prior, waited := t.seq.waited, polls := t.seq.polls, sent := t.seq.sent, csHeld := t.seq.csHeld }
    pins := { t.pins with rstN := s.pins.rstN }
    env := { s.env with cycle := t.env.cycle, trace := t.env.trace } }

/-- The player has come from `s` to `t` in `n` cycles, and has emitted `evs`. -/
structure Plays (n : Nat) (evs : List Event) (s t : State) : Prop where
  frame : t = withPlayed t s
  cycle : t.env.cycle = s.env.cycle + n
  events : eventsOf t.env.trace = eventsOf s.env.trace ++ evs

theorem Plays.refl (s : State) : Plays 0 [] s s := ⟨rfl, rfl, (List.append_nil _).symm⟩

theorem Plays.trans {m n : Nat} {as bs : List Event} {s t u : State} (h : Plays m as s t) (k : Plays n bs t u) :
    Plays (m + n) (as ++ bs) s u where
  frame :=
    calc
      u = withPlayed u t := k.frame
      _ = withPlayed u (withPlayed t s) := congrArg (withPlayed u) h.frame
  cycle := by rw [k.cycle, h.cycle, Nat.add_assoc]
  events := by rw [k.events, h.events, List.append_assoc]

section
variable {n : Nat} {evs : List Event} {s t : State}

theorem Plays.snap (h : Plays n evs s t) : t.snap = s.snap := by rw [h.frame]; rfl
theorem Plays.cfg (h : Plays n evs s t) : t.cfg = s.cfg := by rw [h.frame]; rfl
theorem Plays.stat (h : Plays n evs s t) : t.stat = s.stat := by rw [h.frame]; rfl
theorem Plays.tend (h : Plays n evs s t) : t.seq.tend = s.seq.tend := by rw [h.frame]; rfl

theorem Plays.holdsBytes (h : Plays n evs s t) {a : Nat} {bytes : List Byte} (hb : HoldsBytes a bytes s) :
    HoldsBytes a bytes t := hb.congr (by rw [h.frame]; rfl) (by rw [h.frame]; rfl)

theorem Plays.undisturbed (h : Plays n evs s t) {b k latency : Nat} (hs : Undisturbed b latency s) (hb : n + k ≤ b) :
    Undisturbed k latency t := by
  have hframe := h.frame
  refine hs.after hb ⟨?_, ?_, ?_⟩ ?_ h.cycle <;> rw [hframe]
  · exact hs.alive.op
  · exact hs.alive.offer
  · exact hs.alive.prog
  · rfl

theorem Plays.panelReady (h : Plays n evs s t) {b k : Nat}
    (hs : PanelReady b s) (hb : n + k ≤ b) : PanelReady k t := by
  intro j hj
  have hready := hs (n + j) (by omega)
  have hscript : t.env.script = s.env.script := by rw [h.frame]; rfl
  unfold inputAt at hready ⊢
  rwa [h.cfg, h.cycle, hscript, Nat.add_assoc]

end

/-! ## A byte on the bus -/

/-- CS is free and the lines idle, as between two records. -/
def BusFree (s : State) : Prop := s.seq.csHeld = false ∧ IdlePins s.pins

/-- The cycles a data byte takes on the bus; `held` says that a burst run holds CS already (40_bus_transport.md R140, R142). -/
def byteCycles (burst held : Bool) (h : Nat) : Nat := if burst then (if held then 16 * h else 17 * h) else 18 * h

theorem Undisturbed.busFault {n latency : Nat} {s : State} (h : Undisturbed n latency s) {k : Nat} (hk : k ≤ n) :
    (inputAt s (s.env.cycle + k)).busFault = false := (h.faultless k (by omega)).1

/-- A transaction that is framed alone, and does not fail. -/
theorem sendAlone_seg {s : State} {n latency : Nat} (h : Undisturbed n latency s) (hn : 18 * halfPeriod s.cfg ≤ n)
    (k : Kind) (b : Byte) (r : TxRet) (hburst : inBurst k s = false) (hcs : s.seq.csHeld = false)
    (hrst : s.pins.rstN = true) :
    ∃ t, Seg (18 * halfPeriod s.cfg) (txStart k b r s) (afterTx r t) ∧ Plays (18 * halfPeriod s.cfg) [.tx k b] s t
      ∧ t.seq = { s.seq with step := t.seq.step, sent := true, csHeld := false } ∧ IdlePins t.pins := by
  have hfault := h.busFault (k := 17 * halfPeriod s.cfg - 1) (by omega)
  have hseg := txAlone_seg h.alive k b r hburst hcs (h.silent.mono hn)
  rw [hfault] at hseg
  exact ⟨_, hseg, ⟨rfl, rfl, by simp [eventsOf, later]⟩, rfl, rfl, rfl, rfl, hrst⟩

/-- A data byte of a burst run up to the last cycle of its `H_0`, whether it opens the frame or not. -/
theorem sendBurst_sampled_seg {s : State} {n latency : Nat} (h : Undisturbed n latency s) (hl : LinesOk s)
    (hn : byteCycles true s.seq.csHeld (halfPeriod s.cfg) ≤ n) (b : Byte) (r : TxRet) :
    ∃ t, Seg (byteCycles true s.seq.csHeld (halfPeriod s.cfg) - 1) (txStart .data b r s) (sampled .data b r t)
      ∧ Plays (byteCycles true s.seq.csHeld (halfPeriod s.cfg) - 1) [] s t ∧ t.seq = { s.seq with sent := true }
      ∧ t.pins.dc = true ∧ t.pins.rstN = true := by
  cases hcs : s.seq.csHeld with
  | false =>
    rw [hcs] at hn
    exact ⟨_, txBurst_seg h.alive b r hcs (h.silent.mono hn), ⟨rfl, rfl, (List.append_nil _).symm⟩, rfl, rfl, hl.rstN⟩
  | true =>
    rw [hcs] at hn
    obtain ⟨-, hrst, hdc, -, -⟩ := hl.held hcs
    exact ⟨_, txBurstNext_seg h.alive b r hcs (h.silent.mono hn), ⟨rfl, rfl, (List.append_nil _).symm⟩, rfl, hdc, hrst⟩

/-- From the last cycle of its `H_0` on, a byte of a burst run that does not fail returns with CS held. -/
theorem sampled_burst_seg {s : State} {n latency : Nat} (h : Undisturbed n latency s) (hn : 1 ≤ n) (b : Byte) (r : TxRet)
    (hburst : s.snap.burst = true) (hsent : s.seq.sent = true) (hdc : s.pins.dc = true) (hrst : s.pins.rstN = true) :
    ∃ t, Seg 1 (sampled .data b r s) (afterTx r t) ∧ Plays 1 [.tx .data b] s t
      ∧ t.seq = { s.seq with step := t.seq.step, csHeld := true } ∧ LinesOk t := by
  have hfault : (input s).busFault = false := h.busFault (k := 0) (by omega)
  have hseg := txBurstReturn_seg h.alive b r hburst (h.silent.mono hn)
  rw [hfault] at hseg
  exact ⟨_, hseg, ⟨rfl, rfl, by simp [eventsOf, later]⟩, rfl, nofun, fun _ => ⟨rfl, hrst, hdc, hburst, hsent⟩⟩

theorem byteCycles_pos (burst held : Bool) (c : PanelConfig) : 0 < byteCycles burst held (halfPeriod c) := by
  have hpos := halfPeriod_pos c
  cases burst <;> cases held <;> simp [byteCycles] <;> omega

/-- A data byte that does not fail, framed alone or in a burst run. -/
theorem sendData_seg {s : State} {n latency : Nat} (h : Undisturbed n latency s) (hl : LinesOk s)
    (hn : byteCycles s.snap.burst s.seq.csHeld (halfPeriod s.cfg) ≤ n) (b : Byte) (r : TxRet) :
    ∃ t, Seg (byteCycles s.snap.burst s.seq.csHeld (halfPeriod s.cfg)) (txStart .data b r s) (afterTx r t)
      ∧ Plays (byteCycles s.snap.burst s.seq.csHeld (halfPeriod s.cfg)) [.tx .data b] s t
      ∧ t.seq = { s.seq with step := t.seq.step, sent := true, csHeld := s.snap.burst } ∧ LinesOk t := by
  cases hburst : s.snap.burst with
  | false =>
    rw [hburst] at hn
    have hcs : s.seq.csHeld = false := by
      by_contra hc
      have hheld := (hl.held (by simpa using hc)).2.2.2.1
      simp [hburst] at hheld
    obtain ⟨t, hseg, hplays, hseq, hidle⟩ := sendAlone_seg h hn .data b r (by simp [inBurst, hburst]) hcs hl.rstN
    exact ⟨t, hseg, hplays, hseq, .of_free (by rw [hseq]) hidle⟩
  | true =>
    rw [hburst] at hn
    have hpos := byteCycles_pos true s.seq.csHeld s.cfg
    obtain ⟨v, hseg, hplays, hseq, hdc, hrst⟩ := sendBurst_sampled_seg h hl hn b r
    obtain ⟨t, hseg', hplays', hseq', hlines⟩ := sampled_burst_seg (hplays.undisturbed h (k := 1) (by omega)) le_rfl b r
      (by rw [hplays.snap, hburst]) (by rw [hseq]) hdc hrst
    have hcycles := Nat.sub_add_cancel hpos
    refine ⟨t, (hseg.trans hseg').cast hcycles rfl, hcycles ▸ hplays.trans hplays', ?_, hlines⟩
    rw [hseq'.trans (congrArg (fun q : Seq => { q with step := t.seq.step, csHeld := true }) hseq)]

end Sys2Proof.Machine
end

section
/-!
SUPPORT. The player as a run of cycles, continued: the run of a record's data bytes, a record, and the table.
-/

namespace Sys2Proof.Machine

open Sys2Proof

/-! ## The run of a record's data bytes -/

/-- The cycles that `n` more data bytes of a run take on the bus, with the phase E of a burst run (40_bus_transport.md R142). -/
def runCycles (burst held : Bool) (h n : Nat) : Nat :=
  if burst then (if held then 16 * n * h + h else if n = 0 then 0 else (16 * n + 2) * h) else 18 * h * n

theorem runCycles_succ (burst held : Bool) (h n : Nat) :
    runCycles burst held h (n + 1) = byteCycles burst held h + runCycles burst burst h n := by
  cases burst <;> cases held <;> simp [runCycles, byteCycles] <;> ring

theorem recordCycles_eq (burst : Bool) (h : Nat) (r : Record) :
    recordCycles burst h r = 18 * h + runCycles burst false h r.data.length := by
  cases burst <;> simp [recordCycles, runCycles]

theorem playData_more {s : State} (h : s.seq.ri < s.seq.rlen.toNat) :
    playData s = readStart (s.seq.tp + 3 + s.seq.ri) .playData s := if_pos h

theorem playData_end {s : State} (h : s.seq.rlen.toNat ≤ s.seq.ri) : playData s = runEnd .play playWait s :=
  if_neg (by omega)

/-- The player reads a data byte and sends it. -/
theorem playByte_seg {s : State} {n latency : Nat} {b : Byte} (h : Undisturbed n latency s) (hl : 1 ≤ latency)
    (hn : latency + byteCycles s.snap.burst s.seq.csHeld (halfPeriod s.cfg) ≤ n) (hlines : LinesOk s)
    (hri : s.seq.ri < s.seq.rlen.toNat) (hb : memGet s.mem (s.seq.tp + 3 + s.seq.ri) = some b) (hr : s.env.raced = []) :
    ∃ m t, 1 ≤ m ∧ m ≤ latency
      ∧ Seg (m + byteCycles s.snap.burst s.seq.csHeld (halfPeriod s.cfg)) (playData s) (playData t)
      ∧ Plays (m + byteCycles s.snap.burst s.seq.csHeld (halfPeriod s.cfg)) [.tx .data b] s t
      ∧ t.seq = { s.seq with step := t.seq.step, ri := s.seq.ri + 1, sent := true, csHeld := s.snap.burst }
      ∧ LinesOk t := by
  obtain ⟨m, st, h1, hm, hread⟩ := memRead_seg h hl (by omega) hb hr .playData
  have hgot : Plays m [] s (later m (setStep st { s with pins := { s.pins with sclk := false } })) :=
    ⟨rfl, rfl, (List.append_nil _).symm⟩
  have hlines' : LinesOk (later m (setStep st { s with pins := { s.pins with sclk := false } })) :=
    ⟨fun hc => ⟨(hlines.free hc).1, rfl, (hlines.free hc).2.2⟩, hlines.held⟩
  obtain ⟨t, hsend, hplays, hseq, hlines''⟩ := sendData_seg
    (hgot.undisturbed h (k := byteCycles s.snap.burst s.seq.csHeld (halfPeriod s.cfg)) (by omega)) hlines' le_rfl b
    .playData
  have hsent : Plays (m + byteCycles s.snap.burst s.seq.csHeld (halfPeriod s.cfg)) [.tx .data b] s t := hgot.trans hplays
  rw [playData_more hri]
  refine ⟨m, { t with seq := { t.seq with ri := t.seq.ri + 1 } }, h1, hm, hread.trans hsend,
    ⟨?_, hsent.cycle, hsent.events⟩, ?_, ⟨hlines''.free, hlines''.held⟩⟩
  · exact congrArg (fun v : State => { v with seq := { v.seq with ri := t.seq.ri + 1 } }) hsent.frame
  · show { t.seq with ri := t.seq.ri + 1 } = _
    rw [hseq]
    rfl

/-- The player sends the data bytes of a record from `s.ri` on, and the run ends with CS free. -/
theorem playData_seg {latency : Nat} (hl : 1 ≤ latency) (ds : List Byte) :
    ∀ {s : State} {c : Nat}, c = runCycles s.snap.burst s.seq.csHeld (halfPeriod s.cfg) ds.length →
      Undisturbed (ds.length * latency + c) latency s → LinesOk s → s.seq.sent = true →
      HoldsBytes (s.seq.tp + 3 + s.seq.ri) ds s → s.seq.rlen.toNat = s.seq.ri + ds.length →
      ∃ m t, ds.length ≤ m ∧ m ≤ ds.length * latency ∧ Seg (m + c) (playData s) (playWait t)
        ∧ Plays (m + c) (ds.map (.tx .data)) s t
        ∧ t.seq = { s.seq with step := t.seq.step, ri := t.seq.ri, csHeld := false } ∧ IdlePins t.pins := by
  induction ds with
  | nil =>
    intro s c hc h hlines hsent _ hlen
    rw [playData_end (by simp [hlen])]
    cases hcs : s.seq.csHeld with
    | true =>
      obtain ⟨-, hrst, -, hburst, -⟩ := hlines.held hcs
      obtain rfl : c = halfPeriod s.cfg := by simp [hc, hcs, hburst, runCycles]
      have hseg := runEnd_seg h.alive .play hcs (h.silent.mono (by omega))
      exact ⟨0, _, le_rfl, by simp, hseg.cast (Nat.zero_add _).symm rfl,
        ⟨rfl, by simp, (List.append_nil _).symm⟩, rfl, rfl, rfl, rfl, hrst⟩
    | false =>
      obtain rfl : c = 0 := by simp [hc, hcs, runCycles]
      have hend : runEnd .play playWait s = playWait s := by simp [runEnd, hcs]
      rw [hend]
      exact ⟨0, s, le_rfl, by simp, Seg.refl _, Plays.refl s, by rw [← hcs], hlines.free hcs⟩
  | cons b ds ih =>
    intro s c hc h hlines hsent hbytes hlen
    rw [List.length_cons] at hc h hlen ⊢
    rw [runCycles_succ] at hc
    have hcost : (ds.length + 1) * latency = ds.length * latency + latency := Nat.succ_mul ..
    obtain ⟨m, t, h1, hm, hseg, hplays, hseq, hlines'⟩ :=
      playByte_seg h hl (by omega) hlines (by omega) hbytes.head hbytes.1
    have hcycles : runCycles s.snap.burst s.snap.burst (halfPeriod s.cfg) ds.length
        = runCycles t.snap.burst t.seq.csHeld (halfPeriod t.cfg) ds.length := by
      rw [hplays.snap, hplays.cfg, hseq]
    obtain ⟨m', u, h1', hm', hseg', hplays', hseq', hidle⟩ := ih hcycles (hplays.undisturbed h (by omega)) hlines'
      (by rw [hseq])
      (by rw [hseq]; exact hplays.holdsBytes hbytes.tail)
      (by rw [hseq]; show s.seq.rlen.toNat = s.seq.ri + 1 + ds.length; omega)
    have hsum : m + byteCycles s.snap.burst s.seq.csHeld (halfPeriod s.cfg)
        + (m' + runCycles s.snap.burst s.snap.burst (halfPeriod s.cfg) ds.length) = m + m' + c := by omega
    refine ⟨m + m', u, by omega, by omega, (hseg.trans hseg').cast hsum rfl, hsum ▸ hplays.trans hplays', ?_, hidle⟩
    calc
      u.seq = { t.seq with step := u.seq.step, ri := u.seq.ri, csHeld := false } := hseq'
      _ = _ := by rw [hseq, ← hsent]

end Sys2Proof.Machine
end

section
/-!
SUPPORT. A whole record and a whole table played, and the operations that play one from their accept cycle to their finish.
-/

namespace Sys2Proof.Machine

open Sys2Proof

/-! ## A record -/

theorem playRecord_more {s : State} (h : s.seq.tp + 3 ≤ s.seq.tend) : playRecord s = readStart s.seq.tp .playCmd s := by
  unfold playRecord
  rw [if_pos (by omega), if_neg (by omega)]

/-- A header that is as the check pass found it. -/
theorem playGotLen_good {s : State} {b : Byte} (hc : ctlReserved s.seq.rctl = 0)
    (h : s.seq.tp + 3 + b.toNat ≤ s.seq.tend) :
    playGotLen b s = txStart .command s.seq.rcmd .playCmd { s with seq := { s.seq with rlen := b } } :=
  if_neg (by simp only [hc, ne_eq, not_true_eq_false, false_or]; omega)

/-- The player reads a record's header and starts to send its command byte. -/
theorem playHeader_seg {s : State} {n latency : Nat} {cmd ctl len : Byte} {rest : List Byte}
    (h : Undisturbed n latency s) (hl : 1 ≤ latency) (hn : 3 * latency ≤ n) (hclk : s.pins.sclk = false)
    (hbytes : HoldsBytes s.seq.tp (cmd :: ctl :: len :: rest) s) (hctl : ctlReserved ctl = 0)
    (hfit : s.seq.tp + 3 + len.toNat ≤ s.seq.tend) :
    ∃ m st, 3 ≤ m ∧ m ≤ 3 * latency ∧
      Seg m (playRecord s) (txStart .command cmd .playCmd
        (later m { s with seq := { s.seq with rcmd := cmd, rctl := ctl, rlen := len, step := st } })) := by
  have halive := h.alive
  rw [playRecord_more (by omega)]
  obtain ⟨m₁, st₁, h1, hm₁, hseg₁⟩ := memRead_idle_seg h hl (by omega) hbytes.head hbytes.1 hclk .playCmd
  obtain ⟨m₂, st₂, h2, hm₂, hseg₂⟩ := memRead_idle_seg
    (s := later m₁ { s with seq := { s.seq with rcmd := cmd, step := st₁ } })
    (h.after (m := m₁) (n := latency) (by omega) ⟨halive.op, halive.offer, halive.prog⟩ rfl rfl) hl le_rfl
    hbytes.tail.head hbytes.1 hclk .playCtl
  obtain ⟨m₃, st₃, h3, hm₃, hseg₃⟩ := memRead_idle_seg
    (s := later m₂ (later m₁ { s with seq := { s.seq with rcmd := cmd, rctl := ctl, step := st₂ } }))
    (h.after (m := m₁ + m₂) (n := latency) (by omega) ⟨halive.op, halive.offer, halive.prog⟩ rfl (Nat.add_assoc ..)) hl
    le_rfl hbytes.tail.tail.head hbytes.1 hclk .playLen
  refine ⟨m₁ + m₂ + m₃, st₃, by omega, by omega, ((hseg₁.trans hseg₂).trans hseg₃).cast rfl ?_⟩
  rw [← later_later, ← later_later]
  exact playGotLen_good hctl hfit

/-- A busy-poll of a panel that is ready takes one sample, and returns in the cycle it is entered in. -/
theorem waitIdle_ready {s : State} (h : busyLevel s.cfg (input s).pads = false) (hp : s.stat.panel ≠ .busy) (r : PollRet)
    (next : State → State) : waitIdle r next s = next (pollEnded 0 false s) := by
  have hsample : sampleBusy (setPanel .busy { s with
      seq := { s.seq with prior := s.stat.panel, waited := 0, polls := 0 } }) = false := by
    simpa [sampleBusy, input, inputAt] using h
  rw [waitIdle, pollSample_eq, hsample, Bool.not_false, if_pos rfl, pollSampled, hsample]
  congr 1
  simp [pollEnded, emit, setPanel_eq, panelEvent, hp, hp.symm]

/-- After its data bytes a record with the WAIT flag polls once, and the next record follows. -/
theorem playWait_ready {s : State} (h : PanelReady 1 s) (hp : s.stat.panel ≠ .busy) :
    ∃ t, playWait s = playAdvance t
      ∧ Plays 0 (if ctlWait s.seq.rctl then [.panel .busy, .busySample false, .panel s.stat.panel] else []) s t
      ∧ t.seq = { s.seq with prior := t.seq.prior, waited := t.seq.waited, polls := t.seq.polls } ∧ t.pins = s.pins := by
  cases hw : ctlWait s.seq.rctl with
  | false => exact ⟨s, playWait_of_noWait hw, Plays.refl s, rfl, rfl⟩
  | true =>
    have hpoll : playWait s = playAdvance (pollEnded 0 false s) :=
      (if_pos hw).trans (waitIdle_ready (h 0 Nat.zero_lt_one) hp .play playAdvance)
    exact ⟨_, hpoll, ⟨rfl, by simp [pollEnded], by simp [pollEnded, eventsOf]⟩, rfl, rfl⟩

/-- A record's command byte is sent, and the player stands before its data bytes. -/
theorem playCommand_seg {s : State} {n latency : Nat} {r : Record} {rest : List Byte} (h : Undisturbed n latency s)
    (hl : 1 ≤ latency) (hn : 3 * latency + 18 * halfPeriod s.cfg ≤ n) (hfree : BusFree s)
    (hbytes : HoldsBytes s.seq.tp (r.encode ++ rest) s) (hwf : r.wf = true)
    (hfit : s.seq.tp + 3 + r.data.length ≤ s.seq.tend) :
    ∃ m t, 3 ≤ m ∧ m ≤ 3 * latency ∧ Seg (m + 18 * halfPeriod s.cfg) (playRecord s) (playData t)
      ∧ Plays (m + 18 * halfPeriod s.cfg) [.tx .command r.cmd] s t
      ∧ t.seq = { s.seq with
        step := t.seq.step, rcmd := r.cmd, rctl := r.ctl, rlen := BitVec.ofNat 8 r.data.length, ri := 0, sent := true }
      ∧ BusFree t := by
  obtain ⟨hctl, hdata⟩ := (record_wf_iff r).mp hwf
  obtain ⟨hcs, hidle⟩ := hfree
  obtain ⟨m, st, h3, hm, hread⟩ := playHeader_seg h hl (by omega) hidle.2.1 hbytes hctl
    (by rw [toNat_ofNat_length hdata]; exact hfit)
  have hgot : Plays m [] s (later m { s with
      seq := { s.seq with rcmd := r.cmd, rctl := r.ctl, rlen := BitVec.ofNat 8 r.data.length, step := st } }) :=
    ⟨rfl, rfl, (List.append_nil _).symm⟩
  obtain ⟨t, hsend, hplays, hseq, hidle'⟩ := sendAlone_seg
    (hgot.undisturbed h (k := 18 * halfPeriod s.cfg) (by omega)) le_rfl .command r.cmd .playCmd rfl hcs hidle.2.2.2
  have hsent := hgot.trans hplays
  refine ⟨m, { t with seq := { t.seq with ri := 0 } }, h3, hm, hread.trans hsend, ⟨?_, hsent.cycle, hsent.events⟩, ?_, ?_,
    hidle'⟩
  · exact congrArg (fun u : State => { u with seq := { u.seq with ri := 0 } }) hsent.frame
  · show { t.seq with ri := 0 } = _
    rw [hseq, ← hcs]
    rfl
  · show t.seq.csHeld = false
    rw [hseq]

/-- The player plays a record and comes to the next one. -/
theorem playRecord_seg {s : State} {n c latency : Nat} {r : Record} {rest : List Byte} (h : Undisturbed n latency s)
    (hl : 1 ≤ latency) (hc : c = recordCycles s.snap.burst (halfPeriod s.cfg) r)
    (hn : (3 + r.data.length) * latency + c ≤ n) (hready : PanelReady (n + 1) s) (hp : s.stat.panel ≠ .busy)
    (hfree : BusFree s) (hbytes : HoldsBytes s.seq.tp (r.encode ++ rest) s) (hwf : r.wf = true)
    (hfit : s.seq.tp + 3 + r.data.length ≤ s.seq.tend) :
    ∃ m t, 3 + r.data.length ≤ m ∧ m ≤ (3 + r.data.length) * latency ∧ Seg (m + c) (playRecord s) (playRecord t)
      ∧ Plays (m + c) (recordEvents s.stat.panel r) s t ∧ t.seq.tp = s.seq.tp + 3 + r.data.length
      ∧ t.seq.sent = true ∧ BusFree t := by
  have hdata := ((record_wf_iff r).mp hwf).2
  have hcost : (3 + r.data.length) * latency = 3 * latency + r.data.length * latency := Nat.add_mul ..
  rw [recordCycles_eq] at hc
  obtain ⟨m₁, t₁, h3, hm₁, hseg₁, hplays₁, hseq₁, hfree₁⟩ := playCommand_seg h hl (by omega) hfree hbytes hwf hfit
  have hrun : runCycles s.snap.burst false (halfPeriod s.cfg) r.data.length
      = runCycles t₁.snap.burst t₁.seq.csHeld (halfPeriod t₁.cfg) r.data.length := by
    rw [hplays₁.snap, hplays₁.cfg, hfree₁.1]
  obtain ⟨m₂, t₂, h2, hm₂, hseg₂, hplays₂, hseq₂, hidle₂⟩ := playData_seg hl r.data hrun
    (hplays₁.undisturbed h (by omega)) (.of_free hfree₁.1 hfree₁.2) (by rw [hseq₁])
    (by rw [hseq₁]; exact hplays₁.holdsBytes (HoldsBytes.append_left (ys := rest) hbytes.tail.tail.tail))
    (by rw [hseq₁]; show (BitVec.ofNat 8 r.data.length).toNat = 0 + r.data.length; rw [toNat_ofNat_length hdata, Nat.zero_add])
  have hplays₁₂ := hplays₁.trans hplays₂
  obtain ⟨t₃, hwait, hplays₃, hseq₃, hpins₃⟩ := playWait_ready (hplays₁₂.panelReady hready (k := 1) (by omega))
    (by rw [hplays₁₂.stat]; exact hp)
  have hplays := hplays₁₂.trans hplays₃
  have hcycles : m₁ + 18 * halfPeriod s.cfg + (m₂ + runCycles s.snap.burst false (halfPeriod s.cfg) r.data.length)
      = m₁ + m₂ + c := by omega
  have hevents : [Event.tx .command r.cmd] ++ r.data.map (.tx .data)
      ++ (if ctlWait t₂.seq.rctl then [.panel .busy, .busySample false, .panel t₂.stat.panel] else [])
      = recordEvents s.stat.panel r := by
    rw [hplays₁₂.stat, hseq₂, hseq₁]
    rfl
  rw [hevents, hcycles] at hplays
  have htp : t₃.seq.tp = s.seq.tp := by rw [hseq₃, hseq₂, hseq₁]
  have hlen : t₃.seq.rlen.toNat = r.data.length := by
    rw [hseq₃, hseq₂, hseq₁]
    exact toNat_ofNat_length hdata
  refine ⟨m₁ + m₂, { t₃ with seq := { t₃.seq with tp := t₃.seq.tp + 3 + t₃.seq.rlen.toNat } }, by omega, by omega,
    (hseg₁.trans hseg₂).cast hcycles hwait, ⟨?_, hplays.cycle, hplays.events⟩, by rw [htp, hlen], ?_, ?_, ?_⟩
  · exact congrArg (fun u : State => { u with seq := { u.seq with tp := t₃.seq.tp + 3 + t₃.seq.rlen.toNat } })
      hplays.frame
  · show t₃.seq.sent = true
    rw [hseq₃, hseq₂, hseq₁]
  · show t₃.seq.csHeld = false
    rw [hseq₃, hseq₂]
  · show IdlePins t₃.pins
    rw [hpins₃]
    exact hidle₂

/-! ## A table -/

/-- The player plays a table to its end. A read is made for each of the table's bytes. -/
theorem playTable_seg {latency : Nat} (hl : 1 ≤ latency) (rs : List Record) :
    ∀ {s : State} {c : Nat}, c = (rs.map (recordCycles s.snap.burst (halfPeriod s.cfg))).sum →
      Undisturbed ((encodeTable rs).length * latency + c) latency s →
      PanelReady ((encodeTable rs).length * latency + c + 1) s → s.stat.panel ≠ .busy → BusFree s →
      (∀ r ∈ rs, r.wf = true) → HoldsBytes s.seq.tp (encodeTable rs) s →
      s.seq.tp + (encodeTable rs).length = s.seq.tend →
      ∃ m t, (encodeTable rs).length ≤ m ∧ m ≤ (encodeTable rs).length * latency
        ∧ Seg (m + c) (playRecord s) (playRecord t) ∧ Plays (m + c) (rs.flatMap (recordEvents s.stat.panel)) s t
        ∧ t.seq.tp = s.seq.tend ∧ t.seq.sent = (s.seq.sent || decide (rs ≠ [])) ∧ BusFree t := by
  induction rs with
  | nil =>
    rintro s c rfl _ _ _ hfree _ _ hend
    exact ⟨0, s, le_rfl, by simp, Seg.refl _, Plays.refl s, hend, by simp, hfree⟩
  | cons r rs ih =>
    intro s c hc h hready hp hfree hwf hbytes hend
    obtain ⟨hr, hrs⟩ := List.forall_mem_cons.mp hwf
    rw [length_encodeTable_cons] at h hready hend ⊢
    rw [List.map_cons, List.sum_cons] at hc
    have hcost : (3 + r.data.length + (encodeTable rs).length) * latency
        = (3 + r.data.length) * latency + (encodeTable rs).length * latency := Nat.add_mul ..
    obtain ⟨m, t, h3, hm, hseg, hplays, htp, hsent, hfree'⟩ := playRecord_seg h hl rfl (by omega) hready hp hfree hbytes
      hr (by omega)
    have hcycles : (rs.map (recordCycles s.snap.burst (halfPeriod s.cfg))).sum
        = (rs.map (recordCycles t.snap.burst (halfPeriod t.cfg))).sum := by
      rw [hplays.snap, hplays.cfg]
    obtain ⟨m', u, h3', hm', hseg', hplays', htp', hsent', hfree''⟩ := ih hcycles (hplays.undisturbed h (by omega))
      (hplays.panelReady hready (by omega)) (by rw [hplays.stat]; exact hp) hfree' hrs
      (by rw [htp]; exact hplays.holdsBytes (HoldsBytes.after_record hbytes)) (by rw [htp, hplays.tend]; omega)
    have hsum : m + recordCycles s.snap.burst (halfPeriod s.cfg) r
        + (m' + (rs.map (recordCycles s.snap.burst (halfPeriod s.cfg))).sum) = m + m' + c := by omega
    refine ⟨m + m', u, by omega, by omega, (hseg.trans hseg').cast hsum rfl, ?_, by rw [htp', hplays.tend], ?_, hfree''⟩
    · rw [hplays.stat] at hplays'
      exact hsum ▸ hplays.trans hplays'
    · rw [hsent', hsent]
      simp

/-- A table of records is read twice a record in its check pass, and once a byte while it is played. -/
theorem sum_reads (rs : List Record) :
    (rs.map fun r => 5 + r.data.length).sum = 2 * rs.length + (encodeTable rs).length := by
  induction rs with
  | nil => rfl
  | cons r rs ih =>
    rw [List.map_cons, List.sum_cons, ih, length_encodeTable_cons, List.length_cons]
    omega

/-- The state in which the check pass hands the table to the player (41_panel_sequencer.md R182 to R184). -/
def playStarted (p : PanelState) (s : State) : State :=
  { s with
    stat := { s.stat with panel := p }
    seq := { s.seq with tp := s.snap.base.toNat, tend := s.snap.base.toNat + s.snap.len.toNat }
    env := { s.env with trace := s.env.trace ++ panelEvent p s } }

theorem checkPassed_eq (p : PanelState) (s : State) : checkPassed p s = playRecord (playStarted p s) := by
  simp [checkPassed, playStarted, setPanel_eq]

/-- From the checks of a well-formed table to the finish that follows its last record. -/
theorem tableBody_seg {latency body : Nat} {s : State} {p : PanelState} {rs : List Record} (hl : 1 ≤ latency)
    (hbody : body = (rs.map (recordCycles s.snap.burst (halfPeriod s.cfg))).sum)
    (h : Undisturbed ((2 * rs.length + (encodeTable rs).length) * latency + body) latency s)
    (hready : PanelReady ((2 * rs.length + (encodeTable rs).length) * latency + body + 1) s) (hp : p ≠ .busy)
    (hfree : BusFree s) (hwf : ∀ r ∈ rs, r.wf = true) (hnull : s.snap.len ≠ 0 → s.snap.base ≠ 0)
    (hfit : s.snap.base.toNat + s.snap.len.toNat ≤ 2 ^ 32) (hlen : (encodeTable rs).length = s.snap.len.toNat)
    (hbytes : HoldsBytes s.snap.base.toNat (encodeTable rs) s) :
    ∃ n m st t, 2 * rs.length + (encodeTable rs).length ≤ n + m
      ∧ n + m ≤ (2 * rs.length + (encodeTable rs).length) * latency
      ∧ Seg (n + (m + body)) (tableBody p s) (finish .none (setPanel .idle t))
      ∧ Plays (m + body) (rs.flatMap (recordEvents p)) (playStarted p (later n (setStep st s))) t
      ∧ t.seq.tp = s.snap.base.toNat + s.snap.len.toNat ∧ t.seq.sent = (s.seq.sent || decide (rs ≠ [])) ∧ BusFree t := by
  rw [Nat.add_mul] at h hready ⊢
  obtain ⟨n, st, h2, hn, hcheck⟩ := checkRecord_wellFormed_seg hl p rs (s := s) (o := 0)
    (h.after (m := 0) (by omega) h.alive rfl rfl) hfree.2.2.1 hbytes (by omega) hwf
  rw [checkPassed_eq] at hcheck
  have hready' : PanelReady ((encodeTable rs).length * latency + body + 1) (playStarted p (later n (setStep st s))) :=
    fun k hk => by
      have := hready (n + k) (by omega)
      rwa [← Nat.add_assoc] at this
  obtain ⟨m, t, h1, hm, hplay, hplays, htp, hsent, hfree'⟩ := playTable_seg hl rs
    (s := playStarted p (later n (setStep st s))) (c := body) hbody
    (h.after (m := n) (by omega) ⟨h.alive.op, h.alive.offer, h.alive.prog⟩ rfl rfl) hready' hp hfree hwf hbytes
    (congrArg (s.snap.base.toNat + ·) hlen)
  rw [playRecord_end (s := t) (by rw [htp, hplays.tend])] at hplay
  rw [tableBody_checks hnull hfit]
  exact ⟨n, m, st, t, by omega, by omega, hcheck.trans hplay, hplays, htp, hsent, hfree'⟩

/-- The state in which an operation that has played its table rests in the next cycle (60_exceptions.md R263). -/
theorem Plays.tick_finish {n k : Nat} {evs : List Event} {p : PanelState} {i : Instr} {st : Step} {s t : State}
    (h : Plays k evs (playStarted p (later n (setStep st (begin i.opcode 0 s)))) t) (hp : s.stat.panel = .idle)
    (hprog : s.env.prog = []) (hidle : IdlePins s.pins) (hfree : BusFree t) :
    tick (finish .none (setPanel .idle t)) = { s with
      stat := { s.stat with code := .none, irqDone := true }
      seq := { s.seq with
        op := none, offer := none, pre := .idle, sent := t.seq.sent, csHeld := false, step := .idle
        tp := t.seq.tp, tend := t.seq.tend, rcmd := t.seq.rcmd, rctl := t.seq.rctl, rlen := t.seq.rlen, ri := t.seq.ri
        prior := t.seq.prior, waited := t.seq.waited, polls := t.seq.polls }
      snap := snapshot i.opcode 0 s.regs
      pins := { s.pins with dc := t.pins.dc }
      env := { s.env with
        cycle := s.env.cycle + (n + k) + 1, raced := []
        trace := t.env.trace ++ panelEvent .idle t ++ [(s.env.cycle + (n + k), .done i.opcode .none)] } } := by
  obtain ⟨hcsN, hclk, hmosi, -⟩ := hidle
  obtain ⟨hcs, hcsN', hclk', hmosi', -⟩ := hfree
  have hcycle : t.env.cycle = s.env.cycle + (n + k) := h.cycle.trans (Nat.add_assoc ..)
  rw [h.frame]
  simp [tick, nextCycle, active, finish, emit, setPanel_eq, withPlayed, playStarted, later, setStep, begin, hp, hprog,
    hcsN, hclk, hmosi, hcs, hcsN', hclk', hmosi', hcycle, panelEvent]

/-- Settles O23: the check pass lets the table pass, and the player plays it to its end. -/
theorem wellFormedTableIsPlayed : Obligations.WellFormedTableIsPlayed := by
  intro s i p f base len rs latency bound reads body hmem hpair ho hp hnull hfit hlen hwf hbytes hpins hl hreads hbody hbound
    hq hf hready
  have hop := tableOperation_of_mem hmem
  obtain ⟨rfl, rfl⟩ := Prod.mk.inj (hpair.trans (hop.snap_pair (s := s) 0).symm)
  rw [sum_reads] at hreads
  subst hreads hbound
  obtain ⟨n, m, st, t, hmin, hmax, hseg, hplays, htp, hsent, hfree⟩ := tableBody_seg (s := begin i.opcode 0 s) hl hbody
    (.of_quietFor hq hf ⟨by simp, rfl, hq.1⟩ rfl rfl) hready hop.powering.ne_busy ⟨rfl, hpins⟩ hwf hnull hfit hlen hbytes
  have htotal : n + (m + body) = n + m + body := (Nat.add_assoc ..).symm
  have hend := (Seg.after_accept ⟨hq.1, fun k hk => hq.2 k (by omega)⟩ (hseg.cast htotal rfl)).trans
    (congrArg _ (hplays.tick_finish hp hq.1 hpins hfree))
  refine ⟨_, _, n + m, hop.exec_eq ho hp, hmin, hmax, hend, ?_, hpins, ?_⟩
  · have hne : t.stat.panel ≠ .idle := by rw [hplays.stat]; exact hop.powering.ne_idle
    have hevents := hplays.events
    simp only [eventsOf, List.map_append] at hevents ⊢
    rw [hevents]
    simp [playStarted, panelEvent, hp, hop.powering.ne_idle.symm, hne]
  · rw [htp, hsent, hplays.tend, ← htotal]
    rfl

end Sys2Proof.Machine
end

section
/-!
SUPPORT. Cycles of a running operation counted from any state on, and the statements that only count down: phase E in its three
uses, and a read's latency. From these, the abort cleanup, and what follows a byte of a burst run.
-/

namespace Sys2Proof.Machine

open Sys2Proof

/-! ## Cycles with a silent host -/

/-- A cycle of a running operation with a silent host. -/
theorem Running.step_eq {n : Nat} {s : State} (hr : Running s) (hq : QuietFor (n + 1) s) :
    step s = .next (tick (advance s)) := by
  have hqi : quietInput (input s) := hq.2 0 (by omega)
  obtain ⟨hbad, hend⟩ := endCycle_quiet (advance s) hqi hq.1
  have ha : active s = true := by simpa [active, Option.isSome_iff_ne_none] using hr.op
  have hseq : sequencerCycle s = .next (advance s) := by simp [sequencerCycle, hr.offer, ha, hr.cursor]
  rw [step_of_sequencerCycle hqi.1 hbad hseq, hend]

theorem Running.cycles_succ {n : Nat} {s : State} (hr : Running s) (hq : QuietFor (n + 1) s) :
    cycles (n + 1) s = cycles n (tick (advance s)) := by rw [cycles, hr.step_eq hq]

/-- The silence that is left after `m` cycles. -/
theorem QuietFor.after {m n b : Nat} {s t : State} (h : QuietFor b s) (hb : m + n ≤ b)
    (hs : t.env.script = s.env.script) (hp : t.env.prog = []) (hc : t.env.cycle = s.env.cycle + m) : QuietFor n t := by
  refine ⟨hp, fun k hk => ?_⟩
  have hk' := h.2 (m + k) (by omega)
  unfold inputAt at hk' ⊢
  rwa [hs, hc, Nat.add_assoc]

theorem QuietFor.mono {m n : Nat} {s : State} (h : QuietFor n s) (hm : m ≤ n) : QuietFor m s :=
  ⟨h.1, fun k hk => h.2 k (by omega)⟩

theorem QuietFor.alive {n : Nat} {s : State} (h : QuietFor n s) (hop : s.seq.op ≠ none) (hoff : s.seq.offer = none) :
    Alive s := ⟨hop, hoff, h.1⟩

/-! ## The invariant at a statement -/

/-- The levels of the lines at the statement at which an operation runs. -/
theorem Inv.pinsAt {s : State} {st : Step} (h : Inv s) (hop : s.seq.op ≠ none) (hoff : s.seq.offer = none)
    (hst : s.seq.step = st) : PinsAt { s.seq with step := st } s.snap s.pins := by
  subst hst
  exact h.bus.pins (h.ambient hop hoff).configured

/-- What is known of the progress of the statement. -/
theorem Inv.txAt {s : State} {st : Step} (h : Inv s) (hst : s.seq.step = st) :
    TxAt { s.seq with step := st } s.cfg s.snap := by
  subst hst
  exact h.bus.tx

/-! ## Statements that count down -/

/-- A family of statements that only counts its cycles: with `l + 1` of them left, a cycle leaves `l` and changes nothing
else. -/
structure Countdown (f : Nat → Step) : Prop where
  timed : ∀ l, f l ≠ .idle
  counts : ∀ l s, s.seq.step = f (l + 1) → advance s = setStep (f l) s

theorem countdown_cleanup (e : Code) : Countdown (.cleanup · e) :=
  ⟨fun _ => nofun, fun l s hst => by simp [advance, hst, cleanupCycle]⟩

theorem countdown_runEnd (r : RunRet) : Countdown (.runEnd · r) :=
  ⟨fun _ => nofun, fun l s hst => by simp [advance, hst, runEndCycle]⟩

theorem countdown_read (a : Nat) (d : ReadDraw) (r : ReadRet) : Countdown (.read a · d r) :=
  ⟨fun _ => nofun, fun l s hst => by simp [advance, hst, readCycle]⟩

theorem countdown_phaseE (k : Kind) (b : Byte) (f : Bool) (r : TxRet) : Countdown (.tx k b .e · f r) :=
  ⟨fun _ => nofun, fun l s hst => by simp [advance, hst, txCycle, txHold]⟩

/-- `m` cycles of a countdown. -/
theorem Countdown.cycles_eq {f : Nat → Step} (hf : Countdown f) {l m : Nat} {s : State} (ha : Alive s)
    (hst : s.seq.step = f (l + m)) (hq : QuietFor m s) : cycles m s = .next (later m (setStep (f l) s)) := by
  induction m generalizing s with
  | zero =>
    have hs : setStep (f l) s = s := by rw [setStep, ← show s.seq.step = f l from hst]
    rw [cycles, later_zero, hs]
  | succ m ih =>
    have hne : ∀ l, f l ≠ .idle := hf.timed
    have hnext : Alive (later 1 (setStep (f (l + m)) s)) := ⟨ha.op, ha.offer, ha.prog⟩
    have htick : tick (setStep (f (l + m)) s) = later 1 (setStep (f (l + m)) s) :=
      Running.tick_eq ⟨ha.op, ha.offer, hne _, ha.prog⟩
    rw [Running.cycles_succ (ha.running (hst ▸ hne _)) hq, hf.counts (l + m) s hst, htick,
      ih hnext rfl (hq.after (by omega) rfl ha.prog rfl)]
    simp only [later, setStep, Nat.add_assoc, Nat.add_comm 1 m]

/-- A cycle that starts a countdown, and `m` cycles of it. -/
theorem Countdown.cycles_start {f : Nat → Step} (hf : Countdown f) {l m : Nat} {s t : State} (hr : Running s)
    (hadv : advance s = setStep (f l) t) (ha : Alive t) (hc : t.env.cycle = s.env.cycle)
    (hs : t.env.script = s.env.script) (hm : m ≤ l) (hq : QuietFor (m + 1) s) :
    cycles (m + 1) s = .next (later (m + 1) (setStep (f (l - m)) t)) := by
  have htick : tick (setStep (f l) t) = later 1 (setStep (f l) t) :=
    Running.tick_eq ⟨ha.op, ha.offer, hf.timed _, ha.prog⟩
  rw [hr.cycles_succ hq, hadv, htick,
    hf.cycles_eq (l := l - m) (s := later 1 (setStep (f l) t)) ⟨ha.op, ha.offer, ha.prog⟩ (by simp [Nat.sub_add_cancel hm])
      (hq.after (m := 1) (by omega) hs ha.prog (by simp [hc]))]
  simp only [later, setStep, Nat.add_assoc, Nat.add_comm 1 m]

/-! ## The abort cleanup -/

/-- The last cycle of the cleanup ends the operation (60_exceptions.md R262). -/
theorem advance_cleanup_zero {s : State} {op : Byte} {e : Code} (hst : s.seq.step = .cleanup 0 e)
    (hop : s.seq.op = some op) (he : e ≠ .none) : advance s = fatallyEnded op e s := by
  simp [advance, hst, cleanupCycle, fatalFinish, finish, emit, setPanel_eq, panelEvent, fatallyEnded, hop, he]

/-- Settles O34: the cleanup counts down its phase E, and its last cycle is the fatal end. -/
theorem abortReleasesTheBus : Obligations.AbortReleasesTheBus := by
  intro s e h left op hinv hop hoff hh hst hq
  subst hh
  have hop' : s.seq.op ≠ none := by simp [hop]
  have ha := hq.alive hop' hoff
  obtain ⟨⟨hcs, hclk, -, -⟩, -⟩ := hinv.pinsAt hop' hoff hst
  obtain ⟨hleft, -, hfatal⟩ := hinv.txAt hst
  refine ⟨hcs, hclk, hleft, ?_⟩
  have hv : cycles left s = .next (later left (setStep (.cleanup 0 e) s)) :=
    (countdown_cleanup e).cycles_eq ha (by rw [hst, Nat.zero_add]) (hq.mono (by omega))
  have hrun : Running (later left (setStep (.cleanup 0 e) s)) := ⟨hop', hoff, nofun, ha.prog⟩
  have hend : advance (later left (setStep (.cleanup 0 e) s)) =
      fatallyEnded op e (later left (setStep (.cleanup 0 e) s)) :=
    advance_cleanup_zero rfl hop (by rintro rfl; cases hfatal)
  rw [cycles_add left 1 s _ hv, hrun.cycles_succ (n := 0) (hq.after (m := left) le_rfl rfl ha.prog rfl), hend]
  exact ⟨_, rfl, rfl, rfl, rfl, rfl, rfl, rfl⟩

/-! ## After a byte of a burst run -/

/-- A data byte of a burst run that was sent without a bus fault returns in the cycle after its `H_0`. -/
theorem advance_of_burstByte {s : State} {b : Byte} {r : TxRet} (hst : s.seq.step = .tx .data b (.high 0) 0 false r)
    (hburst : s.snap.burst = true) : advance s = afterTx r s := by
  simp [advance, hst, txCycle, txReturn, inBurst, hburst]

/-- Where the run goes on, the next statement is the read of the next byte; only the loop variables have moved. -/
theorem RunGoesOn.afterTx_eq {s : State} {r : TxRet} {a : Nat} {next : ReadRet} (h : RunGoesOn s r a next) :
    ∃ y bx ri, afterTx r s = readStart a next { s with seq := { s.seq with y := y, bx := bx, ri := ri } } := by
  obtain ⟨rfl, rfl, hri, rfl⟩ | ⟨rfl, rfl, hbx, rfl⟩ | ⟨rfl, rfl, hbx, hy, rfl⟩ := h
  · exact ⟨s.seq.y, s.seq.bx, s.seq.ri + 1, if_pos hri⟩
  · exact ⟨s.seq.y, s.seq.bx + 1, s.seq.ri, if_pos hbx⟩
  · exact ⟨s.seq.y + 1, s.seq.bxlo, s.seq.ri, (if_neg (by omega)).trans (if_pos hy)⟩

/-- Where the run ends, the next statement is its phase E. -/
theorem RunEnds.afterTx_eq {s : State} {r : TxRet} {q : RunRet} (h : RunEnds s r q) :
    ∃ ri, afterTx r s = runEnd q (afterRun q) { s with seq := { s.seq with ri := ri } } := by
  obtain ⟨rfl, rfl⟩ | ⟨rfl, rfl, hri⟩ | ⟨rfl, rfl, hbx, hy⟩ := h
  · exact ⟨s.seq.ri, rfl⟩
  · exact ⟨s.seq.ri + 1, if_neg (Nat.not_lt.mpr hri)⟩
  · exact ⟨s.seq.ri, (if_neg (by omega)).trans (if_neg (by omega))⟩

/-- With CS held a run ends with the first cycle of its phase E (40_bus_transport.md R142). -/
theorem runEnd_held {s : State} (h : s.seq.csHeld = true) (r : RunRet) (next : State → State) :
    runEnd r next s = setStep (.runEnd (halfPeriod s.cfg - 1) r)
      { s with pins := idleLines s.pins, seq := { s.seq with csHeld := false } } := if_pos h

/-- Settles O32: the byte returns to a read or to the run's phase E, and both only count their cycles down. -/
theorem burstRunWaitsAndCloses : Obligations.BurstRunWaitsAndCloses := by
  intro s b r h hinv hop hoff hh hburst hst
  subst hh
  obtain ⟨hcs, -, hmosi, hdc, hrst, -, -⟩ := hinv.pinsAt hop hoff hst
  obtain ⟨-, -, -, hheld, -⟩ := hinv.txAt hst
  have hheld : s.seq.csHeld = true := by simpa [hburst] using hheld ⟨rfl, rfl⟩
  have hadv := advance_of_burstByte hst hburst
  have hne : s.seq.step ≠ .idle := by rw [hst]; nofun
  refine ⟨fun a next n hrun hn hq => ?_, fun q n hrun hn hq => ?_⟩
  · obtain ⟨y, bx, ri, he⟩ := hrun.afterTx_eq
    refine ⟨_, (countdown_read a (input s).draw next).cycles_start (t := { s with
        pins := { s.pins with sclk := false }, seq := { s.seq with y := y, bx := bx, ri := ri } })
      ⟨hop, hoff, hne, hq.1⟩ (hadv.trans he) ⟨hop, hoff, hq.1⟩ rfl rfl (Nat.le_sub_one_of_lt hn) hq, ?_, rfl, hheld, rfl⟩
    simp [hcs, hdc, hmosi, hrst]
  · obtain ⟨ri, he⟩ := hrun.afterTx_eq
    have hend := hadv.trans (he.trans (runEnd_held (s := { s with seq := { s.seq with ri := ri } }) hheld q _))
    refine ⟨_, (countdown_runEnd q).cycles_start (t := { s with
        pins := idleLines s.pins, seq := { s.seq with ri := ri, csHeld := false } })
      ⟨hop, hoff, hne, hq.1⟩ hend ⟨hop, hoff, hq.1⟩ rfl rfl (Nat.le_sub_one_of_lt hn) hq, ?_, rfl, rfl, rfl⟩
    simp [idleLines, hdc, hrst]

end Sys2Proof.Machine
end

section
/-!
SUPPORT. The waveform of a transaction, cycle by cycle: where each of its cycles stands in the 18 phases of a frame
(40_bus_transport.md R137 to R142), and from it the waveforms of transactions, burst runs and the SEND operations.
-/

namespace Sys2Proof.Machine

open Sys2Proof

/-! ## The 18 phases -/

/-- The `j`-th of the 18 phases of a transaction that is framed alone: P, `L_7`, `H_7`, …, `L_0`, `H_0`, E. -/
def framePhase (j : Nat) : Phase :=
  if j = 0 then .p
  else if j = 17 then .e
  else if j % 2 = 1 then .low (7 - (j - 1) / 2) else .high (7 - (j - 1) / 2)

theorem framePhase_succ : ∀ j < 17, framePhase (j + 1) = (framePhase j).next := by decide

theorem framePhase_ne_e : ∀ j < 17, framePhase j ≠ .e := by decide

theorem framePhase_eq_lastBit : ∀ j < 17, framePhase j = .high 0 ↔ j = 16 := by decide

/-- With `dc` at its level, a phase's levels are those of its place in the frame. -/
theorem phasePins_framePhase {k : Kind} {p : Pins} (hdc : p.dc = (k == .data)) (b : Byte) (j : Nat) :
    phasePins k b (framePhase j) p = framePins k b j p.rstN := by
  unfold framePhase framePins
  by_cases h0 : j = 0
  · simp [h0, phasePins]
  by_cases h17 : j = 17
  · simp [h17, phasePins, hdc]
  by_cases hodd : j % 2 = 1
  · simp [h0, h17, hodd, phasePins, hdc]
  · simp [h0, h17, phasePins, hdc, Nat.mod_two_ne_one.mp hodd]

@[simp] theorem framePins_rstN (k : Kind) (b : Byte) (j : Nat) (level : Bool) : (framePins k b j level).rstN = level := by
  unfold framePins
  split <;> rfl

@[simp] theorem framePins_dc (k : Kind) (b : Byte) (j : Nat) (level : Bool) :
    (framePins k b j level).dc = (k == .data) := by
  unfold framePins
  split <;> rfl

theorem phasePins_lastBit (k : Kind) (b : Byte) (level : Bool) :
    phasePins k b (.high 0) (framePins k b 16 level) = framePins k b 16 level := rfl

/-- Phase E, of a transaction or of a run, idles the lines. -/
theorem idleLines_framePins (k : Kind) (b : Byte) (j : Nat) (level : Bool) :
    idleLines (framePins k b j level) = framePins k b 17 level := by
  unfold framePins idleLines
  split <;> rfl

/-- A phase that is neither phase E nor `H_0` is followed by the next one. -/
theorem txCycle_next {ph : Phase} (he : ph ≠ .e) (h0 : ph ≠ .high 0) (k : Kind) (b : Byte) (f : Bool) (r : TxRet)
    (next : State → State) (s : State) : txCycle k b ph 0 f r next s = txPhase k b ph.next f r s := by
  unfold txCycle Phase.next
  match ph with
  | .p => rfl
  | .low _ => rfl
  | .high (_ + 1) => rfl
  | .high 0 => exact absurd rfl h0
  | .e => exact absurd rfl he

theorem txCycle_within {l : Nat} (hl : 0 < l) (k : Kind) (b : Byte) (ph : Phase) (f : Bool) (r : TxRet)
    (next : State → State) (s : State) : txCycle k b ph l f r next s = txHold k b ph (l - 1) f r s :=
  if_neg (Nat.ne_of_gt hl)

/-! ## The cycles before the bus-fault sample -/

/-- The state with the levels and the cursor that cycle `c` of a transaction leaves, counted from the first cycle of phase P,
before its bus fault is sampled. -/
def atCycle (k : Kind) (b : Byte) (r : TxRet) (c : Nat) (s : State) : State :=
  { s with
    pins := framePins k b (c / halfPeriod s.cfg) s.pins.rstN
    seq := { s.seq with
      step := .tx k b (framePhase (c / halfPeriod s.cfg)) (halfPeriod s.cfg - 1 - c % halfPeriod s.cfg) false r } }

theorem atCycle_running {k : Kind} {b : Byte} {r : TxRet} {c : Nat} {s : State} (ha : Alive s) :
    Running (atCycle k b r c s) := ⟨ha.op, ha.offer, nofun, ha.prog⟩

theorem txPhase_atCycle {k : Kind} {b : Byte} {r : TxRet} {c j : Nat} {s : State} :
    txPhase k b (framePhase j) false r (atCycle k b r c s) =
      txHold k b (framePhase j) (halfPeriod s.cfg - 1) false r { s with pins := framePins k b j s.pins.rstN } := by
  have hpins : phasePins k b (framePhase j) (atCycle k b r c s).pins = framePins k b j s.pins.rstN :=
    (phasePins_framePhase (framePins_dc ..) b j).trans (congrArg _ (framePins_rstN ..))
  rw [txPhase, hpins]
  exact txHold_setStep k b _ _ false r _ { s with pins := framePins k b j s.pins.rstN }

theorem tick_atCycle {k : Kind} {b : Byte} {r : TxRet} {c : Nat} {s : State} (ha : Alive s) :
    tick (atCycle k b r c s) = atCycle k b r c (later 1 s) := (atCycle_running ha).tick_eq

/-- The next cycle of a transaction stands at the next place of the frame. -/
theorem advance_atCycle (k : Kind) (b : Byte) (r : TxRet) {c : Nat} {s : State} (hc : c + 1 < 17 * halfPeriod s.cfg) :
    advance (atCycle k b r c s) =
      txHold k b (framePhase ((c + 1) / halfPeriod s.cfg)) (halfPeriod s.cfg - 1 - (c + 1) % halfPeriod s.cfg) false r
        { s with pins := framePins k b ((c + 1) / halfPeriod s.cfg) s.pins.rstN } := by
  have hpos := halfPeriod_pos s.cfg
  have hsplit := Nat.div_add_mod c (halfPeriod s.cfg)
  have hmod := Nat.mod_lt c hpos
  have hj : c / halfPeriod s.cfg < 17 := Nat.div_lt_of_lt_mul (by omega)
  show txCycle k b _ (halfPeriod s.cfg - 1 - c % halfPeriod s.cfg) false r _ (atCycle k b r c s) = _
  by_cases hlast : c % halfPeriod s.cfg + 1 = halfPeriod s.cfg
  · -- the phase's last cycle: the next one is the first of the next phase
    have hnext : c + 1 = halfPeriod s.cfg * (c / halfPeriod s.cfg + 1) := by rw [Nat.mul_add]; omega
    have hj' : c / halfPeriod s.cfg ≠ 16 := fun h16 => by rw [h16] at hnext; omega
    rw [show halfPeriod s.cfg - 1 - c % halfPeriod s.cfg = 0 by omega, hnext, Nat.mul_div_cancel_left _ hpos,
      Nat.mul_mod_right, Nat.sub_zero,
      txCycle_next (framePhase_ne_e _ hj) (fun h => hj' ((framePhase_eq_lastBit _ hj).mp h)), ← framePhase_succ _ hj,
      txPhase_atCycle]
  · -- the next cycle is in the same phase
    have hnext : c + 1 = halfPeriod s.cfg * (c / halfPeriod s.cfg) + (c % halfPeriod s.cfg + 1) := by omega
    have hlt : c % halfPeriod s.cfg + 1 < halfPeriod s.cfg := by omega
    rw [hnext, Nat.mul_add_div hpos, Nat.mul_add_mod, Nat.div_eq_of_lt hlt, Nat.mod_eq_of_lt hlt, Nat.add_zero,
      ← Nat.sub_sub, txCycle_within (by omega)]
    exact txHold_setStep k b _ _ false r _ { s with pins := framePins k b (c / halfPeriod s.cfg) s.pins.rstN }

/-- Whether a cycle is the last one of `H_0`. -/
theorem lastBit_iff {h c : Nat} (hpos : 0 < h) (hc : c < 17 * h) :
    framePhase (c / h) = .high 0 ∧ h - 1 - c % h = 0 ↔ c = 17 * h - 1 := by
  have hsplit := Nat.div_add_mod c h
  have hmod := Nat.mod_lt c hpos
  rw [framePhase_eq_lastBit _ (Nat.div_lt_of_lt_mul (by omega))]
  constructor
  · rintro ⟨h16, hleft⟩
    rw [h16] at hsplit
    omega
  · intro hlast
    have hc : c = h * 16 + (h - 1) := by omega
    have hlt : h - 1 < h := by omega
    rw [hc, Nat.mul_add_div hpos, Nat.mul_add_mod, Nat.div_eq_of_lt hlt, Nat.mod_eq_of_lt hlt]
    omega

/-- The cycles of a transaction up to the one before its bus fault is sampled. -/
theorem cycles_atCycle (k : Kind) (b : Byte) (r : TxRet) {c n : Nat} {s : State} (ha : Alive s) (hq : QuietFor n s)
    (hn : c + n + 1 < 17 * halfPeriod s.cfg) :
    cycles n (atCycle k b r c s) = .next (atCycle k b r (c + n) (later n s)) := by
  induction n generalizing c s with
  | zero => rfl
  | succ n ih =>
    have hadv : advance (atCycle k b r c s) = atCycle k b r (c + 1) s := by
      rw [advance_atCycle k b r (by omega),
        txHold_eq _ (fun hlast => by have := (lastBit_iff (halfPeriod_pos s.cfg) (by omega)).mp hlast; omega)]
      rfl
    have hq' : QuietFor (n + 1) (atCycle k b r c s) := hq
    rw [(atCycle_running ha).cycles_succ hq', hadv, tick_atCycle ha]
    have hrest := ih (c := c + 1) (ha.later 1) (hq.after (m := 1) (by omega) rfl ha.prog rfl)
      (by simp only [later_cfg]; omega)
    rw [later_later, Nat.add_assoc c 1 n, Nat.add_comm 1 n] at hrest
    exact hrest

/-- With the levels of `H_0` on the lines, its last cycle emits the byte and samples the bus fault. -/
theorem txHold_eq_sampled {k : Kind} {b : Byte} {r : TxRet} {s : State} (h : phasePins k b (.high 0) s.pins = s.pins) :
    txHold k b (.high 0) 0 false r s = sampled k b r s := by
  rw [txHold, if_pos ⟨rfl, rfl⟩, sampled, h]

/-- The cycle that samples the bus fault: the last one of `H_0`, when CS is held if the byte is one of a burst run. -/
theorem cycles_sampled (k : Kind) (b : Byte) (r : TxRet) {c n : Nat} {s : State} (ha : Alive s)
    (hq : QuietFor (n + 1) s) (hn : c + (n + 1) = 17 * halfPeriod s.cfg - 1) :
    cycles (n + 1) (atCycle k b r c s) =
      .next (later 1 (sampled k b r (later n { s with pins := framePins k b 16 s.pins.rstN }))) := by
  have hpos := halfPeriod_pos s.cfg
  have hadv : advance (atCycle k b r (c + n) (later n s)) =
      sampled k b r (later n { s with pins := framePins k b 16 s.pins.rstN }) := by
    obtain ⟨hphase, hleft⟩ := (lastBit_iff hpos (by omega)).mpr (show c + n + 1 = 17 * halfPeriod s.cfg - 1 by omega)
    have hj := (framePhase_eq_lastBit _ (Nat.div_lt_of_lt_mul (by omega))).mp hphase
    rw [advance_atCycle k b r (by simp only [later_cfg]; omega), later_cfg, hphase, hleft, hj]
    exact txHold_eq_sampled (s := later n { s with pins := framePins k b 16 s.pins.rstN }) (phasePins_lastBit ..)
  have hbefore := cycles_atCycle k b r ha (hq.mono (Nat.le_succ n)) (show c + n + 1 < 17 * halfPeriod s.cfg by omega)
  have hq' : QuietFor (0 + 1) (atCycle k b r (c + n) (later n s)) := hq.after (m := n) (by omega) rfl ha.prog rfl
  rw [cycles_add n 1 _ _ hbefore, (atCycle_running (ha.later n)).cycles_succ hq', hadv]
  exact congrArg _ (Running.tick_eq ⟨ha.op, ha.offer, nofun, ha.prog⟩)

/-- The first 17 phases: the levels, the byte's event and the bus-fault sample. -/
theorem cycles_frame (k : Kind) (b : Byte) (r : TxRet) {c n : Nat} {s : State} (ha : Alive s) (hq : QuietFor n s)
    (hc : c + 1 < 17 * halfPeriod s.cfg) (hn : c + n < 17 * halfPeriod s.cfg) :
    ∃ u, cycles n (atCycle k b r c s) = .next u
      ∧ u.pins = framePins k b ((c + n) / halfPeriod s.cfg) s.pins.rstN
      ∧ u.env.trace = s.env.trace
        ++ (if c + n = 17 * halfPeriod s.cfg - 1 then [(s.env.cycle + (n - 1), .tx k b)] else [])
      ∧ (c + n = 17 * halfPeriod s.cfg - 1 → u.seq.csHeld = inBurst k s
        ∧ u.seq.step = .tx k b (.high 0) 0 (inputAt s (s.env.cycle + (n - 1))).busFault r) := by
  have hpos := halfPeriod_pos s.cfg
  by_cases hlast : c + n = 17 * halfPeriod s.cfg - 1
  · obtain ⟨m, rfl⟩ : ∃ m, n = m + 1 := ⟨n - 1, by omega⟩
    have hj := (framePhase_eq_lastBit _ (Nat.div_lt_of_lt_mul (by omega))).mp ((lastBit_iff hpos hn).mpr hlast).1
    refine ⟨_, cycles_sampled k b r ha hq hlast, ?_, ?_, fun _ => ⟨rfl, rfl⟩⟩
    · rw [hj]
      exact phasePins_lastBit ..
    · rw [if_pos hlast]
      rfl
  · refine ⟨_, cycles_atCycle k b r ha hq (by omega), rfl, ?_, fun h => absurd h hlast⟩
    rw [if_neg hlast, List.append_nil]
    rfl

/-! ## The first cycle of a transaction -/

/-- The first cycle of a phase before `H_0`, at its place in the frame. -/
theorem txPhase_framePhase {k : Kind} {s : State} {j : Nat} (hj : j < 16) (hdc : j = 0 ∨ s.pins.dc = (k == .data))
    (b : Byte) (r : TxRet) : txPhase k b (framePhase j) false r s = atCycle k b r (halfPeriod s.cfg * j) s := by
  have hne : framePhase j ≠ .high 0 := fun h => by
    have := (framePhase_eq_lastBit _ (by omega)).mp h
    omega
  have hpins : phasePins k b (framePhase j) s.pins = framePins k b j s.pins.rstN := by
    obtain rfl | hdc := hdc
    · rfl
    · exact phasePins_framePhase hdc b j
  rw [txPhase, txHold_eq _ (fun hlast => hne hlast.1), hpins, atCycle, Nat.mul_div_cancel_left _ (halfPeriod_pos _),
    Nat.mul_mod_right, Nat.sub_zero]
  rfl

/-- The operation's note that it has started a transaction, which `SpiTx` sets with its first cycle. -/
def noteSent (s : State) : State := { s with seq := { s.seq with sent := true } }

theorem noteSent_alive {s : State} (h : Alive s) : Alive (noteSent s) := ⟨h.op, h.offer, h.prog⟩

/-- A transaction with CS free starts with phase P. -/
theorem txStart_free {s : State} (h : s.seq.csHeld = false) (k : Kind) (b : Byte) (r : TxRet) :
    txStart k b r s = atCycle k b r 0 (noteSent s) := by
  rw [txStart, h]
  exact txPhase_framePhase (j := 0) (by omega) (.inl rfl) b r

/-- A byte of a burst run that holds CS starts with `L_7` (40_bus_transport.md R142). -/
theorem txStart_held {s : State} (h : s.seq.csHeld = true) (hdc : s.pins.dc = true) (b : Byte) (r : TxRet) :
    txStart .data b r s = atCycle .data b r (halfPeriod s.cfg) (noteSent s) := by
  have hphase := txPhase_framePhase (k := .data) (s := noteSent s) (j := 1) (by omega)
    (.inr hdc) b r
  rw [Nat.mul_one] at hphase
  rw [txStart, h]
  exact hphase

/-- In a state of the invariant, the lines in phase P are those of the first phase. -/
theorem Inv.eq_atCycle_zero {s : State} (h : Inv s) (hop : s.seq.op ≠ none) (hoff : s.seq.offer = none) {k : Kind}
    {b : Byte} {r : TxRet} (hst : s.seq.step = .tx k b .p (halfPeriod s.cfg - 1) false r) :
    s = atCycle k b r 0 s ∧ s.pins.rstN = true := by
  obtain ⟨⟨hcs, hclk, hmosi, hrst⟩, hdc, -⟩ := h.pinsAt hop hoff hst
  have hframe : framePins k b 0 s.pins.rstN = s.pins := by
    cases hp : s.pins
    simp_all [framePins]
  refine ⟨?_, hrst⟩
  rw [atCycle, Nat.zero_div, Nat.zero_mod, Nat.sub_zero, hframe, show framePhase 0 = .p from rfl, ← hst]

/-! ## Burst runs -/

/-- Settles O31: the run's first byte goes through the first 17 phases of a frame, and holds CS from the sample on. -/
theorem burstRunOpens : Obligations.BurstRunOpens := by
  intro s b r h n hinv hop hoff hh hburst hst hn hq
  obtain rfl : h = halfPeriod s.cfg := hh
  have hpos := halfPeriod_pos s.cfg
  obtain ⟨hzero, hrst⟩ := hinv.eq_atCycle_zero hop hoff hst
  obtain ⟨u, hu, hpins, htrace, hlast⟩ := cycles_frame .data b r (hq.alive hop hoff) hq (c := 0) (by omega) (by omega)
  rw [Nat.zero_add] at hpins htrace hlast
  rw [← hzero] at hu
  refine ⟨u, hu, by rw [hpins, hrst], ?_, fun hn' => ?_⟩
  · rw [htrace]
    split
    · next hn' => rw [hn', Nat.sub_sub]
    · rfl
  · obtain ⟨hheld, hstep⟩ := hlast hn'
    rw [hn', Nat.sub_sub] at hstep
    exact ⟨hheld.trans (by simp [inBurst, hburst]), hstep⟩

/-- The levels of the 16 bit phases (40_bus_transport.md R138). -/
theorem framePins_bits {k : Kind} {b : Byte} {j : Nat} {level : Bool} (hj : j < 16) :
    framePins k b (1 + j) level =
      { csN := false, dc := k == .data, sclk := decide (j % 2 = 1), mosi := b.getLsbD (7 - j / 2), rstN := level } := by
  rw [framePins, if_neg (by omega), Nat.add_sub_cancel_left]
  congr 1
  exact (Bool.beq_eq_decide_eq ..).trans (decide_eq_decide.mpr (by omega))

/-- In a burst run the cycle after a read's last one is the first of the byte's `L_7`. -/
theorem step_burstRead {s : State} {n a : Nat} {d : ReadDraw} {b : Byte} {r : ReadRet} {k : TxRet} (ha : Alive s)
    (hq : QuietFor (n + 1) s) (hheld : s.seq.csHeld = true) (hdc : s.pins.dc = true) (hst : s.seq.step = .read a 0 d r)
    (hb : readAnswer s a d = some b) (hrk : (r = .flushData ∧ k = .flushData) ∨ (r = .playData ∧ k = .playData)) :
    step s = .next (atCycle .data b k (halfPeriod s.cfg) (later 1 (noteSent s))) := by
  have hstart : advance s = txStart .data b k s := by
    rw [advance_of_readAnswer hst hb]
    obtain ⟨rfl, rfl⟩ | ⟨rfl, rfl⟩ := hrk <;> rfl
  have hrun : Running s := ha.running (by rw [hst]; nofun)
  rw [hrun.step_eq hq, hstart, txStart_held hheld hdc, tick_atCycle (noteSent_alive ha)]

/-- Settles O30: in phase W the invariant gives the levels; the read's answer starts `L_7`, and the 16 bit phases follow. -/
theorem burstRunHoldsChipSelect : Obligations.BurstRunHoldsChipSelect := by
  intro s h hinv hop hoff hheld hh
  obtain rfl : h = halfPeriod s.cfg := hh
  have hpos := halfPeriod_pos s.cfg
  have hwait : ∀ a left d r, s.seq.step = .read a left d r →
      s.pins.csN = false ∧ s.pins.dc = true ∧ s.pins.sclk = false ∧ s.snap.burst = true := by
    intro a left d r hst
    obtain ⟨hclk, -, hcs, hburst, -⟩ := hinv.pinsAt hop hoff hst
    obtain ⟨hburst, hdc⟩ := hburst hheld
    exact ⟨by simpa [hheld] using hcs, hdc, hclk, hburst⟩
  refine ⟨hwait, fun a d b r k hrk hst hb hq n hn => ?_⟩
  obtain ⟨-, hdc, -, -⟩ := hwait _ _ _ _ hst
  have ha : Alive s := hq.alive hop hoff
  have hstep := step_burstRead ha (hq.mono (show 0 + 1 ≤ 16 * halfPeriod s.cfg by omega)) hheld hdc hst hb hrk
  have hqn : QuietFor n (later 1 (noteSent s)) := hq.after (m := 1) (by omega) rfl hq.1 rfl
  obtain ⟨u, hu, hpins, htrace, hlast⟩ := cycles_frame .data b k ((noteSent_alive ha).later 1) hqn
    (c := halfPeriod s.cfg) (show _ < 17 * halfPeriod s.cfg by omega) (show _ < 17 * halfPeriod s.cfg by omega)
  have hplace : (halfPeriod s.cfg + n) / halfPeriod s.cfg = 1 + n / halfPeriod s.cfg := by
    rw [Nat.add_div_left n hpos, Nat.add_comm]
  have hend : halfPeriod s.cfg + n = 17 * halfPeriod s.cfg - 1 ↔ n = 16 * halfPeriod s.cfg - 1 := by omega
  change u.pins = framePins .data b ((halfPeriod s.cfg + n) / halfPeriod s.cfg) s.pins.rstN at hpins
  change u.env.trace = s.env.trace ++ (if halfPeriod s.cfg + n = 17 * halfPeriod s.cfg - 1 then _ else _) at htrace
  change halfPeriod s.cfg + n = 17 * halfPeriod s.cfg - 1 → _ at hlast
  rw [hplace, framePins_bits (Nat.div_lt_of_lt_mul (by omega))] at hpins
  simp only [hend] at htrace hlast
  have hcycle : n = 16 * halfPeriod s.cfg - 1 →
      (later 1 (noteSent s)).env.cycle + (n - 1) = s.env.cycle + (16 * halfPeriod s.cfg - 1) := fun hn' => by
    show s.env.cycle + 1 + (n - 1) = _
    omega
  refine ⟨_, u, hstep, hu, by rw [hpins], by rw [hpins]; rfl, by rw [hpins], by rw [hpins], ?_, fun hn' => ?_⟩
  · rw [htrace]
    split
    · next hn' => rw [hcycle hn']
    · rfl
  · rw [(hlast hn').2, hcycle hn']
    rfl

/-! ## Phase E -/

/-- The state in the cycle after the bus-fault sample of a transaction that began in `s`. -/
def frameSampled (k : Kind) (b : Byte) (r : TxRet) (s : State) : State :=
  later 1 (sampled k b r (later (17 * halfPeriod s.cfg - 2) { s with pins := framePins k b 16 s.pins.rstN }))

/-- The state with CS given back: the levels of phase E. -/
def givenBack (s : State) : State := { s with pins := idleLines s.pins, seq := { s.seq with csHeld := false } }

/-- Outside a burst run phase E belongs to the transaction. -/
theorem advance_lastBit_alone {k : Kind} {b : Byte} {f : Bool} {r : TxRet} {s : State}
    (hst : s.seq.step = .tx k b (.high 0) 0 f r) (hb : inBurst k s = false) (hcs : s.seq.csHeld = false) :
    advance s = setStep (.tx k b .e (halfPeriod s.cfg - 1) f r) (givenBack s) := by
  simp [advance, hst, txCycle, hb, txPhase, txHold, phasePins, givenBack, idleLines, setStep, ← hcs]

/-- Phase E of SEND_CMD and SEND_DATA, in both burst settings: the transaction's own, the run's, or, after a bus fault in a
burst run, the cleanup's. -/
theorem advance_lastBit_send {k : Kind} {b : Byte} {f : Bool} {s : State}
    (hst : s.seq.step = .tx k b (.high 0) 0 f .send) (hcs : s.seq.csHeld = inBurst k s) :
    ∃ g, Countdown g ∧ advance s = setStep (g (halfPeriod s.cfg - 1)) (givenBack s) := by
  cases hb : inBurst k s with
  | false => exact ⟨_, countdown_phaseE k b f .send, advance_lastBit_alone hst hb (hcs.trans hb)⟩
  | true =>
    cases f with
    | false =>
      refine ⟨_, countdown_runEnd .send, ?_⟩
      simp only [advance, hst, txCycle, hb, if_true, txReturn, Bool.false_eq_true, if_false]
      exact runEnd_held (hcs.trans hb) ..
    | true =>
      refine ⟨_, countdown_cleanup .busTransaction, ?_⟩
      simp [advance, hst, txCycle, hb, txReturn, raise, isFatal, hcs, givenBack, setStep]

/-- Phase E, whatever counts it down. -/
theorem cycles_phaseE {g : Nat → Step} (hg : Countdown g) (k : Kind) (b : Byte) (r : TxRet) {n : Nat} {s : State}
    (ha : Alive s) (hq : QuietFor n s) (hn : 17 * halfPeriod s.cfg ≤ n) (hn' : n < 18 * halfPeriod s.cfg)
    (hadv : advance (frameSampled k b r s) =
      setStep (g (halfPeriod s.cfg - 1)) (givenBack (frameSampled k b r s))) :
    ∃ u, cycles n (atCycle k b r 0 s) = .next u ∧ u.pins = framePins k b (n / halfPeriod s.cfg) s.pins.rstN
      ∧ u.env.trace = s.env.trace ++ [(s.env.cycle + (17 * halfPeriod s.cfg - 2), .tx k b)]
      ∧ u.seq.step = g (18 * halfPeriod s.cfg - 1 - n) := by
  have hpos := halfPeriod_pos s.cfg
  obtain ⟨m, rfl⟩ : ∃ m, n = 17 * halfPeriod s.cfg - 2 + 1 + (m + 1) := ⟨n - 17 * halfPeriod s.cfg, by omega⟩
  have hsample := cycles_sampled k b r ha (c := 0) (hq.mono (show 17 * halfPeriod s.cfg - 2 + 1 ≤ _ by omega)) (by omega)
  have hclose := hg.cycles_start (m := m) (s := frameSampled k b r s) ⟨ha.op, ha.offer, nofun, ha.prog⟩ hadv
    ⟨ha.op, ha.offer, ha.prog⟩ rfl rfl (by omega)
    (hq.after (m := 17 * halfPeriod s.cfg - 2 + 1) le_rfl rfl ha.prog (Nat.add_assoc ..))
  have hj : (17 * halfPeriod s.cfg - 2 + 1 + (m + 1)) / halfPeriod s.cfg = 17 :=
    Nat.div_eq_of_lt_le (by omega) (by omega)
  rw [cycles_add _ _ _ _ hsample]
  refine ⟨_, hclose, ?_, rfl, congrArg g (by omega)⟩
  rw [hj, ← idleLines_framePins k b 16]
  exact congrArg idleLines (phasePins_lastBit ..)

/-- Settles O12: the first 17 phases of a frame, and the transaction's own phase E. -/
theorem transactionWaveform : Obligations.TransactionWaveform := by
  intro s k b r h n hinv hop hoff hh hst hb hn hq
  obtain rfl : h = halfPeriod s.cfg := hh
  have hpos := halfPeriod_pos s.cfg
  have ha := hq.alive hop hoff
  obtain ⟨hzero, hrst⟩ := hinv.eq_atCycle_zero hop hoff hst
  have hburst : inBurst k s = false := by simpa [inBurst] using hb
  rw [← hrst]
  by_cases hn' : n < 17 * halfPeriod s.cfg
  · obtain ⟨u, hu, hpins, htrace, -⟩ := cycles_frame k b r ha hq (c := 0) (by omega) (by omega)
    rw [Nat.zero_add] at hpins htrace
    rw [← hzero] at hu
    refine ⟨u, hu, hpins, ?_, fun _ => by omega⟩
    rw [htrace]
    by_cases hlast : n = 17 * halfPeriod s.cfg - 1
    · rw [if_pos hlast, if_pos (by omega), hlast, Nat.sub_sub]
    · rw [if_neg hlast, if_neg (by omega)]
  · obtain ⟨u, hu, hpins, htrace, hstep⟩ := cycles_phaseE (countdown_phaseE k b _ r) k b r ha hq (by omega) hn
      (advance_lastBit_alone rfl hburst hburst)
    rw [← hzero] at hu
    refine ⟨u, hu, hpins, by rw [htrace, if_pos (by omega)], fun hlast => ?_⟩
    rw [hstep, hlast, Nat.sub_self]
    rfl

/-! ## SEND_CMD and SEND_DATA -/

/-- An accepted SEND operation starts the transaction of its byte (40_bus_transport.md R145, R146). -/
theorem exec_send {s : State} {b : Byte} {i : Instr} {k : Kind}
    (hk : i = .sendCmd b ∧ k = .command ∨ i = .sendData b ∧ k = .data) (ho : Operational s) (hp : Resting s.stat.panel) :
    exec i s = .next (txStart k b .send (begin i.opcode b s)) := by
  have hin : acceptedIn (.sendCmd b) s.stat.panel = true ∧ acceptedIn (.sendData b) s.stat.panel = true := by
    obtain hp | hp := hp <;> rw [hp] <;> exact ⟨rfl, rfl⟩
  obtain ⟨rfl, rfl⟩ | ⟨rfl, rfl⟩ := hk
  · exact congrArg _ (accept_pass ho _ hin.1 _)
  · exact congrArg _ (accept_pass ho _ hin.2 _)

/-- The 18 phases of a SEND operation's byte. -/
theorem cycles_send (k : Kind) (b : Byte) {n : Nat} {s : State} (ha : Alive s) (hq : QuietFor n s)
    (hn : n < 18 * halfPeriod s.cfg) :
    ∃ u, cycles n (atCycle k b .send 0 s) = .next u ∧ u.pins = framePins k b (n / halfPeriod s.cfg) s.pins.rstN := by
  have hpos := halfPeriod_pos s.cfg
  by_cases hn' : n < 17 * halfPeriod s.cfg
  · obtain ⟨u, hu, hpins, -⟩ := cycles_frame k b .send ha hq (c := 0) (by omega) (by omega)
    exact ⟨u, hu, by rw [hpins, Nat.zero_add]⟩
  · obtain ⟨g, hg, hadv⟩ := advance_lastBit_send (s := frameSampled k b .send s) rfl rfl
    obtain ⟨u, hu, hpins, -⟩ := cycles_phaseE hg k b .send ha hq (by omega) hn hadv
    exact ⟨u, hu, hpins⟩

/-- Settles O13: the accept cycle is the first of phase P, and the 18 phases follow. -/
theorem sendWaveform : Obligations.SendWaveform := by
  intro s b i k h n hk hh hn ho hp hq
  obtain rfl : h = halfPeriod s.cfg := hh
  have ha : Alive (noteSent (begin i.opcode b s)) := ⟨nofun, rfl, hq.1⟩
  have hend : endCycle s (txStart k b .send (begin i.opcode b s)) =
      atCycle k b .send 0 (later 1 (noteSent (begin i.opcode b s))) := by
    rw [(endCycle_quiet _ (hq.2 0 (by omega)) hq.1).2, txStart_free rfl, tick_atCycle ha]
  obtain ⟨u, hu, hpins⟩ := cycles_send k b (ha.later 1) (hq.after (m := 1) (by omega) rfl hq.1 rfl) hn
  exact ⟨_, u, exec_send hk ho hp, by rw [hend, hu], hpins⟩

/-- What a SEND operation's transaction, with the run's phase E where there is one, has changed at its return. -/
def sendDone (k : Kind) (b : Byte) (s : State) : State :=
  later (18 * halfPeriod s.cfg)
    { s with
      pins := { s.pins with csN := true, sclk := false, mosi := false, dc := k == .data }
      seq := { s.seq with sent := true, csHeld := false }
      env := { s.env with trace := s.env.trace ++ [(s.env.cycle + (17 * halfPeriod s.cfg - 1), .tx k b)] } }

/-- A SEND operation's byte that is framed alone. -/
theorem send_alone_seg {k : Kind} {b : Byte} {s : State} (ha : Alive s) (hburst : inBurst k s = false)
    (hcs : s.seq.csHeld = false) (hq : SilentAfter (18 * halfPeriod s.cfg) s)
    (hf : (inputAt s (s.env.cycle + (17 * halfPeriod s.cfg - 1))).busFault = false) :
    Seg (18 * halfPeriod s.cfg) (txStart k b .send s) (finish .none (sendDone k b s)) := by
  have hseg := txAlone_seg ha k b .send hburst hcs hq
  rw [hf] at hseg
  exact hseg

/-- SEND_DATA's byte in a burst: a run of one byte (40_bus_transport.md R142, R146). -/
theorem send_burst_seg {b : Byte} {s : State} (ha : Alive s) (hburst : s.snap.burst = true)
    (hcs : s.seq.csHeld = false) (hq : SilentAfter (18 * halfPeriod s.cfg) s)
    (hf : (inputAt s (s.env.cycle + (17 * halfPeriod s.cfg - 1))).busFault = false) :
    Seg (18 * halfPeriod s.cfg) (txStart .data b .send s) (finish .none (sendDone .data b s)) := by
  have hpos := halfPeriod_pos s.cfg
  have hbyte := txBurst_seg ha b .send hcs (hq.mono (by omega))
  have hreturn := txBurstReturn_seg (s := later (17 * halfPeriod s.cfg - 1)
      { s with pins := { s.pins with dc := true }, seq := { s.seq with sent := true } }) ⟨ha.op, ha.offer, ha.prog⟩ b .send
    hburst ((SilentAfter.later (m := 17 * halfPeriod s.cfg - 1) (hq.mono (by omega))).congr rfl rfl)
  change Seg 1 _ (txReturn (inputAt s (s.env.cycle + (17 * halfPeriod s.cfg - 1))).busFault _ _) at hreturn
  rw [hf] at hreturn
  have hclose := runEnd_seg (s := later 1 (later (17 * halfPeriod s.cfg - 1) { s with
      pins := phasePins .data b (.high 0) { s.pins with dc := true }
      seq := { s.seq with sent := true, csHeld := true, step := .tx .data b (.high 0) 0 false .send }
      env := { s.env with trace := s.env.trace ++ [(s.env.cycle + (17 * halfPeriod s.cfg - 1), .tx .data b)] } }))
    ⟨ha.op, ha.offer, ha.prog⟩ .send rfl
    ((SilentAfter.later (m := 17 * halfPeriod s.cfg - 1 + 1) (hq.mono (show _ + halfPeriod s.cfg ≤ _ by omega))).congr rfl
      (Nat.add_assoc ..))
  have hall := (hbyte.trans hreturn).trans hclose
  have htotal : 17 * halfPeriod s.cfg - 1 + 1 + halfPeriod s.cfg = 18 * halfPeriod s.cfg := by omega
  refine hall.cast htotal ?_
  have hcycle : s.env.cycle + (17 * halfPeriod s.cfg - 1) + 1 + halfPeriod s.cfg = s.env.cycle + 18 * halfPeriod s.cfg := by
    omega
  simp only [afterRun, sendDone, later, hcycle]
  rfl

/-- Settles O11: the operation's one transaction, framed alone or as a run of one byte, and its finish. -/
theorem sendRunsOneTransaction : Obligations.SendRunsOneTransaction := by
  intro s b i k h hk hh ho hp hq hf
  obtain rfl : h = halfPeriod s.cfg := hh
  have ha : Alive (begin i.opcode b s) := ⟨nofun, rfl, hq.1⟩
  have hsilent : SilentAfter (18 * halfPeriod s.cfg) (begin i.opcode b s) := hq.silentAfter rfl rfl
  have hseg : Seg (18 * halfPeriod s.cfg) (txStart k b .send (begin i.opcode b s))
      (finish .none (sendDone k b (begin i.opcode b s))) := by
    cases hburst : inBurst k (begin i.opcode b s) with
    | false => exact send_alone_seg ha hburst rfl hsilent hf
    | true =>
      obtain ⟨hkd, hb⟩ : k = .data ∧ (begin i.opcode b s).snap.burst = true := by simpa [inBurst] using hburst
      subst hkd
      exact send_burst_seg ha hb rfl hsilent hf
  refine ⟨_, exec_send hk ho hp, (hseg.after_accept hq).trans ?_⟩
  simp [tick, nextCycle, active, finish, emit, sendDone, later, begin, hq.1]

end Sys2Proof.Machine
end

section
/-!
SUPPORT. What the statements of an operation have to do with the pads: they turn `dc` only while CS is free and high, they
leave `rst_n` alone but for INIT and RESET, and of the pads' levels they read BUSY's only (40_bus_transport.md R147 to R150).
-/

namespace Sys2Proof.Machine

open Sys2Proof

/-! ## The two rules -/

/-- The state with another script of the outside world. -/
def withScript (σ : List CycleIn) (s : State) : State := { s with env := { s.env with script := σ } }

/-- In the present cycle the script `σ` gives the block the inputs it has: the bus fault, a read's draw, and the level on the
BUSY pad. -/
structure SameInputs (σ : List CycleIn) (s : State) : Prop where
  busFault : (input (withScript σ s)).busFault = (input s).busFault
  draw : (input (withScript σ s)).draw = (input s).draw
  busy : sampleBusy (withScript σ s) = sampleBusy s

/-- What one cycle's statements may do to `dc` and `rst_n`. -/
structure PinMove (s u : State) : Prop where
  rstN : u.pins.rstN = s.pins.rstN
  dc : u.pins.dc = s.pins.dc ∨ s.seq.csHeld = false ∧ u.pins.csN = true ∧ u.pins.sclk = false

/-- Statements that do the same under every script with the same inputs. -/
def ReadsBusyOnly (f : State → State) : Prop := ∀ σ s, SameInputs σ s → f (withScript σ s) = withScript σ (f s)

/-- Statements that keep both rules about the pads. -/
structure PadRule (f : State → State) : Prop where
  moves : ∀ s, PinMove s (f s)
  blind : ReadsBusyOnly f

/-- Statements that have nothing to do with the lines, and read nothing from outside. -/
structure Plain (f : State → State) : Prop where
  pins : ∀ s, (f s).pins = s.pins
  csHeld : ∀ s, (f s).seq.csHeld = s.seq.csHeld
  cfg : ∀ s, (f s).cfg = s.cfg
  cycle : ∀ s, (f s).env.cycle = s.env.cycle
  script : ∀ s, (f s).env.script = s.env.script
  blind : ∀ σ s, f (withScript σ s) = withScript σ (f s)

theorem SameInputs.congr {σ : List CycleIn} {s t : State} (h : SameInputs σ s) (hcfg : t.cfg = s.cfg)
    (hcycle : t.env.cycle = s.env.cycle) (hscript : t.env.script = s.env.script) : SameInputs σ t := by
  have hin : input t = input s := by rw [input, inputAt, hscript, hcycle]; rfl
  have hin' : input (withScript σ t) = input (withScript σ s) := by
    show σ.getD t.env.cycle (freeInput t.env.cycle) = _
    rw [hcycle]
    rfl
  refine ⟨by rw [hin, hin', h.busFault], by rw [hin, hin', h.draw], ?_⟩
  show busyLevel t.cfg (input (withScript σ t)).pads = busyLevel t.cfg (input t).pads
  rw [hin, hin', hcfg]
  exact h.busy

theorem PinMove.of_pins {s u : State} (h : u.pins = s.pins) : PinMove s u := ⟨by rw [h], .inl (by rw [h])⟩

theorem PinMove.after {s v u : State} (k : PinMove v u) (hpins : v.pins = s.pins)
    (hcs : v.seq.csHeld = s.seq.csHeld) : PinMove s u := ⟨by rw [k.rstN, hpins], by rw [← hpins, ← hcs]; exact k.dc⟩

/-! ## Plain statements -/

theorem Plain.comp {f g : State → State} (hg : Plain g) (hf : Plain f) : Plain fun s => g (f s) where
  pins s := (hg.pins _).trans (hf.pins s)
  csHeld s := (hg.csHeld _).trans (hf.csHeld s)
  cfg s := (hg.cfg _).trans (hf.cfg s)
  cycle s := (hg.cycle _).trans (hf.cycle s)
  script s := (hg.script _).trans (hf.script s)
  blind σ s := (congrArg g (hf.blind σ s)).trans (hg.blind σ (f s))

/-- An assignment to the sequencer's variables, `s.cs_held` apart. -/
theorem plain_seq {q : State → Seq} (hcs : ∀ s, (q s).csHeld = s.seq.csHeld) (hq : ∀ σ s, q (withScript σ s) = q s) :
    Plain fun s => { s with seq := q s } :=
  ⟨fun _ => rfl, hcs, fun _ => rfl, fun _ => rfl, fun _ => rfl, fun σ s => by rw [hq]; rfl⟩

theorem plain_setStep (st : Step) : Plain (setStep st) :=
  plain_seq (q := fun s => { s.seq with step := st }) (fun _ => rfl) fun _ _ => rfl

theorem plain_setPanelTo {p : State → PanelState} (hp : ∀ σ s, p (withScript σ s) = p s) :
    Plain fun s => setPanel (p s) s := by
  refine ⟨fun _ => by simp, fun _ => by simp, fun _ => by simp, fun _ => by simp, fun _ => by simp, fun σ s => ?_⟩
  rw [hp, setPanel_eq, setPanel_eq]
  rfl

theorem plain_setPanel (p : PanelState) : Plain (setPanel p) := plain_setPanelTo (p := fun _ => p) fun _ _ => rfl

theorem plain_finish (c : Code) : Plain (finish c) := by constructor <;> intros <;> rfl

theorem plain_fatalFinish (e : Code) : Plain (fatalFinish e) :=
  (plain_finish e).comp ((plain_setPanel .uninitialized).comp (by constructor <;> intros <;> rfl))

theorem Plain.padRule {f : State → State} (hf : Plain f) : PadRule f :=
  ⟨fun s => .of_pins (hf.pins s), fun σ s _ => hf.blind σ s⟩

/-! ## How the rules compose -/

theorem PadRule.after {f g : State → State} (hg : PadRule g) (hf : Plain f) : PadRule fun s => g (f s) where
  moves s := (hg.moves (f s)).after (hf.pins s) (hf.csHeld s)
  blind σ s h := (congrArg g (hf.blind σ s)).trans (hg.blind σ (f s) (h.congr (hf.cfg s) (hf.cycle s) (hf.script s)))

theorem readsBusyOnly_ite {c : State → Prop} [∀ s, Decidable (c s)] {f g : State → State}
    (hc : ∀ σ s, c (withScript σ s) = c s) (hf : ReadsBusyOnly f) (hg : ReadsBusyOnly g) :
    ReadsBusyOnly fun s => if c s then f s else g s := fun σ s h => by
  simp only [hc σ s]
  split
  · exact hf σ s h
  · exact hg σ s h

theorem padRule_ite {c : State → Prop} [∀ s, Decidable (c s)] {f g : State → State}
    (hc : ∀ σ s, c (withScript σ s) = c s) (hf : PadRule f) (hg : PadRule g) :
    PadRule fun s => if c s then f s else g s where
  moves s := by
    split
    · exact hf.moves s
    · exact hg.moves s
  blind := readsBusyOnly_ite hc hf.blind hg.blind

/-! ## Timed statements -/

theorem readsBusyOnly_readStart {a : State → Nat} (ha : ∀ σ s, a (withScript σ s) = a s) (r : ReadRet) :
    ReadsBusyOnly fun s => readStart (a s) r s := fun σ s h => by
  simp only [readStart, ha, h.draw]
  rfl

theorem padRule_readStart {a : State → Nat} (ha : ∀ σ s, a (withScript σ s) = a s) (r : ReadRet) :
    PadRule fun s => readStart (a s) r s := ⟨fun _ => ⟨rfl, .inl rfl⟩, readsBusyOnly_readStart ha r⟩

@[simp] theorem txHold_pins (k : Kind) (b : Byte) (ph : Phase) (l : Nat) (f : Bool) (r : TxRet) (s : State) :
    (txHold k b ph l f r s).pins = s.pins := by
  unfold txHold
  split <;> rfl

theorem readsBusyOnly_txHold (k : Kind) (b : Byte) (ph : Phase) (l : Nat) (f : Bool) (r : TxRet) :
    ReadsBusyOnly (txHold k b ph l f r) := fun σ s h => by
  unfold txHold
  split
  · rw [h.busFault]
    rfl
  · rfl

theorem readsBusyOnly_txPhase (k : Kind) (b : Byte) (ph : Phase) (f : Bool) (r : TxRet) :
    ReadsBusyOnly (txPhase k b ph f r) := fun σ s h =>
  readsBusyOnly_txHold k b ph (halfPeriod s.cfg - 1) f r σ { s with pins := phasePins k b ph s.pins } (h.congr rfl rfl rfl)

/-- A phase after phase P leaves `dc` and `rst_n` alone. -/
theorem txPhase_dc_rstN {ph : Phase} (hph : ph ≠ .p) (k : Kind) (b : Byte) (f : Bool) (r : TxRet) (s : State) :
    (txPhase k b ph f r s).pins.dc = s.pins.dc ∧ (txPhase k b ph f r s).pins.rstN = s.pins.rstN := by
  rw [txPhase, txHold_pins]
  cases ph with
  | p => exact absurd rfl hph
  | _ => exact ⟨rfl, rfl⟩

/-- A transaction turns `dc` in its phase P only, which it has only with CS free. -/
theorem padRule_txStart (k : Kind) {b : State → Byte} (hb : ∀ σ s, b (withScript σ s) = b s) (r : TxRet) :
    PadRule fun s => txStart k (b s) r s where
  moves s := by
    unfold txStart
    cases hcs : s.seq.csHeld with
    | true =>
      obtain ⟨hdc, hrst⟩ := txPhase_dc_rstN (ph := .low 7) nofun k (b s) false r (noteSent s)
      exact ⟨hrst, .inl hdc⟩
    | false => exact ⟨by rw [txPhase, txHold_pins]; rfl, .inr ⟨hcs, by rw [txPhase, txHold_pins]; exact ⟨rfl, rfl⟩⟩⟩
  blind σ s h := by
    show txStart k (b (withScript σ s)) r (withScript σ s) = _
    rw [hb]
    exact readsBusyOnly_txPhase k (b s) _ false r σ { s with seq := { s.seq with sent := true } } (h.congr rfl rfl rfl)

/-- Giving CS back idles the lines: `dc` and `rst_n` stay. -/
theorem padRule_giveBack {q : State → Seq} (hq : ∀ σ s, q (withScript σ s) = q s) :
    PadRule fun s => { s with pins := idleLines s.pins, seq := q s } :=
  ⟨fun _ => ⟨rfl, .inl rfl⟩, fun σ s _ => by rw [hq]; rfl⟩

theorem padRule_runEnd (r : RunRet) {next : State → State} (h : PadRule next) : PadRule (runEnd r next) := by
  unfold runEnd
  exact padRule_ite (fun _ _ => rfl) (padRule_giveBack fun _ _ => rfl) h

theorem padRule_raise (e : Code) : PadRule (raise e) := by
  unfold raise
  refine padRule_ite (fun _ _ => rfl)
    (padRule_ite (fun _ _ => rfl) (padRule_giveBack fun _ _ => rfl) (plain_fatalFinish e).padRule) ?_
  exact ((plain_finish e).comp (plain_setPanelTo fun _ _ => rfl)).padRule

/-! ## The busy-poll -/

/-- The sample reads the BUSY pad and no other. -/
theorem readsBusyOnly_pollSampled : ReadsBusyOnly pollSampled := fun σ s h => by
  unfold pollSampled
  rw [h.busy]
  rfl

theorem padRule_pollSample (r : PollRet) {next : State → State} (h : PadRule next) : PadRule (pollSample r next) := by
  have hprior : ReadsBusyOnly fun s => setPanel s.seq.prior (pollSampled s) := fun σ s hs =>
    (congrArg (setPanel s.seq.prior) (readsBusyOnly_pollSampled σ s hs)).trans
      ((plain_setPanel s.seq.prior).blind σ _)
  have hreturn : ∀ {f : State → State}, PadRule f → PadRule fun s => f (setPanel s.seq.prior (pollSampled s)) := fun hf =>
    ⟨fun s => (hf.moves _).after (by simp [pollSampled]) (by simp [pollSampled]), fun σ s hs =>
      (congrArg _ (hprior σ s hs)).trans (hf.blind σ _ (hs.congr (by simp [pollSampled]) (by simp [pollSampled])
        (by simp [pollSampled])))⟩
  have hagain : PadRule fun s => delayStart (pollMs s.build) (.poll r) (pollSampled s) :=
    ⟨fun _ => .of_pins rfl, fun σ s hs => congrArg (delayStart _ _) (readsBusyOnly_pollSampled σ s hs)⟩
  have hbusy : PadRule fun s => if s.snap.timeout ≠ 0 ∧ s.snap.timeout.toNat ≤ s.seq.waited then
      raise .busyTimeout (setPanel s.seq.prior (pollSampled s)) else delayStart (pollMs s.build) (.poll r) (pollSampled s) :=
    padRule_ite (fun _ _ => rfl) (hreturn (padRule_raise _)) hagain
  refine ⟨fun s => ?_, fun σ s hs => ?_⟩
  · rw [pollSample_eq]
    split
    · exact (hreturn h).moves s
    · exact hbusy.moves s
  · rw [pollSample_eq, pollSample_eq, hs.busy]
    split
    · exact (hreturn h).blind σ s hs
    · exact hbusy.blind σ s hs

theorem padRule_waitIdle (r : PollRet) {next : State → State} (h : PadRule next) : PadRule (waitIdle r next) :=
  ((padRule_pollSample r h).after (plain_setPanel .busy)).after (plain_seq (fun _ => rfl) fun _ _ => rfl)

theorem padRule_pollAgain (r : PollRet) {next : State → State} (h : PadRule next) : PadRule (pollAgain r next) :=
  (padRule_pollSample r h).after (plain_seq (fun _ => rfl) fun _ _ => rfl)

/-! ## The player, the check pass and the flush engine -/

theorem padRule_playRecord : PadRule playRecord := by
  unfold playRecord
  refine padRule_ite (fun _ _ => rfl) ?_ ?_
  · exact padRule_ite (fun _ _ => rfl) (padRule_raise _) (padRule_readStart (fun _ _ => rfl) _)
  · exact ((plain_finish .none).comp (plain_setPanel .idle)).padRule

theorem padRule_playAdvance : PadRule playAdvance := padRule_playRecord.after (plain_seq (fun _ => rfl) fun _ _ => rfl)

theorem padRule_playWait : PadRule playWait := by
  unfold playWait
  exact padRule_ite (fun _ _ => rfl) (padRule_waitIdle _ padRule_playAdvance) padRule_playAdvance

theorem padRule_playData : PadRule playData := by
  unfold playData
  exact padRule_ite (fun _ _ => rfl) (padRule_readStart (fun _ _ => rfl) _) (padRule_runEnd _ padRule_playWait)

theorem padRule_playGotLen (b : Byte) : PadRule (playGotLen b) := by
  have hthen : PadRule fun s => if ctlReserved s.seq.rctl ≠ 0 ∨ s.seq.tend < s.seq.tp + 3 + b.toNat then
      raise .seqFormat s else txStart .command s.seq.rcmd .playCmd s :=
    padRule_ite (fun _ _ => rfl) (padRule_raise _) (padRule_txStart _ (fun _ _ => rfl) _)
  exact hthen.after (plain_seq (q := fun s => { s.seq with rlen := b }) (fun _ => rfl) fun _ _ => rfl)

theorem plain_playStarted (p : PanelState) : Plain (playStarted p) := by
  unfold playStarted
  refine ⟨fun _ => rfl, fun _ => rfl, fun _ => rfl, fun _ => rfl, fun _ => rfl, fun σ s => ?_⟩
  rfl

theorem padRule_checkPassed (n : PanelState) : PadRule (checkPassed n) := by
  rw [show checkPassed n = _ from funext (checkPassed_eq n)]
  exact padRule_playRecord.after (plain_playStarted n)

theorem padRule_checkRecord (n : PanelState) (o : Nat) : PadRule (checkRecord n o) := by
  unfold checkRecord
  refine padRule_ite (fun _ _ => rfl) ?_ (padRule_checkPassed n)
  exact padRule_ite (fun _ _ => rfl) (padRule_raise _) (padRule_readStart (fun _ _ => rfl) _)

theorem padRule_checkGotLen (n : PanelState) (o : Nat) (c b : Byte) : PadRule (checkGotLen n o c b) := by
  unfold checkGotLen
  refine padRule_ite (fun _ _ => rfl) (padRule_raise _) ?_
  exact padRule_ite (fun _ _ => rfl) (padRule_raise _) (padRule_checkRecord n _)

theorem padRule_tableBody (n : PanelState) : PadRule (tableBody n) := by
  unfold tableBody
  refine padRule_ite (fun _ _ => rfl) (padRule_checkPassed n) ?_
  exact padRule_ite (fun _ _ => rfl) (padRule_raise _) (padRule_checkRecord n 0)

theorem padRule_flushRead : PadRule flushRead := padRule_readStart (fun _ _ => rfl) _

theorem padRule_flushRefresh : PadRule flushRefresh := padRule_txStart _ (fun _ _ => rfl) _

theorem padRule_flushSentData : PadRule flushSentData := by
  unfold flushSentData
  refine padRule_ite (fun _ _ => rfl) (padRule_flushRead.after (plain_seq (fun _ => rfl) fun _ _ => rfl)) ?_
  refine padRule_ite (fun _ _ => rfl) (padRule_flushRead.after (plain_seq (fun _ => rfl) fun _ _ => rfl)) ?_
  exact padRule_runEnd _ padRule_flushRefresh

theorem padRule_flushBody : PadRule flushBody := by
  unfold flushBody
  refine padRule_ite (fun _ _ => rfl) (padRule_raise _) (padRule_ite (fun _ _ => rfl) (padRule_raise _) ?_)
  exact (padRule_txStart .command (b := fun s => s.snap.writeRam) (fun _ _ => rfl) .flushWriteRam).after
    (plain_seq (fun _ => rfl) fun _ _ => rfl)

/-! ## The statements after each timed statement -/

theorem padRule_afterTx (r : TxRet) : PadRule (afterTx r) := by
  cases r with
  | send => exact padRule_runEnd .send (plain_finish .none).padRule
  | playCmd => exact padRule_playData.after (plain_seq (fun _ => rfl) fun _ _ => rfl)
  | playData => exact padRule_playData.after (plain_seq (fun _ => rfl) fun _ _ => rfl)
  | flushWriteRam => exact padRule_flushRead.after (plain_seq (fun _ => rfl) fun _ _ => rfl)
  | flushData => exact padRule_flushSentData
  | flushRefresh => exact padRule_waitIdle .flush (plain_finish .none).padRule

theorem padRule_afterRun (r : RunRet) : PadRule (afterRun r) := by
  cases r with
  | send => exact (plain_finish .none).padRule
  | play => exact padRule_playWait
  | flush => exact padRule_flushRefresh

theorem padRule_afterRead (r : ReadRet) (b : Byte) : PadRule (afterRead r b) := by
  cases r with
  | checkCtl n o => exact padRule_readStart (fun _ _ => rfl) _
  | checkLen n o c => exact padRule_checkGotLen n o c b
  | playCmd =>
    exact (padRule_readStart (a := fun s => s.seq.tp + 1) (fun _ _ => rfl) .playCtl).after
      (plain_seq (q := fun s => { s.seq with rcmd := b }) (fun _ => rfl) fun _ _ => rfl)
  | playCtl =>
    exact (padRule_readStart (a := fun s => s.seq.tp + 2) (fun _ _ => rfl) .playLen).after
      (plain_seq (q := fun s => { s.seq with rctl := b }) (fun _ => rfl) fun _ _ => rfl)
  | playLen => exact padRule_playGotLen b
  | playData => exact padRule_txStart .data (b := fun _ => b) (fun _ _ => rfl) .playData
  | flushData => exact padRule_txStart .data (b := fun _ => b) (fun _ _ => rfl) .flushData

theorem padRule_afterPoll (r : PollRet) : PadRule (afterPoll r) := by
  cases r with
  | waitIdle => exact (plain_finish .none).padRule
  | play => exact padRule_playAdvance
  | flush => exact (plain_finish .none).padRule

/-- RESET's low time is the only one whose end drives `rst_n`. -/
theorem padRule_afterDelay {r : DelayRet} (hr : r ≠ .resetLow) : PadRule (afterDelay r) := by
  cases r with
  | resetLow => exact absurd rfl hr
  | resetHigh => exact ((plain_finish .none).comp (plain_setPanel .idle)).padRule
  | poll q => exact padRule_pollAgain q (padRule_afterPoll q)

/-- The first statements of an operation. INIT sets the lines, and RESET drives `rst_n`. -/
theorem padRule_acceptBody {i : Instr} (hinit : i ≠ .init) (hreset : i ≠ .reset) : PadRule (acceptBody i) := by
  cases i with
  | init => exact absurd rfl hinit
  | reset => exact absurd rfl hreset
  | sendCmd b => exact padRule_txStart .command (b := fun t => t.snap.arg) (fun _ _ => rfl) .send
  | sendData b => exact padRule_txStart .data (b := fun t => t.snap.arg) (fun _ _ => rfl) .send
  | waitIdle => exact padRule_waitIdle .waitIdle (plain_finish .none).padRule
  | powerOn => exact padRule_tableBody _
  | initRegs => exact padRule_tableBody _
  | powerOff => exact padRule_tableBody _
  | flush => exact padRule_flushBody

/-! ## A cycle of a running operation -/

theorem padRule_txReturn (f : Bool) (r : TxRet) : PadRule (txReturn f (afterTx r)) := by
  unfold txReturn
  exact padRule_ite (fun _ _ => rfl) (padRule_raise _) (padRule_afterTx r)

theorem padRule_readCycle (a l : Nat) (d : ReadDraw) (r : ReadRet) : PadRule (readCycle a l d r (afterRead r)) := by
  have hanswer : PadRule fun s => match readAnswer s a d with
      | none => raise .memFault s
      | some b => afterRead r b s := by
    refine ⟨fun s => ?_, fun σ s h => ?_⟩
    · cases readAnswer s a d with
      | none => exact (padRule_raise _).moves s
      | some b => exact (padRule_afterRead r b).moves s
    · rw [show readAnswer (withScript σ s) a d = readAnswer s a d from rfl]
      cases readAnswer s a d with
      | none => exact (padRule_raise _).blind σ s h
      | some b => exact (padRule_afterRead r b).blind σ s h
  unfold readCycle
  exact padRule_ite (fun _ _ => rfl) hanswer (plain_setStep _).padRule

theorem padRule_runEndCycle (l : Nat) (r : RunRet) : PadRule (runEndCycle l r (afterRun r)) := by
  unfold runEndCycle
  exact padRule_ite (fun _ _ => rfl) (padRule_afterRun r) (plain_setStep _).padRule

theorem padRule_delayCycle {r : DelayRet} (hr : r ≠ .resetLow) : PadRule (delayCycle (afterDelay r)) := by
  unfold delayCycle
  exact padRule_ite (fun _ _ => rfl) (padRule_afterDelay hr)
    (plain_seq (q := fun s => { s.seq with timer := s.seq.timer - 1 }) (fun _ => rfl) fun _ _ => rfl).padRule

theorem padRule_cleanupCycle (l : Nat) (e : Code) : PadRule (cleanupCycle l e) := by
  unfold cleanupCycle
  exact padRule_ite (fun _ _ => rfl) (plain_fatalFinish e).padRule (plain_setStep _).padRule

theorem Phase.next_ne_p (ph : Phase) : ph.next ≠ .p := by
  unfold Phase.next
  split <;> simp

/-- A cycle of a transaction leaves `dc` and `rst_n` alone, or it is the return: after phase E, or in a burst run after
`H_0`. -/
theorem txCycle_cases (k : Kind) (b : Byte) (ph : Phase) (l : Nat) (f : Bool) (r : TxRet) (next : State → State)
    (s : State) :
    ((txCycle k b ph l f r next s).pins.dc = s.pins.dc ∧ (txCycle k b ph l f r next s).pins.rstN = s.pins.rstN)
    ∨ (ph = .e ∨ ph = .high 0 ∧ l = 0 ∧ inBurst k s = true) ∧ txCycle k b ph l f r next s = txReturn f next s := by
  by_cases hl : l = 0
  · subst hl
    by_cases he : ph = .e
    · exact .inr ⟨.inl he, by rw [he]; rfl⟩
    by_cases h0 : ph = .high 0
    · subst h0
      cases hb : inBurst k s with
      | true => exact .inr ⟨.inr ⟨rfl, rfl, rfl⟩, by simp [txCycle, hb]⟩
      | false =>
        rw [show txCycle k b (.high 0) 0 f r next s = txPhase k b .e f r s by simp [txCycle, hb]]
        exact .inl (txPhase_dc_rstN (by simp) ..)
    · rw [txCycle_next he h0]
      exact .inl (txPhase_dc_rstN ph.next_ne_p ..)
  · rw [txCycle_within (Nat.pos_of_ne_zero hl), txHold_pins]
    exact .inl ⟨rfl, rfl⟩

theorem padRule_txCycle (k : Kind) (b : Byte) (ph : Phase) (l : Nat) (f : Bool) (r : TxRet) :
    PadRule (txCycle k b ph l f r (afterTx r)) := by
  refine ⟨fun s => ?_, ?_⟩
  · obtain ⟨hdc, hrst⟩ | ⟨-, hreturn⟩ := txCycle_cases k b ph l f r (afterTx r) s
    · exact ⟨hrst, .inl hdc⟩
    · rw [hreturn]
      exact (padRule_txReturn f r).moves s
  · unfold txCycle
    refine readsBusyOnly_ite (fun _ _ => rfl) ?_ (readsBusyOnly_txHold _ _ _ _ _ _)
    match ph with
    | .p => exact readsBusyOnly_txPhase _ _ _ _ _
    | .low i => exact readsBusyOnly_txPhase _ _ _ _ _
    | .high (i + 1) => exact readsBusyOnly_txPhase _ _ _ _ _
    | .high 0 =>
      exact readsBusyOnly_ite (fun _ _ => rfl) (padRule_txReturn f r).blind (readsBusyOnly_txPhase _ _ _ _ _)
    | .e => exact (padRule_txReturn f r).blind

/-- What a running operation does in a cycle: both rules hold, except that `rst_n` rises at the end of RESET's low time. -/
theorem pinMove_advance {s : State} (h : s.seq.step ≠ .delay .resetLow) : PinMove s (advance s) := by
  unfold advance
  cases hst : s.seq.step with
  | idle => exact .of_pins rfl
  | tx k b ph l f r => exact (padRule_txCycle k b ph l f r).moves s
  | runEnd l r => exact (padRule_runEndCycle l r).moves s
  | read a l d r => exact (padRule_readCycle a l d r).moves s
  | delay r => exact (padRule_delayCycle fun hr => h (by rw [hst, hr])).moves s
  | cleanup l e => exact (padRule_cleanupCycle l e).moves s

/-- RESET's low time holds the lines, and its end drives `rst_n` to 1 (41_panel_sequencer.md R174). -/
theorem pins_advance_resetLow {s : State} (h : s.seq.step = .delay .resetLow) :
    (advance s).pins = s.pins ∨ (advance s).pins = { s.pins with rstN := true } := by
  simp only [advance, h, delayCycle]
  split
  · exact .inr rfl
  · exact .inl rfl

theorem readsBusyOnly_resetLow : ReadsBusyOnly (delayCycle resetAfterLow) := by
  unfold delayCycle
  exact readsBusyOnly_ite (fun _ _ => rfl) (fun _ _ _ => rfl) (fun _ _ _ => rfl)

theorem readsBusyOnly_advance : ReadsBusyOnly advance := fun σ s h => by
  unfold advance
  rw [show (withScript σ s).seq.step = s.seq.step from rfl]
  cases s.seq.step with
  | idle => rfl
  | tx k b ph l f r => exact (padRule_txCycle k b ph l f r).blind σ s h
  | runEnd l r => exact (padRule_runEndCycle l r).blind σ s h
  | read a l d r => exact (padRule_readCycle a l d r).blind σ s h
  | cleanup l e => exact (padRule_cleanupCycle l e).blind σ s h
  | delay r =>
    by_cases hr : r = .resetLow
    · subst hr
      exact readsBusyOnly_resetLow σ s h
    · exact (padRule_delayCycle hr).blind σ s h

/-! ## The accept cycle -/

theorem readsBusyOnly_acceptBody (i : Instr) : ReadsBusyOnly (acceptBody i) := by
  by_cases hinit : i = .init
  · subst hinit
    show ReadsBusyOnly initBody
    unfold initBody
    refine readsBusyOnly_ite (fun _ _ => rfl) (fun σ s _ => ?_) (padRule_raise _).blind
    exact congrArg (finish .none) ((plain_setPanel .uninitialized).blind σ { s with
      cfg := configOf s.regs, pins := initPins, stat := { s.stat with configured := true, fatal := false } })
  by_cases hreset : i = .reset
  · subst hreset
    intro σ s _
    exact congrArg (fun t => delayStart (resetLowMs s.build) .resetLow (driveRst false t))
      ((plain_setPanel .resetting).blind σ s)
  · exact (padRule_acceptBody hinit hreset).blind

theorem readsBusyOnly_accept (i : Instr) : ReadsBusyOnly (accept i (acceptBody i)) := fun σ s h => by
  unfold accept
  rw [show acceptCheck i (withScript σ s).stat = acceptCheck i s.stat from rfl]
  cases acceptCheck i s.stat with
  | none => exact readsBusyOnly_acceptBody i σ (begin i.opcode i.arg s) (h.congr rfl rfl rfl)
  | _ => rfl

/-- Whatever the sequencer does in a cycle, it does under every script with the same inputs. -/
theorem sequencerCycle_withScript {σ : List CycleIn} {s u : State} (h : SameInputs σ s) (hu : sequencerCycle s = .next u) :
    sequencerCycle (withScript σ s) = .next (withScript σ u) := by
  unfold sequencerCycle at hu ⊢
  rw [show (withScript σ s).seq = s.seq from rfl, show active (withScript σ s) = active s from rfl]
  split at hu
  · next w hw =>
    split at hu
    · next i hi =>
      rw [exec_eq] at hu ⊢
      cases hu
      rw [readsBusyOnly_accept i σ s h]
    · cases hu
      rfl
  · next hoff =>
    split at hu
    · next ha =>
      cases hu
      rw [if_pos ha]
    · next ha =>
      split at hu
      · cases hu
      · next hst =>
        cases hu
        rw [if_neg ha, if_neg hst, readsBusyOnly_advance σ s h]

/-- A script that differs in the present cycle's pads only, and there not on the BUSY pad, gives the same inputs. -/
theorem sameInputs_set {s : State} {pads : Levels} (hc : s.env.cycle < s.env.script.length)
    (hb : busyLevel s.cfg pads = busyLevel s.cfg (input s).pads) :
    SameInputs (s.env.script.set s.env.cycle { input s with pads := pads }) s := by
  have hin : input (withScript (s.env.script.set s.env.cycle { input s with pads := pads }) s)
      = { input s with pads := pads } := by
    show (s.env.script.set s.env.cycle _).getD s.env.cycle _ = _
    rw [List.getD_eq_getElem?_getD, List.getElem?_set_self hc, Option.getD_some]
  refine ⟨by rw [hin], by rw [hin], ?_⟩
  show busyLevel s.cfg (input (withScript _ s)).pads = _
  rw [hin]
  exact hb

/-- Settles O49: what the sequencer does in a cycle is the same under every script with the same inputs. -/
theorem onlyTheBusyPadIsSampled : Obligations.OnlyTheBusyPadIsSampled := by
  rintro s u i pads rfl hc hb hu
  exact sequencerCycle_withScript (sameInputs_set hc hb) hu

/-! ## `dc` and `rst_n` in a cycle of the sequencer -/

/-- The lines after an acceptance that INIT does not configure and RESET does not start. -/
theorem accept_rstN_dc {i : Instr} {s : State} (hinit : i ≠ .init) (hreset : i ≠ .reset) :
    (accept i (acceptBody i) s).pins.rstN = s.pins.rstN
    ∧ ((accept i (acceptBody i) s).pins.dc = s.pins.dc
      ∨ (accept i (acceptBody i) s).pins.csN = true ∧ (accept i (acceptBody i) s).pins.sclk = false) := by
  obtain ⟨-, he⟩ | ⟨-, he⟩ := accept_cases i (acceptBody i) s <;> rw [he]
  · have hmove := (padRule_acceptBody hinit hreset).moves (begin i.opcode i.arg s)
    exact ⟨hmove.rstN, hmove.dc.imp_right And.right⟩
  · exact ⟨rfl, .inl rfl⟩

/-- INIT sets the lines to their idle levels, or leaves them alone (40_bus_transport.md R134). -/
theorem pins_accept_init (s : State) :
    (accept .init (acceptBody .init) s).pins = initPins ∨ (accept .init (acceptBody .init) s).pins = s.pins := by
  show (initBody (begin _ _ s)).pins = _ ∨ (initBody (begin _ _ s)).pins = _
  cases hl : configLegal s.build (configOf s.regs) with
  | false => exact .inr (by rw [initBody_begin_illegal hl]; rfl)
  | true => exact .inl (by simp [initBody, hl])

/-- RESET drives `rst_n` to 0 when it is accepted, and moves no other line (41_panel_sequencer.md R174). -/
theorem pins_accept_reset (s : State) :
    (accept .reset (acceptBody .reset) s).pins = { s.pins with rstN := false }
    ∨ (accept .reset (acceptBody .reset) s).pins = s.pins := by
  obtain ⟨-, he⟩ | ⟨-, he⟩ := accept_cases .reset (acceptBody .reset) s <;> rw [he]
  · exact .inl (by simp [acceptBody, resetBody])
  · exact .inr rfl

/-- Settles O48: the host moves no line, and of the sequencer's statements only INIT's and RESET's move `rst_n`. -/
theorem onlyInitAndResetDriveRst : Obligations.OnlyInitAndResetDriveRst := by
  intro s t hinv hb hstep hne
  obtain ⟨u, hu, rfl⟩ := endCycle_of_step hb hstep
  rw [(endCycle_frame s u).pins] at hne ⊢
  obtain ⟨w, i, hw, hi, rfl⟩ | ⟨w, -, rfl⟩ | ⟨-, -, rfl⟩ | ⟨hoff, -, rfl⟩ := sequencerCycle_cases hu
  · rw [hw, ← encode_of_decodeWord hi]
    by_cases hinit : i = .init
    · subst hinit
      have hpins := (pins_accept_init s).resolve_right fun h => hne (by rw [h])
      exact .inl ⟨rfl, by rw [hpins]; rfl⟩
    by_cases hreset : i = .reset
    · subst hreset
      have hpins := (pins_accept_reset s).resolve_right fun h => hne (by rw [h])
      exact .inr (.inl ⟨rfl, by rw [hpins]⟩)
    · exact absurd (accept_rstN_dc hinit hreset).1 hne
  · exact absurd rfl hne
  · exact absurd rfl hne
  · by_cases hlow : s.seq.step = .delay .resetLow
    · have hpins := (pins_advance_resetLow hlow).resolve_left fun h => hne (by rw [h])
      exact .inr (.inr ⟨hoff, hlow, by rw [hpins]⟩)
    · exact absurd (pinMove_advance hlow).rstN hne

/-- A cycle of a running operation that turns `dc` finds CS high. -/
theorem Inv.csN_of_dc_turns {s : State} (h : Inv s) (hop : s.seq.op ≠ none) (hoff : s.seq.offer = none)
    (hfree : s.seq.csHeld = false) (hdc : (advance s).pins.dc ≠ s.pins.dc) : s.pins.csN = true := by
  cases hst : s.seq.step with
  | idle => exact (h.pinsAt hop hoff hst).1
  | runEnd l r => exact (h.pinsAt hop hoff hst).1.1
  | read a l d r =>
    obtain ⟨-, -, hcs, -⟩ := h.pinsAt hop hoff hst
    exact hcs.trans (congrArg not hfree)
  | cleanup l e => exact (h.pinsAt hop hoff hst).1.1
  | delay r =>
    have hpins := h.pinsAt hop hoff hst
    cases r with
    | resetLow => exact hpins.1
    | resetHigh => exact hpins.1.1
    | poll q => exact hpins.1.1
  | tx k b ph l f r =>
    have hadv : advance s = txCycle k b ph l f r (afterTx r) s := by rw [advance, hst]
    rw [hadv] at hdc
    obtain ⟨hsame, -⟩ | ⟨rfl | ⟨rfl, rfl, hburst⟩, -⟩ := txCycle_cases k b ph l f r (afterTx r) s
    · exact absurd hsame hdc
    · exact (h.pinsAt hop hoff hst).1.1
    · -- inside a burst run CS would be held
      obtain ⟨-, -, -, hheld, -⟩ := h.txAt hst
      have hheld : s.seq.csHeld = inBurst k s := hheld ⟨rfl, rfl⟩
      rw [hburst, hfree] at hheld
      cases hheld

/-- Settles O47: `dc` turns in INIT and in phase P, with CS free before, and with the idle levels of CS and clock after. -/
theorem dcChangesOnlyWithChipSelectHigh : Obligations.DcChangesOnlyWithChipSelectHigh := by
  intro s t hinv hconf hb hstep hne
  obtain ⟨u, hu, rfl⟩ := endCycle_of_step hb hstep
  rw [(endCycle_frame s u).pins] at hne ⊢
  obtain ⟨w, i, hw, -, rfl⟩ | ⟨w, -, rfl⟩ | ⟨-, -, rfl⟩ | ⟨hoff, hop, rfl⟩ := sequencerCycle_cases hu
  · refine ⟨(hinv.idlePins_of_idle (hinv.control.offered w hw).2 hconf).1, ?_⟩
    by_cases hinit : i = .init
    · subst hinit
      have hpins := (pins_accept_init s).resolve_right fun h => hne (by rw [h])
      rw [hpins]
      exact ⟨rfl, rfl⟩
    by_cases hreset : i = .reset
    · subst hreset
      obtain hpins | hpins := pins_accept_reset s <;> exact absurd (by rw [hpins]) hne
    · exact (accept_rstN_dc hinit hreset).2.resolve_left hne
  · exact absurd rfl hne
  · exact absurd rfl hne
  · by_cases hlow : s.seq.step = .delay .resetLow
    · obtain hpins | hpins := pins_advance_resetLow hlow <;> exact absurd (by rw [hpins]) hne
    · obtain ⟨hfree, hafter⟩ := (pinMove_advance hlow).dc.resolve_left hne
      exact ⟨hinv.csN_of_dc_turns hop hoff hfree hne, hafter⟩

end Sys2Proof.Machine
end

section
/-!
SUPPORT. The STATE events of a cycle: each statement of an operation leads PanelState on by transitions of
41_panel_sequencer.md R185, each of them in the trace, when it starts from the PanelState the invariant gives it.
-/

namespace Sys2Proof.Machine

open Sys2Proof

/-! ## Paths of PanelState -/

/-- The STATE events among `evs` lead from `p` to `q`, each by a transition of R185. -/
def LegalRun (p : PanelState) (evs : List Event) (q : PanelState) : Prop :=
  pathLegal (panelPath p evs) = true ∧ (panelPath p evs).getLast? = some q

theorem panelPath_eq_cons (p : PanelState) (evs : List Event) : ∃ path, panelPath p evs = p :: path := by
  induction evs generalizing p with
  | nil => exact ⟨[], rfl⟩
  | cons e evs ih =>
    cases e with
    | panel q => exact ⟨panelPath q evs, rfl⟩
    | _ => exact ih p

@[simp] theorem legalRun_nil (p q : PanelState) : LegalRun p [] q ↔ p = q := by simp [LegalRun, panelPath, pathLegal]

@[simp] theorem legalRun_panel (p q r : PanelState) (evs : List Event) :
    LegalRun p (.panel q :: evs) r ↔ PanelMove p q = true ∧ LegalRun q evs r := by
  obtain ⟨path, hpath⟩ := panelPath_eq_cons q evs
  simp [LegalRun, panelPath, hpath, pathLegal, and_assoc]

theorem LegalRun.append {p q r : PanelState} {as bs : List Event} (h : LegalRun p as q) (k : LegalRun q bs r) :
    LegalRun p (as ++ bs) r := by
  induction as generalizing p with
  | nil =>
    rw [legalRun_nil] at h
    exact h ▸ k
  | cons e as ih =>
    cases e with
    | panel q' =>
      rw [legalRun_panel] at h
      exact (legalRun_panel ..).mpr ⟨h.1, ih h.2⟩
    | _ => exact ih h

/-! ## Statements that follow the table -/

/-- `u` stands in the same cycle as `s`, and the events between them lead from the PanelState of `s` to that of `u` by
transitions of R185. -/
structure Follows (s u : State) : Prop where
  cycle : u.env.cycle = s.env.cycle
  events : ∃ evs : List Event, u.env.trace = s.env.trace ++ evs.map (fun e => (s.env.cycle, e))
    ∧ LegalRun s.stat.panel evs u.stat.panel

theorem Follows.of_eq {s u : State} (hstat : u.stat.panel = s.stat.panel) (henv : u.env = s.env) : Follows s u :=
  ⟨by rw [henv], [], by simp [henv], by simp [hstat]⟩

theorem Follows.refl (s : State) : Follows s s := .of_eq rfl rfl

theorem Follows.trans {s t u : State} (h : Follows s t) (k : Follows t u) : Follows s u := by
  obtain ⟨as, has, has'⟩ := h.events
  obtain ⟨bs, hbs, hbs'⟩ := k.events
  exact ⟨k.cycle.trans h.cycle, as ++ bs, by rw [hbs, has, h.cycle]; simp, has'.append hbs'⟩

/-- Assignments that leave PanelState and the trace alone may come first. -/
theorem Follows.after_eq {s v u : State} (k : Follows v u) (hstat : v.stat.panel = s.stat.panel) (henv : v.env = s.env) :
    Follows s u := (Follows.of_eq hstat henv).trans k

/-- `SetState(p)` enters `p` by a transition, or holds it already. -/
theorem follows_setPanel {p : PanelState} {s : State} (h : s.stat.panel = p ∨ PanelMove s.stat.panel p = true) :
    Follows s (setPanel p s) := by
  unfold setPanel
  split
  · exact .refl s
  · next hne => exact ⟨rfl, [.panel p], rfl, by simpa using h.resolve_left hne⟩

theorem follows_finish (c : Code) (s : State) : Follows s (finish c s) :=
  ⟨rfl, [.done (s.seq.op.getD 0) c], rfl, rfl, rfl⟩

theorem follows_readStart (a : Nat) (r : ReadRet) (s : State) : Follows s (readStart a r s) := .of_eq rfl rfl

theorem follows_delayStart (ms : Nat) (r : DelayRet) (s : State) : Follows s (delayStart ms r s) := .of_eq rfl rfl

theorem follows_driveRst (level : Bool) (s : State) : Follows s (driveRst level s) :=
  ⟨rfl, [.rstPin level], rfl, rfl, rfl⟩

theorem follows_pollSampled (s : State) : Follows s (pollSampled s) := ⟨rfl, [.busySample (sampleBusy s)], rfl, rfl, rfl⟩

theorem follows_txHold (k : Kind) (b : Byte) (ph : Phase) (l : Nat) (f : Bool) (r : TxRet) (s : State) :
    Follows s (txHold k b ph l f r s) := by
  unfold txHold
  split
  · exact ⟨rfl, [.tx k b], rfl, rfl, rfl⟩
  · exact .of_eq rfl rfl

theorem follows_txPhase (k : Kind) (b : Byte) (ph : Phase) (f : Bool) (r : TxRet) (s : State) :
    Follows s (txPhase k b ph f r s) := (follows_txHold k b ph _ f r _).after_eq rfl rfl

theorem follows_txStart (k : Kind) (b : Byte) (r : TxRet) (s : State) : Follows s (txStart k b r s) :=
  (follows_txPhase k b _ false r _).after_eq rfl rfl

theorem follows_runEnd (r : RunRet) {next : State → State} {s : State} (h : Follows s (next s)) :
    Follows s (runEnd r next s) := by
  unfold runEnd
  split
  · exact .of_eq rfl rfl
  · exact h

/-! ## Where the operations stand in the table -/

/-- PanelState `p` while an operation that was accepted in `pre` is at work: unchanged, or that of the table it plays. -/
def Working (p pre : PanelState) : Prop := p = pre ∧ Resting pre ∨ Powering p ∧ pre = .idle

/-- The operation was accepted in Idle and has not moved PanelState. -/
def Unmoved (s : State) : Prop := s.stat.panel = .idle ∧ s.seq.pre = .idle

/-- A table is being played. -/
def Playing (s : State) : Prop := Powering s.stat.panel ∧ s.seq.pre = .idle

theorem Unmoved.working {s : State} (h : Unmoved s) : Working s.stat.panel s.seq.pre :=
  .inl ⟨h.1.trans h.2.symm, .inr h.2⟩

theorem Playing.working {s : State} (h : Playing s) : Working s.stat.panel s.seq.pre := .inr h

/-- What R185 lets follow PoweringOn and PoweringOff. -/
theorem Powering.moves {p : PanelState} (h : Powering p) : PanelMove p .idle = true ∧ PanelMove p .busy = true := by
  obtain rfl | rfl := h <;> exact ⟨rfl, rfl⟩

/-- A busy-poll can be entered from wherever an operation is at work, and left for there again. -/
theorem Working.busy {p pre : PanelState} (h : Working p pre) : PanelMove p .busy = true ∧ PanelMove .busy p = true := by
  obtain ⟨rfl, rfl | rfl⟩ | ⟨rfl | rfl, -⟩ := h <;> exact ⟨rfl, rfl⟩

theorem Working.ne_resetting {p pre : PanelState} (h : Working p pre) : p ≠ .resetting := by
  obtain ⟨rfl, rfl | rfl⟩ | ⟨rfl | rfl, -⟩ := h <;> exact nofun

/-- A fatal error enters Uninitialized from everywhere but Resetting, in which none is raised. -/
theorem follows_fatalFinish {s : State} (h : s.stat.panel ≠ .resetting) (e : Code) : Follows s (fatalFinish e s) := by
  have hmove : s.stat.panel = .uninitialized ∨ PanelMove s.stat.panel .uninitialized = true := by
    cases hp : s.stat.panel with
    | uninitialized => exact .inl rfl
    | resetting => exact absurd hp h
    | _ => exact .inr rfl
  refine Follows.trans ?_ (follows_finish e _)
  exact (follows_setPanel (s := { s with stat := { s.stat with fatal := true } }) hmove).after_eq rfl rfl

/-- An error returns to the PanelState of the acceptance, or enters Uninitialized (60_exceptions.md R260, R261). -/
theorem follows_raise {s : State} (h : Working s.stat.panel s.seq.pre) (e : Code) : Follows s (raise e s) := by
  unfold raise
  split
  · split
    · exact .of_eq rfl rfl
    · exact follows_fatalFinish h.ne_resetting e
  · refine (follows_setPanel ?_).trans (follows_finish e _)
    exact h.imp And.left fun ⟨hp, hpre⟩ => hpre ▸ hp.moves.1

/-! ## The busy-poll -/

/-- A turn of the poll leaves Busy for `s.prior`, or stays. -/
theorem follows_pollSample {s : State} (r : PollRet) {next : State → State} (hbusy : s.stat.panel = .busy)
    (hw : Working s.seq.prior s.seq.pre)
    (hnext : ∀ t, t.stat.panel = s.seq.prior → t.seq.pre = s.seq.pre → Follows t (next t)) :
    Follows s (pollSample r next s) := by
  have hprior : Follows s (setPanel s.seq.prior (pollSampled s)) :=
    (follows_pollSampled s).trans (follows_setPanel (.inr (by simpa [pollSampled, hbusy] using hw.busy.2)))
  rw [pollSample_eq]
  split
  · exact hprior.trans (hnext _ (by simp) (by simp [pollSampled]))
  · split
    · exact hprior.trans (follows_raise (by simpa [pollSampled] using hw) _)
    · exact (follows_pollSampled s).trans (follows_delayStart _ _ _)

/-- `WaitIdle()` enters Busy first. -/
theorem follows_waitIdle {s : State} (r : PollRet) {next : State → State} (hw : Working s.stat.panel s.seq.pre)
    (hnext : ∀ t, t.stat.panel = s.stat.panel → t.seq.pre = s.seq.pre → Follows t (next t)) :
    Follows s (waitIdle r next s) := by
  have hbusy : Follows s (setPanel .busy { s with seq := { s.seq with prior := s.stat.panel, waited := 0, polls := 0 } }) :=
    Follows.after_eq (follows_setPanel (.inr hw.busy.1)) rfl rfl
  exact hbusy.trans (follows_pollSample r (by simp) (by simpa using hw) fun t hp hpre =>
    hnext t (by simpa using hp) (by simpa using hpre))

/-! ## The player, the check pass and the flush engine -/

theorem Playing.follows_playRecord {s : State} (h : Playing s) : Follows s (playRecord s) := by
  unfold playRecord
  split
  · split
    · exact follows_raise h.working _
    · exact follows_readStart _ _ s
  · exact (follows_setPanel (.inr h.1.moves.1)).trans (follows_finish _ _)

theorem Playing.follows_playAdvance {s : State} (h : Playing s) : Follows s (playAdvance s) :=
  Follows.after_eq (Playing.follows_playRecord h) rfl rfl

theorem Playing.follows_playWait {s : State} (h : Playing s) : Follows s (playWait s) := by
  unfold playWait
  split
  · refine follows_waitIdle .play h.working fun t hp hpre => ?_
    exact Playing.follows_playAdvance ⟨by rw [hp]; exact h.1, hpre.trans h.2⟩
  · exact h.follows_playAdvance

theorem Playing.follows_playData {s : State} (h : Playing s) : Follows s (playData s) := by
  unfold playData
  split
  · exact follows_readStart _ _ s
  · exact follows_runEnd .play h.follows_playWait

theorem Playing.follows_playGotLen {s : State} (h : Playing s) (b : Byte) : Follows s (playGotLen b s) := by
  refine Follows.after_eq (v := { s with seq := { s.seq with rlen := b } }) ?_ rfl rfl
  unfold playGotLen
  dsimp only
  split
  · exact follows_raise (s := { s with seq := { s.seq with rlen := b } }) h.working _
  · exact follows_txStart _ _ _ _

theorem Unmoved.follows_checkPassed {s : State} (h : Unmoved s) {n : PanelState} (hn : Powering n) :
    Follows s (checkPassed n s) := by
  have hmove : PanelMove s.stat.panel n = true := by
    rw [h.1]
    obtain rfl | rfl := hn <;> rfl
  refine (follows_setPanel (.inr hmove)).trans ((Playing.follows_playRecord ⟨?_, ?_⟩).after_eq rfl rfl)
  · simpa using hn
  · simpa using h.2

theorem Unmoved.follows_checkRecord {s : State} (h : Unmoved s) {n : PanelState} (hn : Powering n) (o : Nat) :
    Follows s (checkRecord n o s) := by
  unfold checkRecord
  split
  · split
    · exact follows_raise h.working _
    · exact follows_readStart _ _ s
  · exact h.follows_checkPassed hn

theorem Unmoved.follows_checkGotLen {s : State} (h : Unmoved s) {n : PanelState} (hn : Powering n) (o : Nat)
    (ctl b : Byte) : Follows s (checkGotLen n o ctl b s) := by
  unfold checkGotLen
  split
  · exact follows_raise h.working _
  · split
    · exact follows_raise h.working _
    · exact h.follows_checkRecord hn _

theorem Unmoved.follows_tableBody {s : State} (h : Unmoved s) {n : PanelState} (hn : Powering n) :
    Follows s (tableBody n s) := by
  unfold tableBody
  split
  · exact h.follows_checkPassed hn
  · split
    · exact follows_raise h.working _
    · exact h.follows_checkRecord hn 0

theorem follows_flushSentData (s : State) : Follows s (flushSentData s) := by
  unfold flushSentData
  split
  · exact (follows_readStart _ _ _).after_eq rfl rfl
  · split
    · exact (follows_readStart _ _ _).after_eq rfl rfl
    · exact follows_runEnd .flush (follows_txStart _ _ _ s)

theorem Unmoved.follows_flushBody {s : State} (h : Unmoved s) : Follows s (flushBody s) := by
  unfold flushBody
  split
  · exact follows_raise h.working _
  · split
    · exact follows_raise h.working _
    · exact (follows_txStart _ _ _ _).after_eq rfl rfl

/-! ## The statement after each timed statement -/

theorem follows_afterTx {s : State} {k : Kind} {b : Byte} {ph : Phase} {l : Nat} {f : Bool} {r : TxRet}
    (hp : PanelAt { s.seq with step := .tx k b ph l f r } s.stat.panel) : Follows s (afterTx r s) := by
  cases r with
  | send => exact follows_runEnd .send (follows_finish .none s)
  | playCmd => exact Follows.after_eq (Playing.follows_playData hp) rfl rfl
  | playData => exact Follows.after_eq (Playing.follows_playData hp) rfl rfl
  | flushWriteRam => exact (follows_readStart _ _ _).after_eq rfl rfl
  | flushData => exact follows_flushSentData s
  | flushRefresh => exact follows_waitIdle .flush (Unmoved.working hp) fun t _ _ => follows_finish .none t

theorem follows_afterRun {s : State} {l : Nat} {r : RunRet}
    (hp : PanelAt { s.seq with step := .runEnd l r } s.stat.panel) : Follows s (afterRun r s) := by
  cases r with
  | send => exact follows_finish .none s
  | play => exact Playing.follows_playWait hp
  | flush => exact follows_txStart _ _ _ s

theorem follows_afterRead {s : State} {a l : Nat} {d : ReadDraw} {r : ReadRet} (b : Byte)
    (hp : PanelAt { s.seq with step := .read a l d r } s.stat.panel) : Follows s (afterRead r b s) := by
  cases r with
  | checkCtl n o => exact follows_readStart _ _ s
  | checkLen n o ctl =>
    obtain ⟨hidle, hpre, hn⟩ := hp
    exact Unmoved.follows_checkGotLen ⟨hidle, hpre⟩ hn o ctl b
  | playCmd => exact (follows_readStart _ _ _).after_eq rfl rfl
  | playCtl => exact (follows_readStart _ _ _).after_eq rfl rfl
  | playLen => exact Playing.follows_playGotLen hp b
  | playData => exact follows_txStart .data b .playData s
  | flushData => exact follows_txStart .data b .flushData s

/-- A delay ends RESET's low or high time, or is the poll's. -/
theorem follows_afterDelay {s : State} {r : DelayRet} (hp : PanelAt { s.seq with step := .delay r } s.stat.panel)
    (hpre : Resting s.seq.pre) : Follows s (afterDelay r s) := by
  cases r with
  | resetLow => exact (follows_driveRst true s).trans (follows_delayStart _ _ _)
  | resetHigh =>
    have hmove : PanelMove s.stat.panel .idle = true := by rw [show s.stat.panel = .resetting from hp]; rfl
    exact (follows_setPanel (.inr hmove)).trans (follows_finish .none _)
  | poll q =>
    have hpoll : ∀ {next}, s.stat.panel = .busy → Working s.seq.prior s.seq.pre →
        (∀ t, t.stat.panel = s.seq.prior → t.seq.pre = s.seq.pre → Follows t (next t)) →
        Follows s (pollAgain q next s) := fun hbusy hw hnext =>
      (follows_pollSample (s := { s with seq := { s.seq with waited := s.seq.waited + pollMs s.build } }) q hbusy hw
        hnext).after_eq rfl rfl
    cases q with
    | waitIdle =>
      obtain ⟨hbusy, hprior⟩ := hp
      exact hpoll hbusy (.inl ⟨hprior, hpre⟩) fun t _ _ => follows_finish .none t
    | play =>
      obtain ⟨hbusy, hprior, hidle⟩ := hp
      exact hpoll hbusy (.inr ⟨hprior, hidle⟩) fun t hpt hpret =>
        Playing.follows_playAdvance ⟨by rw [hpt]; exact hprior, hpret.trans hidle⟩
    | flush =>
      obtain ⟨hbusy, hprior, hidle⟩ := hp
      exact hpoll hbusy (.inl ⟨hprior.trans hidle.symm, hpre⟩) fun t _ _ => follows_finish .none t

/-! ## A cycle of a running operation -/

theorem follows_txCycle {s : State} {k : Kind} {b : Byte} {ph : Phase} {l : Nat} {f : Bool} {r : TxRet}
    (hp : PanelAt { s.seq with step := .tx k b ph l f r } s.stat.panel) (hpre : Resting s.seq.pre) :
    Follows s (txCycle k b ph l f r (afterTx r) s) := by
  have hw : Working s.stat.panel s.seq.pre := by
    cases r with
    | send => exact .inl ⟨hp, hpre⟩
    | playCmd => exact .inr hp
    | playData => exact .inr hp
    | _ => exact Unmoved.working hp
  have hreturn : Follows s (txReturn f (afterTx r) s) := by
    unfold txReturn
    split
    · exact follows_raise hw _
    · exact follows_afterTx hp
  unfold txCycle
  split
  · match ph with
    | .p => exact follows_txPhase ..
    | .low i => exact follows_txPhase ..
    | .high (i + 1) => exact follows_txPhase ..
    | .high 0 =>
      dsimp only
      split
      · exact hreturn
      · exact follows_txPhase ..
    | .e => exact hreturn
  · exact follows_txHold ..

theorem follows_readCycle {s : State} {a l : Nat} {d : ReadDraw} {r : ReadRet}
    (hp : PanelAt { s.seq with step := .read a l d r } s.stat.panel) :
    Follows s (readCycle a l d r (afterRead r) s) := by
  have hw : Working s.stat.panel s.seq.pre := by
    cases r with
    | checkCtl n o => exact Unmoved.working ⟨hp.1, hp.2.1⟩
    | checkLen n o ctl => exact Unmoved.working ⟨hp.1, hp.2.1⟩
    | flushData => exact Unmoved.working hp
    | _ => exact .inr hp
  unfold readCycle
  split
  · split
    · exact follows_raise hw _
    · exact follows_afterRead _ hp
  · exact .of_eq rfl rfl

/-- PanelState at the statement at which an operation runs. -/
theorem Inv.panelAt {s : State} {st : Step} (h : Inv s) (hst : s.seq.step = st) :
    PanelAt { s.seq with step := st } s.stat.panel := by
  subst hst
  exact h.control.panel

/-- In a state of the invariant a cycle of the running operation follows the table. -/
theorem Inv.follows_advance {s : State} (h : Inv s) (hop : s.seq.op ≠ none) (hoff : s.seq.offer = none) :
    Follows s (advance s) := by
  have hpre : Resting s.seq.pre := (h.ambient hop hoff).pre
  unfold advance
  cases hst : s.seq.step with
  | idle => exact .refl s
  | tx k b ph l f r => exact follows_txCycle (h.panelAt hst) hpre
  | runEnd l r =>
    dsimp only
    unfold runEndCycle
    split
    · exact follows_afterRun (h.panelAt hst)
    · exact .of_eq rfl rfl
  | read a l d r => exact follows_readCycle (h.panelAt hst)
  | delay r =>
    dsimp only
    unfold delayCycle
    split
    · exact follows_afterDelay (h.panelAt hst) hpre
    · exact .of_eq rfl rfl
  | cleanup l e =>
    dsimp only
    unfold cleanupCycle
    split
    · refine follows_fatalFinish (fun hreset => ?_) e
      obtain hp | hp | hp | hp : s.stat.panel = .idle ∨ s.stat.panel = .uninitialized ∨ Powering s.stat.panel :=
        h.panelAt hst <;> rw [hreset] at hp <;> cases hp
    · exact .of_eq rfl rfl

/-! ## The accept cycle -/

/-- INIT enters Uninitialized, or moves nothing. -/
theorem follows_initBody {s : State} (hrest : Resting s.stat.panel) (hpre : s.seq.pre = s.stat.panel) :
    Follows s (initBody s) := by
  unfold initBody
  split
  · refine Follows.trans ?_ (follows_finish .none _)
    refine Follows.after_eq (v := { s with
      cfg := configOf s.regs, pins := initPins, stat := { s.stat with configured := true, fatal := false } })
      (follows_setPanel ?_) rfl rfl
    exact hrest.imp id fun hidle => by show PanelMove s.stat.panel _ = true; rw [hidle]; rfl
  · exact follows_raise (.inl ⟨hpre.symm, hpre ▸ hrest⟩) _

/-- The first statements of an operation that is accepted in the PanelState of `s`. -/
theorem follows_acceptBody {i : Instr} {s : State} (hrest : Resting s.stat.panel) (hpre : s.seq.pre = s.stat.panel)
    (ha : acceptedIn i s.stat.panel = true) : Follows s (acceptBody i s) := by
  have hidle : s.stat.panel = .idle → Unmoved s := fun hp => ⟨hp, hpre.trans hp⟩
  cases i with
  | init => exact follows_initBody hrest hpre
  | sendCmd b => exact follows_txStart _ _ _ s
  | sendData b => exact follows_txStart _ _ _ s
  | reset =>
    have hmove : PanelMove s.stat.panel .resetting = true := by obtain hp | hp := hrest <;> rw [hp] <;> rfl
    exact ((follows_setPanel (.inr hmove)).trans (follows_driveRst false _)).trans (follows_delayStart _ _ _)
  | waitIdle =>
    exact follows_waitIdle .waitIdle (.inl ⟨hpre.symm, hpre ▸ hrest⟩) fun t _ _ => follows_finish .none t
  | powerOn => exact (hidle (by simpa [acceptedIn] using ha)).follows_tableBody (.inl rfl)
  | initRegs => exact (hidle (by simpa [acceptedIn] using ha)).follows_tableBody (.inl rfl)
  | powerOff => exact (hidle (by simpa [acceptedIn] using ha)).follows_tableBody (.inr rfl)
  | flush => exact (hidle (by simpa [acceptedIn] using ha)).follows_flushBody

theorem acceptedIn_of_acceptCheck {i : Instr} {st : Stat} (h : acceptCheck i st = .none) : acceptedIn i st.panel = true := by
  by_cases hi : i = .init
  · rw [hi]
    rfl
  · exact (acceptCheck_pass hi h).2.2

theorem follows_accept (i : Instr) {s : State} (hrest : Resting s.stat.panel) :
    Follows s (accept i (acceptBody i) s) := by
  obtain ⟨hpass, he⟩ | ⟨-, he⟩ := accept_cases i (acceptBody i) s <;> rw [he]
  · exact (follows_acceptBody (s := begin i.opcode i.arg s) hrest rfl (acceptedIn_of_acceptCheck hpass)).after_eq rfl rfl
  · exact (follows_finish _ (begin i.opcode i.arg s)).after_eq rfl rfl

/-- Whatever the sequencer does in a cycle follows the table. -/
theorem Inv.follows_sequencerCycle {s u : State} (h : Inv s) (hu : sequencerCycle s = .next u) : Follows s u := by
  obtain ⟨w, i, hw, -, rfl⟩ | ⟨w, -, rfl⟩ | ⟨-, -, rfl⟩ | ⟨hoff, hop, rfl⟩ := sequencerCycle_cases hu
  · exact follows_accept i (h.resting_of_idle (h.control.offered w hw).2)
  · exact (follows_finish .illegalOp (begin (cmdOp w) (cmdArg w) s)).after_eq rfl rfl
  · exact .refl _
  · exact h.follows_advance hop hoff

/-- Settles O52: the statements of the sequencer's cycle follow the table one by one, and the host leaves PanelState and the
trace alone. -/
theorem panelStateFollowsTheTable : Obligations.PanelStateFollowsTheTable := by
  intro s t h hb hstep
  obtain ⟨u, hu, rfl⟩ := endCycle_of_step hb hstep
  obtain ⟨evs, htrace, hrun⟩ := (h.follows_sequencerCycle hu).events
  have hframe := endCycle_frame s u
  rw [hframe.trace, hframe.panel]
  exact ⟨evs, htrace, hrun⟩

end Sys2Proof.Machine
end

section
/-!
SUPPORT. The acceptance of a word as a whole cycle: the step that accepts it, its rejections, and INIT, which is accepted and
finished in one cycle.
-/

namespace Sys2Proof.Machine

open Sys2Proof

/-! ## The step that accepts a word -/

theorem Reg.offset_access_wf (r : Reg) (v : Word) :
    (Access.read 4 r.offset).wf = true ∧ (Access.write 4 r.offset v).wf = true := by
  cases r <;> exact ⟨rfl, rfl⟩

/-- What a host program asks for is always an access R71 permits. -/
theorem badAccess_of_host {s : State} (h : (input s).host = .idle ∨ (input s).host = .program) : badAccess s = none := by
  have hturn : (hostTurn s).1 = none ∨ (∃ r : Reg, (hostTurn s).1 = some (.read 4 r.offset))
      ∨ ∃ (r : Reg) (v : Word), (hostTurn s).1 = some (.write 4 r.offset v) := by
    unfold hostTurn
    obtain h | h := h <;> rw [h]
    · exact .inl rfl
    · dsimp only
      split
      · exact .inl rfl
      · exact .inr (.inr ⟨_, _, rfl⟩)
      · exact .inr (.inl ⟨_, rfl⟩)
      · exact .inr (.inl ⟨_, rfl⟩)
  obtain hturn | ⟨r, hturn⟩ | ⟨r, v, hturn⟩ := hturn
  · simp [badAccess, hturn]
  · simp [badAccess, hturn, (Reg.offset_access_wf r 0).1]
  · simp [badAccess, hturn, (Reg.offset_access_wf r v).2]

/-- A word offered with `offerWord` finds no block reset and no access of the host's own choice (log 17). -/
theorem input_offerWord (w : Word) (s : State) : (input (offerWord w s)).blkRst = false
    ∧ ((input (offerWord w s)).host = .idle ∨ (input (offerWord w s)).host = .program) := by
  have hin : input (offerWord w s) =
      (s.env.script[s.env.cycle]?.map fun i => { i with blkRst := false, host := .idle }).getD (freeInput s.env.cycle) := by
    show (s.env.script.modify s.env.cycle _).getD s.env.cycle _ = _
    rw [List.getD_eq_getElem?_getD, List.getElem?_modify_eq]
    rfl
  rw [hin]
  cases s.env.script[s.env.cycle]? with
  | none => exact ⟨rfl, .inr rfl⟩
  | some i => exact ⟨rfl, .inl rfl⟩

theorem decodeWord_of_decodeTableWord {n w : Nat} {i : Instr} (h : decodeTableWord n w = some i) :
    decodeWord (BitVec.ofNat 32 (w % 2 ^ n)) = some i := by
  unfold decodeTableWord at h
  split at h
  · exact h
  · cases h

/-- A step that finds a word offered accepts it. -/
theorem step_of_offer {s : State} {w : Word} {i : Instr} (hb : (input s).blkRst = false) (ha : badAccess s = none)
    (hoff : s.seq.offer = some w) (hi : decodeWord w = some i) :
    ∃ t, exec i s = .next t ∧ step s = .next (endCycle s t) := by
  have hseq : sequencerCycle s = exec i s := by simp [sequencerCycle, hoff, hi]
  exact ⟨_, exec_eq i s, step_of_sequencerCycle hb ha (hseq.trans (exec_eq i s))⟩

/-- Settles O5: the sequencer's cycle is the operation's meaning, and a prepared state leaves nothing in its way. -/
theorem stepRunsTheOfferedOperation : Obligations.StepRunsTheOfferedOperation := by
  refine ⟨fun s w i hb ha hoff hi => step_of_offer hb ha hoff hi, fun s n w i hi => ?_⟩
  obtain ⟨hb, hhost⟩ := input_offerWord (BitVec.ofNat 32 (w % 2 ^ n)) s
  exact step_of_offer hb (badAccess_of_host hhost) rfl (decodeWord_of_decodeTableWord hi)

/-! ## Rejections -/

/-- An acceptance that finishes at once with an error is a rejection: it changes what `Finish` writes and the sequencer's
note of the acceptance (60_exceptions.md R259, R263). -/
theorem finish_begin {c : Code} (hc : c ≠ .none) (i : Instr) (s : State) :
    finish c (begin i.opcode i.arg s) = rejected i c s := by
  simp [finish, emit, begin, rejected, hc]

/-- An operation that `Check` does not let pass is rejected with the code it gives. -/
theorem exec_of_acceptCheck {i : Instr} {s : State} {c : Code} (hc : c ≠ .none) (h : acceptCheck i s.stat = c) :
    exec i s = .next (rejected i c s) := by
  obtain ⟨hpass, -⟩ | ⟨-, he⟩ := accept_cases i (acceptBody i) s
  · exact absurd (h.symm.trans hpass) hc
  · rw [exec_eq, he, h, finish_begin hc]

/-- The operations that are accepted in Idle only (41_panel_sequencer.md R186). -/
theorem acceptedIn_iff {i : Instr} (hi : i ≠ .init) (p : PanelState) :
    acceptedIn i p = true
      ↔ p = .idle ∨ p = .uninitialized ∧ ¬(i = .powerOn ∨ i = .initRegs ∨ i = .powerOff ∨ i = .flush) := by
  cases i with
  | init => exact absurd rfl hi
  | _ => simp [acceptedIn, or_comm]

/-- Settles O8: `Check` looks at FATAL, CONFIGURED and PanelState in this order, and each code it gives is a rejection. -/
theorem rejectionsFollowTheAcceptanceMatrix : Obligations.RejectionsFollowTheAcceptanceMatrix := by
  intro s i hi
  have hstate : s.stat.fatal = false → s.stat.configured = true → ¬ acceptedIn i s.stat.panel = true →
      exec i s = .next (rejected i .invalidState s) := fun hf hc ha =>
    exec_of_acceptCheck (by decide) (by simp [acceptCheck, hi, hf, hc, ha])
  refine ⟨fun hf => ?_, fun hf hc => ?_, fun hf hc hmem hp => hstate hf hc ?_, fun hf hc _ hu hp => hstate hf hc ?_⟩
  · exact exec_of_acceptCheck (by decide) (by simp [acceptCheck, hi, hf])
  · exact exec_of_acceptCheck (by decide) (by simp [acceptCheck, hi, hf, hc])
  · rw [acceptedIn_iff hi]
    exact fun h => h.elim hp fun h => h.2 hmem
  · rw [acceptedIn_iff hi]
    exact fun h => h.elim hp fun h => hu h.1

/-! ## INIT -/

/-- INIT is always accepted. -/
theorem exec_init (s : State) : exec .init s = .next (initBody (begin 0x01 0 s)) := rfl

/-- Settles O10: the configuration in the registers is the one latched, and `configLegal` decides R172. -/
theorem initLatchesOrRejects : Obligations.InitLatchesOrRejects := by
  intro s c hwidth hheight hdepth hclkdiv hcs hdc hclk hmosi hmiso hrst hbusy
  obtain rfl : c = configOf s.regs := by
    cases c
    simp_all [configOf, lowHalf, highHalf, byteOf, padField]
  rw [exec_init, ← configLegal_iff]
  refine ⟨fun hl => ?_, fun hl => ?_⟩
  · have hbody : initBody (begin 0x01 0 s) = finish .none (setPanel .uninitialized { begin 0x01 0 s with
        cfg := configOf s.regs, pins := initPins, stat := { s.stat with configured := true, fatal := false } }) := if_pos hl
    rw [hbody]
    simp [finish, emit, setPanel_eq, panelEvent, begin, initPins]
  · rw [initBody_begin_illegal (by simpa using hl)]
    exact congrArg _ (finish_begin (by decide) .init s)

end Sys2Proof.Machine
end

section
/-!
SUPPORT. RESET as a run of cycles: what stands in each cycle of a Delay, and the two Delays one after the other
(41_panel_sequencer.md R174).
-/

namespace Sys2Proof.Machine

open Sys2Proof

/-! ## The cycles of a Delay -/

/-- A Delay with `l` cycles left after the present one. -/
def delaying (l : Nat) (r : DelayRet) (s : State) : State := { s with seq := { s.seq with timer := l, step := .delay r } }

theorem delayStart_eq (ms : Nat) (r : DelayRet) (s : State) :
    delayStart ms r s = delaying (ms * clkPerMs s.build - 1) r s := rfl

/-- Each cycle of a Delay but its last counts `s.timer` down and changes nothing else. -/
theorem delaying_seg {s : State} (h : Alive s) (r : DelayRet) (l m : Nat) (hq : SilentAfter m s) :
    Seg m (delaying (l + m) r s) (later m (delaying l r s)) := by
  induction m generalizing s with
  | zero => exact Seg.refl _
  | succ m ih =>
    have hrun : Running (delaying (l + (m + 1)) r s) := ⟨h.op, h.offer, nofun, h.prog⟩
    have hfirst : Seg 1 (delaying (l + (m + 1)) r s) (delaying (l + m) r (later 1 s)) := hrun.seg_one (hq 0 (by omega))
    have hrest := ih (h.later 1) (SilentAfter.later (m := 1) (by rwa [Nat.add_comm]))
    refine (hfirst.trans hrest).cast (Nat.add_comm 1 m) ?_
    show later m (later 1 (delaying l r s)) = _
    rw [later_later, Nat.add_comm]

/-- Cycle `n` of a Delay: nothing but `s.timer` and the cursor has moved since its first one. -/
theorem delayStart_seg {s : State} (h : Alive s) {ms n : Nat} (r : DelayRet) (hn : n < ms * clkPerMs s.build)
    (hq : SilentAfter n s) : Seg n (delayStart ms r s) (later n (delaying (ms * clkPerMs s.build - 1 - n) r s)) := by
  have hleft : ms * clkPerMs s.build - 1 = ms * clkPerMs s.build - 1 - n + n := by omega
  rw [delayStart_eq, hleft, Nat.add_sub_cancel]
  exact delaying_seg h r _ n hq

/-! ## RESET -/

theorem resetLow_pos (b : Build) : 0 < resetLowMs b * clkPerMs b :=
  Nat.mul_pos (by unfold resetLowMs; omega) (by unfold clkPerMs; omega)

theorem resetHigh_pos (b : Build) : 0 < resetHighMs b * clkPerMs b :=
  Nat.mul_pos (by unfold resetHighMs; omega) (by unfold clkPerMs; omega)

/-- RESET has entered Resetting and driven `rst_n` to 0, in its accept cycle. -/
def resetEntered (s : State) : State :=
  { begin 0x04 0 s with
    stat := { s.stat with panel := .resetting }
    pins := { s.pins with rstN := false }
    env := { s.env with
      trace := s.env.trace ++ [(s.env.cycle, .panel .resetting), (s.env.cycle, .rstPin false)] } }

/-- RESET has driven `rst_n` to 1, in the cycle after its low time. -/
def resetReleased (s : State) : State :=
  driveRst true (later (resetLowMs s.build * clkPerMs s.build) (delaying 0 .resetLow (resetEntered s)))

theorem exec_reset {s : State} (ho : Operational s) (hp : Resting s.stat.panel) :
    exec .reset s = .next (delayStart (resetLowMs s.build) .resetLow (resetEntered s)) := by
  have ha : acceptedIn .reset s.stat.panel = true := by obtain hp | hp := hp <;> simp [acceptedIn, hp]
  have hne : s.stat.panel ≠ .resetting := by obtain hp | hp := hp <;> simp [hp]
  have hentered : driveRst false (setPanel .resetting (begin 0x04 0 s)) = resetEntered s := by
    simp [driveRst, emit, setPanel_eq, panelEvent, hne, resetEntered]
  rw [exec_eq, accept_pass ho _ ha, ← hentered]
  simp [acceptBody, resetBody, Instr.opcode, Instr.arg]

section
variable {s : State} (hq : QuietFor (resetLowMs s.build * clkPerMs s.build + resetHighMs s.build * clkPerMs s.build + 1) s)
include hq

theorem resetEntered_alive : Alive (resetEntered s) := ⟨nofun, rfl, hq.1⟩

theorem resetEntered_silent :
    SilentAfter (resetLowMs s.build * clkPerMs s.build + resetHighMs s.build * clkPerMs s.build) (resetEntered s) :=
  hq.silentAfter rfl rfl

theorem resetReleased_alive : Alive (resetReleased s) := ⟨nofun, rfl, hq.1⟩

theorem resetReleased_silent : SilentAfter (resetHighMs s.build * clkPerMs s.build) (resetReleased s) :=
  (SilentAfter.later (resetEntered_silent hq)).congr rfl rfl

/-- The low time, up to the first cycle of the high time. -/
theorem resetLow_seg : Seg (resetLowMs s.build * clkPerMs s.build)
    (delayStart (resetLowMs s.build) .resetLow (resetEntered s))
    (delayStart (resetHighMs s.build) .resetHigh (resetReleased s)) :=
  delay_seg (resetEntered_alive hq) (resetLowMs s.build) .resetLow (resetLow_pos _)
    ((resetEntered_silent hq).mono (Nat.le_add_right ..))

/-- The high time, up to the finish. -/
theorem resetHigh_seg : Seg (resetHighMs s.build * clkPerMs s.build)
    (delayStart (resetHighMs s.build) .resetHigh (resetReleased s))
    (resetAfterHigh (later (resetHighMs s.build * clkPerMs s.build) (delaying 0 .resetHigh (resetReleased s)))) :=
  delay_seg (resetReleased_alive hq) (resetHighMs s.build) .resetHigh (resetHigh_pos _) (resetReleased_silent hq)

/-- What stands in cycle `n` of RESET: `rst_n` is 0 in its low time and 1 in its high time. -/
theorem reset_level {n : Nat}
    (hn : n < resetLowMs s.build * clkPerMs s.build + resetHighMs s.build * clkPerMs s.build) :
    ∃ u, Seg n (delayStart (resetLowMs s.build) .resetLow (resetEntered s)) u
      ∧ u.pins.rstN = decide (resetLowMs s.build * clkPerMs s.build ≤ n) ∧ u.stat.panel = .resetting := by
  by_cases hlow : n < resetLowMs s.build * clkPerMs s.build
  · have hseg := delayStart_seg (resetEntered_alive hq) .resetLow hlow ((resetEntered_silent hq).mono hn.le)
    exact ⟨_, hseg, (decide_eq_false (Nat.not_le.mpr hlow)).symm, rfl⟩
  · obtain ⟨m, rfl⟩ := Nat.exists_eq_add_of_le (Nat.not_lt.mp hlow)
    have hm : m < resetHighMs s.build * clkPerMs s.build := by omega
    have hseg := delayStart_seg (resetReleased_alive hq) .resetHigh hm ((resetReleased_silent hq).mono hm.le)
    exact ⟨_, (resetLow_seg hq).trans hseg, (decide_eq_true (Nat.le_add_right ..)).symm, rfl⟩

end

/-- Settles O16: RESET's two Delays one after the other, and its finish. -/
theorem resetPulsesThePanel : Obligations.ResetPulsesThePanel := by
  rintro s low high rfl rfl ho hp hq
  refine ⟨_, exec_reset ho hp, fun n hn => ?_, ?_⟩
  · obtain ⟨u, hseg, hlevel, hpanel⟩ := reset_level hq hn
    exact ⟨tick u, hseg.after_accept (hq.mono (by omega)), hlevel, hpanel⟩
  · refine (((resetLow_seg hq).trans (resetHigh_seg hq)).after_accept hq).trans ?_
    simp [tick, nextCycle, active, resetAfterHigh, finish, emit, setPanel_eq, panelEvent, later, delaying, resetReleased,
      driveRst, resetEntered, begin, hq.1, Nat.add_assoc]

end Sys2Proof.Machine
end

section
/-!
SUPPORT. The busy-poll as a whole, from the cycle it is entered in to its return or its timeout, and the three places that
call it (41_panel_sequencer.md R177 to R180).
-/

namespace Sys2Proof.Machine

open Sys2Proof

/-! ## From the entry to the last sample -/

/-- The busy-poll has entered Busy and noted the PanelState it came from. -/
def pollEntered (s : State) : State :=
  { s with
    stat := { s.stat with panel := .busy }
    seq := { s.seq with prior := s.stat.panel }
    env := { s.env with trace := s.env.trace ++ [(s.env.cycle, .panel .busy)] } }

/-- The busy-poll has ended, with the cursor where the last sample finds it: at the statement before, or at its Delay. -/
def pollDone (r : PollRet) (n : Nat) (level : Bool) (s : State) : State :=
  setStep (if n = 0 then s.seq.step else .delay (.poll r)) (pollEnded n level s)

/-- `WaitIdle()` comes to its first sample with both counters at 0. -/
theorem waitIdle_eq {s : State} (hp : s.stat.panel ≠ .busy) (r : PollRet) (next : State → State) :
    waitIdle r next s = pollSample r next
      { pollEntered s with seq := { (pollEntered s).seq with waited := 0, polls := 0 } } := by
  simp [waitIdle, setPanel_eq, panelEvent, hp, pollEntered]

/-- The last sample is taken `n` Delays after the entry. -/
theorem sampleBusy_polledBusy (r : PollRet) (n d : Nat) (s : State) :
    sampleBusy (polledBusy r 0 0 d n (pollEntered s)) = busyLevel s.cfg (inputAt s (s.env.cycle + n * d)).pads := rfl

/-- After the last sample PanelState is back. -/
theorem setPanel_prior_pollSampled {n : Nat} {s : State} {level : Bool} (hp : s.stat.panel ≠ .busy) (r : PollRet)
    (hl : busyLevel s.cfg (inputAt s (s.env.cycle + n * (pollMs s.build * clkPerMs s.build))).pads = level) :
    setPanel s.stat.panel
        (pollSampled (polledBusy r 0 0 (pollMs s.build * clkPerMs s.build) n (pollEntered s))) =
      pollDone r n level s := by
  rw [pollSampled, sampleBusy_polledBusy, hl]
  simp [emit, setPanel_eq, panelEvent, hp.symm, polledBusy, pollEvents, pollEntered, later, pollDone,
    pollEnded, setStep]

/-- A busy-poll that is entered in the present cycle reads 1 at its first `n` samples, `d` cycles apart, before its timeout,
with a silent host. -/
structure StaysBusy (n d : Nat) (s : State) : Prop where
  delay : d = pollMs s.build * clkPerMs s.build
  alive : Alive s
  silent : SilentAfter (n * d) s
  panel : s.stat.panel ≠ .busy
  pending : ∀ j < n, s.snap.timeout = 0 ∨ j * pollMs s.build < s.snap.timeout.toNat
  busy : ∀ j < n, busyLevel s.cfg (inputAt s (s.env.cycle + j * d)).pads = true

section
variable {n d : Nat} {s : State}

/-- The `n` samples and the Delays after them. -/
theorem StaysBusy.seg (h : StaysBusy n d s) (r : PollRet) : Seg (n * d) (waitIdle r (afterPoll r) s)
    (pollSample r (afterPoll r) (polledBusy r 0 0 d n (pollEntered s))) := by
  rw [waitIdle_eq h.panel]
  refine poll_seg r d n (pollEntered s) 0 0 h.delay ⟨h.alive.op, h.alive.offer, h.alive.prog⟩ (h.silent.congr rfl rfl)
    (fun j hj => ?_) h.busy
  rw [Nat.zero_add]
  exact h.pending j hj

/-- A sample that reads 0 returns (R178). -/
theorem StaysBusy.returns_seg (h : StaysBusy n d s) (r : PollRet)
    (hready : busyLevel s.cfg (inputAt s (s.env.cycle + n * d)).pads = false) :
    Seg (n * d) (waitIdle r (afterPoll r) s) (afterPoll r (pollDone r n false s)) := by
  refine (h.seg r).cast rfl ?_
  obtain rfl := h.delay
  rw [pollSample_eq, sampleBusy_polledBusy, hready, Bool.not_false, if_pos rfl]
  exact congrArg (afterPoll r) (setPanel_prior_pollSampled h.panel r hready)

/-- A sample that reads 1 when the timeout has been reached raises BUSY_TIMEOUT (R178, R179). -/
theorem StaysBusy.timesOut_seg (h : StaysBusy n d s) (r : PollRet) (ht : s.snap.timeout ≠ 0)
    (hreached : s.snap.timeout.toNat ≤ n * pollMs s.build)
    (hstuck : busyLevel s.cfg (inputAt s (s.env.cycle + n * d)).pads = true) :
    Seg (n * d) (waitIdle r (afterPoll r) s) (raise .busyTimeout (pollDone r n true s)) := by
  refine (h.seg r).cast rfl ?_
  obtain rfl := h.delay
  have hwaited : (polledBusy r 0 0 (pollMs s.build * clkPerMs s.build) n (pollEntered s)).seq.waited = n * pollMs s.build :=
    Nat.zero_add _
  rw [pollSample_eq, sampleBusy_polledBusy, hstuck, Bool.not_true, if_neg Bool.false_ne_true, hwaited,
    if_pos ⟨ht, hreached⟩]
  exact congrArg (raise .busyTimeout) (setPanel_prior_pollSampled h.panel r hstuck)

end

/-- `T / POLL_MS` rounded up is the first count of samples at which the timeout has been reached. -/
theorem timeout_samples {n T p : Nat} (hp : 0 < p) (hn : n = (T + p - 1) / p) : (∀ j < n, j * p < T) ∧ T ≤ n * p := by
  subst hn
  refine ⟨fun j hj => ?_, ?_⟩
  · have hle := (Nat.le_div_iff_mul_le hp).mp hj
    rw [Nat.succ_mul] at hle
    omega
  · have hlt := Nat.lt_div_mul_add hp (a := T + p - 1)
    omega

theorem pollMs_pos (b : Build) : 0 < pollMs b := by unfold pollMs; omega

/-! ## WAIT_IDLE -/

theorem exec_waitIdle {s : State} (ho : Operational s) (hp : Resting s.stat.panel) :
    exec .waitIdle s = .next (waitIdle .waitIdle (afterPoll .waitIdle) (begin 0x05 0 s)) := by
  have ha : acceptedIn .waitIdle s.stat.panel = true := by obtain hp | hp := hp <;> simp [acceptedIn, hp]
  rw [exec_eq, accept_pass ho _ ha]
  rfl

theorem Resting.ne_busy {p : PanelState} (h : Resting p) : p ≠ .busy := by obtain rfl | rfl := h <;> exact nofun

/-- Settles O17: `n` samples that read 1, and the one that reads 0. -/
theorem waitIdleTakesExactlyNSamples : Obligations.WaitIdleTakesExactlyNSamples := by
  intro s n d hd ho hp hq ht hb hready
  have hbusy : StaysBusy n d (begin 0x05 0 s) :=
    ⟨hd, ⟨nofun, rfl, hq.1⟩, hq.silentAfter rfl rfl, hp.ne_busy, fun j hj => ht.imp id fun ht => ht j hj, hb⟩
  refine ⟨_, exec_waitIdle ho hp, ((hbusy.returns_seg .waitIdle hready).after_accept hq).trans ?_⟩
  simp [tick, nextCycle, active, afterPoll, finish, emit, pollDone, setStep, pollEnded, begin, hq.1, hd]

/-- Settles O18: the samples up to the timeout all read 1. -/
theorem waitIdleTimesOut : Obligations.WaitIdleTimesOut := by
  intro s n d hd h0 hn ho hp hq hb
  obtain ⟨hpending, hreached⟩ := timeout_samples (pollMs_pos s.build) hn
  have hbusy : StaysBusy n d (begin 0x05 0 s) :=
    ⟨hd, ⟨nofun, rfl, hq.1⟩, hq.silentAfter rfl rfl, hp.ne_busy, fun j hj => .inr (hpending j hj),
      fun j hj => hb j hj.le⟩
  have hseg := hbusy.timesOut_seg .waitIdle h0 hreached (hb n le_rfl)
  have hne : n ≠ 0 := by
    rintro rfl
    bv_omega
  rw [raise_eq_softlyEnded (op := 0x05) rfl (by decide) rfl] at hseg
  refine ⟨_, exec_waitIdle ho hp, (hseg.after_accept hq).trans ?_⟩
  simp [tick, nextCycle, active, softlyEnded, pollDone, setStep, pollEnded, begin, hq.1, hd, hne, List.range_succ]

/-! ## The busy-poll of FLUSH and of a table record -/

/-- What is known where FLUSH or the player comes to its busy-poll: a transaction has started, the bus is free, and
PanelState is that of the operation. -/
structure AtPoll (r : PollRet) (s : State) : Prop where
  sent : s.seq.sent = true
  free : s.seq.csHeld = false
  sclk : s.pins.sclk = false
  pre : s.seq.pre = .idle
  panel : r = .flush ∧ s.stat.panel = .idle ∨ r = .play ∧ Powering s.stat.panel

/-- At the end of a record the table is still being played, and the lines idle. -/
theorem RecordEnds.playing_idlePins {s : State} (hr : RecordEnds s) (h : Inv s) (hop : s.seq.op ≠ none)
    (hoff : s.seq.offer = none) : Playing s ∧ IdlePins s.pins := by
  obtain hst | ⟨b, hst, -⟩ | ⟨b, hst, -⟩ := hr
  · exact ⟨h.panelAt hst, (h.pinsAt hop hoff hst).1⟩
  · exact ⟨h.panelAt hst, (h.pinsAt hop hoff hst).1⟩
  · exact ⟨h.panelAt hst, (h.pinsAt hop hoff hst).1⟩

theorem PollFollows.atPoll {r : PollRet} {s : State} (h : PollFollows r s) (hinv : Inv s) (hop : s.seq.op ≠ none)
    (hoff : s.seq.offer = none) : AtPoll r s := by
  cases r with
  | waitIdle => exact h.elim
  | flush =>
    obtain ⟨b, hst⟩ := h
    obtain ⟨hidle, hpre⟩ := hinv.panelAt hst
    obtain ⟨-, hsent, -⟩ := hinv.txAt hst
    obtain ⟨⟨-, hclk, -⟩, -, hfree⟩ := hinv.pinsAt hop hoff hst
    exact ⟨hsent, hfree, hclk, hpre, .inl ⟨rfl, hidle⟩⟩
  | play =>
    obtain ⟨-, hends⟩ := h
    obtain ⟨hsent, hfree⟩ := hends.sent_free hinv hop hoff
    obtain ⟨⟨hpowering, hpre⟩, -, hclk, -⟩ := hends.playing_idlePins hinv hop hoff
    exact ⟨hsent, hfree, hclk, hpre, .inr ⟨rfl, hpowering⟩⟩

theorem AtPoll.ne_busy {r : PollRet} {s : State} (h : AtPoll r s) : s.stat.panel ≠ .busy := by
  obtain ⟨-, hp⟩ | ⟨-, hp⟩ := h.panel
  · rw [hp]
    exact nofun
  · exact hp.ne_busy

/-- The state with another count of the record's data bytes sent (log 25). -/
def withRi (ri : Nat) (s : State) : State := { s with seq := { s.seq with ri := ri } }

/-- The next cycle enters the busy-poll. -/
theorem PollFollows.advance_eq {r : PollRet} {s : State} (h : PollFollows r s) (hfree : s.seq.csHeld = false) :
    ∃ ri, advance s = waitIdle r (afterPoll r) (withRi ri s) := by
  cases r with
  | waitIdle => exact h.elim
  | flush =>
    obtain ⟨b, hst⟩ := h
    exact ⟨s.seq.ri, advance_of_txReturn hst⟩
  | play =>
    obtain ⟨hwait, hends⟩ := h
    obtain ⟨ri, hadv⟩ := hends.advance_eq hfree
    exact ⟨ri, hadv.trans (if_pos hwait)⟩

/-- The cycles of a busy-poll of FLUSH or of a table record, from the one that enters it on. -/
theorem PollFollows.cycles_eq {r : PollRet} {s : State} (h : PollFollows r s) (hinv : Inv s) (hop : s.seq.op ≠ none)
    (hoff : s.seq.offer = none) {n d : Nat} (hd : d = pollMs s.build * clkPerMs s.build) (hq : QuietFor (n * d + 1) s)
    (ht : ∀ j < n, s.snap.timeout = 0 ∨ j * pollMs s.build < s.snap.timeout.toNat)
    (hb : ∀ j < n, busyLevel s.cfg (inputAt s (s.env.cycle + j * d)).pads = true) :
    ∃ ri, StaysBusy n d (withRi ri s) ∧ ∀ u, Seg (n * d) (waitIdle r (afterPoll r) (withRi ri s)) u →
      cycles (n * d + 1) s = .next (tick u) := by
  have hat := h.atPoll hinv hop hoff
  obtain ⟨ri, hadv⟩ := h.advance_eq hat.free
  have hrun : Running s := (hq.alive hop hoff).running (hinv.control.running hop hoff).1
  refine ⟨ri, ⟨hd, ⟨hop, hoff, hq.1⟩, hq.silentAfter rfl rfl, hat.ne_busy, ht, hb⟩, fun u hseg => ?_⟩
  rw [hrun.cycles_succ hq, hadv]
  exact hseg

/-! ## Where the operation goes on after the busy-poll -/

/-- The player has moved to the end of its record. -/
def withTp (tp : Nat) (s : State) : State := { s with seq := { s.seq with tp := tp } }

/-- A read that starts with the clock low moves no line. -/
theorem readStart_idle {s : State} (h : s.pins.sclk = false) (a : Nat) (r : ReadRet) :
    readStart a r s = setStep (.read a (max 1 (input s).draw.latency - 1) (input s).draw r) s := by
  simp [readStart, setStep, ← h]

section
variable {x : State} {q : Nat} (hq : q = x.seq.tp + 3 + x.seq.rlen.toNat)
include hq

theorem afterPoll_play : afterPoll .play x = playRecord (withTp q x) := by
  subst hq
  rfl

/-- FLUSH, or a table at its end, finishes in Idle (41_panel_sequencer.md R181, 42_flush_engine.md R227). -/
theorem afterPoll_ends {r : PollRet} (hidle : r = .flush → x.stat.panel = .idle)
    (hend : r = .flush ∨ r = .play ∧ x.seq.tend = q) :
    afterPoll r x = finish .none (setPanel .idle (withTp (if r = .play then q else x.seq.tp) x)) := by
  obtain rfl | ⟨rfl, hend⟩ := hend
  · exact congrArg (finish .none) (if_pos (hidle rfl)).symm
  · exact (afterPoll_play hq).trans (playRecord_end (s := withTp q x) hend.le)

/-- A table that is not at its end goes on with the read of its next record, and the next cycle begins. -/
theorem tick_afterPoll_more (ha : Alive x) (hsclk : x.pins.sclk = false) (hmore : q + 3 ≤ x.seq.tend) :
    tick (afterPoll .play x) =
      later 1 (setStep (.read q (max 1 (input x).draw.latency - 1) (input x).draw .playCmd) (withTp q x)) := by
  have hread : afterPoll .play x =
      setStep (.read q (max 1 (input x).draw.latency - 1) (input x).draw .playCmd) (withTp q x) :=
    ((afterPoll_play hq).trans (playRecord_more (s := withTp q x) hmore)).trans
      (readStart_idle (s := withTp q x) hsclk q .playCmd)
  rw [hread]
  exact Running.tick_eq ⟨ha.op, ha.offer, nofun, ha.prog⟩

/-- A table with less than a header left ends the operation, fatally after a transaction. -/
theorem afterPoll_short {op : Byte} (hop : x.seq.op = some op) (hfree : x.seq.csHeld = false) (hsent : x.seq.sent = true)
    (hlt : q < x.seq.tend) (hshort : x.seq.tend < q + 3) :
    afterPoll .play x = fatallyEnded op .seqFormat (withTp q x) := by
  subst hq
  exact (playAdvance_short hlt hshort).trans
    (raise_eq_fatallyEnded (s := withTp _ x) hop hfree ((isFatal_seqFormat _).trans hsent))

end

/-- Settles O19: the poll returns, and the operation goes on as the table's cursor says. -/
theorem pollOfFlushOrTableReturns : Obligations.PollOfFlushOrTableReturns := by
  rintro s p r op n d q hinv hop hoff hpoll hd hq ht hb hready rfl rfl
  have hop' : s.seq.op ≠ none := by simp [hop]
  have hat := hpoll.atPoll hinv hop' hoff
  obtain ⟨ri, hbusy, hcycles⟩ := hpoll.cycles_eq hinv hop' hoff hd hq (fun j hj => ht.imp id fun ht => ht j hj) hb
  refine ⟨_, hcycles _ (hbusy.returns_seg r hready), fun hend => ?_, ?_, ?_⟩
  · have hidle : r = .flush → s.stat.panel = .idle := fun hr => hat.panel.elim And.right fun h => by simp [hr] at h
    rw [afterPoll_ends (x := pollDone r n false (withRi ri s)) rfl hidle hend]
    simp [tick, nextCycle, active, finish, emit, setPanel_eq, panelEvent, withTp, pollDone, setStep, pollEnded, withRi, hop,
      hq.1]
  · rintro rfl hmore
    rw [tick_afterPoll_more (x := pollDone .play n false (withRi ri s)) rfl ⟨hop', hoff, hq.1⟩ hat.sclk hmore]
    rfl
  · rintro rfl hlt hshort
    rw [afterPoll_short (x := pollDone .play n false (withRi ri s)) rfl hop hat.free hat.sent hlt hshort]
    rfl

/-- Settles O20: the samples up to the timeout all read 1, and the error is not fatal. -/
theorem pollOfFlushOrTableTimesOut : Obligations.PollOfFlushOrTableTimesOut := by
  rintro s p r op n d hinv hop hoff hpoll hd h0 hn hq hb rfl
  have hop' : s.seq.op ≠ none := by simp [hop]
  have hat := hpoll.atPoll hinv hop' hoff
  obtain ⟨hpending, hreached⟩ := timeout_samples (pollMs_pos s.build) hn
  obtain ⟨ri, hbusy, hcycles⟩ := hpoll.cycles_eq hinv hop' hoff hd hq (fun j hj => .inr (hpending j hj))
    fun j hj => hb j hj.le
  have hseg := hbusy.timesOut_seg r h0 hreached (hb n le_rfl)
  rw [raise_eq_softlyEnded (s := pollDone r n true (withRi ri s)) hop (by decide) rfl] at hseg
  refine ⟨_, hcycles _ hseg, ?_⟩
  simp [tick, nextCycle, active, softlyEnded, pollDone, setStep, pollEnded, withRi, hq.1, hat.pre]

end Sys2Proof.Machine
end

section
/-!
SUPPORT. FLUSH's accept cycle with its two checks, and where in the framebuffer its reads lie
(42_flush_engine.md R221 to R225).
-/

namespace Sys2Proof.Machine

open Sys2Proof

/-! ## The checks -/

/-- An error that is not fatal before a transaction ends the operation in its accept cycle as a rejection does: PanelState
has not changed since its acceptance (60_exceptions.md R259). -/
theorem raise_begin {e : Code} (he : e ≠ .none) (hf : isFatal e false = false) (i : Instr) (s : State) :
    raise e (begin i.opcode i.arg s) = rejected i e s := by
  rw [raise_eq_softlyEnded (op := i.opcode) rfl he hf]
  simp [softlyEnded, rejected, begin]

theorem regionValid_iff (c : PanelConfig) (n : Snap) :
    regionValid c n = true ↔ n.x1.toNat ≤ n.x2.toNat ∧ n.x2.toNat < c.width.toNat ∧ n.y1.toNat ≤ n.y2.toNat
      ∧ n.y2.toNat < c.height.toNat := decide_eq_true_iff

theorem bufferUsable_iff (c : PanelConfig) (n : Snap) :
    bufferUsable c n = true ↔ n.fbBase ≠ 0 ∧ fbSizeNeeded c ≤ n.fbSize.toNat
      ∧ n.fbBase.toNat + fbSizeNeeded c ≤ 2 ^ 32 := decide_eq_true_iff

/-- In Idle FLUSH passes `Check` and comes to its body. -/
theorem exec_flush {s : State} (ho : Operational s) (hp : s.stat.panel = .idle) :
    exec .flush s = .next (flushBody (begin 0x09 0 s)) :=
  congrArg _ (accept_pass ho .flush (by rw [hp]; rfl) flushBody)

theorem flushBody_badRegion {s : State} (h : ¬ regionValid s.cfg s.snap = true) :
    flushBody s = raise .invalidRegion s := if_pos (by simpa using h)

theorem flushBody_badBuffer {s : State} (hr : regionValid s.cfg s.snap = true)
    (h : ¬ bufferUsable s.cfg s.snap = true) : flushBody s = raise .allocation s :=
  (if_neg (by simp [hr])).trans (if_pos (by simpa using h))

/-- The state with the region's byte columns set (42_flush_engine.md R223). -/
def withColumns (s : State) : State :=
  { s with seq := { s.seq with bxlo := firstColumn s.cfg s.snap, bxhi := lastColumn s.cfg s.snap } }

/-- Both checks pass. -/
theorem flushBody_starts {s : State} (hr : regionValid s.cfg s.snap = true) (hb : bufferUsable s.cfg s.snap = true) :
    flushBody s = txStart .command s.snap.writeRam .flushWriteRam (withColumns s) :=
  (if_neg (by simp [hr])).trans (if_neg (by simp [hb]))

/-- Settles O26: the region is checked before the buffer, and the checks come before the first transaction. -/
theorem flushFirstCycle : Obligations.FlushFirstCycle := by
  rintro s x1 x2 y1 y2 rfl rfl rfl rfl ho hp
  have hregion := regionValid_iff s.cfg (begin 0x09 0 s).snap
  have hbuffer := bufferUsable_iff s.cfg (begin 0x09 0 s).snap
  rw [exec_flush ho hp]
  refine ⟨fun hbad => ?_, fun hr hbad => ?_, fun hr hb hsize hfit => ?_⟩
  · rw [flushBody_badRegion (s := begin 0x09 0 s) (mt hregion.mp hbad)]
    exact congrArg _ (raise_begin (by decide) rfl .flush s)
  · have hunusable : ¬ bufferUsable s.cfg (begin 0x09 0 s).snap = true := by
      intro hu
      obtain ⟨hb, hsize, hfit⟩ := hbuffer.mp hu
      obtain h0 | hsmall | hwrap := hbad
      · exact hb h0
      · exact absurd hsize (Nat.not_le.mpr hsmall)
      · exact absurd hfit (Nat.not_le.mpr hwrap)
    rw [flushBody_badBuffer (s := begin 0x09 0 s) (hregion.mpr hr) hunusable]
    exact congrArg _ (raise_begin (by decide) rfl .flush s)
  · rw [flushBody_starts (s := begin 0x09 0 s) (hregion.mpr hr) (hbuffer.mpr ⟨hb, hsize, hfit⟩),
      txStart_free (s := withColumns (begin 0x09 0 s)) rfl]
    simp [atCycle, framePhase, framePins, noteSent, withColumns, begin, firstColumn, lastColumn, snapshot, lowHalf,
      highHalf, byteOf, halfPeriod, hp]

/-! ## The framebuffer -/

/-- A byte column inside the panel lies inside the framebuffer (20_memory.md R81, R83). -/
theorem fbAddress_inside {c : PanelConfig} {y bx : Nat} (hy : y < c.height.toNat) (hbx : bx < stride c) (n : Snap) :
    n.fbBase.toNat ≤ fbAddress c n y bx ∧ fbAddress c n y bx < n.fbBase.toNat + fbSizeNeeded c := by
  have hrows : (y + 1) * stride c ≤ c.height.toNat * stride c := Nat.mul_le_mul_right _ hy
  rw [Nat.succ_mul, Nat.mul_comm c.height.toNat] at hrows
  unfold fbAddress fbSizeNeeded
  omega

/-- Settles O28: the invariant has the checks' results and keeps the cursor inside the region, which a legal configuration
lays inside the framebuffer. -/
theorem flushReadsInsideTheFramebuffer : Obligations.FlushReadsInsideTheFramebuffer := by
  intro s a left d h hop hoff hst
  have hreads := h.reads
  unfold ReadsAt at hreads
  rw [hst] at hreads
  obtain ⟨rfl, ⟨hregion, hbuffer, -, hbxhi⟩, -, hy, -, hbx⟩ := hreads
  obtain ⟨-, hlast⟩ := columns_ordered (h.ambient hop hoff).config hregion
  obtain ⟨-, -, -, hheight⟩ := (regionValid_iff _ _).mp hregion
  obtain ⟨-, -, hfit⟩ := (bufferUsable_iff _ _).mp hbuffer
  obtain ⟨hlow, hhigh⟩ := fbAddress_inside (hy.trans_lt hheight) (by omega : s.seq.bx < stride s.cfg) s.snap
  exact ⟨hlow, hhigh, by omega, hy, by omega, hbx, by omega, rfl⟩

end Sys2Proof.Machine
end

section
/-!
SUPPORT. FLUSH as a run of cycles (42_flush_engine.md R221): the region's bytes in raster order, one byte read and sent, and
the whole run of them.
-/

namespace Sys2Proof.Machine

open Sys2Proof

/-! ## Raster order -/

/-- The byte column after column `x` of row `y`: the next one of the row, or the first one of the next row
(42_flush_engine.md R226). -/
def RasterNext (lo hi last y x y' x' : Nat) : Prop :=
  x < hi ∧ y' = y ∧ x' = x + 1 ∨ x = hi ∧ y < last ∧ y' = y + 1 ∧ x' = lo

/-- A nonempty list holds what `get` has from column `x` of row `y` on, in raster order over the columns `lo` to `hi`, up to
column `hi` of row `last`. -/
inductive RasterBytes (get : Nat → Nat → Option Byte) (lo hi last : Nat) : Nat → Nat → List Byte → Prop where
  | last {b : Byte} (hb : get last hi = some b) : RasterBytes get lo hi last last hi [b]
  | next {y x y' x' : Nat} {b : Byte} {bs : List Byte} (hb : get y x = some b) (hnext : RasterNext lo hi last y x y' x')
      (h : RasterBytes get lo hi last y' x' bs) : RasterBytes get lo hi last y x (b :: bs)

/-- A nonempty range from `a` to `b` starts with `a`. -/
theorem range'_of_le {a b : Nat} (h : a ≤ b) : List.range' a (b + 1 - a) = a :: List.range' (a + 1) (b + 1 - (a + 1)) := by
  rw [Nat.succ_sub h, List.range'_succ, Nat.add_sub_add_right]

section
variable {get : Nat → Nat → Option Byte} {bytes : Nat → Nat → Byte} {lo hi last : Nat}

/-- A row from column `x` on comes before what follows its last column. -/
theorem RasterBytes.row {y x : Nat} {bs : List Byte} (hx : x ≤ hi)
    (hget : ∀ x', x ≤ x' → x' < hi → get y x' = some (bytes y x'))
    (h : RasterBytes get lo hi last y hi (bytes y hi :: bs)) :
    RasterBytes get lo hi last y x ((List.range' x (hi + 1 - x)).map (bytes y) ++ bs) := by
  induction hx using Nat.decreasingInduction with
  | self => simpa using h
  | of_succ x hlt ih =>
    rw [range'_of_le hlt.le]
    exact .next (hget x le_rfl hlt) (.inl ⟨hlt, rfl, rfl⟩) (ih fun x' hx' => hget x' (by omega))

theorem regionBytes_of_le {y : Nat} (hy : y ≤ last) : regionBytes bytes y last lo hi
    = (List.range' lo (hi + 1 - lo)).map (bytes y) ++ regionBytes bytes (y + 1) last lo hi := by
  rw [regionBytes, range'_of_le hy]
  rfl

/-- The bytes of a region are its rows in raster order. -/
theorem rasterBytes_regionBytes {y : Nat} (hx : lo ≤ hi) (hy : y ≤ last)
    (hget : ∀ y' x, y ≤ y' → y' ≤ last → lo ≤ x → x ≤ hi → get y' x = some (bytes y' x)) :
    RasterBytes get lo hi last y lo (regionBytes bytes y last lo hi) := by
  induction hy using Nat.decreasingInduction with
  | self =>
    rw [regionBytes_of_le le_rfl, show regionBytes bytes (last + 1) last lo hi = [] by simp [regionBytes]]
    exact .row hx (fun x' h h' => hget last x' le_rfl le_rfl h h'.le) (.last (hget last hi le_rfl le_rfl hx le_rfl))
  | of_succ y hlt ih =>
    rw [regionBytes_of_le hlt.le]
    exact .row hx (fun x' h h' => hget y x' le_rfl hlt.le h h'.le)
      (.next (hget y hi le_rfl hlt.le hx le_rfl) (.inr ⟨rfl, hlt, rfl, rfl⟩) (ih fun y' x hy' => hget y' x (by omega)))

end

theorem length_regionBytes (bytes : Nat → Nat → Byte) {y1 y2 lo hi : Nat} (hy : y1 ≤ y2) (hx : lo ≤ hi) :
    (regionBytes bytes y1 y2 lo hi).length = (y2 - y1 + 1) * (hi - lo + 1) := by
  simp [regionBytes, List.length_flatMap, Nat.succ_sub hy, Nat.succ_sub hx]

/-! ## One byte -/

/-- The state with FLUSH's loop variables at a byte column. -/
def atByte (y x : Nat) (s : State) : State := { s with seq := { s.seq with y := y, bx := x } }

theorem Undisturbed.moved {n latency : Nat} {s : State} (h : Undisturbed n latency s) (y x : Nat) :
    Undisturbed n latency (atByte y x s) :=
  ⟨⟨h.alive.op, h.alive.offer, h.alive.prog⟩, h.silent, h.faultless⟩

theorem Plays.moved {n : Nat} {evs : List Event} {s t : State} (h : Plays n evs s t) (y x : Nat) :
    Plays n evs (atByte y x s) (atByte y x t) :=
  ⟨congrArg (atByte y x) h.frame, h.cycle, h.events⟩

/-- FLUSH has its columns and its last row, and the host memory holds what `get` says and is not raced with. -/
structure InRegion (get : Nat → Nat → Option Byte) (lo hi last : Nat) (s : State) : Prop where
  bxlo : s.seq.bxlo = lo
  bxhi : s.seq.bxhi = hi
  y2 : s.snap.y2.toNat = last
  memory : ∀ y x, memGet s.mem (fbAddress s.cfg s.snap y x) = get y x
  unraced : s.env.raced = []

section
variable {get : Nat → Nat → Option Byte} {lo hi last : Nat} {s t : State}

theorem InRegion.plays {n : Nat} {evs : List Event} (h : InRegion get lo hi last s) (hp : Plays n evs s t) :
    InRegion get lo hi last t := by
  rw [hp.frame]
  exact ⟨h.bxlo, h.bxhi, h.y2, h.memory, h.unraced⟩

/-- After a byte that is not the last, the next one in raster order is read. -/
theorem InRegion.flushSentData_next {y x y' x' : Nat} (h : InRegion get lo hi last s) (hy : s.seq.y = y)
    (hx : s.seq.bx = x) (hnext : RasterNext lo hi last y x y' x') : flushSentData s = flushRead (atByte y' x' s) := by
  obtain ⟨rfl, rfl, rfl, -, -⟩ := h
  subst hy hx
  obtain ⟨hlt, rfl, rfl⟩ | ⟨heq, hlt, rfl, rfl⟩ := hnext
  · exact if_pos hlt
  · exact (if_neg heq.not_lt).trans (if_pos hlt)

/-- After the last byte the run ends. -/
theorem InRegion.flushSentData_last (h : InRegion get lo hi last s) (hy : s.seq.y = last) (hx : s.seq.bx = hi) :
    flushSentData s = runEnd .flush flushRefresh s :=
  (if_neg (hx.trans h.bxhi.symm).not_lt).trans (if_neg (hy.trans h.y2.symm).not_lt)

theorem InRegion.moved (h : InRegion get lo hi last s) (y x : Nat) : InRegion get lo hi last (atByte y x s) :=
  ⟨h.bxlo, h.bxhi, h.y2, h.memory, h.unraced⟩

end

/-- FLUSH reads the framebuffer byte at a byte column and sends it (42_flush_engine.md R231). Of the `c` cycles that this byte
and `k` more of the run take on the bus, `d` are its own. -/
theorem flushByte_seg {get : Nat → Nat → Option Byte} {lo hi last y x n c k latency : Nat} {b : Byte} {s : State}
    (hregion : InRegion get lo hi last s) (hb : get y x = some b) (h : Undisturbed n latency s) (hl : 1 ≤ latency)
    (hc : c = runCycles s.snap.burst s.seq.csHeld (halfPeriod s.cfg) (k + 1)) (hn : latency + c ≤ n) (hlines : LinesOk s) :
    ∃ m d t, 1 ≤ m ∧ m ≤ latency ∧ d + runCycles t.snap.burst t.seq.csHeld (halfPeriod t.cfg) k = c
      ∧ Seg (m + d) (flushRead (atByte y x s)) (flushSentData t) ∧ Plays (m + d) [.tx .data b] (atByte y x s) t
      ∧ t.seq = { s.seq with step := t.seq.step, y := y, bx := x, sent := true, csHeld := s.snap.burst } ∧ LinesOk t := by
  rw [runCycles_succ] at hc
  obtain ⟨m, st, h1, hm, hread⟩ := memRead_seg (h.moved y x) hl (by omega) ((hregion.memory y x).trans hb) hregion.unraced
    .flushData
  have hgot : Plays m [] (atByte y x s)
      (later m (setStep st { atByte y x s with pins := { s.pins with sclk := false } })) :=
    ⟨rfl, rfl, (List.append_nil _).symm⟩
  obtain ⟨t, hsend, hplays, hseq, hlines'⟩ := sendData_seg
    (hgot.undisturbed (h.moved y x) (k := byteCycles s.snap.burst s.seq.csHeld (halfPeriod s.cfg)) (by omega))
    ⟨fun hc => ⟨(hlines.free hc).1, rfl, (hlines.free hc).2.2⟩, hlines.held⟩ le_rfl b .flushData
  have hsent := hgot.trans hplays
  refine ⟨m, _, t, h1, hm, ?_, hread.trans hsend, hsent, hseq, hlines'⟩
  rw [hsent.snap, hsent.cfg, hseq]
  exact hc.symm

/-! ## The run of the region's bytes -/

/-- The end of a run, with the phase E that a burst run still owes. -/
theorem runEnd_free_seg {s : State} {n latency : Nat} (h : Undisturbed n latency s)
    (hn : runCycles s.snap.burst s.seq.csHeld (halfPeriod s.cfg) 0 ≤ n) (hlines : LinesOk s) (r : RunRet) :
    ∃ t, Seg (runCycles s.snap.burst s.seq.csHeld (halfPeriod s.cfg) 0) (runEnd r (afterRun r) s) (afterRun r t)
      ∧ Plays (runCycles s.snap.burst s.seq.csHeld (halfPeriod s.cfg) 0) [] s t
      ∧ t.seq = { s.seq with step := t.seq.step, csHeld := false } ∧ IdlePins t.pins := by
  cases hcs : s.seq.csHeld with
  | true =>
    obtain ⟨-, hrst, -, hburst, -⟩ := hlines.held hcs
    have hcycles : runCycles s.snap.burst true (halfPeriod s.cfg) 0 = halfPeriod s.cfg := by simp [hburst, runCycles]
    rw [hcs, hcycles] at hn
    rw [hcycles]
    exact ⟨_, runEnd_seg h.alive r hcs (h.silent.mono hn), ⟨rfl, rfl, (List.append_nil _).symm⟩, rfl, rfl, rfl, rfl, hrst⟩
  | false =>
    have hcycles : runCycles s.snap.burst false (halfPeriod s.cfg) 0 = 0 := by simp [runCycles]
    have hend : runEnd r (afterRun r) s = afterRun r s := by simp [runEnd, hcs]
    rw [hcycles, hend]
    exact ⟨s, Seg.refl _, Plays.refl s, by rw [← hcs], hlines.free hcs⟩

/-- FLUSH sends the bytes of a region from a byte column on, and the run ends with CS free. -/
theorem flushRegion_seg {latency : Nat} (hl : 1 ≤ latency) {get : Nat → Nat → Option Byte} {lo hi last y x : Nat}
    {bs : List Byte} (hbytes : RasterBytes get lo hi last y x bs) :
    ∀ {s : State} {c : Nat}, InRegion get lo hi last s →
      c = runCycles s.snap.burst s.seq.csHeld (halfPeriod s.cfg) bs.length →
      Undisturbed (bs.length * latency + c) latency s → LinesOk s →
      ∃ m t, bs.length ≤ m ∧ m ≤ bs.length * latency ∧ Seg (m + c) (flushRead (atByte y x s)) (flushRefresh t)
        ∧ Plays (m + c) (bs.map (.tx .data)) (atByte last hi s) t
        ∧ t.seq = { s.seq with step := t.seq.step, y := last, bx := hi, sent := true, csHeld := false }
        ∧ IdlePins t.pins := by
  induction hbytes with
  | @last b hb =>
    intro s c hregion hc h hlines
    rw [List.length_singleton] at hc
    rw [List.length_singleton, Nat.one_mul] at h ⊢
    obtain ⟨m, d, t, h1, hm, hd, hseg, hplays, hseq, hlines'⟩ := flushByte_seg hregion hb h hl hc le_rfl hlines
    obtain ⟨u, hseg', hplays', hseq', hidle⟩ := runEnd_free_seg
      (hplays.undisturbed (h.moved last hi) (by omega)) le_rfl hlines' .flush
    rw [((hregion.moved last hi).plays hplays).flushSentData_last (by rw [hseq]) (by rw [hseq])] at hseg
    have hsum : m + d + runCycles t.snap.burst t.seq.csHeld (halfPeriod t.cfg) 0 = m + c := by omega
    exact ⟨m, u, h1, hm, (hseg.trans hseg').cast hsum rfl, hsum ▸ hplays.trans hplays', by rw [hseq', hseq], hidle⟩
  | @next y x y' x' b bs hb hnext _ ih =>
    intro s c hregion hc h hlines
    rw [List.length_cons] at hc h ⊢
    have hcost : (bs.length + 1) * latency = bs.length * latency + latency := Nat.succ_mul ..
    obtain ⟨m, d, t, h1, hm, hd, hseg, hplays, hseq, hlines'⟩ := flushByte_seg hregion hb h hl hc (by omega) hlines
    have hregion' := (hregion.moved y x).plays hplays
    obtain ⟨m', u, h1', hm', hseg', hplays', hseq', hidle⟩ := ih hregion' rfl
      (hplays.undisturbed (h.moved y x) (by omega)) hlines'
    rw [hregion'.flushSentData_next (by rw [hseq]) (by rw [hseq]) hnext] at hseg
    have hsum : m + d + (m' + runCycles t.snap.burst t.seq.csHeld (halfPeriod t.cfg) bs.length) = m + m' + c := by omega
    exact ⟨m + m', u, by omega, by omega, (hseg.trans hseg').cast hsum rfl,
      hsum ▸ (hplays.moved last hi).trans hplays', by rw [hseq', hseq], hidle⟩

end Sys2Proof.Machine
end

section
/-!
SUPPORT. A whole FLUSH from its accept cycle to its finish: WRITE_RAM, the run of the region's bytes, REFRESH, and the
busy-poll of a panel that is ready (42_flush_engine.md R221, R227, R233).
-/

namespace Sys2Proof.Machine

open Sys2Proof

/-- Idle lines with `dc` low are the levels that INIT sets (40_bus_transport.md R134). -/
theorem IdlePins.withDc_low {p : Pins} (h : IdlePins p) : { p with dc := false } = initPins := by
  obtain ⟨hcs, hclk, hmosi, hrst⟩ := h
  cases p
  simp_all [initPins]

theorem idlePins_initPins : IdlePins initPins := ⟨rfl, rfl, rfl, rfl⟩

/-- A command byte that does not fail leaves the lines idle and `dc` low. -/
theorem sendCommand_seg {s : State} {n latency : Nat} (h : Undisturbed n latency s) (hn : 18 * halfPeriod s.cfg ≤ n)
    (b : Byte) (r : TxRet) (hcs : s.seq.csHeld = false) (hidle : IdlePins s.pins) :
    ∃ t, Seg (18 * halfPeriod s.cfg) (txStart .command b r s) (afterTx r t)
      ∧ Plays (18 * halfPeriod s.cfg) [.tx .command b] s t
      ∧ t.seq = { s.seq with step := t.seq.step, sent := true, csHeld := false } ∧ t.pins = initPins := by
  have hseg := txAlone_seg h.alive .command b r rfl hcs (h.silent.mono hn)
  rw [h.busFault (k := 17 * halfPeriod s.cfg - 1) (by omega)] at hseg
  obtain ⟨hcsN, hclk, hmosi, hrst⟩ := hidle
  exact ⟨_, hseg, ⟨rfl, rfl, by simp [eventsOf, later]⟩, rfl, by simp [later, initPins, hrst]⟩

/-- REFRESH is sent, and the busy-poll returns in the cycle it is entered in. -/
theorem flushRefresh_seg {s : State} {n latency : Nat} (h : Undisturbed n latency s) (hn : 18 * halfPeriod s.cfg ≤ n)
    (hready : PanelReady (n + 1) s) (hp : s.stat.panel ≠ .busy) (hcs : s.seq.csHeld = false) (hidle : IdlePins s.pins) :
    ∃ t, Seg (18 * halfPeriod s.cfg) (flushRefresh s) (finish .none (pollEnded 0 false t))
      ∧ Plays (18 * halfPeriod s.cfg) [.tx .command s.snap.refresh] s t
      ∧ t.seq = { s.seq with step := t.seq.step, sent := true, csHeld := false } ∧ t.pins = initPins := by
  obtain ⟨t, hseg, hplays, hseq, hpins⟩ := sendCommand_seg h hn s.snap.refresh .flushRefresh hcs hidle
  have hready' : PanelReady 1 t := hplays.panelReady hready (by omega)
  have hpoll := waitIdle_ready (hready' 0 Nat.zero_lt_one) (by rw [hplays.stat]; exact hp) .flush (finish .none)
  exact ⟨t, hseg.cast rfl hpoll, hplays, hseq, hpins⟩

/-- From the checks of a valid region and a usable framebuffer to the finish after the busy-poll. -/
theorem flushBody_seg {s : State} {lo hi y1 y2 c latency : Nat} {bs : List Byte} (hl : 1 ≤ latency)
    (hvalid : regionValid s.cfg s.snap = true) (husable : bufferUsable s.cfg s.snap = true)
    (hlo : lo = firstColumn s.cfg s.snap) (hhi : hi = lastColumn s.cfg s.snap)
    (hy1 : y1 = s.snap.y1.toNat) (hy2 : y2 = s.snap.y2.toNat) (hraced : s.env.raced = [])
    (hbytes : RasterBytes (fun y x => memGet s.mem (fbAddress s.cfg s.snap y x)) lo hi y2 y1 lo bs)
    (hc : c = 18 * halfPeriod s.cfg + runCycles s.snap.burst false (halfPeriod s.cfg) bs.length + 18 * halfPeriod s.cfg)
    (h : Undisturbed (bs.length * latency + c) latency s) (hready : PanelReady (bs.length * latency + c + 1) s)
    (hp : s.stat.panel ≠ .busy) (hfree : BusFree s) :
    ∃ m t, bs.length ≤ m ∧ m ≤ bs.length * latency
      ∧ Seg (m + c) (flushBody s) (finish .none (pollEnded 0 false t))
      ∧ Plays (m + c) ([.tx .command s.snap.writeRam] ++ bs.map (.tx .data) ++ [.tx .command s.snap.refresh])
        (atByte y2 hi (withColumns s)) t
      ∧ t.seq = { s.seq with
        step := t.seq.step, y := y2, bx := hi, bxlo := lo, bxhi := hi, sent := true, csHeld := false }
      ∧ t.pins = initPins := by
  obtain ⟨hcs, hidle⟩ := hfree
  have hstart : Undisturbed (bs.length * latency + c) latency (withColumns s) :=
    ⟨⟨h.alive.op, h.alive.offer, h.alive.prog⟩, h.silent, h.faultless⟩
  have hregion : InRegion (fun y x => memGet s.mem (fbAddress s.cfg s.snap y x)) lo hi y2 (withColumns s) :=
    ⟨hlo.symm, hhi.symm, hy2.symm, fun _ _ => rfl, hraced⟩
  obtain ⟨t₁, hseg₁, hplays₁, hseq₁, hpins₁⟩ := sendCommand_seg hstart
    (show 18 * halfPeriod s.cfg ≤ _ by omega) s.snap.writeRam .flushWriteRam hcs hidle
  have hregion₁ := hregion.plays hplays₁
  have hsnap₁ : t₁.snap = s.snap := hplays₁.snap
  have hfirst : afterTx .flushWriteRam t₁ = flushRead (atByte y1 lo t₁) := by
    rw [hy1, ← hsnap₁, ← hregion₁.bxlo]
    rfl
  have hcs₁ : t₁.seq.csHeld = false := by rw [hseq₁]
  have hrun : runCycles s.snap.burst false (halfPeriod s.cfg) bs.length
      = runCycles t₁.snap.burst t₁.seq.csHeld (halfPeriod t₁.cfg) bs.length := by
    rw [hsnap₁, hplays₁.cfg, hcs₁]
    rfl
  obtain ⟨m, t₂, hmin, hmax, hseg₂, hplays₂, hseq₂, hidle₂⟩ := flushRegion_seg hl hbytes hregion₁ hrun
    (hplays₁.undisturbed hstart (show 18 * halfPeriod s.cfg + _ ≤ _ by omega))
    (.of_free hcs₁ (hpins₁ ▸ idlePins_initPins))
  have hplays₁₂ := (hplays₁.moved y2 hi).trans hplays₂
  have hcfg₂ : t₂.cfg = s.cfg := hplays₁₂.cfg
  have hspent : 18 * halfPeriod s.cfg + (m + runCycles s.snap.burst false (halfPeriod s.cfg) bs.length)
      + 18 * halfPeriod t₂.cfg = m + c := by
    rw [hcfg₂]
    omega
  obtain ⟨t₃, hseg₃, hplays₃, hseq₃, hpins₃⟩ := flushRefresh_seg
    (hplays₁₂.undisturbed (hstart.moved y2 hi) (hspent.trans_le (Nat.add_le_add_right hmax c))) le_rfl
    (hplays₁₂.panelReady (b := bs.length * latency + c + 1) hready (Nat.succ_le_succ (hspent.trans_le (by omega))))
    (by rw [hplays₁₂.stat]; exact hp) (by rw [hseq₂]) hidle₂
  have hplays := hplays₁₂.trans hplays₃
  rw [hplays₁₂.snap] at hplays
  refine ⟨m, t₃, hmin, hmax, ?_, hspent ▸ hplays, ?_, hpins₃⟩
  · rw [flushBody_starts hvalid husable]
    exact ((hseg₁.cast rfl hfirst).trans hseg₂ |>.trans hseg₃).cast hspent rfl
  · rw [hseq₃, hseq₂, hseq₁, hlo, hhi]
    rfl

/-- A state the player or FLUSH has come to, written out in what it changes. -/
theorem Plays.eq {n : Nat} {evs : List Event} {s t : State} (h : Plays n evs s t) :
    t = { s with
      seq := t.seq, pins := t.pins, env := { s.env with cycle := s.env.cycle + n, trace := t.env.trace } } :=
  calc
    t = withPlayed t s := h.frame
    _ = { s with
          seq := (withPlayed t s).seq, pins := (withPlayed t s).pins
          env := { s.env with cycle := t.env.cycle, trace := t.env.trace } } := rfl
    _ = _ := by rw [← h.frame, h.cycle]

/-- The state in which a FLUSH that has sent its region rests in the next cycle (60_exceptions.md R263). -/
theorem Plays.tick_flushed {n lo hi y2 : Nat} {evs : List Event} {st : Step} {s t : State}
    (h : Plays n evs (atByte y2 hi (withColumns (begin 0x09 0 s))) t) (hp : s.stat.panel = .idle) (hprog : s.env.prog = [])
    (hseq : t.seq = { (begin 0x09 0 s).seq with
      step := st, y := y2, bx := hi, bxlo := lo, bxhi := hi, sent := true, csHeld := false }) :
    tick (finish .none (pollEnded 0 false t)) = { s with
      stat := { s.stat with code := .none, irqDone := true }
      seq := { s.seq with
        op := none, offer := none, pre := .idle, prior := .idle, sent := true, csHeld := false, step := .idle
        y := y2, bx := hi, bxlo := lo, bxhi := hi, waited := 0, polls := 1 }
      snap := snapshot 0x09 0 s.regs
      pins := t.pins
      env := { s.env with
        cycle := s.env.cycle + n + 1, raced := []
        trace := t.env.trace ++ [(s.env.cycle + n, .panel .busy), (s.env.cycle + n, .busySample false),
          (s.env.cycle + n, .panel .idle), (s.env.cycle + n, .done 0x09 .none)] } } := by
  rw [h.eq, hseq]
  simp [tick, nextCycle, active, finish, emit, pollEnded, atByte, withColumns, begin, hp, hprog]

/-- The cycles of WRITE_RAM, the run of `n` data bytes and REFRESH (70_reset_and_hazards.md R303). -/
theorem flushCycles_eq (burst : Bool) (h : Nat) {n : Nat} (hn : n ≠ 0) :
    (if burst then 18 * h * 2 + (16 * n + 2) * h else 18 * h * (n + 2)) = 18 * h + runCycles burst false h n + 18 * h := by
  cases burst with
  | false =>
    simp only [runCycles, Bool.false_eq_true, if_false]
    ring
  | true =>
    simp only [runCycles, Bool.false_eq_true, hn, if_true, if_false]
    ring

/-- Settles O27: the accept cycle starts WRITE_RAM, and the run of the region's bytes, REFRESH and the busy-poll follow. -/
theorem flushSendsTheRegion : Obligations.FlushSendsTheRegion := by
  rintro s x1 x2 y1 y2 lo hi latency count bound body fb rfl rfl hy1 hy2 ho hp hlegal hpins hx hx' hy hy' hbase hsize hfit
    hlo hhi hraced hmem hl hcount hbody rfl hq hf hready
  have hvalid : regionValid s.cfg (begin 0x09 0 s).snap = true := by
    subst hy1 hy2
    exact (regionValid_iff ..).mpr ⟨hx, hx', hy, hy'⟩
  have husable : bufferUsable s.cfg (begin 0x09 0 s).snap = true := (bufferUsable_iff ..).mpr ⟨hbase, hsize, hfit⟩
  have hcolumns : lo ≤ hi := by
    rw [hlo, hhi]
    exact (columns_ordered ((configLegal_iff ..).mpr hlegal) hvalid).1
  have hcount0 : count ≠ 0 := hcount ▸ Nat.mul_ne_zero (Nat.succ_ne_zero _) (Nat.succ_ne_zero _)
  obtain rfl : count = (regionBytes fb y1 y2 lo hi).length := hcount.trans (length_regionBytes fb hy hcolumns).symm
  obtain ⟨m, t, hmin, hmax, hseg, hplays, hseq, hlevels⟩ := flushBody_seg (s := begin 0x09 0 s) hl hvalid husable hlo hhi hy1
    hy2 hraced (rasterBytes_regionBytes hcolumns hy hmem) (hbody.trans (flushCycles_eq _ _ hcount0))
    (.of_quietFor hq hf ⟨by simp, rfl, hq.1⟩ rfl rfl) hready (by simp [hp]) ⟨rfl, hpins⟩
  have hend := (Seg.after_accept ⟨hq.1, fun k hk => hq.2 k (by omega)⟩ hseg).trans
    (congrArg _ (hplays.tick_flushed hp hq.1 hseq))
  refine ⟨_, _, m, exec_flush ho hp, hmin, hmax, hend, ?_, rfl, ?_⟩
  · have hevents := hplays.events
    simp only [eventsOf, List.map_append] at hevents ⊢
    rw [hevents]
    simp only [List.append_assoc]
    rfl
  · rw [hlevels, hpins.withDc_low]

end Sys2Proof.Machine
end

section
/-!
SUPPORT. Bus faults and read faults: how `raise` ends a running operation, the statements that raise BUS_TRANSACTION and
MEM_FAULT, and a SEND operation with a bus fault from its accept cycle to the fatal end.
-/

namespace Sys2Proof.Machine

open Sys2Proof

/-! ## Taking an error -/

/-- Which errors are fatal, as R258 says it. -/
theorem isFatal_iff (e : Code) (sent : Bool) :
    isFatal e sent = true ↔ e = .busTransaction ∨ ((e = .memFault ∨ e = .seqFormat) ∧ sent = true) := by
  simp [isFatal]

theorem isFatal_memFault (sent : Bool) : isFatal .memFault sent = sent := by simp [isFatal]

/-- A fatal error first releases the bus when a burst run holds CS (60_exceptions.md R262). -/
theorem raise_eq_cleanupStarted {s : State} {e : Code} (hh : s.seq.csHeld = true) (hf : isFatal e s.seq.sent = true) :
    raise e s = cleanupStarted e s := (if_pos hf).trans (if_pos hh)

/-- Settles O33: an error is fatal or not, and a fatal one finds CS free or held. -/
theorem raiseEndsTheOperation : Obligations.RaiseEndsTheOperation := by
  intro s e op hop he
  rw [← isFatal_iff]
  exact ⟨fun hf => ⟨fun hfree => raise_eq_fatallyEnded hop hfree hf, fun hheld => raise_eq_cleanupStarted hheld hf⟩,
    fun hf => raise_eq_softlyEnded hop he (Bool.eq_false_iff.mpr hf)⟩

/-! ## The statements that raise an error -/

/-- Outside a burst run a transaction that failed raises BUS_TRANSACTION at the end of its phase E (60_exceptions.md R252). -/
theorem advance_of_failedFrame {s : State} {k : Kind} {b : Byte} {r : TxRet} (hst : s.seq.step = .tx k b .e 0 true r) :
    advance s = raise .busTransaction s := by
  simp [advance, hst, txCycle, txReturn]

/-- Inside a burst run it raises BUS_TRANSACTION in the cycle after its `H_0`. -/
theorem advance_of_failedByte {s : State} {k : Kind} {b : Byte} {r : TxRet}
    (hst : s.seq.step = .tx k b (.high 0) 0 true r) (hburst : inBurst k s = true) :
    advance s = raise .busTransaction s := by
  simp [advance, hst, txCycle, txReturn, hburst]

/-- A read that faults raises MEM_FAULT at the end of its latency (60_exceptions.md R256). -/
theorem advance_of_readFault {s : State} {a : Nat} {d : ReadDraw} {r : ReadRet} (hst : s.seq.step = .read a 0 d r)
    (hd : d.fault = true) : advance s = raise .memFault s := by
  simp [advance, hst, readCycle, readAnswer, hd]

/-- Settles O15: the invariant says whether CS is held where the transaction returns. -/
theorem busFaultRaisesBusTransaction : Obligations.BusFaultRaisesBusTransaction := by
  intro s k b op r h hop hoff
  have hop' : s.seq.op ≠ none := by simp [hop]
  rw [h.sequencerCycle_advance hop' hoff]
  refine ⟨fun hst => ?_, fun hst hk hburst => ?_⟩
  · obtain ⟨-, -, hfree⟩ := h.pinsAt hop' hoff hst
    exact congrArg _ ((advance_of_failedFrame hst).trans (raise_eq_fatallyEnded hop hfree rfl))
  · have hin : inBurst k s = true := by simp [inBurst, hk, hburst]
    obtain ⟨-, -, -, hcs, -⟩ := h.txAt hst
    have hheld : s.seq.csHeld = true := (hcs ⟨rfl, rfl⟩).trans hin
    exact congrArg _ ((advance_of_failedByte hst hin).trans (raise_eq_cleanupStarted hheld rfl))

/-- Settles O35: MEM_FAULT is fatal exactly after a transaction has started, as it has wherever a burst run holds CS. -/
theorem readFaultRaisesMemFault : Obligations.ReadFaultRaisesMemFault := by
  intro s a d r op h hop hoff hst hd
  rw [h.sequencerCycle_advance (by simp [hop]) hoff, advance_of_readFault hst hd]
  refine ⟨fun hfree hsent => ?_, fun hsent => ?_, fun hheld => ?_⟩
  · exact congrArg _ (raise_eq_fatallyEnded hop hfree ((isFatal_memFault _).trans hsent))
  · exact congrArg _ (raise_eq_softlyEnded hop (by decide) ((isFatal_memFault _).trans hsent))
  · exact congrArg _ (raise_eq_cleanupStarted hheld ((isFatal_memFault _).trans (h.bus.held hheld).1))

/-! ## A transaction with a bus fault, to the fatal end -/

/-- After a bus fault a phase E follows in both framings, the transaction's own or the cleanup's, and its end is the fatal end
of the operation. -/
theorem advance_lastBit_failed {k : Kind} {b : Byte} {r : TxRet} {s : State}
    (hst : s.seq.step = .tx k b (.high 0) 0 true r) (hcs : s.seq.csHeld = inBurst k s) :
    ∃ g, Countdown g ∧ advance s = setStep (g (halfPeriod s.cfg - 1)) (givenBack s)
      ∧ ∀ {t : State} {op : Byte}, t.seq.op = some op → t.seq.csHeld = false → t.seq.step = g 0 →
        advance t = fatallyEnded op .busTransaction t := by
  cases hb : inBurst k s with
  | false =>
    exact ⟨_, countdown_phaseE k b true r, advance_lastBit_alone hst hb (hcs.trans hb), fun hop hfree ht =>
      (advance_of_failedFrame ht).trans (raise_eq_fatallyEnded hop hfree rfl)⟩
  | true =>
    exact ⟨_, countdown_cleanup .busTransaction,
      (advance_of_failedByte hst hb).trans (raise_eq_cleanupStarted (hcs.trans hb) rfl),
      fun hop _ ht => advance_cleanup_zero ht hop (by decide)⟩

/-- A countdown from the cycle that starts it to the cycle after its last one. -/
theorem Countdown.cycles_past {f : Nat → Step} (hf : Countdown f) {l : Nat} {s t : State} (hr : Running s)
    (hadv : advance s = setStep (f l) t) (ha : Alive t) (hc : t.env.cycle = s.env.cycle)
    (hs : t.env.script = s.env.script) (hq : QuietFor (l + 1 + 1) s) :
    cycles (l + 1 + 1) s = .next (tick (advance (later (l + 1) (setStep (f 0) t)))) := by
  have hcount := hf.cycles_start hr hadv ha hc hs le_rfl (hq.mono (Nat.le_succ _))
  rw [Nat.sub_self] at hcount
  have hlast : Running (later (l + 1) (setStep (f 0) t)) := ⟨ha.op, ha.offer, hf.timed 0, ha.prog⟩
  have hquiet : QuietFor (0 + 1) (later (l + 1) (setStep (f 0) t)) :=
    hq.after le_rfl hs ha.prog (congrArg (· + (l + 1)) hc)
  rw [cycles_add _ 1 _ _ hcount, hlast.cycles_succ hquiet]
  rfl

/-- The cycles after the first one of a transaction whose bus-fault sample is 1, to the fatal end of its operation. -/
theorem cycles_failed (k : Kind) (b : Byte) (r : TxRet) {op : Byte} {s : State} (ha : Alive s) (hop : s.seq.op = some op)
    (hq : QuietFor (18 * halfPeriod s.cfg) s)
    (hf : (inputAt s (s.env.cycle + (17 * halfPeriod s.cfg - 2))).busFault = true) :
    cycles (18 * halfPeriod s.cfg) (atCycle k b r 0 s) =
      .next (tick (fatallyEnded op .busTransaction (later (halfPeriod s.cfg) (givenBack (frameSampled k b r s))))) := by
  have hpos := halfPeriod_pos s.cfg
  have hstep : (frameSampled k b r s).seq.step = .tx k b (.high 0) 0 true r := by rw [← hf]; rfl
  obtain ⟨g, hg, hadv, hfatal⟩ := advance_lastBit_failed hstep rfl
  have hsample : cycles (17 * halfPeriod s.cfg - 2 + 1) (atCycle k b r 0 s) = .next (frameSampled k b r s) :=
    cycles_sampled k b r ha (hq.mono (by omega)) (by omega)
  have hquiet : QuietFor (halfPeriod s.cfg - 1 + 1 + 1) (frameSampled k b r s) :=
    hq.after (m := 17 * halfPeriod s.cfg - 2 + 1) (by omega) rfl ha.prog (Nat.add_assoc ..)
  have hrun : Running (frameSampled k b r s) := ⟨ha.op, ha.offer, nofun, ha.prog⟩
  have hclose := hg.cycles_past (l := halfPeriod s.cfg - 1) hrun hadv ⟨ha.op, ha.offer, ha.prog⟩ rfl rfl hquiet
  rw [show 18 * halfPeriod s.cfg = 17 * halfPeriod s.cfg - 2 + 1 + (halfPeriod s.cfg - 1 + 1 + 1) by omega,
    cycles_add _ _ _ _ hsample, hclose, Nat.sub_add_cancel hpos,
    hfatal (t := later (halfPeriod s.cfg) (setStep (g 0) (givenBack (frameSampled k b r s)))) hop rfl rfl]
  rfl

/-- Settles O14: phase E of the faulty transaction, in both burst settings, ends in the fatal finish. -/
theorem busFaultIsFatal : Obligations.BusFaultIsFatal := by
  intro s b i k h hk hh ho hp hq hf
  obtain rfl : h = halfPeriod s.cfg := hh
  have hpos := halfPeriod_pos s.cfg
  have ha : Alive (noteSent (begin i.opcode b s)) := ⟨nofun, rfl, hq.1⟩
  have hend : endCycle s (txStart k b .send (begin i.opcode b s)) =
      atCycle k b .send 0 (later 1 (noteSent (begin i.opcode b s))) := by
    rw [(endCycle_quiet _ (hq.2 0 (by omega)) hq.1).2, txStart_free rfl, tick_atCycle ha]
  have hsample : s.env.cycle + (17 * halfPeriod s.cfg - 1) = s.env.cycle + 1 + (17 * halfPeriod s.cfg - 2) := by omega
  have hlast : s.env.cycle + 1 + (17 * halfPeriod s.cfg - 2) + 1 + halfPeriod s.cfg =
      s.env.cycle + 18 * halfPeriod s.cfg := by omega
  rw [hsample] at hf
  have hquiet : QuietFor (18 * halfPeriod s.cfg) (later 1 (noteSent (begin i.opcode b s))) :=
    hq.after (m := 1) (by omega) rfl hq.1 rfl
  have hfails := cycles_failed k b .send (op := i.opcode) (ha.later 1) rfl hquiet hf
  refine ⟨_, exec_send hk ho hp, hend ▸ hfails.trans ?_⟩
  simp [tick, nextCycle, active, fatallyEnded, givenBack, idleLines, frameSampled, sampled, phasePins, later, noteSent, begin,
    framePins, emit, hq.1, hsample, hlast]

end Sys2Proof.Machine
end

section
/-!
SUPPORT. What the host sees of an operation's end and does to start another: the interrupt output, and a CMD write while ACTIVE
is 0 and while it is 1.
-/

namespace Sys2Proof.Machine

open Sys2Proof

/-! ## The interrupt output -/

/-- Settles O45: the bits of IRQ read as the stored ones. -/
theorem interruptOutput : Obligations.InterruptOutput := by
  intro s
  obtain ⟨-, -, -, -, -, -, hdone, herr, -⟩ := errAndIrqFields s
  rw [hdone, herr]
  simp [irq, doneIe, errIe, readReg]

/-! ## A CMD write -/

/-- The host's memory writes of a cycle, as the whole state: only host memory and the record of raced bytes can differ. -/
theorem hostMemWrites_eq (ws : List (Word × Byte)) (s : State) : ws.foldl hostMemWrite s = { s with
    mem := (ws.foldl hostMemWrite s).mem
    env := { s.env with raced := (ws.foldl hostMemWrite s).env.raced } } := by
  induction ws generalizing s with
  | nil => rfl
  | cons w ws ih => exact ih (hostMemWrite s w)

/-- The end of a cycle, as the whole state: after the host's access, host memory, the record of raced bytes, the host's program
and the cycle number. -/
theorem endCycle_eq {s u v : State} (hv : hostAccess s u (hostTurn s).1 = v) :
    endCycle s u = { v with
      mem := (endCycle s u).mem
      env := { v.env with
        cycle := v.env.cycle + 1, prog := (hostTurn s).2, raced := (endCycle s u).env.raced } } := by
  have hwrites := hostMemWrites_eq (input s).memWrites v
  rw [endCycle, hv]
  generalize (input s).memWrites.foldl hostMemWrite v = t at hwrites ⊢
  rw [hwrites]
  rfl

/-- Without memory writes of the host in the cycle, the raced bytes stay as long as an operation is active. -/
theorem endCycle_raced {s u v : State} (hv : hostAccess s u (hostTurn s).1 = v) (hm : (input s).memWrites = []) :
    (endCycle s u).env.raced = if active v then v.env.raced else [] := by
  simp [endCycle, hm, hv]

/-- A step in which the host writes to CMD is the sequencer's cycle, the offer or overrun, and the end of the cycle. -/
theorem step_of_cmdWrite {s u : State} {w : Word} (hb : (input s).blkRst = false)
    (hw : (hostTurn s).1 = some (.write 4 0x08 w)) (hu : sequencerCycle s = .next u) :
    step s = .next (endCycle s u) ∧ hostAccess s u (hostTurn s).1 = offerCmd s u w :=
  ⟨step_of_sequencerCycle hb (badAccess_write hw (by decide) (by decide)) hu, hostAccess_write hw u⟩

/-- Settles O7: while ACTIVE is 0 the sequencer rests, so that the write alone acts; while ACTIVE is 1 the write reaches
OVERRUN only. -/
theorem cmdWriteOffersOrOverruns : Obligations.CmdWriteOffersOrOverruns := by
  intro s u w hb hw hu
  obtain ⟨hstep, hacc⟩ := step_of_cmdWrite hb hw hu
  refine ⟨fun hidle hoff => ?_, fun hrun => ?_⟩
  · obtain rfl : s = u := by simpa [sequencerCycle, hoff, hidle] using hu
    have hoffer : offerCmd s s w = { s with
        seq := { s.seq with op := some (w.extractLsb' 0 8), offer := some w, step := .idle } } := by
      rw [offerCmd, hidle]; rfl
    have hv := hacc.trans hoffer
    obtain ⟨-, -, hactive, -, -, -, -, hop, -⟩ := statusFields (endCycle s s)
    rw [endCycle_seq, hv] at hactive hop
    exact ⟨_, hstep, endCycle_eq hv, fun hm => ⟨endCycle_mem hm s, endCycle_raced hv hm⟩, hactive, hop⟩
  · have hover : offerCmd s u w = { u with stat := { u.stat with overrun := true } } := by rw [offerCmd, hrun]; rfl
    have hv := hacc.trans hover
    refine ⟨_, hstep, endCycle_eq hv, fun hm => ⟨endCycle_mem hm u, (endCycle_raced hv hm).trans ?_⟩⟩
    cases hop : u.seq.op <;> simp [active, hop]

end Sys2Proof.Machine
end

section
/-!
SUPPORT. Around a running operation: a cycle without an offered word, block reset, and how little of what the host does in a
cycle reaches the operation in that cycle (70_reset_and_hazards.md R290, R292, R295).
-/

namespace Sys2Proof.Machine

open Sys2Proof

/-! ## A cycle without an offered word -/

theorem active_iff (s : State) : active s = true ↔ s.seq.op ≠ none := Option.isSome_iff_ne_none

/-- With no operation active the sequencer does nothing. -/
theorem sequencerCycle_rest {s : State} (hop : s.seq.op = none) (hoff : s.seq.offer = none) :
    sequencerCycle s = .next s := by
  simp [sequencerCycle, hoff, active, hop]

/-- With an operation at a statement the sequencer goes on with it. -/
theorem sequencerCycle_running {s : State} (hop : s.seq.op ≠ none) (hoff : s.seq.offer = none)
    (hst : s.seq.step ≠ .idle) : sequencerCycle s = .next (advance s) := by
  simp [sequencerCycle, hoff, (active_iff s).mpr hop, hst]

/-- Settles O6: without an offered word the sequencer rests, or goes on with the statement at the cursor. -/
theorem stepWithoutOffer : Obligations.StepWithoutOffer := fun _ hb hbad hoff =>
  ⟨fun hop => step_of_sequencerCycle hb hbad (sequencerCycle_rest hop hoff),
    fun hop hst => step_of_sequencerCycle hb hbad (sequencerCycle_running hop hoff hst)⟩

/-! ## Block reset -/

/-- STATUS reads 0 while the sequencer and the stored bits are at their reset values. -/
theorem statusWord_of_reset {s : State} (hseq : s.seq = Seq.reset) (hstat : s.stat = Stat.reset) : statusWord s = 0 := by
  have hbusy : busyIn s = false := by rw [busyIn, hstat]; rfl
  simp only [statusWord, active, activeOp, hbusy, hseq, hstat]
  rfl

/-- Settles O51: block reset asks neither the sequencer nor the host, and in the state it leads to no pad is driven. -/
theorem blockResetAbandonsEverything : Obligations.BlockResetAbandonsEverything := fun s hb =>
  ⟨blockReset s, step_of_blkRst hb, rfl, rfl, rfl, rfl, rfl, rfl, rfl, rfl, statusWord_of_reset rfl rfl,
    padOe_unconfigured rfl⟩

/-! ## What the host does in a cycle and what the operation sees of it -/

theorem initBody_build (s : State) : (initBody s).build = s.build := by
  unfold initBody
  split
  · simp
  · exact (steady_raise _ s).build

theorem accept_build (i : Instr) (s : State) : (accept i (acceptBody i) s).build = s.build := by
  obtain ⟨-, he⟩ | ⟨-, he⟩ := accept_cases i (acceptBody i) s <;> rw [he]
  · by_cases hi : i = .init
    · subst hi
      exact initBody_build _
    · exact (steady_acceptBody i hi _).build
  · rfl

/-- The sequencer changes no build parameter (00_scope.md R8). -/
theorem sequencerCycle_build {s u : State} (h : sequencerCycle s = .next u) : u.build = s.build := by
  obtain ⟨w, i, -, -, rfl⟩ | ⟨w, -, rfl⟩ | ⟨-, -, rfl⟩ | ⟨-, -, rfl⟩ := sequencerCycle_cases h
  · exact accept_build i s
  · rfl
  · rfl
  · exact (steady_advance s).build

/-- Only the accept cycle takes a snapshot (10_state.md R51). -/
theorem sequencerCycle_snap {s u : State} (h : sequencerCycle s = .next u) (hoff : s.seq.offer = none) :
    u.snap = s.snap := by
  obtain ⟨w, i, hw, -, -⟩ | ⟨w, hw, -⟩ | ⟨-, -, rfl⟩ | ⟨-, -, rfl⟩ := sequencerCycle_cases h
  · exact absurd (hw.symm.trans hoff) nofun
  · exact absurd (hw.symm.trans hoff) nofun
  · rfl
  · exact (steady_advance s).snap

/-- While ACTIVE is 1 the host leaves the sequencer's state alone. -/
theorem endCycle_seq_of_active {s : State} (ha : active s = true) (u : State) : (endCycle s u).seq = u.seq := by
  rw [endCycle_seq]
  exact (hostAccess_seq s u _).resolve_right fun h => absurd (ha.symm.trans h.1) nofun

/-- Settles O41: while ACTIVE is 1 the host's side of a cycle leaves alone all that the operation consists of, and the
sequencer takes a snapshot in an accept cycle only. -/
theorem hostCannotDisturbTheCycleInWhichItActs : Obligations.HostCannotDisturbTheCycleInWhichItActs := by
  intro s t u ha hb hu hstep
  obtain ⟨v, hv, rfl⟩ := endCycle_of_step hb hstep
  obtain rfl : u = v := Host.Outcome.next.inj (hu.symm.trans hv)
  have hframe := endCycle_frame s u
  exact ⟨endCycle_seq_of_active ha u, hframe.snap, hframe.cfg, hframe.pins, hframe.panel, hframe.configured, hframe.fatal,
    hframe.code, hframe.trace, hframe.build.trans (sequencerCycle_build hu),
    fun hoff => hframe.snap.trans (sequencerCycle_snap hu hoff)⟩

end Sys2Proof.Machine
end

section
/-!
SUPPORT. The end of an operation: whatever the sequencer does in a cycle, it emits a DONE only in the one `Finish` that ends
the operation, and the host cannot take that end's interrupt bits away in the same cycle (60_exceptions.md R263, R268,
70_reset_and_hazards.md R305).
-/

namespace Sys2Proof.Machine

open Sys2Proof

/-! ## A cycle finishes its operation, or lets it go on -/

/-- `v` stands in the same cycle as `s`, before the operation's finish: `s.op` and ERR.CODE are as they were, and no DONE has
been emitted. Unlike in `Within`, FATAL may have changed meanwhile, by INIT or by a fatal error. -/
structure Unfinished (s v : State) : Prop where
  op : v.seq.op = s.seq.op
  code : v.stat.code = s.stat.code
  cycle : v.env.cycle = s.env.cycle
  trace : ∃ evs : List Event, v.env.trace = s.env.trace ++ evs.map (fun e => (s.env.cycle, e))
    ∧ ∀ e ∈ evs, ∀ o c, e ≠ .done o c

theorem Within.unfinished {s v : State} (h : Within s v) : Unfinished s v := ⟨h.op, h.code, h.cycle, h.trace⟩

/-- The offer has put the word's OP byte into `s.op`, where the acceptance puts it again. -/
theorem unfinished_begin {s : State} {op : Byte} (hop : s.seq.op = some op) (arg : Byte) : Unfinished s (begin op arg s) :=
  ⟨hop.symm, rfl, rfl, [], by simp, by simp⟩

theorem Unfinished.after_eq {s t v : State} (k : Unfinished t v) (hop : t.seq.op = s.seq.op)
    (hcode : t.stat.code = s.stat.code) (henv : t.env = s.env) : Unfinished s v :=
  ⟨k.op.trans hop, k.code.trans hcode, by rw [k.cycle, henv], henv ▸ k.trace⟩

theorem Unfinished.setPanel {s v : State} (h : Unfinished s v) (p : PanelState) : Unfinished s (setPanel p v) := by
  have hpanel := within_setPanel p v
  obtain ⟨as, has, hda⟩ := h.trace
  obtain ⟨bs, hbs, hdb⟩ := hpanel.trace
  refine ⟨hpanel.op.trans h.op, hpanel.code.trans h.code, hpanel.cycle.trans h.cycle, as ++ bs,
    by rw [hbs, has, h.cycle]; simp, fun e he => ?_⟩
  exact (List.mem_append.mp he).elim (hda e) (hdb e)

/-- From `s` the cycle has come to `u` by the finish of the active operation, or without a finish. -/
inductive FinishesOnce (s u : State) : Prop where
  | finishes (op : Byte) (c : Code) (v : State) (hop : s.seq.op = some op) (h : Unfinished s v) (hu : u = finish c v)
  | goesOn (h : Unfinished s u)

theorem FinishesOnce.after_eq {s t u : State} (k : FinishesOnce t u) (hop : t.seq.op = s.seq.op)
    (hcode : t.stat.code = s.stat.code) (henv : t.env = s.env) : FinishesOnce s u := by
  cases k with
  | finishes op c v hop' h hu => exact .finishes op c v (hop ▸ hop') (h.after_eq hop hcode henv) hu
  | goesOn h => exact .goesOn (h.after_eq hop hcode henv)

/-- The fatal end of an error is a finish too. -/
theorem CycleEnd.finishesOnce {s u : State} (k : CycleEnd s u) {op : Byte} (hop : s.seq.op = some op) :
    FinishesOnce s u := by
  cases k with
  | goesOn h => exact .goesOn h.unfinished
  | finishes c v h hu => exact .finishes op c v hop h.unfinished hu
  | fails e v h _ _ hu =>
    have hfatal : Unfinished s { v with stat := { v.stat with fatal := true } } := ⟨h.op, h.code, h.cycle, h.trace⟩
    exact .finishes op e _ hop (hfatal.setPanel .uninitialized) hu

/-- INIT finishes in its accept cycle, with an error or without (41_panel_sequencer.md R171). -/
theorem finishesOnce_initBody {s : State} {op : Byte} (hop : s.seq.op = some op) : FinishesOnce s (initBody s) := by
  unfold initBody
  split
  · have hlatched : Unfinished s { s with
        cfg := configOf s.regs, pins := initPins, stat := { s.stat with configured := true, fatal := false } } :=
      ⟨rfl, rfl, rfl, [], by simp, by simp⟩
    exact .finishes op .none _ hop (hlatched.setPanel .uninitialized) rfl
  · exact (ends_raise (by decide) s).finishesOnce hop

/-- An acceptance runs the operation's first statements, or finishes it at once. -/
theorem finishesOnce_accept {i : Instr} {s : State} (hop : s.seq.op = some i.opcode) :
    FinishesOnce s (accept i (acceptBody i) s) := by
  obtain ⟨-, he⟩ | ⟨-, he⟩ := accept_cases i (acceptBody i) s <;> rw [he]
  · refine FinishesOnce.after_eq (t := begin i.opcode i.arg s) ?_ hop.symm rfl rfl
    by_cases hi : i = .init
    · subst hi
      exact finishesOnce_initBody rfl
    · exact (ends_acceptBody hi _).finishesOnce rfl
  · exact .finishes _ _ _ hop (unfinished_begin hop i.arg) rfl

/-- Whatever the sequencer does in a cycle, it finishes the active operation at most once, and last. -/
theorem Inv.finishesOnce {s u : State} (h : Inv s) (hu : sequencerCycle s = .next u) : FinishesOnce s u := by
  obtain ⟨w, i, hw, hi, rfl⟩ | ⟨w, hw, rfl⟩ | ⟨-, -, rfl⟩ | ⟨-, hop, rfl⟩ := sequencerCycle_cases hu
  · have hop : s.seq.op = some (cmdOp w) := (h.control.offered w hw).1
    exact finishesOnce_accept ((fields_of_decodeWord hi).2.1 ▸ hop)
  · have hop : s.seq.op = some (cmdOp w) := (h.control.offered w hw).1
    exact .finishes _ _ _ hop (unfinished_begin hop (cmdArg w)) rfl
  · exact .goesOn (Within.refl _).unfinished
  · obtain ⟨op, hop⟩ := Option.ne_none_iff_exists'.mp hop
    exact h.cycleEnd_advance.finishesOnce hop

/-! ## The interrupt bits of a finish -/

/-- The host reaches the bits of IRQ by a write to IRQ only. -/
theorem hostAccess_irq_cases (s u : State) (a : Option Access) :
    ((hostAccess s u a).stat.irqDone = u.stat.irqDone ∧ (hostAccess s u a).stat.irqErr = u.stat.irqErr)
    ∨ ∃ v, (hostAccess s u a).stat = writeIrq s u v := by
  obtain _ | ⟨_ | ⟨_, off, v⟩⟩ := a
  · exact .inl ⟨rfl, rfl⟩
  · exact .inl ⟨rfl, rfl⟩
  · show (_ ∧ _) ∨ ∃ v', (writeOffset s u off v).stat = writeIrq s u v'
    rw [show hostAccess s u (some (.write _ off v)) = writeOffset s u off v from rfl]
    obtain ⟨-, h⟩ | ⟨-, h⟩ | ⟨-, h⟩ | h := writeOffset_cases s u off v <;> rw [h]
    · left
      unfold offerCmd
      split <;> exact ⟨rfl, rfl⟩
    · exact .inl ⟨rfl, rfl⟩
    · exact .inr ⟨v, rfl⟩
    · exact .inl ⟨rfl, rfl⟩

/-- In the cycle of a finish its set wins over the host's clear (60_exceptions.md R268). -/
theorem endCycle_irq_of_finishedIn {s u : State} (hfin : finishedIn s u = true) (hdone : u.stat.irqDone = true)
    (herr : u.stat.code ≠ .none → u.stat.irqErr = true) :
    (endCycle s u).stat.irqDone = true ∧ (u.stat.code ≠ .none → (endCycle s u).stat.irqErr = true) := by
  rw [endCycle_stat]
  obtain ⟨hd, he⟩ | ⟨v, hv⟩ := hostAccess_irq_cases s u (hostTurn s).1
  · rw [hd, he]
    exact ⟨hdone, herr⟩
  · rw [hv]
    exact ⟨by simp [writeIrq, w1c, hfin], fun hc => by simp [writeIrq, w1c, hfin, hc]⟩

/-- Settles O36: the sequencer finishes the active operation at most once in a cycle, as the last it does there, and of that
end the host's side of the cycle takes nothing away. -/
theorem operationEndsOnlyByFinishing : Obligations.OperationEndsOnlyByFinishing := by
  intro s t hinv hb hstep
  obtain ⟨u, hu, rfl⟩ := endCycle_of_step hb hstep
  have hframe := endCycle_frame s u
  cases hinv.finishesOnce hu with
  | finishes op c v hop h hfin =>
    subst hfin
    have ha : active s = true := (active_iff s).mpr (by simp [hop])
    obtain ⟨pre, htrace, hnone⟩ := h.trace
    obtain ⟨hdone, herr⟩ := endCycle_irq_of_finishedIn (s := s) (u := finish c v) (by simp [finishedIn, hop]) rfl
      fun hc => by simpa using .inr hc
    have hend : active (endCycle s (finish c v)) = false := by
      rw [active, endCycle_seq_of_active ha]
      rfl
    rw [hframe.trace, hframe.code]
    refine ⟨pre ++ [.done op c], ?_, .inl ⟨ha, hend, hdone, herr, pre, op, hop, rfl, hnone⟩⟩
    simp [htrace, h.op, hop, h.cycle]
  | goesOn h =>
    obtain ⟨evs, htrace, hnone⟩ := h.trace
    rw [hframe.trace, hframe.code]
    exact ⟨evs, htrace, .inr ⟨fun ha => by rw [endCycle_seq_of_active ha, h.op], h.code, hnone⟩⟩

end Sys2Proof.Machine
end

section
/-!
SUPPORT. A busy-poll without a timeout while BUSY is 1: no cycle of it ends it, whatever the host does
(70_reset_and_hazards.md R302).
-/

namespace Sys2Proof.Machine

open Sys2Proof

/-! ## The clock and the script -/

theorem hostAccess_clock (s u : State) (a : Option Access) :
    (hostAccess s u a).env.cycle = u.env.cycle ∧ (hostAccess s u a).env.script = u.env.script := by
  obtain _ | ⟨_ | ⟨_, off, v⟩⟩ := a
  · exact ⟨rfl, rfl⟩
  · exact ⟨rfl, rfl⟩
  · show (writeOffset s u off v).env.cycle = _ ∧ (writeOffset s u off v).env.script = _
    obtain ⟨-, h⟩ | ⟨-, h⟩ | ⟨-, h⟩ | h := writeOffset_cases s u off v <;> rw [h]
    · unfold offerCmd
      split <;> exact ⟨rfl, rfl⟩
    all_goals exact ⟨rfl, rfl⟩

/-- The end of a cycle counts it, and leaves the script of the outside world alone. -/
theorem endCycle_clock (s u : State) :
    (endCycle s u).env.cycle = u.env.cycle + 1 ∧ (endCycle s u).env.script = u.env.script := by
  have hmem := endCycle_memOnly s u
  obtain ⟨hcycle, hscript⟩ := hostAccess_clock s u (hostTurn s).1
  exact ⟨congrArg (· + 1) (hmem.cycle.trans hcycle), hmem.script.trans hscript⟩

/-! ## One cycle of the poll -/

/-- The operation waits in a busy-poll without a timeout. -/
structure WaitsForever (r : PollRet) (s : State) : Prop where
  inv : Inv s
  op : s.seq.op ≠ none
  offer : s.seq.offer = none
  cursor : s.seq.step = .delay (.poll r)
  timeout : s.snap.timeout = 0

/-- While BUSY is 1 the poll counts its Delay down, or starts it again after a sample. -/
theorem advance_poll_cases {s : State} {r : PollRet} (hst : s.seq.step = .delay (.poll r)) (ht : s.snap.timeout = 0)
    (hbusy : busyLevel s.cfg (input s).pads = true) :
    advance s = { s with seq := { s.seq with timer := s.seq.timer - 1 } }
    ∨ advance s = delayStart (pollMs s.build) (.poll r) (emit (.busySample true)
        { s with seq := { s.seq with waited := s.seq.waited + pollMs s.build, polls := s.seq.polls + 1 } }) := by
  have hadv : advance s = delayCycle (pollAgain r (afterPoll r)) s := by rw [advance, hst]; rfl
  rw [hadv, delayCycle]
  split
  · exact .inr (pollSample_busy (s := { s with seq := { s.seq with waited := s.seq.waited + pollMs s.build } }) r _ hbusy
      (.inl ht))
  · exact .inl rfl

/-- So it leaves the operation, the cursor and ERR.CODE as they were. -/
theorem advance_poll_stays {s : State} {r : PollRet} (hst : s.seq.step = .delay (.poll r)) (ht : s.snap.timeout = 0)
    (hbusy : busyLevel s.cfg (input s).pads = true) :
    (advance s).seq.op = s.seq.op ∧ (advance s).seq.step = .delay (.poll r) ∧ (advance s).stat.code = s.stat.code := by
  obtain h | h := advance_poll_cases hst ht hbusy <;> rw [h]
  · exact ⟨rfl, hst, rfl⟩
  · exact ⟨rfl, rfl, rfl⟩

namespace WaitsForever

variable {r : PollRet} {s t : State}

/-- What a step with BUSY at 1 is made of. -/
theorem step_eq (h : WaitsForever r s) (hb : (input s).blkRst = false) (hstep : step s = .next t) :
    t = endCycle s (advance s) := by
  obtain ⟨u, hu, rfl⟩ := endCycle_of_step hb hstep
  rw [h.inv.sequencerCycle_advance h.op h.offer] at hu
  cases hu
  rfl

/-- A step with BUSY at 1 leaves the operation waiting, the same one. -/
theorem next (h : WaitsForever r s) (hb : (input s).blkRst = false) (hbusy : busyLevel s.cfg (input s).pads = true)
    (hstep : step s = .next t) :
    WaitsForever r t ∧ t.seq.op = s.seq.op ∧ t.stat.code = s.stat.code := by
  have hinv : Inv t := everyStepKeepsTheInvariant s t h.inv hstep
  obtain rfl := h.step_eq hb hstep
  have hsteady := steady_advance s
  have hframe := endCycle_frame s (advance s)
  have hseq : (endCycle s (advance s)).seq = (advance s).seq := endCycle_seq_of_active ((active_iff s).mpr h.op) _
  obtain ⟨hop, hst, hcode⟩ := advance_poll_stays h.cursor h.timeout hbusy
  refine ⟨⟨hinv, ?_, ?_, ?_, ?_⟩, ?_, hframe.code.trans hcode⟩
  · rw [hseq, hop]
    exact h.op
  · rw [hseq, hsteady.offer]
    exact h.offer
  · rw [hseq, hst]
  · rw [hframe.snap, hsteady.snap]
    exact h.timeout
  · rw [hseq, hop]

/-- A step counts one cycle, and leaves the configuration and what the outside world does in every cycle alone. -/
theorem next_world (h : WaitsForever r s) (hb : (input s).blkRst = false) (hstep : step s = .next t) :
    t.env.cycle = s.env.cycle + 1 ∧ t.cfg = s.cfg ∧ ∀ c, inputAt t c = inputAt s c := by
  obtain rfl := h.step_eq hb hstep
  have hsteady := steady_advance s
  obtain ⟨hcycle, hscript⟩ := endCycle_clock s (advance s)
  refine ⟨by rw [hcycle, hsteady.cycle], (endCycle_frame s _).cfg.trans hsteady.cfg, fun c => ?_⟩
  rw [inputAt, hscript, hsteady.script, ← inputAt]

/-- `n` cycles with BUSY at 1 leave the operation waiting. -/
theorem cycles_stay {n : Nat} (h : WaitsForever r s)
    (hin : ∀ k < n, (inputAt s (s.env.cycle + k)).blkRst = false
      ∧ busyLevel s.cfg (inputAt s (s.env.cycle + k)).pads = true)
    (hrun : cycles n s = .next t) : WaitsForever r t ∧ t.seq.op = s.seq.op ∧ t.stat.code = s.stat.code := by
  induction n generalizing s with
  | zero =>
    cases hrun
    exact ⟨h, rfl, rfl⟩
  | succ n ih =>
    obtain ⟨hb, hbusy⟩ := hin 0 n.succ_pos
    rw [cycles] at hrun
    split at hrun
    case h_1 v hstep =>
      obtain ⟨hv, hop, hcode⟩ := h.next hb hbusy hstep
      obtain ⟨hcycle, hcfg, hworld⟩ := h.next_world hb hstep
      have hin' : ∀ k < n, (inputAt v (v.env.cycle + k)).blkRst = false
          ∧ busyLevel v.cfg (inputAt v (v.env.cycle + k)).pads = true := fun k hk => by
        rw [hcycle, hcfg, hworld, Nat.add_assoc, Nat.add_comm 1 k]
        exact hin (k + 1) (Nat.succ_lt_succ hk)
      obtain ⟨ht, hop', hcode'⟩ := ih hv hin' hrun
      exact ⟨ht, hop'.trans hop, hcode'.trans hcode⟩
    all_goals cases hrun

/-- In a busy-poll PanelState is Busy. -/
theorem panel (h : WaitsForever r s) : s.stat.panel = .busy := by
  have hpanel := h.inv.panelAt h.cursor
  cases r with
  | waitIdle => exact hpanel.1
  | play => exact hpanel.1
  | flush => exact hpanel.1

end WaitsForever

/-- Settles O21: each cycle with BUSY at 1 leaves the operation waiting in its poll, in which the invariant has PanelState
Busy. -/
theorem unboundedWaitStaysStuck : Obligations.UnboundedWaitStaysStuck := by
  intro n s u r hinv hop hoff hst ht hin hrun
  obtain ⟨hu, hop', hcode⟩ := WaitsForever.cycles_stay ⟨hinv, hop, hoff, hst, ht⟩ hin hrun
  exact ⟨hop', hu.cursor, hu.panel, hcode⟩

end Sys2Proof.Machine
end
